-- ==== Sys2Proof/Word.lean ====
section
/-!
DEFINITION. The word types of the 8406: what the manual treats as bits, and the bounded numbers that
name its ports, queues and buffers.
-/

namespace Sys2Proof

/-- One byte of a frame or payload. -/
abbrev Byte := BitVec 8

/-- An 8-bit address on the trunk: 0 broadcast, 1–239 stations, 240 the bridge, 241–255 reserved (Table 0-3). -/
abbrev DeskCode := BitVec 8

/-- A 32-bit station ID of the star side (Table 0-3). -/
abbrev StationId := BitVec 32

/-- A cumulative counter: 32 bits, saturating (R28, R41, R67, R107, R168, R190, R199). -/
abbrev Counter := BitVec 32

/-- Segments T0–T3. -/
abbrev SegNo := Fin 4

/-- Star ports S0–S7. -/
abbrev StarNo := Fin 8

/-- The twelve network ports in the numbering of Table 0-2: 0–3 are T0–T3, 4–11 are S0–S7. -/
abbrev PortNo := Fin 12

/-- Printer queues: index `q` stands for queue `q + 1` of the manual. -/
abbrev QueueNo := Fin 6

/-- Frame buffers. They are not numbered in anything a station can see (Table 0-2). -/
abbrev BufId := Fin 48

/-- The port number of a segment (Table 0-2). -/
def portOfSeg (t : SegNo) : PortNo := ⟨t.val, by omega⟩

/-- The port number of a star port (Table 0-2). -/
def portOfStar (p : StarNo) : PortNo := ⟨p.val + 4, by omega⟩

end Sys2Proof
end

