-- ==== Sys2Proof/Syntax.lean ====
section
/-!
DEFINITION. The commands of the block: one constructor per row of spec/opcode_table.json, in the table's order.
The operands are what the world outside tells the part at that step: the segment or port concerned, the line cells or
bytes received, and `dt`, the measurement ticks of 0.25 µs since the last command that carried time (log entry 2).
A print message or control request carries no operand of its own: it is the entry at the head of its input queue,
where a frame put it (R145, R178; log entry 3).
-/

namespace Sys2Proof

/-- The blocks that a 1 ms tick reaches in one command: the Time Base itself, the segment channels (R4, R12), the Presence
Monitor (R101) and the Supervision Unit (R119). Each takes its tick as an event of its own, so a command may carry the
tick to some of them and another command to the rest (R208; log entry 47). -/
structure MsBlocks where
  timeBase : Bool
  channels : Bool
  presence : Bool
  supervision : Bool
  deriving DecidableEq, Repr

/-- What a 1 ms tick finds: bit `t` of `senses` is the terminator sense of segment `t`, 1 for UNTERMINATED (R4), `edges` are
the transitions on each segment since its last report (R11), and `reach` the blocks that take this tick. -/
structure MsTick where
  senses : BitVec 4
  edges : Vector Nat 4
  reach : MsBlocks
  deriving DecidableEq, Repr

/-- What a request that may open a relay in the middle of a burst finds on the cable: the measurement ticks since the last
command that carried time (log entry 2), and the transitions on each segment since its last report (R11). -/
structure Elapsed where
  ticks : Nat
  edges : Vector Nat 4
  deriving DecidableEq, Repr

/-- The commands, one per row of the table of operations and events. -/
inductive Instr where
  /-- BURST_RISE (R10): foreign carrier rises on segment `t`. -/
  | burstRise (t : SegNo) (dt : Nat)
  /-- HEADER_EVENT (R7, R23): `cells` are the line-code bits recovered on `t` since the rise or the last report. -/
  | headerEvent (t : SegNo) (dt : Nat) (cells : List Bool)
  /-- BURST_FALL (R13): 1 µs has passed on `t` without a foreign transition; `edges` and `cells` are the transitions and
  the bits since the last report. -/
  | burstFall (t : SegNo) (dt : Nat) (edges : Nat) (cells : List Bool)
  /-- JABBER_CUT (R15): the carrier of the burst on `t` reaches its jabber limit. -/
  | jabberCut (t : SegNo) (edges : Nat)
  /-- CONTINUATION_FALL (R15): the carrier that went on after a jabber cut falls. -/
  | continuationFall (t : SegNo) (dt : Nat)
  /-- LONG_QUIET (R12): the 1 ms tick that brings the quiet-time count of `t` to 17. -/
  | longQuiet (t : SegNo)
  /-- TERMINATOR_EDGE (R4): the second consecutive terminator sample of `t` that differs from the recorded level, at a
  1 ms tick, whose ONE_MILLISECOND_TICK brings the transitions up to it (log entry 41). -/
  | terminatorEdge (t : SegNo)
  /-- TRANSMIT_CLAIM (R24). -/
  | transmitClaim (dt : Nat)
  /-- TRANSMIT_COMPLETION (R26). -/
  | transmitCompletion (dt : Nat)
  /-- LINK_UP (R31). -/
  | linkUp (p : StarNo)
  /-- LINK_DOWN (R32). -/
  | linkDown (p : StarNo)
  /-- FRAME_START (R34). -/
  | frameStart (p : StarNo)
  /-- FRAME_END (R36): `bytes` are the whole bytes received on `p` since the start or the last report. -/
  | frameEnd (p : StarNo) (bytes : List Byte)
  /-- SEND_START (R39). -/
  | sendStart (p : StarNo)
  /-- SEND_COMPLETION (R39). -/
  | sendCompletion (p : StarNo)
  /-- FOLD (R120): the expiry of the period timer, at a 1 ms tick, whose ONE_MILLISECOND_TICK brings the transitions up to
  it (log entry 41). -/
  | fold
  /-- PRESENCE_QUERY (R97): the 1 s tick that brings entry `c` to its query lead. -/
  | presenceQuery (c : DeskCode)
  /-- AGING (R99): the 1 s tick that brings LEARNED entry `c` to 0. -/
  | aging (c : DeskCode)
  /-- BECOMES_ABSENT (R100): the 1 s tick that brings FIXED entry `c` to 0. -/
  | becomesAbsent (c : DeskCode)
  /-- QUARANTINE_END (R106): the 1 s tick that brings the suspension remaining of `c` to 0. -/
  | quarantineEnd (c : DeskCode)
  /-- IDLE_EXPIRY (R158): the 1 s tick that brings the idle remaining of queue `q` to 0. -/
  | idleExpiry (q : QueueNo)
  /-- FORM_HOLD_REACHED (R143): the 1 s tick that brings the head ticket of `q` to the form-hold limit. -/
  | formHoldReached (q : QueueNo)
  /-- ALERT_SEND (R196). -/
  | alertSend
  /-- OPEN (R146): the Print Arbiter takes an OPEN from the head of the print input queue. -/
  | printOpen
  /-- DATA (R148). -/
  | printData
  /-- CLOSE (R151). -/
  | printClose
  /-- CANCEL (R152). -/
  | printCancel
  /-- STATUS (R150). -/
  | printStatus
  /-- MALFORMED (R145). -/
  | printMalformed
  /-- STATUS_READ (R188): the Control Unit takes a STATUS_READ from the head of the control input queue. -/
  | statusRead
  /-- SEGMENT_READ (R28): `edges` are the transitions on the segment read since its last report. -/
  | segmentRead (dt : Nat) (edges : Nat)
  /-- PORT_READ (R41): `bytes` are the whole bytes received on the port read since its last report. -/
  | portRead (bytes : List Byte)
  /-- COUNTERS_READ (R189). -/
  | countersRead
  /-- DIRECTORY_READ (R92). -/
  | directoryRead
  /-- DIRECTORY_FIND (R92). -/
  | directoryFind
  /-- QUEUE_READ (R167). -/
  | queueRead
  /-- ACCOUNT_READ (R176). -/
  | accountRead
  /-- ENTRY_FIX (R82). -/
  | entryFix
  /-- ENTRY_RELEASE (R88). -/
  | entryRelease
  /-- ENTRY_SUSPEND (R89). -/
  | entrySuspend
  /-- ENTRY_RESUME (R90). -/
  | entryResume
  /-- CLEAR_LEARNED (R91). -/
  | clearLearned
  /-- SEGMENT_SET (R131). -/
  | segmentSet
  /-- SEGMENT_FORCE_ISOLATE (R133). -/
  | segmentForceIsolate (dt : Elapsed)
  /-- SEGMENT_FORCE_READMIT (R134). -/
  | segmentForceReadmit (dt : Nat)
  /-- SEGMENT_FORCE_EXEMPT_ON (R135). -/
  | segmentForceExemptOn
  /-- SEGMENT_FORCE_EXEMPT_OFF (R135). -/
  | segmentForceExemptOff
  /-- SEGMENT_FORCE_CLEAR (R136). -/
  | segmentForceClear
  /-- PORT_ENABLE (R137). -/
  | portEnable (dt : Elapsed)
  /-- PRINTER_SET (R162). -/
  | printerSet
  /-- FORM_LOADED (R164). -/
  | formLoaded
  /-- QUEUE_PURGE (R165). -/
  | queuePurge
  /-- TICKET_CANCEL (R166). -/
  | ticketCancel
  /-- ACCOUNT_SNAPSHOT (R174). -/
  | accountSnapshot
  /-- ALERT_SET (R193). -/
  | alertSet
  /-- ALERT_CLEAR (R197). -/
  | alertClear
  /-- OFFICE_PLAN (R184). -/
  | officePlan
  /-- TRUNK_PLAN (R185). -/
  | trunkPlan (dt : Elapsed)
  /-- SAVE (R186). -/
  | save
  /-- SAVE_COMPLETION (R187): the store's report, `verified` or failed. -/
  | saveCompletion (verified : Bool)
  /-- RESTART_KEEP (R207). -/
  | restartKeep
  /-- RESTART_FACTORY (R207). -/
  | restartFactory
  /-- CLEAR_CAUSES (R201). -/
  | clearCauses
  /-- UNKNOWN_OPERATION (R180). -/
  | unknownOperation
  /-- POWER_ON (R200). -/
  | powerOn
  /-- PANEL_RESET_ASSERTED (R200). -/
  | panelResetAsserted
  /-- PANEL_RESTART (R200): the panel reset line is released. -/
  | panelRestart
  /-- ONE_SECOND_TICK (R208), as one block takes it: each takes the tick by a command of its own (log entry 47). -/
  | oneSecondTick
  /-- ONE_MILLISECOND_TICK (R101, R208), as the blocks that `tick` reaches take it. -/
  | oneMillisecondTick (tick : MsTick)
  /-- CLOSING_CARRIER_FALL (R3): carrier that was there when the relay of `t` closed falls. -/
  | closingCarrierFall (t : SegNo) (dt : Nat)
  /-- SUPPLY_LOSS (R187): the supply falls; `duringErase` tells that the erase of a factory restart was still running. -/
  | supplyLoss (duringErase : Bool)
  deriving DecidableEq, Repr

end Sys2Proof
end

