-- ==== Sys2Proof/WellFormed.lean ====
section
/-!
DEFINITION. What a command's operands must be for the step it names to be one that the manual knows: desk codes that an
entry can have, no more line bits than the longest burst holds, and a 1 ms tick that reaches some block. The operands of
every other command are bounded by their types.
-/

namespace Sys2Proof

/-- A desk code that a directory entry can have, 1–239 (R68). -/
def WellFormed.desk (c : DeskCode) : Bool := decide (1 ≤ c.toNat) && decide (c.toNat ≤ 239)

/-- The most line bits a burst holds: 2 Mbit/s up to the highest jabber limit of 60000 ticks of 0.25 µs (Table 6-5). -/
def WellFormed.maxCells : Nat := 30000

/-- A report of line bits that a burst can have. -/
def WellFormed.cells (l : List Bool) : Bool := decide (l.length ≤ WellFormed.maxCells)

/-- A 1 ms tick that reaches some block. -/
def WellFormed.msBlocks (b : MsBlocks) : Bool := b.timeBase || b.channels || b.presence || b.supervision

/-- A command is well formed. -/
def WellFormed (i : Instr) : Bool :=
  match i with
  | .burstRise _ _ => true
  | .headerEvent _ _ cells => WellFormed.cells cells
  | .burstFall _ _ _ cells => WellFormed.cells cells
  | .jabberCut _ _ => true
  | .continuationFall _ _ => true
  | .longQuiet _ => true
  | .terminatorEdge _ => true
  | .transmitClaim _ => true
  | .transmitCompletion _ => true
  | .linkUp _ => true
  | .linkDown _ => true
  | .frameStart _ => true
  | .frameEnd _ _ => true
  | .sendStart _ => true
  | .sendCompletion _ => true
  | .fold => true
  | .presenceQuery c => WellFormed.desk c
  | .aging c => WellFormed.desk c
  | .becomesAbsent c => WellFormed.desk c
  | .quarantineEnd c => WellFormed.desk c
  | .idleExpiry _ => true
  | .formHoldReached _ => true
  | .alertSend => true
  | .printOpen => true
  | .printData => true
  | .printClose => true
  | .printCancel => true
  | .printStatus => true
  | .printMalformed => true
  | .statusRead => true
  | .segmentRead _ _ => true
  | .portRead _ => true
  | .countersRead => true
  | .directoryRead => true
  | .directoryFind => true
  | .queueRead => true
  | .accountRead => true
  | .entryFix => true
  | .entryRelease => true
  | .entrySuspend => true
  | .entryResume => true
  | .clearLearned => true
  | .segmentSet => true
  | .segmentForceIsolate _ => true
  | .segmentForceReadmit _ => true
  | .segmentForceExemptOn => true
  | .segmentForceExemptOff => true
  | .segmentForceClear => true
  | .portEnable _ => true
  | .printerSet => true
  | .formLoaded => true
  | .queuePurge => true
  | .ticketCancel => true
  | .accountSnapshot => true
  | .alertSet => true
  | .alertClear => true
  | .officePlan => true
  | .trunkPlan _ => true
  | .save => true
  | .saveCompletion _ => true
  | .restartKeep => true
  | .restartFactory => true
  | .clearCauses => true
  | .unknownOperation => true
  | .powerOn => true
  | .panelResetAsserted => true
  | .panelRestart => true
  | .oneSecondTick => true
  | .oneMillisecondTick tick => WellFormed.msBlocks tick.reach
  | .closingCarrierFall _ _ => true
  | .supplyLoss _ => true

end Sys2Proof
end

