-- ==== Sys2Proof/Decode.lean ====
section
/-!
DEFINITION. The commands that a word spells by the bits of spec/opcode_table.json. No row of that table gives bits: the
commands are events of the part's lines, timers and queues, and none is a word.
-/

namespace Sys2Proof

/-- The command that a word spells: none, since no row gives bits. -/
def decodeTableWord (_nbits _w : Nat) : Option Instr := none

end Sys2Proof
end

