-- ==== Sys2Proof/Config.lean ====
section
/-!
DEFINITION. The fixed sizes of the part and the two values the manual leaves open (constants with no body, so
that no proof can lean on a number for them).
-/

namespace Sys2Proof

/-- References the trunk transmit queue holds (R25). -/
def Config.trunkQueueSize : Nat := 16

/-- References a star transmit queue holds (R38). -/
def Config.starQueueSize : Nat := 16

/-- Entries the control input queue holds (R48). -/
def Config.controlQueueSize : Nat := 4

/-- Entries the print input queue holds (R49). -/
def Config.printQueueSize : Nat := 8

/-- Tickets the ticket pool holds (R142). -/
def Config.ticketPoolSize : Nat := 32

/-- Records the alert queue holds (R195). -/
def Config.alertQueueSize : Nat := 8

/-- Longest payload of a trunk frame, in bytes (R8, Table 12-1). -/
def Config.trunkPayloadMax : Nat := 500

/-- Longest payload of a star frame, in bytes (Table 12-2). -/
def Config.starPayloadMax : Nat := 1500

/-- Measurement ticks in one 1 ms tick (R208). -/
def Config.ticksPerMs : Nat := 4000

/-- 1 ms ticks in one 1 s tick (R208). -/
def Config.msPerSecond : Nat := 1000

/-- Measurement ticks in the 1 µs without a transition that ends a burst (R6). -/
def Config.fallTicks : Nat := 4

/-- The inter-frame gap of 12 µs in measurement ticks (R24). -/
def Config.gapTicks : Nat := 48

/-- The 64 µs added to the required quiet time by each failed attempt, in measurement ticks (R24). -/
def Config.backoffTicks : Nat := 256

/-- The value of a ticket's 32-bit bytes-fed field after a FEED that takes its sum above 4294967295: a function of
the old value and the payload bytes added. Table 7-3 gives the field 32 bits and no rule says what it holds past
them, so the value is free (DESIGN CHOICE, log entry 1). -/
opaque Config.bytesFedPastTop : Counter → Nat → Counter

/-- The first byte of the BAD_REQUEST answer to an unknown operation of 128 or above. Table 12-5 gives it as the operation
plus 128, which does not fit a byte, so the value is free (DESIGN CHOICE, log entry 9). -/
opaque Config.answerByteAbove : Byte → Byte

end Sys2Proof
end

