-- ==== Sys2Proof/Machine/State.lean ====
section
/-!
DEFINITION. The state of the 8406 as plain data, the reasons a step could stop, and the state after reset.
Each structure names the table of the manual whose fields it holds. What the manual defines as a function of other
state (relay position, unterminated flag, tally, running score, station-ID index, tickets held, lamps, free-buffer
count) is computed from that state by a definition of Machine/Ops.lean and is held once (log entry 4).
-/

namespace Sys2Proof.Machine

/-! ## Reset, supply and settings store -/

/-- Whether the part runs, is held in reset by the panel line, or has no supply (R200, R187). -/
inductive RunState where
  | running | held | unpowered
  deriving DecidableEq, Repr

/-- The reset-cause record, a set drawn from four causes (R201). -/
structure ResetCauses where
  power : Bool
  panel : Bool
  command : Bool
  factory : Bool
  deriving DecidableEq, Repr

/-- The nine supervision settings of Table 6-5, the four weights counting as one. -/
structure Settings where
  wRunt : Nat
  wGarble : Nat
  wCheck : Nat
  wLink : Nat
  warn : Nat
  isolate : Nat
  runtLimit : Nat
  jabberLimit : Nat
  baseHold : Nat
  probation : Nat
  loadThreshold : Nat
  cleanLimit : Nat
  deriving DecidableEq, Repr

/-- The defaults of Table 6-5. -/
def Settings.default : Settings :=
  { wRunt := 2, wGarble := 3, wCheck := 4, wLink := 8, warn := 96, isolate := 256, runtLimit := 150,
    jabberLimit := 10000, baseHold := 10, probation := 5, loadThreshold := 40, cleanLimit := 60 }

/-- The office plan (R184): bridging settings (Table 3-3), directory and presence settings (R71, R80, Table 5-1), the
period setting P as staged (R119), the station fault limit and the star port enables (R137). -/
structure OfficePlan where
  base : StationId
  proxyLow : DeskCode
  proxyHigh : DeskCode
  period : Nat
  trunkToStar : Bool
  starToTrunk : Bool
  learnedLimit : Nat
  minSpacing : Nat
  babbleLimit : Nat
  quarantine : Nat
  faultLimit : Nat
  moveLimit : Nat
  enables : Vector Bool 8
  deriving DecidableEq, Repr

/-- The default office plan (Tables 3-3, 5-1; R71, R80, R119, R137). -/
def OfficePlan.default : OfficePlan :=
  { base := 0x7F000000#32, proxyLow := 160#8, proxyHigh := 239#8, period := 19, trunkToStar := true,
    starToTrunk := true, learnedLimit := 600, minSpacing := 200, babbleLimit := 8, quarantine := 60,
    faultLimit := 3, moveLimit := 2, enables := Vector.replicate 8 true }

/-- Action of a segment for a LOSS edge (Table 1-2). -/
inductive LossAction where
  | ignore | report | isolate
  deriving DecidableEq, Repr

/-- Action of a segment for a RETURN edge (Table 1-2). -/
inductive ReturnAction where
  | ignore | report
  deriving DecidableEq, Repr

/-- One segment's part of the trunk plan (R185). -/
structure SegPlan where
  enable : Bool
  loss : LossAction
  ret : ReturnAction
  deriving DecidableEq, Repr

/-- The default of one segment's part: enabled, REPORT for both edges (Table 1-2, R137). -/
def SegPlan.default : SegPlan := { enable := true, loss := .report, ret := .report }

/-! ## Station directory -/

/-- Reasons of a timed suspension (Table 4-1). -/
inductive TimedReason where
  | check | babble | duplicate
  deriving DecidableEq, Repr

/-- A suspension: for CHECK, BABBLE or DUPLICATE with its remaining seconds, or for ADMIN without a timer (R75). -/
inductive Suspension where
  | timed (reason : TimedReason) (remaining : Nat)
  | admin
  deriving DecidableEq, Repr

/-- Standing of a station (R69). -/
inductive EntryState where
  | active
  | queried
  | suspended (why : Suspension)
  | absent
  deriving DecidableEq, Repr

/-- Side, home and station ID of an entry: a TRUNK station has a home segment, a STAR station an ID and a home port
that may be unknown (Table 4-1). -/
inductive Place where
  | trunk (home : SegNo)
  | star (id : StationId) (home : Option StarNo)
  deriving DecidableEq, Repr

/-- The origins of a directory entry (Table 4-1). -/
inductive Origin where
  | learned | fixed
  deriving DecidableEq, Repr

/-- A directory entry (Table 4-1). The tickets-held field is computed from the tickets (`ticketsHeld`). -/
structure Entry where
  code : DeskCode
  place : Place
  origin : Origin
  state : EntryState
  admin : Bool
  printerQueue : Option QueueNo
  costCentre : Fin 16
  printClass : Fin 4
  presenceLimit : Nat
  presenceRemaining : Nat
  broadcastElapsed : Nat
  strikes : Nat
  periodMoves : Nat
  periodFaults : Nat
  deriving DecidableEq, Repr

/-- What the store keeps of a FIXED entry (Table 11-2). -/
structure FixedEntry where
  code : DeskCode
  /-- The home segment, or the station ID. -/
  identity : SegNo ⊕ StationId
  admin : Bool
  printerQueue : Option QueueNo
  costCentre : Fin 16
  printClass : Fin 4
  presenceLimit : Nat
  deriving DecidableEq, Repr

/-! ## Alerts -/

/-- The thirteen kinds of alert flag, in the order of Table 10-1. -/
inductive AlertKind where
  | warning | portIsolated | readmitted | terminator | linkDown | codeConflict | duplicate | quarantine
  | poolEmpty | formChange | printerOffline | jobAbandoned | storeFault
  deriving DecidableEq, Repr

/-- A flag that is set: its kind, its instance and its detail while it has one (R192). -/
structure AlertFlag where
  kind : AlertKind
  inst : Nat
  detail : Option Byte
  deriving DecidableEq, Repr

/-- An alert record of the alert queue (R194). -/
structure AlertRecord where
  kind : AlertKind
  inst : Nat
  level : Fin 4
  detail : Option Byte
  deriving DecidableEq, Repr

/-- The alert destination (R193). `trunkId` is a station ID that lay in the trunk ID range when ALERT_SET took it, which a
later change of `base` leaves a trunk-range ID (DESIGN CHOICE, log entry 51). -/
inductive AlertDest where
  | none
  | code (c : DeskCode)
  | id (x : StationId)
  | trunkId (x : StationId)
  deriving DecidableEq, Repr

/-- The alert configuration: an enable and a level for each kind, in the order of Table 10-1, and the destination (R193). -/
structure AlertConfig where
  enables : Vector Bool 13
  levels : Vector (Fin 4) 13
  dest : AlertDest
  deriving DecidableEq, Repr

/-- Every kind on, the levels of Table 10-1, destination none (R193). -/
def AlertConfig.default : AlertConfig :=
  { enables := Vector.replicate 13 true, levels := #v[1, 3, 1, 1, 1, 1, 1, 1, 1, 1, 1, 0, 3], dest := .none }

/-! ## Printers -/

/-- A ticket (Table 7-3). Its state is WAITING in a waiting list and GRANTED as a grant; its queue is the queue it
stands on. -/
structure Ticket where
  number : Nat
  requester : DeskCode
  cls : Fin 4
  costCentre : Fin 16
  form : Fin 16
  label : List Byte
  waitAge : Nat
  bytesFed : Counter
  deriving DecidableEq, Repr

/-- Printer states (Table 7-2), with the grant and the wanted form where they are present. -/
inductive PrinterState where
  | disabled
  | idle
  | granted (t : Ticket)
  | formWait (wanted : Fin 16)
  deriving DecidableEq, Repr

/-- A printer record (Table 7-1). -/
structure Printer where
  enable : Bool
  code : Option DeskCode
  state : PrinterState
  online : Bool
  loadedForm : Fin 16
  credit : Nat
  idleLimit : Nat
  idleRemaining : Nat
  formHold : Nat
  nextTicket : Nat
  completed : Counter
  waiting : List Ticket
  deriving DecidableEq, Repr

/-- A queue with no printer: the defaults of Table 7-8. -/
def Printer.initial : Printer :=
  { enable := false, code := none, state := .disabled, online := false, loadedForm := 0, credit := 0, idleLimit := 30,
    idleRemaining := 0, formHold := 120, nextTicket := 1, completed := 0, waiting := [] }

/-- What the store keeps of a queue (Table 11-2). -/
structure PrinterConfig where
  code : Option DeskCode
  enable : Bool
  idleLimit : Nat
  formHold : Nat
  deriving DecidableEq, Repr

/-- The default printer configuration (R169). -/
def PrinterConfig.default : PrinterConfig := { code := none, enable := false, idleLimit := 30, formHold := 120 }

/-! ## The settings store -/

/-- What the store keeps of a port's supervision: its settings as staged and its exempt flag (Table 11-2). -/
structure PortConfig where
  settings : Settings
  exempt : Bool
  deriving DecidableEq, Repr

/-- The content of the store image (Table 11-2). -/
structure StoredConfig where
  office : OfficePlan
  trunk : Vector SegPlan 4
  fixed : List FixedEntry
  printers : Vector PrinterConfig 6
  ports : Vector PortConfig 12
  alerts : AlertConfig
  commissioned : Bool
  deriving DecidableEq, Repr

/-- The configuration a blank or invalid image gives (R202). -/
def StoredConfig.default : StoredConfig :=
  { office := OfficePlan.default, trunk := Vector.replicate 4 SegPlan.default, fixed := [],
    printers := Vector.replicate 6 PrinterConfig.default,
    ports := Vector.replicate 12 { settings := Settings.default, exempt := false },
    alerts := AlertConfig.default, commissioned := false }

end Sys2Proof.Machine

namespace Sys2Proof

open Machine in
/-- The bytes of an image before its check word, for the content of Table 11-2 and for whether the format mark stands:
4094 of its 4096 bytes. The manual gives neither their layout nor the mark's value, so the function is free (DESIGN CHOICE,
log entry 5). -/
opaque Config.storeBytes : Option StoredConfig → Bool → Vector Byte 4094

end Sys2Proof

namespace Sys2Proof.Machine

/-- The settings store's image (R203): the format mark and the content that stand for its first 4094 bytes, unless every
byte is erased, and its 16-bit check word. `none` is the check word that the invalidate phase of a write leaves, a value
that disagrees with any content (R204; log entry 5). -/
structure StoreImage where
  erased : Bool
  formatMark : Bool
  content : Option StoredConfig
  checkWord : Option (BitVec 16)
  deriving DecidableEq, Repr

/-- A blank image: every byte holds the erased value 0xFF (R202). -/
def StoreImage.blank : StoreImage := { erased := true, formatMark := false, content := none, checkWord := some 0xFFFF#16 }

/-! ## Segment channels, repeater and transmitter -/

/-- Burst classes of a capture record (Table 1-3), numbered in that order. -/
inductive BurstClass where
  | none | inProgress | jabber | garble | runt | check | good | abandoned
  deriving DecidableEq, Repr

/-- Causes of a GARBLE (Table 1-3). -/
inductive GarbleCause where
  | collision | code
  deriving DecidableEq, Repr

/-- A capture record (Table 1-3). -/
structure Capture where
  rise : BitVec 16
  fall : BitVec 16
  len : BitVec 16
  gap : BitVec 16
  edges : Nat
  cls : BurstClass
  cause : Option GarbleCause
  truncated : Bool
  deriving DecidableEq, Repr

/-- A capture record after reset (Table 1-10). -/
def Capture.initial : Capture :=
  { rise := 0, fall := 0, len := 0, gap := 0, edges := 0, cls := .none, cause := none, truncated := false }

/-- The four phases of a decoder (R7). -/
inductive DecPhase where
  | hunt | header | body | overrun
  deriving DecidableEq, Repr

/-- A segment's decoder and assembly store (R7, R8). -/
structure Decoder where
  phase : DecPhase
  /-- The last sixteen bits recovered while in HUNT. -/
  window : BitVec 16
  /-- The bits of the byte being assembled, and how many there are. -/
  acc : Byte
  nbits : Nat
  /-- The bytes after the lead-in, in order. -/
  store : List Byte
  /-- Whole bytes received after the lead-in. -/
  received : Nat
  /-- The mark of the header event: absent before it, then whether the header check passed. -/
  header : Option Bool
  deriving DecidableEq, Repr

/-- HUNT with an empty assembly store (Table 1-10). -/
def Decoder.initial : Decoder :=
  { phase := .hunt, window := 0, acc := 0, nbits := 0, store := [], received := 0, header := none }

/-- What a channel with its relay closed makes of the line: no foreign carrier, a burst in progress, carrier that goes on
after a jabber cut (R15), or carrier that was there when the relay closed (R3). -/
inductive LinePhase where
  | quiet | burst | continuation | closing
  deriving DecidableEq, Repr

/-- Per-segment counters (Table 1-8). -/
structure SegCounters where
  good : Counter
  runt : Counter
  garble : Counter
  check : Counter
  jabber : Counter
  truncated : Counter
  deriving DecidableEq, Repr

/-- Per-segment counters after reset. -/
def SegCounters.zero : SegCounters := { good := 0, runt := 0, garble := 0, check := 0, jabber := 0, truncated := 0 }

/-- A segment channel (Section 1.1) with its Burst Measurement Unit (Section 1.4). The fields `carrier`, `busyFrom`,
`riseAt` and `quietSince` are the model's: the cable's carrier, and times in ticks of `Chassis.now` (log entries 2, 13, 18). -/
structure Segment where
  /-- Foreign carrier stands on the cable, heard or not. -/
  carrier : Bool
  phase : LinePhase
  /-- The recorded terminator level is UNTERMINATED (R4). -/
  unterminated : Bool
  /-- The last sample differed from the recorded level (R4). -/
  differing : Bool
  current : Capture
  previous : Capture
  /-- The busy-time accumulator (R11), up to `busyFrom`. -/
  busy : Nat
  busyFrom : Nat
  lastFall : BitVec 16
  quietCount : Nat
  longQuiet : Bool
  riseAt : Nat
  /-- The limits current at the rise, by which the burst is judged (R16). -/
  runtAtRise : Nat
  jabberAtRise : Nat
  /-- Foreign carrier was present while the bridge was driving the segment during this burst (R14). -/
  collided : Bool
  decoder : Decoder
  /-- The segment is in the drive set of the repeater or of the transmitter (R19, R24). -/
  driven : Bool
  /-- Since when the segment has been quiet in the sense of R24. -/
  quietSince : Nat
  counters : SegCounters
  deriving DecidableEq, Repr

/-- A segment after reset, before its relay closes (Table 1-10). -/
def Segment.initial : Segment :=
  { carrier := false, phase := .quiet, unterminated := false, differing := false, current := Capture.initial,
    previous := Capture.initial, busy := 0, busyFrom := 0, lastFall := 0, quietCount := 0, longQuiet := true,
    riseAt := 0, runtAtRise := 150, jabberAtRise := 10000, collided := false, decoder := Decoder.initial,
    driven := false, quietSince := 0, counters := SegCounters.zero }

/-- The holder of the Trunk Repeater (R19). -/
inductive Holder where
  | none
  | segment (t : SegNo)
  | transmitter
  deriving DecidableEq, Repr

/-- Trunk counters (Table 1-9). -/
structure TrunkCounters where
  txFrames : Counter
  txCollisions : Counter
  txAbandon : Counter
  trunkDown : Counter
  queueFull : Counter
  deriving DecidableEq, Repr

/-- Segments, Trunk Repeater and Trunk Transmitter (Chapter 1). -/
structure Trunk where
  segs : Vector Segment 4
  holder : Holder
  truncate : Bool
  /-- The trunk transmit queue, head first (R25). -/
  queue : List BufId
  /-- The head frame's attempt count (R26). -/
  attempts : Nat
  /-- The frame being driven while the transmitter holds the repeater (R25). -/
  onWire : List Byte
  counters : TrunkCounters
  deriving DecidableEq, Repr

/-- The trunk after reset (Table 1-10). -/
def Trunk.initial : Trunk :=
  { segs := Vector.replicate 4 Segment.initial, holder := .none, truncate := false, queue := [], attempts := 0,
    onWire := [], counters := { txFrames := 0, txCollisions := 0, txAbandon := 0, trunkDown := 0, queueFull := 0 } }

/-! ## Star ports -/

/-- Receive states of a star port (Section 2.1). -/
inductive RxState where
  | idle | receiving | waitIdle
  deriving DecidableEq, Repr

/-- Transmit states of a star port; while SENDING, the frame being sent (R39). -/
inductive TxState where
  | idle
  | sending (frame : List Byte)
  deriving DecidableEq, Repr

/-- Per-star-port counters (Table 2-4). -/
structure StarCounters where
  rxGood : Counter
  rxRunt : Counter
  rxCheck : Counter
  linkLoss : Counter
  txFrames : Counter
  queueFull : Counter
  notConnected : Counter
  flushed : Counter
  deriving DecidableEq, Repr

/-- A star port (Section 2.1). `lineUp` and `lineBusy` are what the line receiver reports of the run whatever the port
does: link signalling, and a frame in progress on the line (R33, R42; DESIGN CHOICE, log entry 18). -/
structure StarPort where
  lineUp : Bool
  lineBusy : Bool
  /-- The recorded link state is UP. -/
  link : Bool
  rx : RxState
  store : List Byte
  count : Nat
  tx : TxState
  queue : List BufId
  counters : StarCounters
  deriving DecidableEq, Repr

/-- A star port after reset (Table 2-5). -/
def StarPort.initial : StarPort :=
  { lineUp := false, lineBusy := false, link := false, rx := .idle, store := [], count := 0, tx := .idle, queue := [],
    counters := { rxGood := 0, rxRunt := 0, rxCheck := 0, linkLoss := 0, txFrames := 0, queueFull := 0,
                  notConnected := 0, flushed := 0 } }

/-! ## Frame buffers and bridging -/

/-- Trunk addressing of a buffer (Table 3-1). -/
structure TrunkAddr where
  dst : DeskCode
  src : DeskCode
  deriving DecidableEq, Repr

/-- Star addressing of a buffer (Table 3-1). -/
structure StarAddr where
  dst : StationId
  src : StationId
  deriving DecidableEq, Repr

/-- A frame buffer (Table 3-1). A buffer is free when its reference count is 0. -/
structure Buf where
  refs : Nat
  kind : Byte
  payload : List Byte
  trunkAddr : Option TrunkAddr
  starAddr : Option StarAddr
  deriving DecidableEq, Repr

/-- A free buffer: its other fields have no meaning (R43) and are held empty. -/
def Buf.free : Buf := { refs := 0, kind := 0, payload := [], trunkAddr := none, starAddr := none }

/-- The return route of a message: the port it arrived on and the sender's address as received (R48). -/
inductive Route where
  | segment (t : SegNo) (code : DeskCode)
  | star (p : StarNo) (id : StationId)
  deriving DecidableEq, Repr

/-- An entry of the control or print input queue (R48). -/
structure InputEntry where
  buf : BufId
  route : Route
  deriving DecidableEq, Repr

/-- The two input queues and their counters (R48, R49, Table 3-7). -/
structure Inputs where
  control : List InputEntry
  print : List InputEntry
  controlFull : Counter
  printFull : Counter
  deriving DecidableEq, Repr

/-- Ingress drop counters of one port (Table 3-6). A counter that does not apply to the port's kind stays 0. -/
structure Drops where
  noBuffer : Counter
  badSource : Counter
  baseClash : Counter
  sourceConflict : Counter
  sourceSuspended : Counter
  earlyBroadcast : Counter
  notForPart : Counter
  unreachable : Counter
  reserved : Counter
  noCode : Counter
  tooLong : Counter
  localDest : Counter
  nullDest : Counter
  deriving DecidableEq, Repr

/-- Drop counters after reset (R67). -/
def Drops.zero : Drops :=
  { noBuffer := 0, badSource := 0, baseClash := 0, sourceConflict := 0, sourceSuspended := 0, earlyBroadcast := 0,
    notForPart := 0, unreachable := 0, reserved := 0, noCode := 0, tooLong := 0, localDest := 0, nullDest := 0 }

/-- Presence counters (Table 5-5). -/
structure PresenceCounters where
  querySent : Counter
  querySkipped : Counter
  agedOut : Counter
  wentAbsent : Counter
  strikes : Counter
  babbleSuspensions : Counter
  quarantineEnded : Counter
  deriving DecidableEq, Repr

/-- The Station Directory: its entries in ascending order of code, the free code pool in order, and the Presence
Monitor's counters (R68, R70, R107). -/
structure Directory where
  entries : List Entry
  pool : List DeskCode
  counters : PresenceCounters
  deriving DecidableEq, Repr

/-- An empty directory: every code from 1 to 239 in the pool, ascending (Table 4-8). -/
def Directory.initial : Directory :=
  { entries := [], pool := (List.range' 1 239).map (BitVec.ofNat 8),
    counters := { querySent := 0, querySkipped := 0, agedOut := 0, wentAbsent := 0, strikes := 0,
                  babbleSuspensions := 0, quarantineEnded := 0 } }

/-! ## Supervision -/

/-- Supervision states, in the order of Table 6-1; `openMode` is the manual's OPEN. -/
inductive SupState where
  | off | openMode | active | isolated | probation | held
  deriving DecidableEq, Repr

/-- The supervision record of a port (Table 6-1). -/
structure PortRec where
  state : SupState
  score : Nat
  nRunt : Nat
  nGarble : Nat
  nCheck : Nat
  nLink : Nat
  nGood : Nat
  attributed : Nat
  warning : Bool
  exempt : Bool
  pending : Bool
  k : Nat
  holdLength : Nat
  holdRemaining : Nat
  probationRemaining : Nat
  clean : Nat
  lastU : Option Nat
  current : Settings
  staged : Settings
  isolations : Counter
  readmissions : Counter
  deriving DecidableEq, Repr

/-- A port's record after reset, with default settings (Table 6-8). -/
def PortRec.initial : PortRec :=
  { state := .off, score := 0, nRunt := 0, nGarble := 0, nCheck := 0, nLink := 0, nGood := 0, attributed := 0,
    warning := false, exempt := false, pending := false, k := 0, holdLength := 0, holdRemaining := 0,
    probationRemaining := 0, clean := 0, lastU := none, current := Settings.default, staged := Settings.default,
    isolations := 0, readmissions := 0 }

/-- The Supervision Unit: twelve records, the period setting in force, the period timer in ms and its bridge-wide
counter (R109, R119, R139). -/
structure Supervision where
  ports : Vector PortRec 12
  period : Nat
  timer : Nat
  checkSuspensions : Counter
  deriving DecidableEq, Repr

/-- The Supervision Unit after reset with nothing loaded (Table 6-8). -/
def Supervision.initial : Supervision :=
  { ports := Vector.replicate 12 PortRec.initial, period := 19, timer := 1000, checkSuspensions := 0 }

/-! ## Printing, accounting, control and alerts -/

/-- The Print Arbiter: printer table and counters (R141, Table 7-7). -/
structure Printing where
  printers : Vector Printer 6
  ticketsOpened : Counter
  openRefused : Counter
  feeds : Counter
  answerLost : Counter
  endingLost : Counter
  deriving DecidableEq, Repr

/-- The Print Arbiter after reset with no printers (Table 7-8). -/
def Printing.initial : Printing :=
  { printers := Vector.replicate 6 Printer.initial, ticketsOpened := 0, openRefused := 0, feeds := 0, answerLost := 0,
    endingLost := 0 }

/-- A cost-centre set (Table 8-1). -/
structure CostSet where
  low : Nat
  high : Nat
  saturated : Bool
  completed : Nat
  abandoned : Nat
  deriving DecidableEq, Repr

/-- A cleared set (R174, R177). -/
def CostSet.zero : CostSet := { low := 0, high := 0, saturated := false, completed := 0, abandoned := 0 }

/-- The Accounting Unit (R170). -/
structure Accounting where
  live : Vector CostSet 16
  hold : Vector CostSet 16
  snapshot : Byte
  deriving DecidableEq, Repr

/-- The Accounting Unit after a power-on (Table 8-2). -/
def Accounting.initial : Accounting :=
  { live := Vector.replicate 16 CostSet.zero, hold := Vector.replicate 16 CostSet.zero, snapshot := 0 }

/-- The save-in-flight mark with the tag and return route of its SAVE, and the copy of the configuration the store is
writing (R186, R204). -/
structure SaveInFlight where
  tag : BitVec 16
  route : Route
  copy : StoredConfig
  deriving DecidableEq, Repr

/-- The Control Unit (Section 9.1) with the counters of Table 9-5. -/
structure Control where
  save : Option SaveInFlight
  commissioned : Bool
  officeMark : Bool
  trunkMark : Bool
  taken : Counter
  short : Counter
  notPermitted : Counter
  busy : Counter
  answerLost : Counter
  deriving DecidableEq, Repr

/-- The Control Unit after reset (Table 9-6). -/
def Control.initial : Control :=
  { save := none, commissioned := false, officeMark := false, trunkMark := false, taken := 0, short := 0,
    notPermitted := 0, busy := 0, answerLost := 0 }

/-- The Alert Unit: the flags that are set, in flag-table order, the configuration, the alert queue and the counters of
Table 10-3 (R192 to R195). -/
structure Alerts where
  flags : List AlertFlag
  config : AlertConfig
  queue : List AlertRecord
  queued : Counter
  displaced : Counter
  dropped : Counter
  sent : Counter
  unrouted : Counter
  deriving DecidableEq, Repr

/-- The Alert Unit after reset (Table 10-4). -/
def Alerts.initial : Alerts :=
  { flags := [], config := AlertConfig.default, queue := [], queued := 0, displaced := 0, dropped := 0, sent := 0,
    unrouted := 0 }

/-! ## The whole state -/

/-- The Time Base's count towards the 1 s tick, and the 1 s ticks that it has given a block and the block has not yet
taken (R208; log entry 47). -/
structure SecondTicks where
  /-- 1 ms ticks since the last 1 s tick was given, 0–999. -/
  ms : Nat
  presenceDue : Nat
  printDue : Nat
  deriving DecidableEq, Repr

/-- The count at the end of the start-up load (R208). -/
def SecondTicks.zero : SecondTicks := { ms := 0, presenceDue := 0, printDue := 0 }

/-- Supply, panel line, reset causes, unit number, settings store and time base (R200, R201, R203, R208). -/
structure Chassis where
  run : RunState
  /-- The panel reset line is asserted. -/
  panelAsserted : Bool
  /-- The supply failed while the panel line was asserted, so the next reset is a power-on (R200). -/
  powerOnDue : Bool
  causes : ResetCauses
  /-- The bridge's own station ID, fixed at manufacture (R51). -/
  unitNumber : StationId
  store : StoreImage
  /-- Measurement ticks since the last reset (R208). -/
  now : Nat
  ticks : SecondTicks
  deriving DecidableEq, Repr

/-- The state of the 8406. `pending` is the model's queue of commands that wait, first in, first out. -/
structure State where
  pending : List Instr
  chassis : Chassis
  trunk : Trunk
  star : Vector StarPort 8
  bufs : Vector Buf 48
  inputs : Inputs
  drops : Vector Drops 12
  office : OfficePlan
  segPlans : Vector SegPlan 4
  dir : Directory
  sup : Supervision
  print : Printing
  acct : Accounting
  ctl : Control
  alerts : Alerts
  deriving DecidableEq, Repr

/-- No command of this block faults: what the manual calls a fault is a counted, flagged or scored event and a next
state. The type has no constructor, so `Outcome.fault` cannot occur (safe). -/
inductive Fault where
  deriving DecidableEq, Repr

/-- Reasons for which a command is refused. -/
inductive Refusal where
  /-- Raised by `exec` alone, for a command that has no meaning yet (safe: no claim about its effect is provable). -/
  | notModelled (mnemonic : String)
  deriving DecidableEq, Repr

/-- The machine right after the power-on of a part whose store is blank, with every line down and every cable silent
(R200, R202): OPEN mode, every port enabled and OPEN, every relay closed, the directory empty. The unit number is the
model's choice (log entries 6 and 37). -/
def State.reset : State :=
  { pending := [],
    chassis :=
      { run := .running, panelAsserted := false, powerOnDue := false,
        causes := { power := true, panel := false, command := false, factory := false },
        unitNumber := 0x00008406#32, store := StoreImage.blank, now := 0,
        ticks := SecondTicks.zero },
    trunk := Trunk.initial,
    star := Vector.replicate 8 StarPort.initial,
    bufs := Vector.replicate 48 Buf.free,
    inputs := { control := [], print := [], controlFull := 0, printFull := 0 },
    drops := Vector.replicate 12 Drops.zero,
    office := OfficePlan.default,
    segPlans := Vector.replicate 4 SegPlan.default,
    dir := Directory.initial,
    sup := { Supervision.initial with ports := Vector.replicate 12 { PortRec.initial with state := .openMode } },
    print := Printing.initial,
    acct := Accounting.initial,
    ctl := Control.initial,
    alerts := Alerts.initial }

end Sys2Proof.Machine
end

