-- ==== Sys2Proof/Machine/Ops.lean ====
section
/-!
DEFINITION. Named operations over the state that every chapter shares: counters, clamping, table access, what is
connected and reachable, the directory lookups, the free code pool, and byte-level helpers with the two checks of R210.
-/

namespace Sys2Proof.Machine

/-! ## Numbers -/

/-- A 32-bit counter gains one and saturates at 4294967295 (R28). -/
def bump (c : Counter) : Counter :=
  if c = BitVec.allOnes 32 then c else c + 1

/-- A 32-bit counter gains `n` and saturates at 4294967295. -/
def bumpBy (n : Nat) (c : Counter) : Counter :=
  BitVec.ofNat 32 (min (c.toNat + n) 4294967295)

/-- A count gains one and is held at `top`. -/
def gain (top n : Nat) : Nat := min (n + 1) top

/-- A value is clamped to the range `lo` to `hi` (Conventions). -/
def clamp (lo hi n : Nat) : Nat := max lo (min n hi)

/-! ## Tables -/

/-- Change one element of a table. -/
def modAt {α : Type} {n : Nat} (v : Vector α n) (i : Fin n) (f : α → α) : Vector α n :=
  v.set i.val (f v[i.val]) i.isLt

/-- Change one segment channel. -/
def State.modSeg (s : State) (t : SegNo) (f : Segment → Segment) : State :=
  { s with trunk := { s.trunk with segs := modAt s.trunk.segs t f } }

/-- Change every segment channel. -/
def State.mapSegs (s : State) (f : Segment → Segment) : State :=
  { s with trunk := { s.trunk with segs := s.trunk.segs.map f } }

/-- Change one star port. -/
def State.modStar (s : State) (p : StarNo) (f : StarPort → StarPort) : State :=
  { s with star := modAt s.star p f }

/-- Change one frame buffer. -/
def State.modBuf (s : State) (b : BufId) (f : Buf → Buf) : State :=
  { s with bufs := modAt s.bufs b f }

/-- Change the drop counters of one ingress port. -/
def State.modDrops (s : State) (q : PortNo) (f : Drops → Drops) : State :=
  { s with drops := modAt s.drops q f }

/-- Change one supervision record. -/
def State.modPort (s : State) (q : PortNo) (f : PortRec → PortRec) : State :=
  { s with sup := { s.sup with ports := modAt s.sup.ports q f } }

/-- Change one printer record. -/
def State.modPrinter (s : State) (q : QueueNo) (f : Printer → Printer) : State :=
  { s with print := { s.print with printers := modAt s.print.printers q f } }

/-- Change one live cost-centre set. -/
def State.modLive (s : State) (cc : Fin 16) (f : CostSet → CostSet) : State :=
  { s with acct := { s.acct with live := modAt s.acct.live cc f } }

/-- Change the presence counters. -/
def State.modPresence (s : State) (f : PresenceCounters → PresenceCounters) : State :=
  { s with dir := { s.dir with counters := f s.dir.counters } }

/-- Change the trunk counters. -/
def State.modTrunkCounters (s : State) (f : TrunkCounters → TrunkCounters) : State :=
  { s with trunk := { s.trunk with counters := f s.trunk.counters } }

/-- One segment channel. -/
def State.seg (s : State) (t : SegNo) : Segment := s.trunk.segs[t.val]

/-- One star port. -/
def State.starPort (s : State) (p : StarNo) : StarPort := s.star[p.val]

/-- One frame buffer. -/
def State.buf (s : State) (b : BufId) : Buf := s.bufs[b.val]

/-- One supervision record. -/
def State.port (s : State) (q : PortNo) : PortRec := s.sup.ports[q.val]

/-- One printer record. -/
def State.printer (s : State) (q : QueueNo) : Printer := s.print.printers[q.val]

/-- The measurement clock moves on by `dt` ticks (R208). -/
def State.advance (s : State) (dt : Nat) : State :=
  { s with chassis := { s.chassis with now := s.chassis.now + dt } }

/-- The part is running: supplied, and not held in reset (R200). -/
def State.isRunning (s : State) : Bool := s.chassis.run == .running

/-! ## Transitions on the cable (R11) -/

/-- Transitions are added to the burst's edge count, which saturates at 65535 (R11). -/
def Segment.addEdges (n : Nat) (g : Segment) : Segment :=
  { g with current := { g.current with edges := min (g.current.edges + n) 65535 } }

/-- The transitions that the line has brought since its last report reach the burst in progress, if there is one (R11). -/
def Segment.noteEdges (n : Nat) (g : Segment) : Segment := if g.phase = .burst then g.addEdges n else g

/-- The transitions on one segment since its last report. -/
def noteEdges (t : SegNo) (edges : Nat) (s : State) : State := s.modSeg t (Segment.noteEdges edges)

/-- The transitions on each segment since its last report. -/
def noteAllEdges (edges : Vector Nat 4) (s : State) : State :=
  { s with trunk := { s.trunk with segs := s.trunk.segs.mapFinIdx (fun i g h => g.noteEdges edges[i]) } }

/-- The time that has passed and the transitions it has brought, whatever then comes of the request that reports them (R11,
R208). -/
def State.elapse (s : State) (dt : Elapsed) : State := noteAllEdges dt.edges (s.advance dt.ticks)

/-! ## What is connected -/

/-- A port that is ACTIVE or OPEN is in service (R109). -/
def SupState.inService : SupState → Bool
  | .active | .openMode => true
  | .off | .isolated | .probation | .held => false

/-- A port that hears: the relay of a segment is closed, the receiver of a star port listens (Tables 1-1 and 2-1). -/
def SupState.listens : SupState → Bool
  | .active | .openMode | .probation => true
  | .off | .isolated | .held => false

/-- The isolation relay of a segment is closed (R1); it stays open while the part is in reset (R29). -/
def relayClosed (s : State) (t : SegNo) : Bool :=
  s.isRunning && (s.port (portOfSeg t)).state.listens

/-- A segment is connected when its state is ACTIVE or OPEN (R1). -/
def segConnected (s : State) (t : SegNo) : Bool := (s.port (portOfSeg t)).state.inService

/-- A star port is connected when its state is ACTIVE or OPEN and its link is UP (R30). -/
def starConnected (s : State) (p : StarNo) : Bool :=
  (s.port (portOfStar p)).state.inService && (s.starPort p).link

/-- The trunk is down while no segment is connected (R27). -/
def trunkDown (s : State) : Bool := (List.finRange 4).all fun t => !segConnected s t

/-- The star ports that are connected, in ascending order. -/
def connectedStars (s : State) : List StarNo := (List.finRange 8).filter (starConnected s)

/-! ## Station IDs -/

/-- The broadcast ID (R51). -/
def broadcastId : StationId := 0xFFFFFFFF#32

/-- The null ID (R51). -/
def nullId : StationId := 0#32

/-- The desk code of the bridge (Table 0-3). -/
def bridgeCode : DeskCode := 240#8

/-- An ID lies from `base` to `base + 255` (R51). -/
def inTrunkRange (base x : StationId) : Bool := decide ((x - base).toNat < 256)

/-- The station ID that stands for desk code `c` on the star side. -/
def idOfDesk (base : StationId) (c : DeskCode) : StationId := base + c.zeroExtend 32

/-- The desk code an ID of the trunk ID range stands for. -/
def deskOfId (base x : StationId) : DeskCode := (x - base).truncate 8

/-- The part IDs: the unit number and the name `base + 240` (R51). -/
def isPartId (s : State) (x : StationId) : Bool :=
  x == s.chassis.unitNumber || x == idOfDesk s.office.base bridgeCode

/-- A desk code a station may hold: 1–239 (R68). -/
def isDesk (c : DeskCode) : Bool := decide (1 ≤ c.toNat) && decide (c.toNat ≤ 239)

/-! ## Directory lookups and the entry list -/

/-- The entry kept under a desk code. -/
def findEntry (s : State) (c : DeskCode) : Option Entry := s.dir.entries.find? (fun e => e.code == c)

/-- The station ID of a STAR entry. -/
def Entry.starId? (e : Entry) : Option StationId :=
  match e.place with
  | .trunk _ => none
  | .star x _ => some x

/-- An entry of the TRUNK side. -/
def Entry.isTrunk (e : Entry) : Bool :=
  match e.place with
  | .trunk _ => true
  | .star _ _ => false

/-- The entry is SUSPENDED. -/
def Entry.isSuspended (e : Entry) : Bool :=
  match e.state with
  | .suspended _ => true
  | .active | .queried | .absent => false

/-- The entry is ACTIVE or QUERIED. -/
def Entry.inUse (e : Entry) : Bool :=
  match e.state with
  | .active | .queried => true
  | .suspended _ | .absent => false

/-- A FIXED entry that carries the admin attribute (R87). -/
def Entry.isAdmin (e : Entry) : Bool := decide (e.origin = .fixed) && e.admin

/-- The station-ID index: the STAR entry that holds a station ID (R72). -/
def indexEntry (s : State) (x : StationId) : Option Entry :=
  s.dir.entries.find? (fun e => e.starId? == some x)

/-- The entry of the sender of a message, from its return route (R145, R179). -/
def senderOf (s : State) (r : Route) : Option Entry :=
  match r with
  | .segment _ c => (findEntry s c).filter Entry.isTrunk
  | .star _ x => indexEntry s x

/-- Put an entry into the list, which is kept in ascending order of code. -/
def insertEntry (e : Entry) : List Entry → List Entry
  | [] => [e]
  | x :: xs => if e.code.toNat < x.code.toNat then e :: x :: xs else x :: insertEntry e xs

/-- Change the entry under a code. -/
def State.modEntry (s : State) (c : DeskCode) (f : Entry → Entry) : State :=
  { s with dir := { s.dir with entries := s.dir.entries.map (fun e => if e.code = c then f e else e) } }

/-- Take the entry under a code out of the list. -/
def State.dropEntry (s : State) (c : DeskCode) : State :=
  { s with dir := { s.dir with entries := s.dir.entries.filter (fun e => e.code != c) } }

/-- Add an entry; its code leaves the pool from wherever it stands (R70). -/
def State.addEntry (s : State) (e : Entry) : State :=
  { s with dir := { s.dir with entries := insertEntry e s.dir.entries, pool := s.dir.pool.filter (fun c => c != e.code) } }

/-- A code joins the pool at its tail (R70). -/
def State.toPool (s : State) (c : DeskCode) : State :=
  { s with dir := { s.dir with pool := s.dir.pool ++ [c] } }

/-- A code lies in the proxy range (R71). -/
def inProxyRange (p : OfficePlan) (c : DeskCode) : Bool :=
  decide (p.proxyLow.toNat ≤ c.toNat) && decide (c.toNat ≤ p.proxyHigh.toNat)

/-- Proxy assignment: the first code in pool order within the proxy range (R71). -/
def proxyCode (s : State) : Option DeskCode := s.dir.pool.find? (inProxyRange s.office)

/-- The entry's home is known and connected (R95, R144). -/
def homeConnected (s : State) (e : Entry) : Bool :=
  match e.place with
  | .trunk t => segConnected s t
  | .star _ (some p) => starConnected s p
  | .star _ none => false

/-- The entry is reachable: ACTIVE or QUERIED with a known, connected home (R144). -/
def entryReachable (s : State) (e : Entry) : Bool := e.inUse && homeConnected s e

/-- The entry under a code exists and is reachable (R144). -/
def reachable (s : State) (c : DeskCode) : Bool :=
  match findEntry s c with
  | some e => entryReachable s e
  | none => false

/-- The entry's home is the given port (R126). -/
def Entry.homedOn (e : Entry) (q : PortNo) : Bool :=
  match e.place with
  | .trunk t => portOfSeg t == q
  | .star _ (some p) => portOfStar p == q
  | .star _ none => false

/-! ## Bytes -/

/-- The bits of a byte, most significant first (R209). -/
def byteBits (b : Byte) : List Bool :=
  [b.getLsbD 7, b.getLsbD 6, b.getLsbD 5, b.getLsbD 4, b.getLsbD 3, b.getLsbD 2, b.getLsbD 1, b.getLsbD 0]

/-- A number as one byte. -/
def u8 (n : Nat) : List Byte := [BitVec.ofNat 8 n]

/-- A number as two bytes, high byte first (R209). -/
def u16 (n : Nat) : List Byte := [BitVec.ofNat 8 (n / 256), BitVec.ofNat 8 n]

/-- A 32-bit value as four bytes, high byte first (R209). -/
def u32 (x : BitVec 32) : List Byte :=
  [x.extractLsb' 24 8, x.extractLsb' 16 8, x.extractLsb' 8 8, x.extractLsb' 0 8]

/-- Two bytes read high byte first. -/
def be16 (hi lo : Byte) : Nat := hi.toNat * 256 + lo.toNat

/-- Four bytes read high byte first. -/
def be32 (a b c d : Byte) : BitVec 32 := a ++ b ++ c ++ d

/-- The frame check takes one bit: the register is shifted left, and 0x1021 is combined where the register's top bit
and the message bit differed (R210). -/
def crcBit (r : BitVec 16) (b : Bool) : BitVec 16 :=
  if r.msb != b then (r <<< 1) ^^^ 0x1021#16 else r <<< 1

/-- The 16-bit frame check of a list of bytes, from 0xFFFF (R210). -/
def crc16 (bytes : List Byte) : BitVec 16 :=
  bytes.foldl (fun r b => (byteBits b).foldl crcBit r) 0xFFFF#16

/-- A check as its two bytes, high byte first (R210). -/
def checkBytes (r : BitVec 16) : List Byte := [r.extractLsb' 8 8, r.extractLsb' 0 8]

/-- The header check: 255 minus the sum, modulo 256, of the five header bytes (R210). -/
def headerCheck (header : List Byte) : Byte := 255#8 - header.foldl (· + ·) 0#8

/-- A header passes when the sum of all six header bytes is 255 modulo 256 (R210). -/
def headerPasses (header : List Byte) : Bool := header.foldl (· + ·) 0#8 == 255#8

end Sys2Proof.Machine
end

