-- ==== Sys2Proof/Machine/Flags.lean ====
section
/-!
DEFINITION. The Alert Unit's flags, records and lamps (Chapter 10): setting a flag, raising a record, the order of the
alert queue, the backlog at commissioning. These operations take no buffer; sending is in Machine/Alerts.lean.
-/

namespace Sys2Proof.Machine

/-- The place of a kind in Table 10-1, from 0. -/
def AlertKind.index : AlertKind → Fin 13
  | .warning => 0
  | .portIsolated => 1
  | .readmitted => 2
  | .terminator => 3
  | .linkDown => 4
  | .codeConflict => 5
  | .duplicate => 6
  | .quarantine => 7
  | .poolEmpty => 8
  | .formChange => 9
  | .printerOffline => 10
  | .jobAbandoned => 11
  | .storeFault => 12

/-- The thirteen kinds in the order of Table 10-1. -/
def AlertKind.all : List AlertKind :=
  [.warning, .portIsolated, .readmitted, .terminator, .linkDown, .codeConflict, .duplicate, .quarantine, .poolEmpty,
   .formChange, .printerOffline, .jobAbandoned, .storeFault]

/-- The instances of a kind (Table 10-1): ports, segments, star ports or queues by number, and 0 where there is one
instance (R213). -/
def AlertKind.hasInstance (k : AlertKind) (i : Nat) : Bool :=
  match k with
  | .warning | .portIsolated | .readmitted => decide (i ≤ 11)
  | .terminator => decide (i ≤ 3)
  | .linkDown => decide (i ≤ 7)
  | .codeConflict | .duplicate | .quarantine | .poolEmpty | .storeFault => decide (i = 0)
  | .formChange | .printerOffline | .jobAbandoned => decide (1 ≤ i) && decide (i ≤ 6)

/-- The kinds whose detail is replaced when they are set again (R192). -/
def AlertKind.replacesDetail : AlertKind → Bool
  | .codeConflict | .duplicate | .quarantine => true
  | .warning | .portIsolated | .readmitted | .terminator | .linkDown | .poolEmpty | .formChange | .printerOffline
  | .jobAbandoned | .storeFault => false

/-- The enable of a kind (R193). -/
def AlertConfig.enabled (c : AlertConfig) (k : AlertKind) : Bool := c.enables[k.index.val]

/-- The level of a kind (R193). -/
def AlertConfig.level (c : AlertConfig) (k : AlertKind) : Fin 4 := c.levels[k.index.val]

/-- Position in flag-table order: by kind, and within a kind by ascending instance (R192). -/
def AlertFlag.rank (f : AlertFlag) : Nat := f.kind.index.val * 16 + f.inst

/-- A flag is the one of a kind and instance. -/
def AlertFlag.is (f : AlertFlag) (k : AlertKind) (i : Nat) : Bool := f.kind == k && f.inst == i

/-- The flag of a kind and instance, if it is set. -/
def flagOf (s : State) (k : AlertKind) (i : Nat) : Option AlertFlag := s.alerts.flags.find? (fun f => f.is k i)

/-- Put a flag into the list, which is kept in flag-table order. -/
def insertFlag (f : AlertFlag) : List AlertFlag → List AlertFlag
  | [] => [f]
  | x :: xs => if f.rank < x.rank then f :: x :: xs else x :: insertFlag f xs

/-- Put an element immediately after the last one of a list that satisfies `p`, or at the head if none does: the order
of the alert queue (R195) and of a waiting list (R143). -/
def insertAfterLast {α : Type} (p : α → Bool) (r : α) : List α → List α
  | [] => [r]
  | x :: xs => if (x :: xs).any p then x :: insertAfterLast p r xs else r :: x :: xs

/-- A record is offered to the alert queue (R195). The queue is ordered by level and then by age, so the newest record
of the lowest level present is its last. -/
def offerRecord (r : AlertRecord) (s : State) : State :=
  let a := s.alerts
  if a.queue.length < Config.alertQueueSize then
    { s with alerts := { a with queue := insertAfterLast (fun x => decide (r.level ≤ x.level)) r a.queue, queued := bump a.queued } }
  else
    match a.queue.getLast? with
    | some l =>
      if l.level < r.level then
        { s with alerts :=
            { a with queue := insertAfterLast (fun x => decide (r.level ≤ x.level)) r a.queue.dropLast,
                     displaced := bump a.displaced, queued := bump a.queued } }
      else { s with alerts := { a with dropped := bump a.dropped } }
    | none => { s with alerts := { a with dropped := bump a.dropped } }

/-- The record raised from a flag, at its kind's present level (R194). -/
def recordOf (c : AlertConfig) (f : AlertFlag) : AlertRecord :=
  { kind := f.kind, inst := f.inst, level := c.level f.kind, detail := f.detail }

/-- A flag that has just gone from clear to set raises a record if its kind is enabled, the bridge is commissioned and
the destination is not none (R194). -/
def raiseRecord (f : AlertFlag) (s : State) : State :=
  if s.alerts.config.enabled f.kind && s.ctl.commissioned && decide (s.alerts.config.dest ≠ .none) then
    offerRecord (recordOf s.alerts.config f) s
  else s

/-- A flag is set (R192): from clear it takes its detail and raises a record; a flag already set keeps its detail, or
has it replaced for the three kinds of R192, and raises nothing. -/
def setFlag (k : AlertKind) (i : Nat) (d : Option Byte) (s : State) : State :=
  match flagOf s k i with
  | some _ =>
    if k.replacesDetail then
      { s with alerts := { s.alerts with flags := s.alerts.flags.map (fun f => if f.is k i then { f with detail := d } else f) } }
    else s
  | none =>
    let f : AlertFlag := { kind := k, inst := i, detail := d }
    raiseRecord f { s with alerts := { s.alerts with flags := insertFlag f s.alerts.flags } }

/-- The set and enabled flags of one level, in flag-table order. -/
def flagsAtLevel (a : Alerts) (l : Fin 4) : List AlertFlag :=
  a.flags.filter (fun f => a.config.enabled f.kind && a.config.level f.kind == l)

/-- The backlog raised at commissioning: by level, highest first, and within a level in flag-table order (R198). -/
def raiseBacklog (s : State) : State :=
  if s.alerts.config.dest = .none then s
  else
    ([3, 2, 1, 0].flatMap (flagsAtLevel s.alerts)).foldl (fun s f => offerRecord (recordOf s.alerts.config f) s) s

/-- Lamp `n` is lit while a flag is set whose kind is enabled at level `n` (R199). The lamps show it from the end of the
start-up load, so no lamp is lit while the part is in reset (Table 10-4). -/
def lampLit (s : State) (n : Fin 4) : Bool := s.isRunning && !(flagsAtLevel s.alerts n).isEmpty

end Sys2Proof.Machine
end

