-- ==== Sys2Proof/Machine/Frames.lean ====
section
/-!
DEFINITION. Frame buffers, references and transmit queues (Sections 3.1 and 3.7, R25, R27, R38), and the frames that
the transmitters send (R209 to R211).
-/

namespace Sys2Proof.Machine

/-! ## Message kinds (R209) -/

/-- The PRINT kind. -/
def kindPrint : Byte := 0x02#8

/-- The CONTROL kind. -/
def kindControl : Byte := 0x03#8

/-- The ROLL kind. -/
def kindRoll : Byte := 0x04#8

/-! ## The buffer pool -/

/-- A free buffer, if there is one. Which of them is taken shows nowhere (Table 0-2); the model takes the first
(DESIGN CHOICE, log entry 14). -/
def freeBuf (s : State) : Option BufId := (List.finRange 48).find? (fun b => (s.buf b).refs == 0)

/-- The number of free buffers, 0 to 48 (R43). -/
def freeBuffers (s : State) : Nat := (List.finRange 48).countP (fun b => (s.buf b).refs == 0)

/-- Take a free buffer and write a frame into it (R44). Its count of 1 is the hold of the event that takes it, which
`dropRef` ends. -/
def takeBuf (kind : Byte) (payload : List Byte) (s : State) : Option (BufId × State) :=
  match freeBuf s with
  | none => none
  | some b => some (b, s.modBuf b (fun _ => { refs := 1, kind := kind, payload := payload, trunkAddr := none, starAddr := none }))

/-- A queue takes a reference to a buffer (R43). -/
def addRef (b : BufId) (s : State) : State := s.modBuf b (fun x => { x with refs := x.refs + 1 })

/-- The trunk transmit queue holds a reference to a buffer. -/
def onTrunkQueue (s : State) (b : BufId) : Bool := s.trunk.queue.contains b

/-- Some star transmit queue holds a reference to a buffer. -/
def onStarQueue (s : State) (b : BufId) : Bool := (List.finRange 8).any fun p => (s.starPort p).queue.contains b

/-- A buffer after one reference to it is released: free at a count of 0, and otherwise without the addressing of a kind
of transmit queue that holds it no longer (R45, Table 3-1). -/
def Buf.released (onTrunk onStar : Bool) (x : Buf) : Buf :=
  if x.refs ≤ 1 then Buf.free
  else { x with
    refs := x.refs - 1, trunkAddr := if onTrunk then x.trunkAddr else none,
    starAddr := if onStar then x.starAddr else none }

/-- A reference is released: it has left its queue, or was refused there, or was the hold of the event that took the
buffer (R45). -/
def dropRef (b : BufId) (s : State) : State := s.modBuf b (Buf.released (onTrunkQueue s b) (onStarQueue s b))

/-- An event ends: the buffer that it has taken, if any, leaves it with the references that were placed, and is free where
none was (R44). -/
def endHold (held : Option BufId) (s : State) : State :=
  match held with
  | none => s
  | some b => dropRef b s

/-- Release a list of references. -/
def dropRefs (bs : List BufId) (s : State) : State := bs.foldl (fun s b => dropRef b s) s

/-- Write the trunk addressing of a buffer (R46). -/
def setTrunkAddr (b : BufId) (dst src : DeskCode) (s : State) : State :=
  s.modBuf b (fun x => { x with trunkAddr := some { dst := dst, src := src } })

/-- Write the star addressing of a buffer (R46). -/
def setStarAddr (b : BufId) (dst src : StationId) (s : State) : State :=
  s.modBuf b (fun x => { x with starAddr := some { dst := dst, src := src } })

/-! ## Offers -/

/-- A reference is offered to the trunk transmit queue: refused while the trunk is down (R27) or at 16 references (R25),
else it joins at the tail. -/
def offerTrunk (b : BufId) (s : State) : State :=
  if trunkDown s then s.modTrunkCounters (fun c => { c with trunkDown := bump c.trunkDown })
  else if Config.trunkQueueSize ≤ s.trunk.queue.length then
    s.modTrunkCounters (fun c => { c with queueFull := bump c.queueFull })
  else addRef b { s with trunk := { s.trunk with queue := s.trunk.queue ++ [b] } }

/-- A reference is offered to a star transmit queue (R38). -/
def offerStar (p : StarNo) (b : BufId) (s : State) : State :=
  if !starConnected s p then
    s.modStar p (fun x => { x with counters := { x.counters with notConnected := bump x.counters.notConnected } })
  else if Config.starQueueSize ≤ (s.starPort p).queue.length then
    s.modStar p (fun x => { x with counters := { x.counters with queueFull := bump x.counters.queueFull } })
  else addRef b (s.modStar p (fun x => { x with queue := x.queue ++ [b] }))

/-- A reference is offered to each of a list of star ports. -/
def offerStars (ps : List StarNo) (b : BufId) (s : State) : State := ps.foldl (fun s p => offerStar p b s) s

/-! ## The bridge's own frames (R66) -/

/-- Where a frame the bridge builds goes: one queue, every connected star port, or nowhere. -/
inductive Dest where
  | trunk (c : DeskCode)
  | star (p : StarNo) (x : StationId)
  | flood (x : StationId)
  | nowhere
  deriving DecidableEq, Repr

/-- A directory entry as a destination (R66). -/
def entryDest (e : Entry) : Dest :=
  match e.place with
  | .trunk _ => .trunk e.code
  | .star x (some p) => .star p x
  | .star _ none => .nowhere

/-- A return route as a destination (R66). -/
def routeDest : Route → Dest
  | .segment _ c => .trunk c
  | .star p x => .star p x

/-- The entry under a code as a destination. -/
def codeDest (s : State) (c : DeskCode) : Dest :=
  match findEntry s c with
  | some e => entryDest e
  | none => .nowhere

/-- A station ID of the trunk range as an alert destination: from `base + 1` to `base + 239` the desk code it stands for,
and any other is not offered (R66, R193). -/
def trunkIdDest (s : State) (x : StationId) : Dest :=
  if inTrunkRange s.office.base x && isDesk (deskOfId s.office.base x) then .trunk (deskOfId s.office.base x) else .nowhere

/-- The alert destination as it stands (R66). An ID that lay in the trunk range when ALERT_SET took it stays a trunk-range
ID, so one that a change of `base` has moved out of the range is left unsent as R193 says, and not flooded as any other ID
(DESIGN CHOICE, log entry 51). -/
def alertDest (s : State) : Dest :=
  match s.alerts.config.dest with
  | .none => .nowhere
  | .code c =>
    match findEntry s c with
    | some e => if e.isTrunk then .trunk c else entryDest e
    | none => .trunk c
  | .id x =>
    match indexEntry s x with
    | some e => entryDest e
    | none =>
      if x = nullId || x = broadcastId || isPartId s x then .nowhere
      else if inTrunkRange s.office.base x then trunkIdDest s x
      else .flood x
  | .trunkId x =>
    match indexEntry s x with
    | some e => entryDest e
    | none => trunkIdDest s x

/-- Write the addressing for a destination, with the bridge as source, and offer the reference (R66). -/
def deliver (b : BufId) (d : Dest) (s : State) : State :=
  match d with
  | .trunk c => offerTrunk b (setTrunkAddr b c bridgeCode s)
  | .star p x => offerStar p b (setStarAddr b x s.chassis.unitNumber s)
  | .flood x => offerStars (connectedStars s) b (setStarAddr b x s.chassis.unitNumber s)
  | .nowhere => s

/-- Build a frame of the bridge's own and send it to a destination; `none` when no buffer is free (R44, R66). The buffer of
a frame that is not placed is free from then on, also for what else the same event builds (DEDUCED, log entry 52). -/
def sendBuilt (kind : Byte) (payload : List Byte) (d : Dest) (s : State) : Option State :=
  match takeBuf kind payload s with
  | none => none
  | some (b, s1) => some (dropRef b (deliver b d s1))

/-! ## The frames on the networks (R209 to R211) -/

/-- The header of a trunk frame: destination, source, kind, length, header check (Table 12-1). -/
def trunkHeader (dst src : DeskCode) (kind : Byte) (len : Nat) : List Byte :=
  [dst, src, kind] ++ u16 len ++ [headerCheck ([dst, src, kind] ++ u16 len)]

/-- A trunk frame as it is driven: lead-in, header, payload, frame check over header and payload (Table 12-1, R210). -/
def trunkFrame (a : TrunkAddr) (kind : Byte) (payload : List Byte) : List Byte :=
  [0xA5#8, 0xC3#8] ++ (trunkHeader a.dst a.src kind payload.length ++ payload)
    ++ checkBytes (crc16 (trunkHeader a.dst a.src kind payload.length ++ payload))

/-- The bytes of a star frame before its check (Table 12-2). -/
def starFrameBody (a : StarAddr) (kind : Byte) (payload : List Byte) : List Byte :=
  u32 a.dst ++ u32 a.src ++ [kind] ++ u16 payload.length ++ payload

/-- A star frame as it is sent (Table 12-2, R210, R211). -/
def starFrame (a : StarAddr) (kind : Byte) (payload : List Byte) : List Byte :=
  starFrameBody a kind payload ++ checkBytes (crc16 (starFrameBody a kind payload))

/-- The frame a buffer sends onto the trunk (R25). -/
def bufTrunkFrame (x : Buf) : List Byte := trunkFrame (x.trunkAddr.getD { dst := 0, src := 0 }) x.kind x.payload

/-- The frame a buffer sends onto a star port (R39). -/
def bufStarFrame (x : Buf) : List Byte := starFrame (x.starAddr.getD { dst := 0, src := 0 }) x.kind x.payload

end Sys2Proof.Machine
end

