-- ==== Sys2Proof/Machine/Accounting.lean ====
section
/-!
DEFINITION. The Accounting Unit (Chapter 8): counting bytes and endings, and the snapshot.
-/

namespace Sys2Proof.Machine

/-- A FEED of `n` payload bytes is added to a set: with carry, or saturating at the top of both halves (R171). -/
def CostSet.addBytes (c : CostSet) (n : Nat) : CostSet :=
  if c.saturated then c
  else if c.low + n ≤ 65535 then { c with low := c.low + n }
  else if c.high < 65535 then { c with low := c.low + n - 65536, high := c.high + 1 }
  else { c with low := 65535, high := 65535, saturated := true }

/-- A completed job is counted (R172). -/
def CostSet.addCompleted (c : CostSet) : CostSet := { c with completed := gain 65535 c.completed }

/-- An abandoned job is counted (R172). -/
def CostSet.addAbandoned (c : CostSet) : CostSet := { c with abandoned := gain 65535 c.abandoned }

/-- The number a set's bytes count stands for (R170). -/
def CostSet.bytes (c : CostSet) : Nat := c.high * 65536 + c.low

/-- A snapshot: every live set is copied, the snapshot number gains one with 255 followed by 0, and with the clear
option the live sets become zero (R174). -/
def takeSnapshot (clear : Bool) (a : Accounting) : Accounting :=
  { live := if clear then Vector.replicate 16 CostSet.zero else a.live, hold := a.live, snapshot := a.snapshot + 1 }

end Sys2Proof.Machine
end

