-- ==== Sys2Proof/Machine/Operands.lean ====
section
/-!
DEFINITION. Reading PRINT messages and CONTROL requests out of a payload (R145, R180, R212, R213), and writing PRINT
messages. A payload that is not of its form is read as malformed; nothing here changes the state.
-/

namespace Sys2Proof.Machine

/-! ## PRINT messages -/

/-- A queue byte 1–6 as a queue; anything else names no queue. -/
def queueOf (b : Byte) : Option QueueNo :=
  if h : 1 ≤ b.toNat ∧ b.toNat ≤ 6 then some ⟨b.toNat - 1, by omega⟩ else none

/-- The manual's number of a queue. -/
def queueByte (q : QueueNo) : Byte := BitVec.ofNat 8 (q.val + 1)

/-- A form byte 0–15. -/
def formOf (b : Byte) : Option (Fin 16) := if h : b.toNat ≤ 15 then some ⟨b.toNat, by omega⟩ else none

/-- A value clamped to 0–15. -/
def fin16 (n : Nat) : Fin 16 := ⟨min n 15, by omega⟩

/-- A value clamped to 0–3. -/
def fin4 (n : Nat) : Fin 4 := ⟨min n 3, by omega⟩

/-- A PRINT message (Table 12-3). A malformed one keeps the queue and ticket bytes its answer repeats; both are 0 where
the message refused is an OPEN, a STATUS or of no known operation (R212, log entry 8). -/
inductive PrintMsg where
  | openJob (q : QueueNo) (form : Fin 16) (label : List Byte)
  | data (q : QueueNo) (n : Byte) (bytes : List Byte)
  | close (q : QueueNo) (n : Byte)
  | cancel (q : QueueNo) (n : Byte)
  | status (online : Bool) (form : Fin 16) (credit : Nat)
  | malformed (q n : Byte)
  deriving DecidableEq, Repr

/-- The first byte of a list, or 0 where the message is too short to hold it (R212). -/
def byteAt (l : List Byte) (i : Nat) : Byte := l.getD i 0

/-- Read a PRINT payload (R145, R212). -/
def parsePrint (payload : List Byte) : PrintMsg :=
  match payload with
  | [] => .malformed 0 0
  | op :: body =>
    if op = 0x01#8 then
      match body with
      | q :: f :: n :: label =>
        match queueOf q, formOf f with
        | some q', some f' => if n.toNat ≤ 16 ∧ label.length = n.toNat then .openJob q' f' label else .malformed 0 0
        | _, _ => .malformed 0 0
      | _ => .malformed 0 0
    else if op = 0x02#8 then
      match body with
      | q :: n :: bytes =>
        match queueOf q with
        | some q' => if 1 ≤ bytes.length ∧ bytes.length ≤ 490 then .data q' n bytes else .malformed q n
        | none => .malformed q n
      | _ => .malformed (byteAt body 0) 0
    else if op = 0x03#8 then
      match body with
      | [q, n] =>
        match queueOf q with
        | some q' => .close q' n
        | none => .malformed q n
      | _ => .malformed (byteAt body 0) (byteAt body 1)
    else if op = 0x04#8 then
      match body with
      | [q, n] =>
        match queueOf q with
        | some q' => .cancel q' n
        | none => .malformed q n
      | _ => .malformed (byteAt body 0) (byteAt body 1)
    else if op = 0x05#8 then
      match body with
      | [o, f, c] =>
        match formOf f with
        | some f' => if o.toNat ≤ 1 then .status (o == 1#8) f' (min 15 c.toNat) else .malformed 0 0
        | none => .malformed 0 0
      | _ => .malformed 0 0
    else .malformed 0 0

/-- Reasons of a REFUSED answer (Table 12-4). -/
inductive RefuseReason where
  | malformed | noSuch | noCode | suspended | limit | full | notYours
  deriving DecidableEq, Repr

/-- The number of a reason (Table 12-4). -/
def RefuseReason.number : RefuseReason → Byte
  | .malformed => 1
  | .noSuch => 2
  | .noCode => 3
  | .suspended => 4
  | .limit => 5
  | .full => 6
  | .notYours => 7

/-- Answers of the Print Arbiter (Table 7-4). -/
inductive PrintAnswer where
  | granted
  | queued (position : Nat)
  | wait
  | closed
  | cancelled
  | abandoned
  | refused (r : RefuseReason)
  deriving DecidableEq, Repr

/-- The number of an answer (Table 12-4). -/
def PrintAnswer.number : PrintAnswer → Byte
  | .granted => 1
  | .queued _ => 2
  | .wait => 3
  | .closed => 4
  | .cancelled => 5
  | .abandoned => 6
  | .refused _ => 7

/-- The last byte of an answer: the position, the reason, or 0 (R212). -/
def PrintAnswer.last : PrintAnswer → Byte
  | .queued p => BitVec.ofNat 8 p
  | .refused r => r.number
  | .granted | .wait | .closed | .cancelled | .abandoned => 0

/-- An ANSWER payload (Table 12-3). -/
def answerPayload (a : PrintAnswer) (q n : Byte) : List Byte := [0x10#8, a.number, q, n, a.last]

/-- A FEED payload (Table 12-3). -/
def feedPayload (q n : Byte) (bytes : List Byte) : List Byte := [0x12#8, q, n] ++ bytes

/-- An END payload, with the bytes fed of the ticket (Table 12-3). -/
def endPayload (q n : Byte) (fed : Counter) : List Byte := [0x13#8, q, n] ++ u32 fed

/-- A BREAK payload (Table 12-3). -/
def breakPayload (q n : Byte) : List Byte := [0x14#8, q, n]

/-! ## CONTROL requests -/

/-- A CONTROL request taken from the control input queue: its operation byte, tag and parameter bytes (Table 12-5). -/
structure Request where
  op : Byte
  tag : BitVec 16
  params : List Byte
  deriving DecidableEq, Repr

/-- Read a request header; a payload of fewer than 3 bytes is too short (R180, R213). -/
def parseRequest (payload : List Byte) : Option Request :=
  match payload with
  | op :: hi :: lo :: params => some { op := op, tag := hi ++ lo, params := params }
  | _ => none

/-- A byte that holds a choice of two: 0 is off, no, clear, false; 1 is on, yes, set, true (R213). -/
def boolOf (b : Byte) : Option Bool := if b = 0#8 then some false else if b = 1#8 then some true else none

/-- Read a list of bytes as choices of two. -/
def boolsOf : List Byte → Option (List Bool)
  | [] => some []
  | b :: bs =>
    match boolOf b, boolsOf bs with
    | some x, some xs => some (x :: xs)
    | _, _ => none

/-- A LOSS action, numbered IGNORE 0, REPORT 1, ISOLATE 2 (Table 1-2, R213). -/
def lossOf (b : Byte) : Option LossAction :=
  if b = 0#8 then some .ignore else if b = 1#8 then some .report else if b = 2#8 then some .isolate else none

/-- A RETURN action, numbered IGNORE 0, REPORT 1 (Table 1-2, R213). -/
def returnOf (b : Byte) : Option ReturnAction :=
  if b = 0#8 then some .ignore else if b = 1#8 then some .report else none

/-- A port number 0–11. -/
def portOf (b : Byte) : Option PortNo := if h : b.toNat ≤ 11 then some ⟨b.toNat, by omega⟩ else none

/-- A list of known length as a table. -/
def vecOf {α : Type} (n : Nat) (l : List α) : Option (Vector α n) :=
  if h : l.length = n then some ⟨l.toArray, by simpa using h⟩ else none

/-- The nine settings of Table 6-5 as 16 parameter bytes, not yet clamped. -/
def settingsOf (l : List Byte) : Option Settings :=
  match l with
  | [wr, wg, wc, wl, w1, w0, i1, i0, r1, r0, j1, j0, bh, pr, lt, cl] =>
    some { wRunt := wr.toNat, wGarble := wg.toNat, wCheck := wc.toNat, wLink := wl.toNat, warn := be16 w1 w0,
           isolate := be16 i1 i0, runtLimit := be16 r1 r0, jabberLimit := be16 j1 j0, baseHold := bh.toNat,
           probation := pr.toNat, loadThreshold := lt.toNat, cleanLimit := cl.toNat }
  | _ => none

/-- The nine settings clamped to their ranges, the thresholds as a pair (R131). -/
def Settings.clamped (s : Settings) : Settings :=
  let isolate := max 2 (clamp 1 1023 s.isolate)
  { wRunt := min s.wRunt 15, wGarble := min s.wGarble 15, wCheck := min s.wCheck 15, wLink := min s.wLink 15,
    warn := min (clamp 1 1023 s.warn) (isolate - 1), isolate := isolate, runtLimit := clamp 100 400 s.runtLimit,
    jabberLimit := clamp 8400 60000 s.jabberLimit, baseHold := clamp 1 255 s.baseHold,
    probation := clamp 1 63 s.probation, loadThreshold := min s.loadThreshold 100, cleanLimit := clamp 1 255 s.cleanLimit }

/-- Parameters of ENTRY_FIX (R82, R213). -/
structure FixReq where
  code : DeskCode
  /-- STAR when true, TRUNK when false. -/
  star : Bool
  identity : BitVec 32
  admin : Bool
  queue : Byte
  costCentre : Fin 16
  printClass : Fin 4
  limit : Nat
  deriving DecidableEq, Repr

/-- Read ENTRY_FIX; the cost centre, print class and presence limit are clamped (R82). -/
def parseFix (l : List Byte) : Option FixReq :=
  match l with
  | [c, side, a, b, d, e, adm, q, cc, pc, p1, p0] =>
    match boolOf side, boolOf adm with
    | some st, some ad =>
      some { code := c, star := st, identity := be32 a b d e, admin := ad, queue := q, costCentre := fin16 cc.toNat,
             printClass := fin4 pc.toNat, limit := clamp 30 65535 (be16 p1 p0) }
    | _, _ => none
  | _ => none

/-- Parameters of PRINTER_SET (R162), with the limits clamped. -/
structure PrinterReq where
  queue : Byte
  code : DeskCode
  idleLimit : Nat
  formHold : Nat
  enable : Bool
  deriving DecidableEq, Repr

/-- Read PRINTER_SET. -/
def parsePrinterSet (l : List Byte) : Option PrinterReq :=
  match l with
  | [q, c, il, f1, f0, en] =>
    match boolOf en with
    | some e => some { queue := q, code := c, idleLimit := clamp 5 255 il.toNat, formHold := clamp 10 3600 (be16 f1 f0), enable := e }
    | none => none
  | _ => none

/-- Read OFFICE_PLAN, with the counting and measuring fields clamped (R184). -/
def parseOffice (l : List Byte) : Option OfficePlan :=
  match l with
  | b3 :: b2 :: b1 :: b0 :: lo :: hi :: p :: ts :: st :: l1 :: l0 :: m1 :: m0 :: bb :: q1 :: q0 :: sf :: mv :: ens =>
    match boolOf ts, boolOf st, boolsOf ens with
    | some t, some s, some es =>
      match vecOf 8 es with
      | some v =>
        some { base := be32 b3 b2 b1 b0, proxyLow := BitVec.ofNat 8 (clamp 1 239 lo.toNat),
               proxyHigh := BitVec.ofNat 8 (clamp 1 239 hi.toNat), period := p.toNat, trunkToStar := t, starToTrunk := s,
               learnedLimit := clamp 30 65535 (be16 l1 l0), minSpacing := clamp 10 2500 (be16 m1 m0),
               babbleLimit := clamp 1 31 bb.toNat, quarantine := clamp 5 3600 (be16 q1 q0),
               faultLimit := clamp 1 63 sf.toNat, moveLimit := clamp 1 15 mv.toNat, enables := v }
      | none => none
    | _, _, _ => none
  | _ => none

/-- Parameters of TRUNK_PLAN (R185). -/
structure TrunkReq where
  plans : Vector SegPlan 4
  settings : Settings
  deriving DecidableEq, Repr

/-- One segment's enable and actions. -/
def segPlanOf (en ls rt : Byte) : Option SegPlan :=
  match boolOf en, lossOf ls, returnOf rt with
  | some e, some l, some r => some { enable := e, loss := l, ret := r }
  | _, _, _ => none

/-- Read TRUNK_PLAN: four enables, then each segment's LOSS and RETURN actions, then the settings, clamped (R185). -/
def parseTrunk (l : List Byte) : Option TrunkReq :=
  match l with
  | e0 :: e1 :: e2 :: e3 :: l0 :: r0 :: l1 :: r1 :: l2 :: r2 :: l3 :: r3 :: rest =>
    match segPlanOf e0 l0 r0, segPlanOf e1 l1 r1, segPlanOf e2 l2 r2, segPlanOf e3 l3 r3, settingsOf rest with
    | some a, some b, some c, some d, some s => some { plans := #v[a, b, c, d], settings := s.clamped }
    | _, _, _, _, _ => none
  | _ => none

/-- Read ALERT_SET: 13 enables, 13 levels clamped to 0–3, and the destination (R193, R213). -/
def parseAlertSet (l : List Byte) : Option AlertConfig :=
  match boolsOf (l.take 13), (l.drop 26) with
  | some es, [form, a, b, c, d] =>
    match vecOf 13 es, vecOf 13 (((l.drop 13).take 13).map (fun x => fin4 x.toNat)) with
    | some en, some lv =>
      if form = 0#8 then some { enables := en, levels := lv, dest := .none }
      else if form = 1#8 then some { enables := en, levels := lv, dest := .code d }
      else if form = 2#8 then some { enables := en, levels := lv, dest := .id (be32 a b c d) }
      else none
    | _, _ => none
  | _, _ => none

/-- An alert kind by its number 1–13 (R213). -/
def kindOf (b : Byte) : Option AlertKind := if b = 0#8 then none else AlertKind.all[b.toNat - 1]?

/-- The items of an ALERT_CLEAR: a kind and an instance byte each, 255 standing for ALL (R197, R213). -/
def clearItems : List Byte → Option (List (AlertKind × Byte))
  | [] => some []
  | [_] => none
  | k :: i :: rest =>
    match kindOf k, clearItems rest with
    | some a, some xs => some ((a, i) :: xs)
    | _, _ => none

/-- Read ALERT_CLEAR: a count of 1–16 and that many items (R197, R180; DEDUCED, log entry 24). -/
def parseAlertClear (l : List Byte) : Option (List (AlertKind × Byte)) :=
  match l with
  | n :: items => if 1 ≤ n.toNat ∧ n.toNat ≤ 16 ∧ items.length = 2 * n.toNat then clearItems items else none
  | [] => none

end Sys2Proof.Machine
end

