-- ==== Sys2Proof/Machine/Printing.lean ====
section
/-!
DEFINITION. The Print Arbiter's shared operations (Chapter 7): tickets, answers, selection, the three endings of a
grant, the loss of reachability and the removal of tickets.
-/

namespace Sys2Proof.Machine

/-! ## Tickets and records -/

/-- The grant of a printer, present in GRANTED only (Table 7-2). -/
def Printer.grant (p : Printer) : Option Ticket :=
  match p.state with
  | .granted t => some t
  | .disabled | .idle | .formWait _ => none

/-- Every ticket of a queue: its grant and its waiting list. -/
def Printer.tickets (p : Printer) : List Ticket := p.grant.toList ++ p.waiting

/-- Every ticket of the pool. -/
def allTickets (s : State) : List Ticket := s.print.printers.toList.flatMap Printer.tickets

/-- The number of tickets in the pool (R142). -/
def ticketCount (s : State) : Nat := (allTickets s).length

/-- The number of tickets whose requester is the entry under a code (R68). -/
def ticketsHeld (s : State) (c : DeskCode) : Nat := (allTickets s).countP (fun t => t.requester == c)

/-- A ticket's number as the byte that messages carry. -/
def Ticket.byte (t : Ticket) : Byte := BitVec.ofNat 8 t.number

/-- A queue is configured while its printer code is present (R141). -/
def Printer.configured (p : Printer) : Bool := p.code.isSome

/-- The printer's directory entry. -/
def printerEntry (s : State) (q : QueueNo) : Option Entry := (s.printer q).code.bind (findEntry s)

/-- A printer is reachable when its printer-code entry is reachable (R144). -/
def printerReachable (s : State) (q : QueueNo) : Bool :=
  match printerEntry s q with
  | some e => entryReachable s e
  | none => false

/-- IDLE or FORM_WAIT, the states in which selection may act (R144). -/
def PrinterState.selectable : PrinterState → Bool
  | .idle | .formWait _ => true
  | .disabled | .granted _ => false

/-- A printer is eligible (R144). -/
def eligible (s : State) (q : QueueNo) : Bool :=
  (s.printer q).configured && (s.printer q).enable && (s.printer q).online && printerReachable s q
    && (s.printer q).state.selectable

/-- The waiting tickets whose requesters are reachable, in waiting-list order (R153). -/
def candidates (s : State) (q : QueueNo) : List Ticket :=
  (s.printer q).waiting.filter (fun t => reachable s t.requester)

/-- A new ticket's place: immediately after the last ticket whose class is at or above its own (R143). -/
def placeTicket (t : Ticket) (l : List Ticket) : List Ticket := insertAfterLast (fun x => decide (t.cls ≤ x.cls)) t l

/-- The first ticket number from `n` upward, wrapping from 255 to 1, that no ticket holds (R147). `fuel` bounds the
count at the 33 steps in which a free number is always found. -/
def freeNumber (used : List Nat) : Nat → Nat → Nat
  | n, 0 => n
  | n, fuel + 1 => if used.contains n then freeNumber used (if n = 255 then 1 else n + 1) fuel else n

/-- The number given to the next ticket of a queue (R147). -/
def nextNumber (p : Printer) : Nat := freeNumber (p.tickets.map Ticket.number) p.nextTicket 33

/-- A number followed by the next, 255 by 1 (R147). -/
def numberAfter (n : Nat) : Nat := if n = 255 then 1 else n + 1

/-! ## Messages the arbiter sends -/

/-- An answer is built in a fresh buffer and sent; with no buffer free it is lost and counted (R145). -/
def sendAnswer (d : Dest) (a : PrintAnswer) (q n : Byte) (s : State) : State :=
  match sendBuilt kindPrint (answerPayload a q n) d s with
  | some s1 => s1
  | none => { s with print := { s.print with answerLost := bump s.print.answerLost } }

/-- An answer about a ticket, sent to its requester entry (R145). -/
def answerRequester (a : PrintAnswer) (q : QueueNo) (t : Ticket) (s : State) : State :=
  sendAnswer (codeDest s t.requester) a (queueByte q) t.byte s

/-- END or BREAK is sent to the printer while it is reachable; with no buffer free it is counted lost (R157). -/
def sendEnding (q : QueueNo) (payload : List Byte) (s : State) : State :=
  match printerEntry s q with
  | none => s
  | some e =>
    if entryReachable s e then
      match sendBuilt kindPrint payload (entryDest e) s with
      | some s1 => s1
      | none => { s with print := { s.print with endingLost := bump s.print.endingLost } }
    else s

/-! ## Endings of a grant (R155) -/

/-- How a grant ends: by completion, or by abandonment that does or does not set JOB_ABANDONED. -/
inductive Ending where
  | completion
  | abandonment (flagged : Bool)
  deriving DecidableEq, Repr

/-- The state a printer takes when its grant has gone (R155). -/
def Printer.afterGrant (p : Printer) : PrinterState := if p.enable then .idle else .disabled

/-- The grant `t` of queue `q` ends (R155): END or BREAK is sent while the printer is reachable (R157), the ticket
leaves the pool, and the ending is counted. -/
def endGrant (how : Ending) (q : QueueNo) (t : Ticket) (s : State) : State :=
  match how with
  | .completion =>
    ((sendEnding q (endPayload (queueByte q) t.byte t.bytesFed) s).modPrinter q
        (fun p => { p with state := p.afterGrant, completed := bump p.completed })).modLive t.costCentre CostSet.addCompleted
  | .abandonment flagged =>
    let s1 := ((sendEnding q (breakPayload (queueByte q) t.byte) s).modPrinter q
        (fun p => { p with state := p.afterGrant })).modLive t.costCentre CostSet.addAbandoned
    if flagged then setFlag .jobAbandoned (q.val + 1) (some t.byte) s1 else s1

/-- A granted job is abandoned and its requester entry is told ABANDONED (R158 to R163, R166). -/
def abandonAndTell (q : QueueNo) (t : Ticket) (s : State) : State :=
  answerRequester .abandoned q t (endGrant (.abandonment true) q t s)

/-- A WAITING ticket leaves its list and the pool. -/
def dropWaiting (q : QueueNo) (t : Ticket) (s : State) : State :=
  s.modPrinter q (fun p => { p with waiting := p.waiting.erase t })

/-! ## Selection and the grant (R153, R154) -/

/-- A ticket is granted; GRANTED goes to its requester unless `told` says that another answer carries it (R154). -/
def grantTicket (told : Bool) (q : QueueNo) (t : Ticket) (s : State) : State :=
  let s1 := s.modPrinter q (fun p =>
    { p with state := .granted t, waiting := p.waiting.erase t, idleRemaining := p.idleLimit })
  if told then s1 else answerRequester .granted q t s1

/-- The printer enters FORM_WAIT or changes its wanted form, which sets FORM_CHANGE; the same wanted form changes
nothing (R153 case 3). -/
def awaitForm (q : QueueNo) (f : Fin 16) (s : State) : State :=
  if (s.printer q).state = .formWait f then s
  else setFlag .formChange (q.val + 1) (some (BitVec.ofNat 8 f.val)) (s.modPrinter q (fun p => { p with state := .formWait f }))

/-- What selection decides for a printer: a ticket to grant, a form to wait for, or nothing to serve (R153). -/
inductive Choice where
  | grant (t : Ticket)
  | await (f : Fin 16)
  | nothing
  deriving DecidableEq, Repr

/-- The first case of R153 that holds. -/
def choose (p : Printer) (cands : List Ticket) : Choice :=
  match cands with
  | [] => .nothing
  | head :: _ =>
    if head.form = p.loadedForm then .grant head
    else if head.waitAge < p.formHold then
      match cands.find? (fun t => t.form == p.loadedForm) with
      | some t => .grant t
      | none => .await head.form
    else .await head.form

/-- Selection for one printer (R153). `opened` names the ticket of the OPEN being handled, whose GRANTED is the answer
to that OPEN (R154). -/
def select (opened : Option (QueueNo × Nat)) (q : QueueNo) (s : State) : State :=
  if eligible s q then
    match choose (s.printer q) (candidates s q) with
    | .grant t => grantTicket (opened == some (q, t.number)) q t s
    | .await f => awaitForm q f s
    | .nothing => s.modPrinter q (fun p => { p with state := .idle })
  else s

/-- Selection for each printer (R153), in ascending order of queue (DESIGN CHOICE, log entry 15). -/
def selectFor (opened : Option (QueueNo × Nat)) (s : State) : State :=
  (List.finRange 6).foldl (fun s q => select opened q s) s

/-- Selection at the end of an event of the arbiter (R153). -/
def selectAll (s : State) : State := selectFor none s

/-! ## Loss of reachability (R159, R160) -/

/-- The stations that are reachable, by code and station ID, in the order of the directory. A code that passes from one
station to another within an event is a change of them (R77, R79). -/
def reachableStations (s : State) : List (DeskCode × Option StationId) :=
  (s.dir.entries.filter (entryReachable s)).map (fun e => (e.code, e.starId?))

/-- A printer that was reachable in `before` and is not any more loses its credit (R159). -/
def clearLostCredit (before : State) (q : QueueNo) (s : State) : State :=
  if printerReachable before q && !printerReachable s q then s.modPrinter q (fun p => { p with credit := 0 }) else s

/-- A grant whose printer or requester is not reachable is abandoned and its requester told; BREAK goes out only while
the printer is reachable (R159, R160). -/
def endLostGrant (q : QueueNo) (s : State) : State :=
  match (s.printer q).grant with
  | none => s
  | some t => if printerReachable s q && reachable s t.requester then s else abandonAndTell q t s

/-- The Print Arbiter's share of an event: where the event has changed what is reachable, lost credit and lost grants
end within it and selection runs (R144, R153, R159, R160; DEDUCED, log entry 38). -/
def settle (before s : State) : State :=
  if reachableStations before = reachableStations s then s
  else
    selectAll ((List.finRange 6).foldl (fun s q => endLostGrant q s)
      ((List.finRange 6).foldl (fun s q => clearLostCredit before q s) s))

/-! ## Removal of tickets (R161, R163) -/

/-- How the tickets of an entry are removed: with answers to the requester, or without (R161). -/
inductive TellMode where
  | tell | silent
  deriving DecidableEq, Repr

/-- A WAITING ticket is removed; CANCELLED goes to its requester when `tell` (R161, R163). -/
def cancelWaiting (m : TellMode) (q : QueueNo) (t : Ticket) (s : State) : State :=
  match m with
  | .tell => answerRequester .cancelled q t (dropWaiting q t s)
  | .silent => dropWaiting q t s

/-- A GRANTED ticket is abandoned; ABANDONED goes to its requester when `tell` (R161, R163). -/
def abandonGrant (m : TellMode) (q : QueueNo) (t : Ticket) (s : State) : State :=
  match m with
  | .tell => abandonAndTell q t s
  | .silent => endGrant (.abandonment true) q t s

/-- Remove the tickets of one queue that satisfy `p`: the waiting ones in list order, then the grant. -/
def removeTicketsAt (m : TellMode) (p : Ticket → Bool) (q : QueueNo) (s : State) : State :=
  let s1 := ((s.printer q).waiting.filter p).foldl (fun s t => cancelWaiting m q t s) s
  match (s1.printer q).grant with
  | some t => if p t then abandonGrant m q t s1 else s1
  | none => s1

/-- Remove every ticket of the entry under a code, queue by queue (R161). -/
def removeTicketsOf (m : TellMode) (c : DeskCode) (s : State) : State :=
  (List.finRange 6).foldl (fun s q => removeTicketsAt m (fun t => t.requester == c) q s) s

/-- A printer in FORM_WAIT, or an enabled queue that is DISABLED, becomes IDLE; a queue that is not enabled is
DISABLED. A grant is not touched. -/
def restState (q : QueueNo) (s : State) : State :=
  match (s.printer q).grant with
  | some _ => s
  | none => s.modPrinter q (fun p => { p with state := p.afterGrant })

/-- Remove all of a queue's tickets: every waiting one in list order, then the grant (R163). -/
def removeQueueTickets (q : QueueNo) (s : State) : State := restState q (removeTicketsAt .tell (fun _ => true) q s)

/-- Every ticket of one requester names another entry from now on (R76, R86; DESIGN CHOICE, log entry 34). -/
def renameRequester (old new : DeskCode) (s : State) : State :=
  let re := fun (t : Ticket) => if t.requester = old then { t with requester := new } else t
  { s with print := { s.print with printers := s.print.printers.map (fun p =>
      { p with waiting := p.waiting.map re,
               state := match p.state with
                 | .granted t => .granted (re t)
                 | .disabled => .disabled
                 | .idle => .idle
                 | .formWait f => .formWait f }) } }

/-! ## Taking a message from the print input queue (R145, R49) -/

/-- The message at the head of the print input queue, with its buffer and return route. -/
def headPrint (s : State) : Option (InputEntry × PrintMsg) :=
  match s.inputs.print with
  | [] => none
  | e :: _ => some (e, parsePrint (s.buf e.buf).payload)

/-- The head entry leaves the print input queue; its reference is still held by the event (R49). -/
def popPrint (s : State) : State := { s with inputs := { s.inputs with print := s.inputs.print.tail } }

/-- The ticket with number `n` on queue `q`. -/
def findTicket (s : State) (q : QueueNo) (n : Byte) : Option Ticket :=
  (s.printer q).tickets.find? (fun t => t.number == n.toNat)

/-- The ticket with a number is the grant of its queue. -/
def isGrant (s : State) (q : QueueNo) (t : Ticket) : Bool := (s.printer q).grant == some t

/-- The sender entry of a message is the requester of a ticket (R148). -/
def ownsTicket (s : State) (r : Route) (t : Ticket) : Bool :=
  match senderOf s r with
  | some e => e.code == t.requester
  | none => false

end Sys2Proof.Machine
end

