-- ==== Sys2Proof/Machine/Directory.lean ====
section
/-!
DEFINITION. What creation, refresh, suspension, move, renumbering and removal do to an entry, whoever causes them
(Section 4.4), and learning from trunk and star frames (Section 4.5).
-/

namespace Sys2Proof.Machine

/-! ## Changes to an entry -/

/-- A new learned entry (Table 4-3). -/
def learnedEntry (s : State) (c : DeskCode) (p : Place) : Entry :=
  { code := c, place := p, origin := .learned, state := .active, admin := false, printerQueue := none, costCentre := 0,
    printClass := 1, presenceLimit := s.office.learnedLimit, presenceRemaining := s.office.learnedLimit,
    broadcastElapsed := 65535, strikes := 0, periodMoves := 0, periodFaults := 0 }

/-- Create a learned entry (R73). -/
def createLearned (c : DeskCode) (p : Place) (s : State) : State := s.addEntry (learnedEntry s c p)

/-- A refresh: full presence, ACTIVE (R74). -/
def Entry.refreshed (e : Entry) : Entry := { e with presenceRemaining := e.presenceLimit, state := .active }

/-- Refresh the entry under a code (R74). -/
def refresh (c : DeskCode) (s : State) : State := s.modEntry c Entry.refreshed

/-- A suspension ends, by its timer or by ENTRY_RESUME (R90, R106). -/
def Entry.resumed (e : Entry) : Entry :=
  { e with state := .active, presenceRemaining := e.presenceLimit, strikes := 0, periodFaults := 0, periodMoves := 0 }

/-- A timed cause is applied to every entry but one SUSPENDED for ADMIN (R75). -/
def Entry.takesTimed (e : Entry) : Bool :=
  match e.state with
  | .suspended .admin => false
  | .suspended (.timed _ _) | .active | .queried | .absent => true

/-- The flag a timed suspension sets: DUPLICATE, or QUARANTINE for BABBLE and CHECK (R75). -/
def TimedReason.flag : TimedReason → AlertKind
  | .duplicate => .duplicate
  | .babble | .check => .quarantine

/-- Suspend the entry under a code for CHECK, BABBLE or DUPLICATE, for the quarantine time, and set the reason's flag
with the code as detail; an entry SUSPENDED for ADMIN is left as it stands and no flag is set (R75). -/
def suspendTimed (r : TimedReason) (c : DeskCode) (s : State) : State :=
  match findEntry s c with
  | none => s
  | some e =>
    if e.takesTimed then
      setFlag r.flag 0 (some c) (s.modEntry c (fun e => { e with state := .suspended (.timed r s.office.quarantine) }))
    else s

/-- Suspend the entry under a code for ADMIN: no timer, no flag (R75). -/
def suspendAdmin (c : DeskCode) (s : State) : State := s.modEntry c (fun e => { e with state := .suspended .admin })

/-- Take an entry out of the list and put it back under another code; its tickets follow it (R76). The old code does not
join the pool: the event that renumbers takes it. -/
def renumber (old new : DeskCode) (s : State) : State :=
  match findEntry s old with
  | none => s
  | some e => renameRequester old new ((s.dropEntry old).addEntry { e with code := new })

/-- Remove an entry with its tickets, as an event of which another entry takes the code (R77, R79, R84). -/
def removeKeepingCode (m : TellMode) (c : DeskCode) (s : State) : State := (removeTicketsOf m c s).dropEntry c

/-- Remove an entry with its tickets; its code joins the pool at the tail (R77). -/
def removeEntry (m : TellMode) (c : DeskCode) (s : State) : State := (removeKeepingCode m c s).toPool c

/-- A learned proxy entry gives up its code to another station: it is renumbered to the first proxy-range code in pool
order, or removed with POOL_EMPTY set when there is none (R79, R84). Code `c` does not join the pool. -/
def displaceProxy (c : DeskCode) (s : State) : State :=
  match proxyCode s with
  | some new => renumber c new s
  | none => removeKeepingCode .tell c (setFlag .poolEmpty 0 none s)

/-- The home of an entry becomes the port the frame came on. -/
def Place.movedTo (p : Place) (home : SegNo ⊕ StarNo) : Place :=
  match p, home with
  | .trunk _, .inl t => .trunk t
  | .star x _, .inr q => .star x (some q)
  | .trunk t, .inr _ => .trunk t
  | .star x h, .inl _ => .star x h

/-- A move (R80): the home changes, the period-move count gains one, and past the move limit the entry is suspended for
DUPLICATE; otherwise it is refreshed. -/
def moveEntry (c : DeskCode) (home : SegNo ⊕ StarNo) (s : State) : State :=
  let s1 := s.modEntry c (fun e => { e with place := e.place.movedTo home, periodMoves := gain 255 e.periodMoves })
  match findEntry s1 c with
  | none => s1
  | some e => if s.office.moveLimit < e.periodMoves then suspendTimed .duplicate c s1 else refresh c s1

/-! ## Learning -/

/-- Learning from a trunk frame with source code `c` heard on segment `t` (Table 4-4). The flag is the outcome: true is
accepted, false refused. -/
def learnTrunk (t : SegNo) (c : DeskCode) (s : State) : Bool × State :=
  match findEntry s c with
  | none => (true, createLearned c (.trunk t) s)
  | some e =>
    match e.place, e.origin with
    | .trunk h, o =>
      if e.isSuspended then (true, s)
      else if h = t then (true, refresh c s)
      else match o with
        | .learned => (true, moveEntry c (.inl t) s)
        | .fixed => (true, suspendTimed .duplicate c s)
    | .star _ _, .learned =>
      (true, createLearned c (.trunk t) (displaceProxy c (setFlag .codeConflict 0 (some c) s)))
    | .star _ _, .fixed => (false, setFlag .codeConflict 0 (some c) s)

/-- Learning from a star frame with source ID `x` received on port `p` (Table 4-5). -/
def learnStar (p : StarNo) (x : StationId) (s : State) : State :=
  match indexEntry s x with
  | some e =>
    if e.isSuspended then s
    else match e.place with
      | .star _ (some h) => if h = p then refresh e.code s else moveEntry e.code (.inr p) s
      | .star _ none => refresh e.code (s.modEntry e.code (fun e => { e with place := e.place.movedTo (.inr p) }))
      | .trunk _ => s
  | none =>
    match proxyCode s with
    | some c => createLearned c (.star x (some p)) s
    | none => setFlag .poolEmpty 0 none s

end Sys2Proof.Machine
end

