-- ==== Sys2Proof/Machine/Presence.lean ====
section
/-!
DEFINITION. The Presence Monitor (Chapter 5): countdowns, presence queries, the broadcast window and babble, suspension
timers, and the two ticks with the print timers that the 1 s tick drives.
-/

namespace Sys2Proof.Machine

/-- The query lead of an entry: an eighth of its limit, raised to 5 s (R94). -/
def Entry.queryLead (e : Entry) : Nat := max 5 (e.presenceLimit / 8)

/-- The forgiveness interval (R94). -/
def OfficePlan.forgiveness (p : OfficePlan) : Nat := 4 * p.minSpacing

/-- The countdown of an entry runs (R95). -/
def countdownRuns (s : State) (e : Entry) : Bool := e.inUse && homeConnected s e

/-- A ROLL query: 0x01 and the presence remaining in seconds (R214). -/
def rollQuery (remaining : Nat) : List Byte := [0x01#8] ++ u16 remaining

/-- The tick's next value is 0. -/
def Entry.tickEnds (e : Entry) : Bool := decide (e.presenceRemaining ≤ 1)

/-- The tick's next value prompts a query: from 1 up to the query lead, with the entry ACTIVE (R95). -/
def Entry.tickQueries (e : Entry) : Bool :=
  decide (e.state = .active) && !e.tickEnds && decide (e.presenceRemaining - 1 ≤ e.queryLead)

/-- The presence query of an entry, at the tick that brings it to its lead (R97): the countdown falls by one, the entry
becomes QUERIED, and a ROLL is built and offered or skipped. -/
def presenceQuery (c : DeskCode) (s : State) : State :=
  match findEntry s c with
  | none => s
  | some e =>
    if countdownRuns s e && e.tickQueries then
      let s1 := s.modEntry c (fun e => { e with presenceRemaining := e.presenceRemaining - 1, state := .queried })
      match sendBuilt kindRoll (rollQuery (e.presenceRemaining - 1)) (entryDest e) s1 with
      | some s2 => s2.modPresence (fun p => { p with querySent := bump p.querySent })
      | none => s1.modPresence (fun p => { p with querySkipped := bump p.querySkipped })
    else s

/-- The end of a LEARNED entry's countdown: it is removed and no answer is built for its tickets (R99). -/
def aging (c : DeskCode) (s : State) : State :=
  match findEntry s c with
  | none => s
  | some e =>
    if countdownRuns s e && e.tickEnds && decide (e.origin = .learned) then
      (removeEntry .silent c s).modPresence (fun p => { p with agedOut := bump p.agedOut })
    else s

/-- The end of a FIXED entry's countdown: it becomes ABSENT and its tickets are removed without answers (R100). -/
def becomesAbsent (c : DeskCode) (s : State) : State :=
  match findEntry s c with
  | none => s
  | some e =>
    if countdownRuns s e && e.tickEnds && decide (e.origin = .fixed) then
      (removeTicketsOf .silent c (s.modEntry c (fun e => { e with presenceRemaining := 0, state := .absent }))).modPresence
        (fun p => { p with wentAbsent := bump p.wentAbsent })
    else s

/-- A timed suspension whose remaining time the next tick brings to 0. -/
def Entry.timerEnds (e : Entry) : Bool :=
  match e.state with
  | .suspended (.timed _ r) => decide (r ≤ 1)
  | .suspended .admin | .active | .queried | .absent => false

/-- The end of a timed suspension (R106). -/
def quarantineEnd (c : DeskCode) (s : State) : State :=
  match findEntry s c with
  | none => s
  | some e =>
    if e.timerEnds then
      (s.modEntry c Entry.resumed).modPresence (fun p => { p with quarantineEnded := bump p.quarantineEnded })
    else s

/-! ## The broadcast window (R103, R104) -/

/-- A broadcast of the entry would be early (R103). -/
def isEarly (s : State) (e : Entry) : Bool := decide (e.broadcastElapsed < s.office.minSpacing)

/-- An accepted broadcast: strikes are forgiven after the forgiveness interval, and the elapsed time starts again (R103). -/
def Entry.accepted (forgiveness : Nat) (e : Entry) : Entry :=
  { e with strikes := if forgiveness ≤ e.broadcastElapsed then 0 else e.strikes, broadcastElapsed := 0 }

/-- An early broadcast earns a strike, and on a commissioned bridge the strike that reaches the babble limit suspends
the entry for BABBLE (R103, R104). -/
def strike (c : DeskCode) (s : State) : State :=
  let s1 := (s.modEntry c (fun e => { e with strikes := gain 31 e.strikes })).modPresence
    (fun p => { p with strikes := bump p.strikes })
  match findEntry s1 c with
  | none => s1
  | some e =>
    if s.ctl.commissioned && decide (s.office.babbleLimit ≤ e.strikes) && e.takesTimed then
      (suspendTimed .babble c s1).modPresence (fun p => { p with babbleSuspensions := bump p.babbleSuspensions })
    else s1

/-- The broadcast window is applied to an entry: true is early (R102, R103). -/
def applyWindow (e : Entry) (s : State) : Bool × State :=
  if isEarly s e then (true, strike e.code s)
  else (false, s.modEntry e.code (Entry.accepted s.office.forgiveness))

/-! ## The 1 s tick (R95, R105, R143, R158) -/

/-- One entry at a 1 s tick that brings it to no threshold: a running countdown falls by one (R95), a running
suspension timer falls by one (R105). An entry the tick would bring to a threshold is left for the command of that
threshold (log entry 7). -/
def Entry.plainSecond (runs : Bool) (e : Entry) : Entry :=
  match e.state with
  | .suspended (.timed r n) => if e.timerEnds then e else { e with state := .suspended (.timed r (n - 1)) }
  | .suspended .admin | .absent => e
  | .active | .queried =>
    if runs && !e.tickEnds && !e.tickQueries then { e with presenceRemaining := e.presenceRemaining - 1 } else e

/-- The idle remaining of a granted, online printer that the next tick brings to 0 (R158). -/
def Printer.idleEnds (p : Printer) : Bool := p.grant.isSome && p.online && decide (p.idleRemaining ≤ 1)

/-- The head ticket of a queue stands one second short of the form-hold limit (R143). -/
def formHoldDue (s : State) (q : QueueNo) : Option Ticket :=
  ((candidates s q).head?).filter (fun t => t.waitAge + 1 == (s.printer q).formHold)

/-- A waiting ticket grows one second older (R143). -/
def Ticket.older (t : Ticket) : Ticket := { t with waitAge := gain 65535 t.waitAge }

/-- One printer at a 1 s tick that brings it to no threshold (R143, R158). `due` is the head ticket left for
FORM_HOLD_REACHED. -/
def Printer.plainSecond (due : Option Ticket) (p : Printer) : Printer :=
  { p with
    idleRemaining := if p.grant.isSome && p.online && !p.idleEnds then p.idleRemaining - 1 else p.idleRemaining,
    waiting := p.waiting.map (fun t => if due = some t then t else t.older) }

/-- The Presence Monitor takes a 1 s tick that it has been given, where it reaches no threshold (R95, R105, R208). -/
def presenceSecond (s : State) : State :=
  if 0 < s.chassis.ticks.presenceDue then
    { s with
      chassis := { s.chassis with ticks := { s.chassis.ticks with presenceDue := s.chassis.ticks.presenceDue - 1 } },
      dir := { s.dir with entries := s.dir.entries.map (fun e => e.plainSecond (countdownRuns s e)) } }
  else s

/-- The Print Arbiter takes a 1 s tick that it has been given, where it reaches no threshold; selection runs at its end
(R143, R153, R158, R208). -/
def printSecond (s : State) : State :=
  if 0 < s.chassis.ticks.printDue then
    let s1 := { s with chassis := { s.chassis with
      ticks := { s.chassis.ticks with printDue := s.chassis.ticks.printDue - 1 } } }
    selectAll ((List.finRange 6).foldl (fun x q => x.modPrinter q (Printer.plainSecond (formHoldDue s q))) s1)
  else s

/-- A 1 s tick as one block takes it: the Print Arbiter if it has more ticks to take than the Presence Monitor, which goes
first at each tick (R208; the order of the two is a DESIGN CHOICE, log entry 47). -/
def oneSecondTick (s : State) : State :=
  if s.chassis.ticks.presenceDue < s.chassis.ticks.printDue then printSecond s else presenceSecond s

/-- The 1 s tick that ends a granted job whose station has been silent for the idle limit (R158). -/
def idleExpiry (q : QueueNo) (s : State) : State :=
  match (s.printer q).grant with
  | none => s
  | some t =>
    if (s.printer q).idleEnds then
      selectAll (abandonAndTell q t (s.modPrinter q (fun p => { p with idleRemaining := 0 })))
    else s

/-- The 1 s tick that brings the head ticket of a queue to the form-hold limit; selection runs at its end (R143, R153). -/
def formHoldReached (q : QueueNo) (s : State) : State :=
  match formHoldDue s q with
  | none => s
  | some t =>
    selectAll (s.modPrinter q (fun p => { p with waiting := p.waiting.map (fun x => if x = t then x.older else x) }))

/-! ## The 1 ms tick (R4, R12, R101, R119) -/

/-- A segment without foreign carrier, heard or not. -/
def Segment.noCarrier (g : Segment) : Bool := !g.carrier

/-- One segment at a 1 ms tick: a terminator sample that gives no edge (R4), and a quiet-time count that sets no mark
(R12). `heard` tells that the relay is closed. The carrier of R12 is foreign carrier: a tick while the bridge itself drives
the segment is quiet (DESIGN CHOICE, log entry 43). -/
def Segment.plainMs (heard : Bool) (sample : Bool) (g : Segment) : Segment :=
  { g with
    differing := sample != g.unterminated,
    quietCount := if heard && g.noCarrier && decide (g.quietCount < 16) then g.quietCount + 1 else g.quietCount }

/-- The Time Base counts a 1 ms tick, and at the thousandth gives the Presence Monitor and the Print Arbiter a 1 s tick
(R208). -/
def SecondTicks.count (c : SecondTicks) : SecondTicks :=
  if Config.msPerSecond ≤ c.ms + 1 then { ms := 0, presenceDue := c.presenceDue + 1, printDue := c.printDue + 1 }
  else { c with ms := c.ms + 1 }

/-- The Time Base at a 1 ms tick: the clock stands at the next millisecond (R208; log entry 2). -/
def Chassis.nextMs (c : Chassis) : Chassis :=
  { c with now := (c.now / Config.ticksPerMs + 1) * Config.ticksPerMs, ticks := c.ticks.count }

/-- The segment channels at a 1 ms tick that gives no terminator edge and no long-quiet mark (R4, R12). -/
def channelsMs (senses : BitVec 4) (s : State) : Trunk :=
  { s.trunk with segs := s.trunk.segs.mapFinIdx (fun i g h => g.plainMs (relayClosed s ⟨i, h⟩) (senses.getLsbD i)) }

/-- The Presence Monitor at a 1 ms tick: every broadcast elapsed time gains one (R101). -/
def Directory.nextMs (d : Directory) : Directory :=
  { d with entries := d.entries.map (fun e => { e with broadcastElapsed := gain 65535 e.broadcastElapsed }) }

/-- The 1 ms tick as the blocks named take it, where it gives no terminator edge and no long-quiet mark; the Supervision
Unit's share is the period timer (R119, R208; log entry 47). The transitions that the command reports are counted whichever
blocks it reaches (R11). -/
def oneMillisecondTick (tick : MsTick) (s : State) : State :=
  let s1 := noteAllEdges tick.edges s
  { s1 with
    chassis := if tick.reach.timeBase then s.chassis.nextMs else s.chassis,
    dir := if tick.reach.presence then s.dir.nextMs else s.dir,
    sup := if tick.reach.supervision then { s.sup with timer := s.sup.timer - 1 } else s.sup,
    trunk := if tick.reach.channels then channelsMs tick.senses s1 else s1.trunk }

/-- The 1 ms tick that brings the quiet-time count of a segment to 17 and sets its long-quiet mark (R12). -/
def longQuiet (t : SegNo) (s : State) : State :=
  if relayClosed s t && (s.seg t).noCarrier && decide ((s.seg t).quietCount = 16) then
    s.modSeg t (fun g => { g with quietCount := 17, longQuiet := true })
  else s

end Sys2Proof.Machine
end

