-- ==== Sys2Proof/Machine/Channels.lean ====
section
/-!
DEFINITION. The parts of the segment channels, the Trunk Repeater, the transmitter and the star ports that other blocks
act on: busy time, driving, release, flushes, the opening and closing of a relay, the blocking and listening of a star
port (R2, R3, R11, R22, R27, R33, R40), and the decoder (R7, R8).
-/

namespace Sys2Proof.Machine

/-! ## The decoder -/

/-- A whole byte has been assembled: it is stored while no more than 510 bytes counted from the lead-in have come, the
header event's mark is made at the sixth, and the phase moves on (R7). -/
def Decoder.takeByte (d : Decoder) (b : Byte) : Decoder :=
  let n := d.received + 1
  let store := if n + 2 ≤ 510 then d.store ++ [b] else d.store
  { d with
    acc := 0, nbits := 0, received := n, store := store,
    header := if n = 6 then some (headerPasses store) else d.header,
    phase := if 510 < n + 2 then .overrun else if 6 ≤ n then .body else .header }

/-- The decoder takes one recovered bit (R7, R209). -/
def Decoder.feedBit (d : Decoder) (b : Bool) : Decoder :=
  match d.phase with
  | .hunt =>
    let w := (d.window <<< 1) ||| (if b then 1#16 else 0#16)
    if w = 0xA5C3#16 then { d with phase := .header, window := 0 } else { d with window := w }
  | .header | .body =>
    let a := (d.acc <<< 1) ||| (if b then 1#8 else 0#8)
    if d.nbits = 7 then d.takeByte a else { d with acc := a, nbits := d.nbits + 1 }
  | .overrun => d

/-- The decoder takes a run of recovered bits. -/
def Decoder.feed (d : Decoder) (cells : List Bool) : Decoder := cells.foldl Decoder.feedBit d

/-- A decoded frame (R8, Table 12-1). -/
structure TrunkRx where
  dst : DeskCode
  src : DeskCode
  kind : Byte
  payload : List Byte
  deriving DecidableEq, Repr

/-- The length field of an assembled frame. -/
def Decoder.length (d : Decoder) : Nat := be16 (byteAt d.store 3) (byteAt d.store 4)

/-- The verdict at the end of a burst: the frame when it is decoded, `none` for a decode fault (R8). -/
def Decoder.verdict (d : Decoder) : Option TrunkRx :=
  if d.phase ≠ .overrun ∧ d.header = some true ∧ d.length ≤ Config.trunkPayloadMax ∧ d.received = 6 + d.length + 2
      ∧ checkBytes (crc16 (d.store.take (6 + d.length))) = d.store.drop (6 + d.length) then
    some { dst := byteAt d.store 0, src := byteAt d.store 1, kind := byteAt d.store 2, payload := (d.store.drop 6).take d.length }
  else none

/-! ## Busy time and driving -/

/-- Foreign carrier that the channel hears as a burst or as its continuation (R11). -/
def Segment.inCarrier (g : Segment) : Bool := g.phase == .burst || g.phase == .continuation

/-- The busy-time accumulator brought up to `now`; it saturates at 4294967295 (R11). -/
def Segment.settleBusy (now : Nat) (g : Segment) : Segment :=
  if g.inCarrier then { g with busy := min (g.busy + (now - g.busyFrom)) 4294967295, busyFrom := now } else g

/-- The bridge stops driving a segment, whose quiet time starts (R22, R23, R24, R26). -/
def Segment.stopDriving (now : Nat) (g : Segment) : Segment :=
  if g.driven then { g with driven := false, quietSince := now } else g

/-- The bridge begins to drive a segment; a burst in progress there is a collision (R14, R20; DEDUCED, log entry 39). -/
def Segment.startDriving (g : Segment) : Segment :=
  { g with driven := true, collided := g.collided || g.phase == .burst }

/-- Every driven segment is let go. -/
def stopAllDriving (s : State) : State := s.mapSegs (Segment.stopDriving s.chassis.now)

/-- Release of the repeater: no holder, empty drive set, clear truncate mark (R22, R26). -/
def releaseRepeater (s : State) : State :=
  let s1 := stopAllDriving s
  { s1 with trunk := { s1.trunk with holder := .none, truncate := false, onWire := [] } }

/-- The head of the trunk transmit queue leaves it, its reference is released and the next frame becomes head with
attempt count 0 (R26). -/
def popTrunk (s : State) : State :=
  match s.trunk.queue with
  | [] => s
  | b :: rest => dropRef b { s with trunk := { s.trunk with queue := rest, attempts := 0 } }

/-- While the trunk is down its queue is flushed, each reference counting one in TRUNK_DOWN, and an attempt in progress
ends without completion or collision (R27). -/
def flushTrunk (s : State) : State :=
  if trunkDown s then
    let s1 := { s with trunk := { s.trunk with queue := [], attempts := 0 } }
    let s2 := (dropRefs s.trunk.queue s1).modTrunkCounters
      (fun c => { c with trunkDown := bumpBy s.trunk.queue.length c.trunkDown })
    if s2.trunk.holder = .transmitter then releaseRepeater s2 else s2
  else s

/-- A segment that has left the connected set: it gives up the repeater or leaves the drive set (R2, R22), and the trunk
is flushed if it was the last (R27). An attempt whose drive set this empties while a segment connected after its start
stays connected goes on, and its completion counts (DESIGN CHOICE, log entry 42). -/
def segLeaves (t : SegNo) (s : State) : State :=
  let s1 := if s.trunk.holder = .segment t then releaseRepeater s else s.modSeg t (Segment.stopDriving s.chassis.now)
  flushTrunk s1

/-- What a channel does when its relay opens: a burst in progress is abandoned, a jabber continuation ends (R2). The
abandoned record keeps its rise, its gap, the edges counted up to the opening and its truncated mark, with fall and L 0 as
at the rise (DESIGN CHOICE, log entry 41). -/
def Segment.relayOpened (now : Nat) (g : Segment) : Segment :=
  let g1 := g.settleBusy now
  { g1 with
    phase := .quiet, collided := false, decoder := Decoder.initial,
    current := if g.phase = .burst then { g.current with cls := .abandoned } else g.current }

/-- What a channel does when its relay closes: the long-quiet mark is set, and carrier that is already there is no burst
(R3). -/
def Segment.relayClosed (now : Nat) (g : Segment) : Segment :=
  { g with longQuiet := true, phase := if g.carrier then .closing else .quiet, quietSince := now }

/-! ## Star ports -/

/-- The transmit queue of a star port is flushed: each reference counts one in FLUSHED and the sending stops (R40). -/
def flushStar (p : StarNo) (s : State) : State :=
  dropRefs (s.starPort p).queue (s.modStar p (fun x =>
    { x with queue := [], tx := .idle, counters := { x.counters with flushed := bumpBy x.queue.length x.counters.flushed } }))

/-- A frame in reception is abandoned and the receive state becomes IDLE (R32, R33). -/
def StarPort.abandonRx (x : StarPort) : StarPort := { x with rx := .idle, store := [], count := 0 }

/-- The receiver begins to listen: it takes no frame already in progress on the line (R33). -/
def StarPort.beginListening (x : StarPort) : StarPort :=
  { x with rx := if x.lineBusy then .waitIdle else .idle, store := [], count := 0 }

end Sys2Proof.Machine
end

