-- ==== Sys2Proof/Machine/Supervision.lean ====
section
/-!
DEFINITION. The Supervision Unit (Chapter 6): events, tally and running score, triggers, isolation, the nine stages of
the fold, settings, administrator actions and commissioning (R138).
-/

namespace Sys2Proof.Machine

/-! ## The state of a port -/

/-- A port number as a segment or a star port (Table 0-2). -/
def splitPort (q : PortNo) : SegNo ⊕ StarNo :=
  if h : q.val < 4 then .inl ⟨q.val, h⟩ else .inr ⟨q.val - 4, by omega⟩

/-- A port takes a supervision state, with all that the change does to its channel: a relay that opens or closes, a
segment that leaves the connected set (R1, R2, R3, R22, R27), a receiver that is blocked or listens, a transmit queue
that is flushed (R33, R40). -/
def setPortState (q : PortNo) (new : SupState) (s : State) : State :=
  let old := (s.port q).state
  let s1 := s.modPort q (fun r => { r with state := new })
  match splitPort q with
  | .inl t =>
    let s2 := if old.listens && !new.listens then s1.modSeg t (Segment.relayOpened s.chassis.now)
              else if !old.listens && new.listens then s1.modSeg t (Segment.relayClosed s.chassis.now)
              else s1
    if old.inService && !new.inService then segLeaves t s2 else s2
  | .inr p =>
    let s2 := if old.listens && !new.listens then s1.modStar p StarPort.abandonRx
              else if !old.listens && new.listens then s1.modStar p StarPort.beginListening
              else s1
    if starConnected s p && !new.inService then flushStar p s2 else s2

/-- The state a port takes when it enters service: ACTIVE while commissioned, OPEN while not (R134, R137). -/
def serviceState (s : State) : SupState := if s.ctl.commissioned then .active else .openMode

/-! ## Tally, running score, triggers -/

/-- The weighted fault count of the period, not yet held (R111, R122). -/
def PortRec.rawTally (r : PortRec) : Nat :=
  r.current.wRunt * r.nRunt + r.current.wGarble * r.nGarble + r.current.wCheck * r.nCheck + r.current.wLink * r.nLink

/-- The tally T, held at 1023 (R111). -/
def PortRec.tally (r : PortRec) : Nat := min r.rawTally 1023

/-- The running score (R111). -/
def PortRec.running (r : PortRec) : Nat := min 1023 (r.score + r.tally)

/-- A trigger may isolate the port: it is ACTIVE or PROBATION and not exempt (R112). -/
def PortRec.triggerable (r : PortRec) : Bool := (decide (r.state = .active) || decide (r.state = .probation)) && !r.exempt

/-- Isolation of a port (R128). -/
def isolatePort (q : PortNo) (s : State) : State :=
  let s1 := s.modPort q (fun r =>
    let k := min (r.k + 1) 6
    { r with k := k, holdLength := r.current.baseHold * 2 ^ (k - 1), holdRemaining := r.current.baseHold * 2 ^ (k - 1),
             probationRemaining := 0, clean := 0, isolations := bump r.isolations })
  setFlag .portIsolated q.val none (setPortState q .isolated s1)

/-- The classes of event a port hands to the Supervision Unit as counts (R110). -/
inductive FaultKind where
  | runt | garble | check | link
  deriving DecidableEq, Repr

/-- Add one to the matching period count, saturating at 65535 (R110). -/
def PortRec.count (k : FaultKind) (r : PortRec) : PortRec :=
  match k with
  | .runt => { r with nRunt := gain 65535 r.nRunt }
  | .garble => { r with nGarble := gain 65535 r.nGarble }
  | .check => { r with nCheck := gain 65535 r.nCheck }
  | .link => { r with nLink := gain 65535 r.nLink }

/-- A RUNT, GARBLE, CHECK or link-loss event: the count, then the immediate trigger of a running score at or above the
isolate threshold (R110, R112, R114 to R117). -/
def faultEvent (k : FaultKind) (q : PortNo) (s : State) : State :=
  let s1 := s.modPort q (PortRec.count k)
  if (s1.port q).triggerable && decide ((s1.port q).current.isolate ≤ (s1.port q).running) then isolatePort q s1 else s1

/-- A GOOD event adds to n_good and is no trigger (R110, R112). -/
def goodEvent (q : PortNo) (s : State) : State := s.modPort q (fun r => { r with nGood := gain 65535 r.nGood })

/-- A JABBER event: the score is lifted to the isolate threshold, and a segment that is ACTIVE or PROBATION and not
exempt is isolated (R113). -/
def jabberEvent (q : PortNo) (s : State) : State :=
  let s1 := s.modPort q (fun r => { r with score := max r.score r.current.isolate })
  if (s1.port q).triggerable then isolatePort q s1 else s1

/-- A terminator-loss trigger (R112, R118). -/
def terminatorTrigger (q : PortNo) (s : State) : State := if (s.port q).triggerable then isolatePort q s else s

/-- A CHECK frame is charged to a directory entry and to its port (R18, R37). -/
def chargeFault (q : PortNo) (c : DeskCode) (s : State) : State :=
  (s.modEntry c (fun e => { e with periodFaults := gain 255 e.periodFaults })).modPort q
    (fun r => { r with attributed := gain 65535 r.attributed })

/-! ## The fold -/

/-- Ticks in the period now ending (R121). -/
def periodTicks (p : Nat) : Nat := (p + 1) * 200000

/-- Stage 1: the utilisation of a segment from its busy time (R121). -/
def utilisation (busy p : Nat) : Nat := min (busy * 100 / periodTicks p) 100

/-- Stage 2: the decay of a score (R121). -/
def decayed (sc : Nat) : Nat := sc - (if sc = 0 then 0 else max 1 (sc / 8))

/-- A utilisation brings relief at a load threshold: a threshold of 100 grants none (R122). -/
def relieved (threshold u : Nat) : Bool := decide (threshold < 100) && decide (threshold ≤ u)

/-- Stage 3: the addition A of a port (R122). -/
def addition (u : Option Nat) (r : PortRec) : Nat :=
  match r.state with
  | .isolated | .held | .off => 0
  | .openMode | .active | .probation =>
    match u with
    | some x => if relieved r.current.loadThreshold x then r.rawTally - r.current.wGarble * r.nGarble / 2 else r.rawTally
    | none => r.rawTally

/-- Stage 5: the warning flag by the new score (R123). -/
def PortRec.warn (r : PortRec) : PortRec :=
  if r.current.warn ≤ r.score then { r with warning := true }
  else if r.score < r.current.warn / 2 then { r with warning := false }
  else r

/-- A port is readmitted at the end of its probation (R130). -/
def readmitPort (q : PortNo) (s : State) : State :=
  setFlag .readmitted q.val none
    (setPortState q .active (s.modPort q (fun r => { r with clean := 0, readmissions := bump r.readmissions })))

/-- The hold of a segment restarts: it is unterminated under the ISOLATE action and not exempt (R124). -/
def holdRestarts (q : PortNo) (s : State) : Bool :=
  match splitPort q with
  | .inl t => (s.seg t).unterminated && decide (s.segPlans[t.val].loss = .isolate) && !(s.port q).exempt
  | .inr _ => false

/-- Stage 6: the verdict by the port's state at the fold (R124). -/
def verdict (q : PortNo) (s : State) : State :=
  let r := s.port q
  match r.state with
  | .active => if !r.exempt && decide (r.current.isolate ≤ r.score) then isolatePort q s else s
  | .probation =>
    let s1 := s.modPort q (fun r => { r with probationRemaining := r.probationRemaining - 1 })
    if r.probationRemaining - 1 = 0 then
      (if r.exempt || decide (r.score < r.current.warn) then readmitPort q s1 else isolatePort q s1)
    else s1
  | .isolated =>
    let s1 := s.modPort q (fun r => { r with holdRemaining := r.holdRemaining - 1 })
    if r.holdRemaining - 1 = 0 then
      (if holdRestarts q s then s.modPort q (fun r => { r with holdRemaining := r.holdLength })
       else setPortState q .probation (s1.modPort q (fun r => { r with probationRemaining := r.current.probation })))
    else s1
  | .openMode | .held | .off => s

/-- Stage 7: the clean count and the forgiveness of k, by the state at the fold (R125; DEDUCED, log entry 22). -/
def cleanStage (wasActive : Bool) (a : Nat) (r : PortRec) : PortRec :=
  if a = 0 then
    if wasActive then
      (if r.current.cleanLimit ≤ r.clean + 1 then { r with k := 0, clean := 0 } else { r with clean := r.clean + 1 })
    else r
  else { r with clean := 0 }

/-- An entry homed on the port carries enough of its attributed faults (R126). -/
def isCulprit (q : PortNo) (limit attributed : Nat) (e : Entry) : Bool :=
  e.homedOn q && decide (limit ≤ e.periodFaults) && decide (attributed ≤ 2 * e.periodFaults)

/-- A culprit is suspended for CHECK; the count is raised when R75 applies the suspension (R126). -/
def suspendCulprit (c : DeskCode) (s : State) : State :=
  match findEntry s c with
  | none => s
  | some e =>
    if e.takesTimed then
      let s1 := suspendTimed .check c s
      { s1 with sup := { s1.sup with checkSuspensions := bump s1.sup.checkSuspensions } }
    else s

/-- Stage 8: culprit attribution, while commissioned, for a port that was ACTIVE or PROBATION at the fold (R126), in
ascending order of code (DESIGN CHOICE, log entry 15). -/
def culpritStage (q : PortNo) (stateAtFold : SupState) (s : State) : State :=
  if s.ctl.commissioned && (decide (stateAtFold = .active) || decide (stateAtFold = .probation)) then
    ((s.dir.entries.filter (isCulprit q s.office.faultLimit (s.port q).attributed)).map Entry.code).foldl
      (fun s c => suspendCulprit c s) s
  else s

/-- The period counts of a port and its attributed faults become 0 (R127, R134, R136, R137). -/
def PortRec.clearCounts (r : PortRec) : PortRec :=
  { r with nRunt := 0, nGarble := 0, nCheck := 0, nLink := 0, nGood := 0, attributed := 0 }

/-- Staged settings become current (R127). -/
def PortRec.adopt (r : PortRec) : PortRec := if r.pending then { r with current := r.staged, pending := false } else r

/-- The period counts of an entry become 0 (R127). -/
def Entry.clearPeriod (e : Entry) : Entry := { e with periodFaults := 0, periodMoves := 0 }

/-- A STAR entry whose home is unknown. -/
def Entry.homeUnknown (e : Entry) : Bool :=
  match e.place with
  | .star _ none => true
  | .trunk _ | .star _ (some _) => false

/-- Stage 9: clear the period and adopt staged settings (R127). -/
def clearStage (q : PortNo) (s : State) : State :=
  let s1 := s.modPort q (fun r => r.clearCounts.adopt)
  let s2 := { s1 with dir := { s1.dir with entries := s1.dir.entries.map (fun e => if e.homedOn q then e.clearPeriod else e) } }
  match splitPort q with
  | .inl t => s2.modSeg t (fun g => { g.settleBusy s2.chassis.now with busy := 0 })
  | .inr _ => s2

/-- The utilisation a port's fold forms; a star port has none (R121). -/
def foldUtil (q : PortNo) (s : State) : Option Nat :=
  match splitPort q with
  | .inl t => some (utilisation ((s.seg t).settleBusy s.chassis.now).busy s.sup.period)
  | .inr _ => none

/-- Stages 1 to 5 on a port's record: utilisation, decay, addition, new score, warning (R121 to R123). -/
def PortRec.scored (u : Option Nat) (r : PortRec) : PortRec :=
  PortRec.warn { r with lastU := u, score := min 1023 (decayed r.score + addition u r) }

/-- The fold of one port through its nine stages (R120). -/
def foldPort (q : PortNo) (s : State) : State :=
  let r0 := s.port q
  let u := foldUtil q s
  let a := addition u r0
  let s1 := s.modPort q (PortRec.scored u)
  let s2 := if (s1.port q).warning && !r0.warning then setFlag .warning q.val none s1 else s1
  let s3 := verdict q s2
  let s4 := s3.modPort q (cleanStage (decide (r0.state = .active)) a)
  clearStage q (culpritStage q r0.state s4)

/-- The timer's length in ms for a period setting (R119). -/
def periodMs (p : Nat) : Nat := (p + 1) * 50

/-- The expiry of the period timer: every port is folded, the counts of FIXED STAR entries with unknown home become 0,
the staged P becomes current and the timer is loaded again (R119, R120, R127). -/
def foldAll (s : State) : State :=
  let s1 := (List.finRange 12).foldl (fun s q => foldPort q s) s
  { s1 with
    dir := { s1.dir with entries := s1.dir.entries.map (fun e => if e.homeUnknown then e.clearPeriod else e) },
    sup := { s1.sup with period := s1.office.period, timer := periodMs s1.office.period } }

/-! ## Settings and administrator actions -/

/-- Settings are staged on a port and its pending flag is set (R131). -/
def PortRec.stage (v : Settings) (r : PortRec) : PortRec := { r with staged := v, pending := true }

/-- A port returns to service at the administrator's order, from ISOLATED, HELD or PROBATION (R134). -/
def readmitByOrder (q : PortNo) (s : State) : State :=
  setPortState q (serviceState s) (s.modPort q (fun r =>
    { r.clearCounts with score := 0, holdRemaining := 0, probationRemaining := 0, clean := 0 }))

/-- A port is held out of service (R133). -/
def holdByOrder (q : PortNo) (s : State) : State :=
  setPortState q .held (s.modPort q (fun r => { r with holdRemaining := 0, probationRemaining := 0 }))

/-- A port's fault history is wiped (R136). -/
def PortRec.wiped (r : PortRec) : PortRec := { r.clearCounts with score := 0, k := 0, clean := 0 }

/-- A port whose enable is turned off becomes OFF (R137). -/
def disablePort (q : PortNo) (s : State) : State :=
  setPortState q .off (s.modPort q (fun r => { r with holdRemaining := 0, probationRemaining := 0, clean := 0 }))

/-- A port whose enable is turned on enters service with a zero score (R137). -/
def enablePort (q : PortNo) (s : State) : State :=
  setPortState q (serviceState s) (s.modPort q (fun r => { r.clearCounts with score := 0 }))

/-- The enable of a port, kept in the plans (R137). -/
def portEnabled (s : State) (q : PortNo) : Bool :=
  match splitPort q with
  | .inl t => s.segPlans[t.val].enable
  | .inr p => s.office.enables[p.val]

/-- A port acts on a change of its enable; an enable unchanged leaves it as it stands (R137). -/
def actOnEnable (q : PortNo) (old new : Bool) (s : State) : State :=
  match old, new with
  | true, false => disablePort q s
  | false, true => enablePort q s
  | true, true => s
  | false, false => s

/-- Set the enable of a port in its plan (R137). -/
def writeEnable (q : PortNo) (on : Bool) (s : State) : State :=
  match splitPort q with
  | .inl t => { s with segPlans := modAt s.segPlans t (fun p => { p with enable := on }) }
  | .inr p => { s with office := { s.office with enables := modAt s.office.enables p (fun _ => on) } }

/-! ## Commissioning -/

/-- At least one FIXED entry carries the admin attribute (R206). -/
def hasAdmin (s : State) : Bool := s.dir.entries.any Entry.isAdmin

/-- Commissioning is taken at the end of a request's effect that leaves its three conditions holding: the mark is set,
every OPEN port becomes ACTIVE (R138) and the backlog is raised (R198, R206). The Print Arbiter's share of the request
comes after it (DESIGN CHOICE, log entry 48). -/
def commission (s : State) : State :=
  if !s.ctl.commissioned && s.ctl.officeMark && s.ctl.trunkMark && hasAdmin s then
    raiseBacklog
      { s with
        ctl := { s.ctl with commissioned := true },
        sup := { s.sup with ports := s.sup.ports.map (fun r => if r.state = .openMode then { r with state := .active } else r) } }
  else s

end Sys2Proof.Machine
end

