-- ==== Sys2Proof/Machine/Bridging.lean ====
section
/-!
DEFINITION. The bridging event of a good frame (Sections 3.4 to 3.6): buffer, source check, learning, source state,
decision and placement, and the dispatch of frames addressed to the bridge (R50).
-/

namespace Sys2Proof.Machine

/-- A frame to the bridge is offered to the control input queue with its return route (R48). -/
def offerControl (b : BufId) (r : Route) (s : State) : State :=
  if s.inputs.control.length < Config.controlQueueSize then
    addRef b { s with inputs := { s.inputs with control := s.inputs.control ++ [{ buf := b, route := r }] } }
  else { s with inputs := { s.inputs with controlFull := bump s.inputs.controlFull } }

/-- A frame to the bridge is offered to the print input queue with its return route (R49). -/
def offerPrint (b : BufId) (r : Route) (s : State) : State :=
  if s.inputs.print.length < Config.printQueueSize then
    addRef b { s with inputs := { s.inputs with print := s.inputs.print ++ [{ buf := b, route := r }] } }
  else { s with inputs := { s.inputs with printFull := bump s.inputs.printFull } }

/-- Dispatch of a frame addressed to the bridge by its kind (Table 3-2); `q` is the ingress port. -/
def dispatch (b : BufId) (kind : Byte) (r : Route) (q : PortNo) (s : State) : State :=
  if kind = kindControl then offerControl b r s
  else if kind = kindPrint then offerPrint b r s
  else if kind = kindRoll then s
  else s.modDrops q (fun d => { d with notForPart := bump d.notForPart })

/-- Copies to every connected star port but one (R55, R63, R65). -/
def floodStars (except : Option StarNo) (b : BufId) (s : State) : State :=
  offerStars ((connectedStars s).filter (fun p => except != some p)) b s

/-- The STAR entry that a frame for it can be delivered to: not SUSPENDED, with a known and connected home (R57, R64). -/
def deliverableHome (s : State) (e : Entry) : Option StarNo :=
  if e.isSuspended then none
  else match e.place with
    | .star _ (some p) => if starConnected s p then some p else none
    | .star _ none => none
    | .trunk _ => none

/-! ## Trunk frames (R53 to R58) -/

/-- The destination rules for a trunk frame whose source has passed its checks (R55 to R58). -/
def placeTrunk (t : SegNo) (f : TrunkRx) (b : BufId) (s : State) : State :=
  let q := portOfSeg t
  if f.dst = 0#8 then
    (if s.office.trunkToStar then floodStars none b (setStarAddr b broadcastId (idOfDesk s.office.base f.src) s) else s)
  else if f.dst = bridgeCode then dispatch b f.kind (.segment t f.src) q s
  else match findEntry s f.dst with
    | some e =>
      match e.starId? with
      | some x =>
        match deliverableHome s e with
        | some p => offerStar p b (setStarAddr b x (idOfDesk s.office.base f.src) s)
        | none => s.modDrops q (fun d => { d with unreachable := bump d.unreachable })
      | none => s
    | none => if 241 ≤ f.dst.toNat then s.modDrops q (fun d => { d with reserved := bump d.reserved }) else s

/-- A CONTROL frame addressed to the bridge from the trunk (R53, R54). -/
def TrunkRx.isControlToBridge (f : TrunkRx) : Bool := f.dst == bridgeCode && f.kind == kindControl

/-- Stages 2 to 5 for a trunk frame held in buffer `b` (R52 to R58). -/
def decideTrunk (t : SegNo) (truncated : Bool) (f : TrunkRx) (b : BufId) (s : State) : State :=
  let q := portOfSeg t
  if !isDesk f.src then s.modDrops q (fun d => { d with badSource := bump d.badSource })
  else if truncated then
    (if f.isControlToBridge && (findEntry s f.src).isSome then dispatch b f.kind (.segment t f.src) q s else s)
  else
    match learnTrunk t f.src s with
    | (false, s1) => s1.modDrops q (fun d => { d with sourceConflict := bump d.sourceConflict })
    | (true, s1) =>
      if ((findEntry s1 f.src).map Entry.isSuspended).getD false then
        (if f.isControlToBridge then dispatch b f.kind (.segment t f.src) q s1
         else s1.modDrops q (fun d => { d with sourceSuspended := bump d.sourceSuspended }))
      else placeTrunk t f b s1

/-- The bridging event of a good trunk frame (R52): a buffer is taken or NO_BUFFER is counted (R44). The buffer is held
to the end of the event, which the Print Arbiter's share of it precedes (R144). -/
def bridgeTrunk (t : SegNo) (truncated : Bool) (f : TrunkRx) (s : State) : Option BufId × State :=
  match takeBuf f.kind f.payload s with
  | none => (none, s.modDrops (portOfSeg t) (fun d => { d with noBuffer := bump d.noBuffer }))
  | some (b, s1) => (some b, decideTrunk t truncated f b s1)

/-! ## Star frames (R59 to R65) -/

/-- A received star frame (Table 12-2). -/
structure StarRx where
  dst : StationId
  src : StationId
  kind : Byte
  payload : List Byte
  deriving DecidableEq, Repr

/-- The trunk copy's share of a star frame: NO_CODE from a code-less sender, TOO_LONG above 500 bytes, else the trunk
addressing is written and the reference offered (R62, R63). A broadcast that loses its trunk copy here is counted also where
no other star port is connected, a case in which R63 says both that it is counted and that it has no count (DESIGN CHOICE,
log entry 49). -/
def offerTrunkCopy (q : PortNo) (dst : DeskCode) (f : StarRx) (b : BufId) (s : State) : State :=
  match indexEntry s f.src with
  | none => s.modDrops q (fun d => { d with noCode := bump d.noCode })
  | some e =>
    if Config.trunkPayloadMax < f.payload.length then s.modDrops q (fun d => { d with tooLong := bump d.tooLong })
    else offerTrunk b (setTrunkAddr b dst e.code s)

/-- A star frame for an ID held in the index, by the first case of R64 that holds: an entry that is SUSPENDED and homed
on the ingress port counts LOCAL (DESIGN CHOICE, log entry 46). -/
def placeIndexed (p : StarNo) (f : StarRx) (b : BufId) (e : Entry) (s : State) : State :=
  let q := portOfStar p
  if e.homedOn q then s.modDrops q (fun d => { d with localDest := bump d.localDest })
  else match deliverableHome s e with
    | some h => offerStar h b (setStarAddr b f.dst f.src s)
    | none => s.modDrops q (fun d => { d with unreachable := bump d.unreachable })

/-- The destination rules for a star frame, in the order of Table 3-4 (R61 to R65). -/
def placeStar (p : StarNo) (f : StarRx) (b : BufId) (s : State) : State :=
  let q := portOfStar p
  if f.dst = nullId then s.modDrops q (fun d => { d with nullDest := bump d.nullDest })
  else if isPartId s f.dst then dispatch b f.kind (.star p f.src) q s
  else if f.dst = broadcastId then
    let s1 := floodStars (some p) b (setStarAddr b f.dst f.src s)
    if s.office.starToTrunk then offerTrunkCopy q 0#8 f b s1 else s1
  else if inTrunkRange s.office.base f.dst then
    (if isDesk (deskOfId s.office.base f.dst) then offerTrunkCopy q (deskOfId s.office.base f.dst) f b s
     else s.modDrops q (fun d => { d with reserved := bump d.reserved }))
  else match indexEntry s f.dst with
    | some e => placeIndexed p f b e s
    | none => floodStars (some p) b (setStarAddr b f.dst f.src s)

/-- Stage 4 and 5 for a star frame after learning (R60). -/
def admitStar (p : StarNo) (f : StarRx) (b : BufId) (s : State) : State :=
  let q := portOfStar p
  match indexEntry s f.src with
  | none => placeStar p f b s
  | some e =>
    if e.isSuspended then
      (if isPartId s f.dst && f.kind == kindControl then dispatch b f.kind (.star p f.src) q s
       else s.modDrops q (fun d => { d with sourceSuspended := bump d.sourceSuspended }))
    else if f.dst = broadcastId && e.inUse then
      match applyWindow e s with
      | (true, s1) => s1.modDrops q (fun d => { d with earlyBroadcast := bump d.earlyBroadcast })
      | (false, s1) => placeStar p f b s1
    else placeStar p f b s

/-- Stages 2 to 5 for a star frame held in buffer `b` (R52, R59 to R65). -/
def decideStar (p : StarNo) (f : StarRx) (b : BufId) (s : State) : State :=
  let q := portOfStar p
  if f.src = nullId || f.src = broadcastId || isPartId s f.src then
    s.modDrops q (fun d => { d with badSource := bump d.badSource })
  else if inTrunkRange s.office.base f.src then s.modDrops q (fun d => { d with baseClash := bump d.baseClash })
  else admitStar p f b (learnStar p f.src s)

/-- The bridging event of a good star frame (R52, R44), with the buffer that it holds to its end. -/
def bridgeStar (p : StarNo) (f : StarRx) (s : State) : Option BufId × State :=
  match takeBuf f.kind f.payload s with
  | none => (none, s.modDrops (portOfStar p) (fun d => { d with noBuffer := bump d.noBuffer }))
  | some (b, s1) => (some b, decideStar p f b s1)

end Sys2Proof.Machine
end

