-- ==== Sys2Proof/Machine/Trunk.lean ====
section
/-!
DEFINITION. The events of the segment channels, the Trunk Repeater and the Trunk Transmitter (Chapter 1) and their
commands.
-/

namespace Sys2Proof.Machine

/-! ## How every command is taken -/

/-- An event of a running part: its effect, and within it the Print Arbiter's share (R144). While the part is held in
reset or without supply, nothing is heard, sent or taken (R200; log entries 16 and 17). -/
def event (f : State → State) (s : State) : Host.Outcome State Fault Refusal :=
  .next (if s.isRunning then settle s (f s) else s)

/-- An event of the world outside that also leaves its mark on a line: the mark is made whether or not the part runs. -/
def lineEvent (mark f : State → State) (s : State) : Host.Outcome State Fault Refusal :=
  .next (if s.isRunning then settle s (f (mark s)) else mark s)

/-- An event of the world outside that may bridge a frame: the buffer that it takes is held to its end, the Print Arbiter's
share included, so a frame of that share finds it taken (R44, R144). -/
def bridgingEvent (mark : State → State) (f : State → Option BufId × State) (s : State) : Host.Outcome State Fault Refusal :=
  .next (if s.isRunning then endHold (f (mark s)).1 (settle s (f (mark s)).2) else mark s)

/-- Foreign carrier stands, or no longer stands, on the cable of a segment. -/
def setCarrier (t : SegNo) (v : Bool) (s : State) : State := s.modSeg t (fun g => { g with carrier := v })

/-- Foreign carrier falls on the cable of a segment. A fall that the channel takes as the end of something is that only
while the channel is in that phase; behind an open relay any fall is unheard (R1). -/
def carrierFalls (t : SegNo) (phase : LinePhase) (s : State) : State :=
  if (s.seg t).phase = phase ∨ (s.seg t).phase = .quiet then setCarrier t false s else s

/-! ## Rise -/

/-- The Burst Measurement Unit at a rise (R10, R12, R16): the current record moves to previous and a new one opens. -/
def Segment.openCapture (now : Nat) (limits : Settings) (g : Segment) : Segment :=
  { g with
    phase := .burst, previous := g.current,
    current := { Capture.initial with
      rise := BitVec.ofNat 16 now, cls := .inProgress,
      gap := if g.longQuiet then 65535#16 else BitVec.ofNat 16 now - g.lastFall },
    longQuiet := false, quietCount := 0, riseAt := now, busyFrom := now, runtAtRise := limits.runtLimit,
    jabberAtRise := limits.jabberLimit, collided := g.driven, decoder := Decoder.initial }

/-- A rise on a connected segment claims the idle repeater: every other connected segment that is not in jabber
continuation is driven (R20). -/
def claimRepeater (t : SegNo) (s : State) : State :=
  { s with trunk := { s.trunk with
      holder := .segment t, truncate := false,
      segs := s.trunk.segs.mapFinIdx (fun i g h =>
        if i ≠ t.val ∧ segConnected s ⟨i, h⟩ = true ∧ g.phase ≠ .continuation then g.startDriving else g) } }

/-- A collision ends the transmitter's attempt: it stops driving, the repeater is released, and the fourth failed
attempt abandons the head frame (R26). -/
def txCollision (s : State) : State :=
  let s1 := (releaseRepeater s).modTrunkCounters (fun c => { c with txCollisions := bump c.txCollisions })
  if 4 ≤ s.trunk.attempts + 1 then
    popTrunk (s1.modTrunkCounters (fun c => { c with txAbandon := bump c.txAbandon }))
  else { s1 with trunk := { s1.trunk with attempts := s.trunk.attempts + 1 } }

/-- A rise taken by the channel of a segment and, where it may, by the repeater or the transmitter (R10, R20, R21, R26). -/
def takeRise (t : SegNo) (s : State) : State :=
  let s1 := s.modSeg t (Segment.openCapture s.chassis.now (s.port (portOfSeg t)).current)
  match s.trunk.holder with
  | .none => if segConnected s t then claimRepeater t s1 else s1
  | .transmitter => if (s.seg t).driven then txCollision s1 else s1
  | .segment _ => s1

/-- Foreign carrier rises on a segment. Behind an open relay it is not heard (R1); where carrier already stands there is
no rise. -/
def burstRise (t : SegNo) (dt : Nat) (s : State) : State :=
  let s1 := s.advance dt
  if relayClosed s t && !(s.seg t).carrier && decide ((s.seg t).phase = .quiet) then setCarrier t true (takeRise t s1)
  else setCarrier t true s1

/-! ## Header event -/

/-- The repeater truncates: it stops driving, sets the mark and stays held; the holder's capture records it (R23). -/
def truncateBurst (t : SegNo) (s : State) : State :=
  let s1 := (stopAllDriving s).modSeg t (fun g =>
    { g with current := { g.current with truncated := true }, counters := { g.counters with truncated := bump g.counters.truncated } })
  { s1 with trunk := { s1.trunk with truncate := true } }

/-- The repeater's header-time decision for its holder's burst with destination `dst` and source `src` (R23). -/
def headerDecision (t : SegNo) (dst src : DeskCode) (s : State) : State :=
  match findEntry s src with
  | none => s
  | some e =>
    if e.isSuspended then truncateBurst t s
    else if dst = 0#8 && e.inUse then
      match applyWindow e s with
      | (true, s1) => truncateBurst t s1
      | (false, s1) => s1
    else s

/-- The header event: taken when the sixth header byte is in, it acts only for the repeater's holder and only where the
header check passed (R7, R23). The source code is looked up whichever side its entry is of (DEDUCED, log entry 21). -/
def headerEvent (t : SegNo) (s : State) : State :=
  let d := (s.seg t).decoder
  if d.header = some true ∧ s.trunk.holder = .segment t then headerDecision t (byteAt d.store 0) (byteAt d.store 1) s else s

/-- The decoder of a burst in progress takes bits; where they complete the header, the header event is taken (R7;
log entry 19). -/
def feedDecoder (t : SegNo) (cells : List Bool) (s : State) : State :=
  let d := (s.seg t).decoder
  let s1 := s.modSeg t (fun g => { g with decoder := g.decoder.feed cells })
  if d.header = none ∧ (d.feed cells).header ≠ none then headerEvent t s1 else s1

/-! ## The end of a burst -/

/-- Order 2 to 6 of Table 1-4 for a burst that ends by its fall (R14). -/
def classify (collided : Bool) (runtLimit len edges : Nat) (decoded : Bool) : BurstClass × Option GarbleCause :=
  if collided then (.garble, some .collision)
  else if len < runtLimit then (.runt, none)
  else if edges < len / 2 ∨ 2 * (len / 2) + 2 < edges then (.garble, some .code)
  else if decoded then (.good, none)
  else (.check, none)

/-- The counter of a class gains one (Table 1-8). -/
def SegCounters.count (c : BurstClass) (k : SegCounters) : SegCounters :=
  match c with
  | .good => { k with good := bump k.good }
  | .runt => { k with runt := bump k.runt }
  | .garble => { k with garble := bump k.garble }
  | .check => { k with check := bump k.check }
  | .jabber => { k with jabber := bump k.jabber }
  | .none | .inProgress | .abandoned => k

/-- The Burst Measurement Unit at a fall taken at tick `now`: the fall is the time of the last transition, 1 µs before
(R6, R13), the record is closed with its class, and the quiet time starts (R12). -/
def Segment.closeCapture (now : Nat) (c : BurstClass × Option GarbleCause) (g : Segment) : Segment :=
  let fall := BitVec.ofNat 16 (now - Config.fallTicks)
  let g1 := g.settleBusy now
  { g1 with
    phase := .quiet, lastFall := fall, quietCount := 0, quietSince := now, collided := false, decoder := Decoder.initial,
    counters := g.counters.count c.1,
    current := { g.current with fall := fall, len := fall - g.current.rise, cls := c.1, cause := c.2 } }

/-- The length of a burst whose fall is taken at `now` (R13). -/
def Segment.burstLen (now : Nat) (g : Segment) : Nat := (BitVec.ofNat 16 (now - Config.fallTicks) - g.current.rise).toNat

/-- A CHECK burst whose header check passed is attributed when its source code is the key of an entry (R18). -/
def attributeBurst (t : SegNo) (d : Decoder) (s : State) : State :=
  if d.header = some true then
    match findEntry s (byteAt d.store 1) with
    | some e => chargeFault (portOfSeg t) e.code s
    | none => s
  else s

/-- The result of a classified burst is handed on (R17, R18), with the buffer that bridging it has taken. -/
def handOn (t : SegNo) (c : BurstClass) (d : Decoder) (truncated : Bool) (s : State) : Option BufId × State :=
  let q := portOfSeg t
  match c with
  | .runt => (none, faultEvent .runt q s)
  | .garble => (none, faultEvent .garble q s)
  | .check => (none, attributeBurst t d (faultEvent .check q s))
  | .good =>
    let s1 := goodEvent q s
    match d.verdict with
    | some f => if segConnected s1 t then bridgeTrunk t truncated f s1 else (none, s1)
    | none => (none, s1)
  | .none | .inProgress | .jabber | .abandoned => (none, s)

/-- The repeater is released when its holder's carrier falls or is cut (R22). -/
def releaseIfHolder (t : SegNo) (s : State) : State := if s.trunk.holder = .segment t then releaseRepeater s else s

/-- The end of a burst by its fall (R13, R14, R17, R22). -/
def endBurst (t : SegNo) (edges : Nat) (s : State) : Option BufId × State :=
  let g := (s.seg t).addEdges edges
  let c := classify g.collided g.runtAtRise (g.burstLen s.chassis.now) g.current.edges g.decoder.verdict.isSome
  let s1 := s.modSeg t (fun x => (x.addEdges edges).closeCapture s.chassis.now c)
  handOn t c.1 g.decoder g.current.truncated (releaseIfHolder t s1)

/-- The jabber cut (R15): the record is closed at the jabber limit, the segment enters jabber continuation, and the
Supervision Unit takes a JABBER event (R17, R113). -/
def cutBurst (t : SegNo) (edges : Nat) (s : State) : State :=
  let s1 := s.modSeg t (fun g =>
    let g1 := g.addEdges edges
    { g1 with
      phase := .continuation, collided := false, decoder := Decoder.initial, counters := g.counters.count .jabber,
      current := { g1.current with
        fall := g.current.rise + BitVec.ofNat 16 g.jabberAtRise, len := BitVec.ofNat 16 g.jabberAtRise,
        cls := .jabber, cause := none } })
  jabberEvent (portOfSeg t) (releaseIfHolder t s1)

/-- The carrier that went on after a jabber cut falls (R15, R12). -/
def endContinuation (t : SegNo) (s : State) : State :=
  s.modSeg t (fun g =>
    { g.settleBusy s.chassis.now with
      phase := .quiet, lastFall := BitVec.ofNat 16 (s.chassis.now - Config.fallTicks), quietCount := 0,
      quietSince := s.chassis.now })

/-- Foreign carrier falls on a segment. A burst whose carrier has stood for its jabber limit was cut there (R14 order 1,
R15), so its fall is that of the continuation (DEDUCED, log entry 20). -/
def burstFall (t : SegNo) (dt edges : Nat) (cells : List Bool) (s : State) : Option BufId × State :=
  let s1 := s.advance dt
  if (s.seg t).phase = .burst then
    if (s.seg t).riseAt + (s.seg t).jabberAtRise ≤ s1.chassis.now then
      let s2 := cutBurst t edges (feedDecoder t cells s1)
      (none, if (s2.seg t).phase = .continuation then endContinuation t s2 else s2)
    else endBurst t edges (feedDecoder t cells s1)
  else (none, s1)

/-- The carrier of a burst reaches its jabber limit. -/
def jabberCut (t : SegNo) (edges : Nat) (s : State) : State :=
  if (s.seg t).phase = .burst then
    let limit := (s.seg t).riseAt + (s.seg t).jabberAtRise
    cutBurst t edges { s with chassis := { s.chassis with now := max s.chassis.now limit } }
  else s

/-- Carrier that is no burst goes away, after which the channel accepts the next rise (R3). -/
def closingFall (t : SegNo) (s : State) : State :=
  if (s.seg t).phase = .closing then s.modSeg t (fun g => { g with phase := .quiet, quietSince := s.chassis.now }) else s

/-! ## Terminator -/

/-- A terminator edge and the action the segment's plan gives it (R4, R5). -/
def terminatorEdge (t : SegNo) (s : State) : State :=
  let q := portOfSeg t
  let lost := !(s.seg t).unterminated
  let plan := s.segPlans[t.val]
  let s1 := s.modSeg t (fun g => { g with unterminated := lost, differing := false })
  if !(s.seg t).differing then s
  else if (s.port q).state = .off then s1
  else if lost then
    match plan.loss with
    | .ignore => s1
    | .report => setFlag .terminator t.val (some 1#8) s1
    | .isolate => terminatorTrigger q (setFlag .terminator t.val (some 1#8) s1)
  else
    match plan.ret with
    | .ignore => s1
    | .report => setFlag .terminator t.val (some 2#8) s1

/-! ## The transmitter -/

/-- A segment is quiet in the sense of R24: no foreign carrier, no jabber continuation, not driven. -/
def Segment.isQuiet (g : Segment) : Bool := g.noCarrier && decide (g.phase = .quiet) && !g.driven

/-- The required quiet time of the head frame, in measurement ticks (R24). -/
def requiredQuiet (attempts : Nat) : Nat := Config.gapTicks + Config.backoffTicks * attempts

/-- The conditions under which the transmitter claims the repeater (R24). From when a segment counts as quiet is DEDUCED
(log entry 13). -/
def mayClaim (s : State) : Bool :=
  decide (s.trunk.holder = .none) && !trunkDown s && !s.trunk.queue.isEmpty
    && (List.finRange 4).all (fun t => !segConnected s t
        || ((s.seg t).isQuiet && decide ((s.seg t).quietSince + requiredQuiet s.trunk.attempts ≤ s.chassis.now)))

/-- The transmitter claims the repeater and starts an attempt of its head frame (R24, R25). -/
def transmitClaim (s : State) : State :=
  if mayClaim s then
    { s with trunk := { s.trunk with
        holder := .transmitter,
        onWire := match s.trunk.queue with
          | b :: _ => bufTrunkFrame (s.buf b)
          | [] => [],
        segs := s.trunk.segs.mapFinIdx (fun i g h => if segConnected s ⟨i, h⟩ then { g with driven := true } else g) } }
  else s

/-- An attempt completes without collision (R26). -/
def transmitCompletion (s : State) : State :=
  if s.trunk.holder = .transmitter then
    (popTrunk (releaseRepeater s)).modTrunkCounters (fun c => { c with txFrames := bump c.txFrames })
  else s

/-! ## Commands -/

/-- BURST_RISE. -/
def execBurstRise (t : SegNo) (dt : Nat) (s : State) : Host.Outcome State Fault Refusal :=
  .next (if s.isRunning then settle s (burstRise t dt s) else setCarrier t true s)

/-- HEADER_EVENT (R7, R23). -/
def execHeaderEvent (t : SegNo) (dt : Nat) (cells : List Bool) (s : State) : Host.Outcome State Fault Refusal :=
  event (fun s => if (s.seg t).phase = .burst then feedDecoder t cells (s.advance dt) else s.advance dt) s

/-- BURST_FALL (R13). Behind an open relay the fall is not heard. -/
def execBurstFall (t : SegNo) (dt edges : Nat) (cells : List Bool) (s : State) : Host.Outcome State Fault Refusal :=
  bridgingEvent (carrierFalls t .burst) (burstFall t dt edges cells) s

/-- JABBER_CUT (R15). -/
def execJabberCut (t : SegNo) (edges : Nat) (s : State) : Host.Outcome State Fault Refusal := event (jabberCut t edges) s

/-- CONTINUATION_FALL (R15). -/
def execContinuationFall (t : SegNo) (dt : Nat) (s : State) : Host.Outcome State Fault Refusal :=
  lineEvent (carrierFalls t .continuation)
    (fun s => if (s.seg t).phase = .continuation then endContinuation t (s.advance dt) else s.advance dt) s

/-- LONG_QUIET (R12). -/
def execLongQuiet (t : SegNo) (s : State) : Host.Outcome State Fault Refusal := event (longQuiet t) s

/-- TERMINATOR_EDGE (R4, R5). -/
def execTerminatorEdge (t : SegNo) (s : State) : Host.Outcome State Fault Refusal := event (terminatorEdge t) s

/-- TRANSMIT_CLAIM (R24). -/
def execTransmitClaim (dt : Nat) (s : State) : Host.Outcome State Fault Refusal :=
  event (fun s => transmitClaim (s.advance dt)) s

/-- TRANSMIT_COMPLETION (R26). -/
def execTransmitCompletion (dt : Nat) (s : State) : Host.Outcome State Fault Refusal :=
  event (fun s => transmitCompletion (s.advance dt)) s

/-- CLOSING_CARRIER_FALL (R3). -/
def execClosingCarrierFall (t : SegNo) (dt : Nat) (s : State) : Host.Outcome State Fault Refusal :=
  lineEvent (carrierFalls t .closing) (fun s => closingFall t (s.advance dt)) s

/-- FOLD (R119, R120): the expiry is taken when the period timer has run out. -/
def execFold (s : State) : Host.Outcome State Fault Refusal :=
  event (fun s => if s.sup.timer = 0 then foldAll s else s) s

end Sys2Proof.Machine
end

