-- ==== Sys2Proof/Machine/Alerts.lean ====
section
/-!
DEFINITION. Sending alerts (R196), and what ALERT_SET and ALERT_CLEAR do to the flags and the queue (R193, R197).
-/

namespace Sys2Proof.Machine

/-- The payload of an alert (Table 12-5). -/
def alertPayload (r : AlertRecord) : List Byte :=
  [0xC0#8, BitVec.ofNat 8 (r.kind.index.val + 1), BitVec.ofNat 8 r.inst, BitVec.ofNat 8 r.level.val]
    ++ [if r.detail.isSome then 1#8 else 0#8, r.detail.getD 0#8]

/-- A destination comes to at least one transmit queue: a flood with no connected star port comes to none (R196). -/
def resolves (d : Dest) (s : State) : Bool :=
  match d with
  | .trunk _ | .star _ _ => true
  | .flood _ => !(connectedStars s).isEmpty
  | .nowhere => false

/-- The head record leaves the alert queue. -/
def popAlert (s : State) : State := { s with alerts := { s.alerts with queue := s.alerts.queue.tail } }

/-- The head record is sent (R196): with no buffer free it stays; otherwise it leaves the queue and is offered to the
queues its destination resolves to, or counted unrouted. -/
def alertSend (s : State) : State :=
  match s.alerts.queue with
  | [] => s
  | r :: _ =>
    let d := alertDest s
    match sendBuilt kindControl (alertPayload r) d s with
    | none => s
    | some s1 =>
      let s2 := popAlert s1
      if resolves d s then { s2 with alerts := { s2.alerts with sent := bump s2.alerts.sent } }
      else { s2 with alerts := { s2.alerts with unrouted := bump s2.alerts.unrouted } }

/-- A record stays in the queue under a new configuration: its kind was not turned off, and there is a destination (R193). -/
def keepsRecord (old new : AlertConfig) (r : AlertRecord) : Bool :=
  decide (new.dest ≠ .none) && !(old.enabled r.kind && !new.enabled r.kind)

/-- A configuration replaces the one in force and acts on the alert queue (R193). -/
def applyAlertConfig (c : AlertConfig) (s : State) : State :=
  let a := s.alerts
  let kept := a.queue.filter (keepsRecord a.config c)
  { s with alerts :=
      { a with config := c, queue := kept, displaced := bumpBy (a.queue.length - kept.length) a.displaced } }

/-- An item of an ALERT_CLEAR names a flag: its kind, and its instance or ALL (R197). -/
def clearNames (item : AlertKind × Byte) (f : AlertFlag) : Bool :=
  f.kind == item.1 && (item.2 == 255#8 || f.inst == item.2.toNat)

/-- An item whose instance lies outside its kind's instances (R197). -/
def clearItemBad (item : AlertKind × Byte) : Bool := item.2 != 255#8 && !item.1.hasInstance item.2.toNat

/-- The flags that a list of items names. -/
def namedFlags (items : List (AlertKind × Byte)) (s : State) : List AlertFlag :=
  s.alerts.flags.filter (fun f => items.any (fun i => clearNames i f))

/-- Every flag named is cleared with its detail (R197). -/
def clearFlags (items : List (AlertKind × Byte)) (s : State) : State :=
  { s with alerts := { s.alerts with flags := s.alerts.flags.filter (fun f => !items.any (fun i => clearNames i f)) } }

/-- ALERT_SEND (R196). -/
def execAlertSend (s : State) : Host.Outcome State Fault Refusal := event alertSend s

end Sys2Proof.Machine
end

