-- ==== Sys2Proof/Machine/Star.lean ====
section
/-!
DEFINITION. The events of the star ports (Chapter 2) and their commands: link, frames received and judged, frames sent.
-/

namespace Sys2Proof.Machine

/-! ## Link (R31, R32) -/

/-- Link signalling stands, or no longer stands, on the run of a star port. A line without signalling carries no frame. -/
def setLineUp (p : StarNo) (v : Bool) (s : State) : State :=
  s.modStar p (fun x => { x with lineUp := v, lineBusy := v && x.lineBusy })

/-- A frame is, or is no longer, in progress on the line of a star port. -/
def setLineBusy (p : StarNo) (v : Bool) (s : State) : State := s.modStar p (fun x => { x with lineBusy := v })

/-- LINK UP: the recorded link becomes UP (R31). -/
def linkUp (p : StarNo) (s : State) : State := s.modStar p (fun x => { x with link := true })

/-- What the Supervision Unit and the Alert Unit take from a lost link, in every state but OFF (R32). -/
def linkLossEvent (p : StarNo) (s : State) : State :=
  if (s.port (portOfStar p)).state = .off then s
  else faultEvent .link (portOfStar p) (setFlag .linkDown p.val none (s.modStar p StarPort.abandonRx))

/-- LINK DOWN (R32): the recorded link becomes DOWN and LINK_LOSS counts it, a port that was connected is flushed
(R40), and outside OFF the frame in reception is abandoned, the flag is set and a link-loss event is handed on. A link
already recorded DOWN changes nothing. -/
def linkDown (p : StarNo) (s : State) : State :=
  if (s.starPort p).link then
    let s1 := s.modStar p (fun x =>
      { x with link := false, counters := { x.counters with linkLoss := bump x.counters.linkLoss } })
    linkLossEvent p (if starConnected s p then flushStar p s1 else s1)
  else s

/-! ## Receiving (R33 to R37) -/

/-- Classes of a received star frame (Table 2-2). -/
inductive StarClass where
  | runt | check | good
  deriving DecidableEq, Repr

/-- The length field of a received star frame, bytes 10 and 11 (Table 12-2). -/
def starLength (store : List Byte) : Nat := be16 (byteAt store 9) (byteAt store 10)

/-- The class of a frame of `n` whole bytes, the first of the tests of Table 2-2 that holds (R35). -/
def classifyStar (store : List Byte) (n : Nat) : StarClass :=
  if n < 13 then .runt
  else if 1513 < n then .check
  else if n ≠ 13 + starLength store then .check
  else if checkBytes (crc16 (store.take (n - 2))) ≠ store.drop (n - 2) then .check
  else .good

/-- The source ID of a received star frame, bytes 5 to 8 (R37). -/
def starSource (store : List Byte) : StationId :=
  be32 (byteAt store 4) (byteAt store 5) (byteAt store 6) (byteAt store 7)

/-- A received star frame, read by Table 12-2. -/
def starRxOf (store : List Byte) : StarRx :=
  { dst := be32 (byteAt store 0) (byteAt store 1) (byteAt store 2) (byteAt store 3), src := starSource store,
    kind := byteAt store 8, payload := (store.drop 11).take (starLength store) }

/-- The receive store and byte count take whole bytes: up to 1513 are stored, all are counted up to 65535 (R34). -/
def StarPort.receive (bytes : List Byte) (x : StarPort) : StarPort :=
  { x with store := (x.store ++ bytes).take 1513, count := min (x.count + bytes.length) 65535 }

/-- The counter of a class gains one (R36 step 1). -/
def StarCounters.countClass (c : StarClass) (k : StarCounters) : StarCounters :=
  match c with
  | .runt => { k with rxRunt := bump k.rxRunt }
  | .check => { k with rxCheck := bump k.rxCheck }
  | .good => { k with rxGood := bump k.rxGood }

/-- A CHECK frame is charged to the entry its source ID names, if the index holds it (R37). -/
def attributeFrame (p : StarNo) (store : List Byte) (s : State) : State :=
  match indexEntry s (starSource store) with
  | some e => chargeFault (portOfStar p) e.code s
  | none => s

/-- A classified frame is counted and handed on (R36), with the buffer that bridging it has taken. -/
def handOnFrame (p : StarNo) (c : StarClass) (store : List Byte) (s : State) : Option BufId × State :=
  let q := portOfStar p
  let s1 := s.modStar p (fun x => { x with counters := x.counters.countClass c })
  match c with
  | .runt => (none, faultEvent .runt q s1)
  | .check => (none, attributeFrame p store (faultEvent .check q s1))
  | .good =>
    let s2 := goodEvent q s1
    if starConnected s2 p then bridgeStar p (starRxOf store) s2 else (none, s2)

/-- The start of a frame on the line: an IDLE receiver that listens begins reception (R33, R34). -/
def frameStart (p : StarNo) (s : State) : State :=
  if (s.port (portOfStar p)).state.listens && decide ((s.starPort p).rx = .idle) then
    s.modStar p (fun x => { x with rx := .receiving, store := [], count := 0 })
  else s

/-- The end of a frame on the line: a frame in reception is classified and handed on, a frame waited out is discarded,
and the receiver is IDLE (R33 to R36). The receive store and the byte count are empty after every end of a frame (DESIGN
CHOICE, log entry 45). -/
def frameEnd (p : StarNo) (bytes : List Byte) (s : State) : Option BufId × State :=
  match (s.starPort p).rx with
  | .idle => (none, s)
  | .waitIdle => (none, s.modStar p StarPort.abandonRx)
  | .receiving =>
    let x := (s.starPort p).receive bytes
    handOnFrame p (classifyStar x.store x.count) x.store (s.modStar p StarPort.abandonRx)

/-! ## Sending (R39) -/

/-- A connected port with an idle transmitter begins to send the head frame of its queue. -/
def sendStart (p : StarNo) (s : State) : State :=
  let x := s.starPort p
  match x.queue with
  | [] => s
  | b :: _ =>
    if starConnected s p && decide (x.tx = .idle) then
      s.modStar p (fun x => { x with tx := .sending (bufStarFrame (s.buf b)) })
    else s

/-- The last check byte has been sent: the head reference leaves the queue and is released. The next frame, which the
manual begins at once, begins at its own row, SEND_START (R39; DESIGN CHOICE, log entry 44). -/
def sendCompletion (p : StarNo) (s : State) : State :=
  match (s.starPort p).tx, (s.starPort p).queue with
  | .sending _, b :: rest =>
    dropRef b (s.modStar p (fun x =>
      { x with queue := rest, tx := .idle, counters := { x.counters with txFrames := bump x.counters.txFrames } }))
  | .sending _, [] => s
  | .idle, _ => s

/-! ## Commands -/

/-- LINK_UP (R31). -/
def execLinkUp (p : StarNo) (s : State) : Host.Outcome State Fault Refusal := lineEvent (setLineUp p true) (linkUp p) s

/-- LINK_DOWN (R32). -/
def execLinkDown (p : StarNo) (s : State) : Host.Outcome State Fault Refusal :=
  lineEvent (setLineUp p false) (linkDown p) s

/-- FRAME_START (R34). -/
def execFrameStart (p : StarNo) (s : State) : Host.Outcome State Fault Refusal :=
  lineEvent (setLineBusy p true) (frameStart p) s

/-- FRAME_END (R34 to R37). -/
def execFrameEnd (p : StarNo) (bytes : List Byte) (s : State) : Host.Outcome State Fault Refusal :=
  bridgingEvent (setLineBusy p false) (frameEnd p bytes) s

/-- SEND_START (R39). -/
def execSendStart (p : StarNo) (s : State) : Host.Outcome State Fault Refusal := event (sendStart p) s

/-- SEND_COMPLETION (R39). -/
def execSendCompletion (p : StarNo) (s : State) : Host.Outcome State Fault Refusal := event (sendCompletion p) s

end Sys2Proof.Machine
end

