-- ==== Sys2Proof/Machine/Control.lean ====
section
/-!
DEFINITION. The Control Unit's own part of a request (Sections 9.1 to 9.3): taking it, its form, permission, the
save-in-flight stage, and the answer. What each request does is in the other files of its owner.
-/

namespace Sys2Proof.Machine

/-! ## Answers -/

/-- Answer statuses, numbered 0–7 in the order of Table 9-1. -/
inductive Status where
  | done | busy | notPermitted | badRequest | outOfRange | noSuch | conflict | storeFault
  deriving DecidableEq, Repr

/-- The number of a status (R213). -/
def Status.number : Status → Byte
  | .done => 0
  | .busy => 1
  | .notPermitted => 2
  | .badRequest => 3
  | .outOfRange => 4
  | .noSuch => 5
  | .conflict => 6
  | .storeFault => 7

/-- A piece of an answer's results: fields of fixed length, or a list of varying length whose items are each given as
bytes (R213). -/
inductive Chunk where
  | fixed (bytes : List Byte)
  | items (l : List (List Byte))
  deriving DecidableEq, Repr

/-- The bytes a chunk takes whatever is left out: a list keeps its count byte. -/
def Chunk.least : Chunk → Nat
  | .fixed b => b.length
  | .items _ => 1

/-- A chunk holds a list of varying length. -/
def Chunk.isItems : Chunk → Bool
  | .fixed _ => false
  | .items _ => true

/-- The leading items of a list that fit into `room` bytes (R182). -/
def leadingItems : Nat → List (List Byte) → List (List Byte)
  | _, [] => []
  | room, x :: xs => if x.length ≤ room then x :: leadingItems (room - x.length) xs else []

/-- The results as bytes, with `room` bytes for list items in all; the flag tells whether items were left out (R182). -/
def renderChunks : Nat → List Chunk → List Byte × Bool
  | _, [] => ([], false)
  | room, .fixed b :: cs =>
    let r := renderChunks room cs
    (b ++ r.1, r.2)
  | room, .items l :: cs =>
    let kept := leadingItems room l
    let r := renderChunks (room - kept.flatten.length) cs
    (u8 kept.length ++ kept.flatten ++ r.1, r.2 || decide (kept.length < l.length))

/-- The longest payload toward a return route (R182). -/
def payloadLimit : Route → Nat
  | .segment _ _ => Config.trunkPayloadMax
  | .star _ _ => Config.starPayloadMax

/-- The results of a DONE answer for a payload limit: lists cut to the items that fit, and the truncation mark at the
end where there is a list (R182). -/
def renderResults (limit : Nat) (cs : List Chunk) : List Byte :=
  if cs.any Chunk.isItems then
    let r := renderChunks (limit - (4 + (cs.map Chunk.least).sum + 1)) cs
    r.1 ++ [if r.2 then 1#8 else 0#8]
  else (renderChunks 0 cs).1

/-- The first byte of the answer to an operation (Table 12-5). -/
def answerByte (op : Byte) : Byte := if op.toNat < 128 then op + 128#8 else Config.answerByteAbove op

/-- An answer's payload: operation plus 128, tag, status, and for DONE the results (Table 12-5, R182). -/
def controlAnswer (op : Byte) (tag : BitVec 16) (limit : Nat) (st : Status) (results : List Chunk) : List Byte :=
  [answerByte op, tag.extractLsb' 8 8, tag.extractLsb' 0 8, st.number] ++ (if st = .done then renderResults limit results else [])

/-- An answer of the Control Unit is built in a fresh buffer and offered by its return route; with no buffer free it is
lost and counted (R182). -/
def sendControl (r : Route) (payload : List Byte) (s : State) : State :=
  match sendBuilt kindControl payload (routeDest r) s with
  | some s1 => s1
  | none => { s with ctl := { s.ctl with answerLost := bump s.ctl.answerLost } }

/-! ## The stages -/

/-- What a request comes to: its status, its results, and the state it leaves. -/
structure Reply where
  status : Status
  results : List Chunk
  state : State

/-- A request refused with a status changes nothing. -/
def refuse (st : Status) (s : State) : Reply := { status := st, results := [], state := s }

/-- A request carried out without results. -/
def done (s : State) : Reply := { status := .done, results := [], state := s }

/-- A request carried out with results. -/
def doneWith (results : List Chunk) (s : State) : Reply := { status := .done, results := results, state := s }

/-- Permission for a request that is no read: before commissioning everyone, then a sender whose entry is FIXED and
carries the admin attribute (R181). -/
def permitted (r : Route) (s : State) : Bool := !s.ctl.commissioned || ((senderOf s r).map Entry.isAdmin).getD false

/-- A request answered NOT_PERMITTED (R181). -/
def notPermitted (s : State) : Reply :=
  refuse .notPermitted { s with ctl := { s.ctl with notPermitted := bump s.ctl.notPermitted } }

/-- A request answered BUSY (R186). -/
def busyReply (s : State) : Reply := refuse .busy { s with ctl := { s.ctl with busy := bump s.ctl.busy } }

/-- Stages 1 to 4 of a request (R178): `params` is what its parameters say, or `none` for a wrong length or an invalid
choice; `held` tells that a SAVE in flight holds it back. -/
def stages {α : Type} (read : Bool) (held : α → State → Bool) (params : Option α) (effect : α → State → Reply)
    (r : Route) (s : State) : Reply :=
  match params with
  | none => refuse .badRequest s
  | some a =>
    if !(read || permitted r s) then notPermitted s
    else if held a s && s.ctl.save.isSome then busyReply s
    else effect a s

/-- No SAVE in flight holds the request back. -/
def neverHeld {α : Type} (_ : α) (_ : State) : Bool := false

/-- A SAVE in flight holds the request back (R186). -/
def alwaysHeld {α : Type} (_ : α) (_ : State) : Bool := true

/-! ## Taking a request -/

/-- The request at the head of the control input queue. -/
def headControl (s : State) : Option (InputEntry × List Byte) :=
  match s.inputs.control with
  | [] => none
  | e :: _ => some (e, (s.buf e.buf).payload)

/-- Taking removes the head entry, releases its reference and counts it (R178, R48). -/
def takeControl (e : InputEntry) (s : State) : State :=
  dropRef e.buf { s with inputs := { s.inputs with control := s.inputs.control.tail },
                         ctl := { s.ctl with taken := bump s.ctl.taken } }

/-- A request is handled whole: its stages and effect, the Print Arbiter's share of the event, then the answer (R178,
R182). `before` is the state in which it was taken. A flag that the arbiter's share sets is raised after the backlog of a
commissioning that the effect completes (DESIGN CHOICE, log entry 48). -/
def answerRequest (before : State) (q : Request) (r : Route) (reply : Reply) : State :=
  sendControl r (controlAnswer q.op q.tag (payloadLimit r) reply.status reply.results) (settle before reply.state)

/-- A command of the Control Unit: it acts when the head entry is a request whose row it is. -/
def request (mine : Request → Bool) (handle : Request → Route → State → Reply) (s : State) : State :=
  match headControl s with
  | none => s
  | some (e, payload) =>
    match parseRequest payload with
    | none => s
    | some q =>
      if mine q then answerRequest s q e.route (handle q e.route (takeControl e s)) else s

/-- A request of a running part. -/
def requestEvent (f : State → State) (s : State) : Host.Outcome State Fault Refusal :=
  .next (if s.isRunning then f s else s)

/-- The row of an operation number (R213). -/
def isOp (n : Nat) (q : Request) : Bool := q.op.toNat == n

/-- Parameters of no bytes. -/
def noParams (l : List Byte) : Option Unit := if l = [] then some () else none

/-- Parameters of one byte. -/
def oneParam (l : List Byte) : Option Byte :=
  match l with
  | [b] => some b
  | _ => none

/-- Parameters of two bytes. -/
def twoParams (l : List Byte) : Option (Byte × Byte) :=
  match l with
  | [a, b] => some (a, b)
  | _ => none

/-! ## The requests the Control Unit answers by itself -/

/-- UNKNOWN_OPERATION (R180): a request too short for its operation and tag is discarded and counted, without an answer;
an operation outside 1–28 is answered BAD_REQUEST. -/
def unknownOperation (s : State) : State :=
  match headControl s with
  | none => s
  | some (e, payload) =>
    match parseRequest payload with
    | none =>
      let s1 := takeControl e s
      { s1 with ctl := { s1.ctl with short := bump s1.ctl.short } }
    | some q =>
      if 1 ≤ q.op.toNat ∧ q.op.toNat ≤ 28 then s
      else answerRequest s q e.route (refuse .badRequest (takeControl e s))

/-- UNKNOWN_OPERATION. -/
def execUnknownOperation (s : State) : Host.Outcome State Fault Refusal := requestEvent unknownOperation s

/-- CLEAR_CAUSES empties the reset-cause record (R201). -/
def clearCauses (s : State) : State :=
  { s with chassis := { s.chassis with causes := { power := false, panel := false, command := false, factory := false } } }

/-- CLEAR_CAUSES (R201). -/
def execClearCauses (s : State) : Host.Outcome State Fault Refusal :=
  requestEvent (request (isOp 28) (fun q r =>
    stages false neverHeld (noParams q.params) (fun _ s => done (clearCauses s)) r)) s

end Sys2Proof.Machine
end

