-- ==== Sys2Proof/Machine/DirectoryRequests.lean ====
section
/-!
DEFINITION. The directory requests (Section 4.6): ENTRY_FIX, ENTRY_RELEASE, ENTRY_SUSPEND, ENTRY_RESUME, CLEAR_LEARNED.
-/

namespace Sys2Proof.Machine

/-! ## ENTRY_FIX (R82 to R86) -/

/-- The place a request gives: a home segment from the lowest identity byte for TRUNK, the station ID with home unknown
for STAR (R83, R213; DESIGN CHOICE, log entry 23). A home segment above 3 gives none. -/
def FixReq.place (f : FixReq) : Option Place :=
  if f.star then some (.star f.identity none)
  else if h : (f.identity.extractLsb' 0 8).toNat < 4 then some (.trunk ⟨(f.identity.extractLsb' 0 8).toNat, h⟩)
  else none

/-- The printer queue a request gives: absent for 0, a queue for 1–6, and nothing for a byte above 6. -/
def FixReq.queueAttr (f : FixReq) : Option (Option QueueNo) :=
  if f.queue = 0#8 then some none else (queueOf f.queue).map some

/-- An ENTRY_FIX that has passed test 1 of Table 4-7. -/
structure FixPlan where
  code : DeskCode
  place : Place
  admin : Bool
  queue : Option QueueNo
  costCentre : Fin 16
  printClass : Fin 4
  limit : Nat
  deriving DecidableEq, Repr

/-- Test 1 of Table 4-7: code, home segment and printer queue are in range. -/
def FixReq.plan (f : FixReq) : Option FixPlan :=
  match isDesk f.code, f.place, f.queueAttr with
  | true, some p, some q =>
    some { code := f.code, place := p, admin := f.admin, queue := q, costCentre := f.costCentre, printClass := f.printClass,
           limit := f.limit }
  | _, _, _ => none

/-- The station ID of a STAR request. -/
def FixPlan.starId? (f : FixPlan) : Option StationId :=
  match f.place with
  | .star x _ => some x
  | .trunk _ => none

/-- The entry keeps its identity under a request: TRUNK for TRUNK, or the same station ID (Table 4-7). -/
def sameIdentity (a b : Place) : Bool :=
  match a, b with
  | .trunk _, .trunk _ => true
  | .star x _, .star y _ => x == y
  | .trunk _, .star _ _ => false
  | .star _ _, .trunk _ => false

/-- Test 2: a STAR ID is special, the unit number, or of the trunk ID range. -/
def fixIdBad (s : State) (x : StationId) : Bool :=
  x == nullId || x == broadcastId || x == s.chassis.unitNumber || inTrunkRange s.office.base x

/-- Test 3: the side is STAR and a LEARNED TRUNK entry holds the code. -/
def fixTakesTrunk (s : State) (f : FixPlan) : Bool :=
  f.starId?.isSome && (s.dir.entries.any fun e => e.code == f.code && e.isTrunk && decide (e.origin = .learned))

/-- Test 4: a FIXED entry under another code holds the station ID. -/
def fixIdFixed (s : State) (f : FixPlan) : Bool :=
  f.starId?.isSome && (s.dir.entries.any fun e => e.code != f.code && decide (e.origin = .fixed) && e.starId? == f.starId?)

/-- Test 5: a FIXED entry that holds tickets would change its identity. -/
def fixWithTickets (s : State) (f : FixPlan) : Bool :=
  s.dir.entries.any fun e =>
    e.code == f.code && decide (e.origin = .fixed) && !sameIdentity e.place f.place && decide (ticketsHeld s f.code ≠ 0)

/-- Test 6: an entry under another code carries the printer queue given. -/
def fixQueueTaken (s : State) (f : FixPlan) : Bool :=
  f.queue.isSome && (s.dir.entries.any fun e => e.code != f.code && e.printerQueue == f.queue)

/-- Test 7: the code is the printer code of a queue and the request gives it another queue or none. -/
def fixPrinterMoved (s : State) (f : FixPlan) : Bool :=
  (List.finRange 6).any fun q => (s.printer q).code == some f.code && f.queue != some q

/-- The only FIXED entry with the admin attribute is under code `c` (R87). -/
def onlyAdmin (s : State) (c : DeskCode) : Bool :=
  (s.dir.entries.any fun e => e.code == c && e.isAdmin) && !(s.dir.entries.any fun e => e.code != c && e.isAdmin)

/-- Tests 2 to 8 of Table 4-7, the first refusal that holds. -/
def fixRefusal (s : State) (f : FixPlan) : Option Status :=
  if (f.starId?.map (fixIdBad s)).getD false then some .outOfRange
  else if fixTakesTrunk s f then some .conflict
  else if fixIdFixed s f then some .conflict
  else if fixWithTickets s f then some .conflict
  else if fixQueueTaken s f then some .conflict
  else if fixPrinterMoved s f then some .conflict
  else if s.ctl.commissioned && onlyAdmin s f.code && !f.admin then some .conflict
  else none

/-- A newly created FIXED entry (R83). -/
def FixPlan.entry (f : FixPlan) : Entry :=
  { code := f.code, place := f.place, origin := .fixed, state := .active, admin := f.admin, printerQueue := f.queue,
    costCentre := f.costCentre, printClass := f.printClass, presenceLimit := f.limit, presenceRemaining := f.limit,
    broadcastElapsed := 65535, strikes := 0, periodMoves := 0, periodFaults := 0 }

/-- An entry becomes FIXED and takes the attributes and the presence limit of the request. -/
def FixPlan.attributes (f : FixPlan) (e : Entry) : Entry :=
  { e with origin := .fixed, admin := f.admin, printerQueue := f.queue, costCentre := f.costCentre,
           printClass := f.printClass, presenceLimit := f.limit }

/-- The home a request gives an entry of the same identity: the requested segment for TRUNK, the home it has for STAR. -/
def FixPlan.rehome (f : FixPlan) (p : Place) : Place :=
  match p, f.place with
  | .trunk _, .trunk t => .trunk t
  | .star x h, .star _ _ => .star x h
  | .trunk t, .star _ _ => .trunk t
  | .star x h, .trunk _ => .star x h

/-- A LEARNED entry of the same identity is converted; one that is ACTIVE or QUERIED is refreshed, and of any other the
presence remaining is cut to the new limit (R84, R85, R96). -/
def FixPlan.convert (f : FixPlan) (e : Entry) : Entry :=
  let e1 := f.attributes { e with place := f.rehome e.place }
  if e.inUse then e1.refreshed else { e1 with presenceRemaining := min e.presenceRemaining f.limit }

/-- A FIXED entry is updated (R85): a change of identity makes it a newly created entry, otherwise its state, its
countdown but for the new limit, its strikes and its period counts stand. -/
def FixPlan.update (f : FixPlan) (e : Entry) : Entry :=
  if sameIdentity e.place f.place then
    { f.attributes { e with place := f.rehome e.place } with presenceRemaining := min e.presenceRemaining f.limit }
  else f.entry

/-- The entry at the requested code is made as R83, R84 or R85 states. -/
def makeFixed (f : FixPlan) (s : State) : State :=
  match findEntry s f.code with
  | none => s.addEntry f.entry
  | some e =>
    match e.origin with
    | .fixed => s.modEntry f.code f.update
    | .learned =>
      if sameIdentity e.place f.place then s.modEntry f.code f.convert
      else (setFlag .codeConflict 0 (some f.code) (displaceProxy f.code s)).addEntry f.entry

/-- What the FIXED entry takes over of the old entry of its station (R86 step 3). -/
def Entry.takeOver (old e : Entry) : Entry :=
  { e with place := old.place, state := old.state, strikes := old.strikes, broadcastElapsed := old.broadcastElapsed,
           periodMoves := old.periodMoves, periodFaults := old.periodFaults, presenceRemaining := e.presenceLimit }

/-- The name under which the tickets of R86 stand while they are set aside: a code that no entry holds. -/
def setAside : DeskCode := 0#8

/-- A station's LEARNED entry `old` under another code moves to the requested code, in the three steps of R86. -/
def moveStation (f : FixPlan) (old : Entry) (s : State) : State :=
  let s1 := ((renameRequester old.code setAside s).dropEntry old.code).toPool old.code
  renameRequester setAside f.code ((makeFixed f s1).modEntry f.code (Entry.takeOver old))

/-- The LEARNED entry that holds the station ID of a request under another code (R86). -/
def elsewhere (s : State) (f : FixPlan) : Option Entry :=
  (f.starId?.bind (indexEntry s)).filter (fun e => e.code != f.code)

/-- The effect of ENTRY_FIX; it may complete the conditions of commissioning (R206). -/
def fixEntry (q : FixReq) (s : State) : Reply :=
  match q.plan with
  | none => refuse .outOfRange s
  | some f =>
    match fixRefusal s f with
    | some st => refuse st s
    | none =>
      done (commission (match elsewhere s f with
        | some old => moveStation f old s
        | none => makeFixed f s))

/-- ENTRY_FIX. -/
def execEntryFix (s : State) : Host.Outcome State Fault Refusal :=
  requestEvent (request (isOp 9) (fun q r => stages false alwaysHeld (parseFix q.params) fixEntry r)) s

/-! ## ENTRY_RELEASE, ENTRY_SUSPEND, ENTRY_RESUME, CLEAR_LEARNED (R88 to R91) -/

/-- The entry that a request names by its code: OUT_OF_RANGE outside 1–239, NO_SUCH for a code in the pool. -/
def withEntry (c : Byte) (s : State) (f : Entry → Reply) : Reply :=
  if isDesk c then
    match findEntry s c with
    | some e => f e
    | none => refuse .noSuch s
  else refuse .outOfRange s

/-- The code is the printer code of a queue (R88). -/
def isPrinterCode (s : State) (c : DeskCode) : Bool := (List.finRange 6).any fun q => (s.printer q).code == some c

/-- The effect of ENTRY_RELEASE (R88). -/
def releaseEntry (c : Byte) (s : State) : Reply :=
  withEntry c s fun _ =>
    if isPrinterCode s c then refuse .conflict s
    else if s.ctl.commissioned && onlyAdmin s c then refuse .conflict s
    else done (removeEntry .tell c s)

/-- A SAVE in flight holds back the release of a FIXED entry (R186). -/
def heldIfFixed (c : Byte) (s : State) : Bool := ((findEntry s c).map (fun e => decide (e.origin = .fixed))).getD false

/-- ENTRY_RELEASE. -/
def execEntryRelease (s : State) : Host.Outcome State Fault Refusal :=
  requestEvent (request (isOp 10) (fun q r => stages false heldIfFixed (oneParam q.params) releaseEntry r)) s

/-- The effect of ENTRY_SUSPEND (R89). -/
def suspendEntry (c : Byte) (s : State) : Reply := withEntry c s fun _ => done (suspendAdmin c s)

/-- ENTRY_SUSPEND. -/
def execEntrySuspend (s : State) : Host.Outcome State Fault Refusal :=
  requestEvent (request (isOp 11) (fun q r => stages false neverHeld (oneParam q.params) suspendEntry r)) s

/-- The effect of ENTRY_RESUME (R90). -/
def resumeEntry (c : Byte) (s : State) : Reply :=
  withEntry c s fun e => done (if e.inUse then s else s.modEntry c Entry.resumed)

/-- ENTRY_RESUME. -/
def execEntryResume (s : State) : Host.Outcome State Fault Refusal :=
  requestEvent (request (isOp 12) (fun q r => stages false neverHeld (oneParam q.params) resumeEntry r)) s

/-- The codes of the LEARNED entries, ascending. -/
def learnedCodes (s : State) : List DeskCode :=
  (s.dir.entries.filter (fun e => decide (e.origin = .learned))).map Entry.code

/-- The effect of CLEAR_LEARNED (R91). -/
def clearLearned (s : State) : Reply :=
  doneWith [.fixed (u8 (learnedCodes s).length)] ((learnedCodes s).foldl (fun s c => removeEntry .tell c s) s)

/-- CLEAR_LEARNED. -/
def execClearLearned (s : State) : Host.Outcome State Fault Refusal :=
  requestEvent (request (isOp 13) (fun q r => stages false neverHeld (noParams q.params) (fun _ => clearLearned) r)) s

end Sys2Proof.Machine
end

