-- ==== Sys2Proof/Machine/Plans.lean ====
section
/-!
DEFINITION. OFFICE_PLAN and TRUNK_PLAN (R184, R185), SAVE and its completion (R186, R187, R203, R204).
-/

namespace Sys2Proof.Machine

/-! ## OFFICE_PLAN (R184) -/

/-- Test 4 of R184: some STAR entry's station ID lies in a range that begins at `base`. -/
def baseCoversStation (s : State) (base : StationId) : Bool :=
  s.dir.entries.any fun e => (e.starId?.map (inTrunkRange base)).getD false

/-- The tests of R184, the first refusal that holds. -/
def officeRefusal (p : OfficePlan) (s : State) : Option Status :=
  if p.base.extractLsb' 0 8 ≠ 0#8 then some .outOfRange
  else if inTrunkRange p.base s.chassis.unitNumber then some .outOfRange
  else if p.proxyHigh.toNat < p.proxyLow.toNat then some .outOfRange
  else if p.base ≠ s.office.base ∧ baseCoversStation s p.base = true then some .conflict
  else none

/-- The effect of OFFICE_PLAN: the plan is in force, the mark is set, and each star port acts on its enable (R184), in
ascending order (DESIGN CHOICE, log entry 15). -/
def acceptOffice (p : OfficePlan) (s : State) : Reply :=
  match officeRefusal p s with
  | some st => refuse st s
  | none =>
    let s1 := { s with office := p, ctl := { s.ctl with officeMark := true } }
    done (commission ((List.finRange 8).foldl
      (fun x q => actOnEnable (portOfStar q) s.office.enables[q.val] p.enables[q.val] x) s1))

/-- OFFICE_PLAN. -/
def execOfficePlan (s : State) : Host.Outcome State Fault Refusal :=
  requestEvent (request (isOp 24) (fun q r => stages false alwaysHeld (parseOffice q.params) acceptOffice r)) s

/-! ## TRUNK_PLAN (R185) -/

/-- The effect of TRUNK_PLAN: the actions are in force, the settings are staged on ports 0–3, the mark is set, and each
segment acts on its enable (R185), in ascending order: a plan that turns off the one connected segment and turns a higher
one on takes the trunk down between them, and flushes its queue (R27; DESIGN CHOICE, log entry 15). -/
def acceptTrunk (p : TrunkReq) (s : State) : Reply :=
  let s1 := { s with segPlans := p.plans, ctl := { s.ctl with trunkMark := true } }
  let s2 := (List.finRange 4).foldl (fun x t => x.modPort (portOfSeg t) (PortRec.stage p.settings)) s1
  done (commission ((List.finRange 4).foldl
    (fun x t => actOnEnable (portOfSeg t) s.segPlans[t.val].enable p.plans[t.val].enable x) s2))

/-- TRUNK_PLAN. -/
def execTrunkPlan (dt : Elapsed) (s : State) : Host.Outcome State Fault Refusal :=
  requestEvent (fun s => request (isOp 25) (fun q r =>
    stages false alwaysHeld (parseTrunk q.params) acceptTrunk r) (s.elapse dt)) s

/-! ## SAVE (R186, R187, R204) -/

/-- What the store keeps of a FIXED entry; LEARNED entries are not stored (Table 11-2). -/
def Entry.stored (e : Entry) : Option FixedEntry :=
  match e.origin with
  | .learned => none
  | .fixed =>
    some { code := e.code,
           identity := match e.place with
             | .trunk t => .inl t
             | .star x _ => .inr x,
           admin := e.admin, printerQueue := e.printerQueue, costCentre := e.costCentre, printClass := e.printClass,
           presenceLimit := e.presenceLimit }

/-- The configuration as it stands, in the content of Table 11-2. -/
def currentConfig (s : State) : StoredConfig :=
  { office := s.office, trunk := s.segPlans, fixed := s.dir.entries.filterMap Entry.stored,
    printers := s.print.printers.map (fun p => { code := p.code, enable := p.enable, idleLimit := p.idleLimit, formHold := p.formHold }),
    ports := s.sup.ports.map (fun r => { settings := r.staged, exempt := r.exempt }),
    alerts := s.alerts.config, commissioned := s.ctl.commissioned }

/-- The bytes of an image before its check word (R202, R203). -/
def StoreImage.body (i : StoreImage) : Vector Byte 4094 :=
  if i.erased then Vector.replicate 4094 0xFF#8 else Config.storeBytes i.content i.formatMark

/-- The check word that agrees with the bytes of an image: their frame check (R203, R210). -/
def StoreImage.agreeing (i : StoreImage) : BitVec 16 := crc16 i.body.toList

/-- The invalidate phase of a write: the check word is overwritten with the value that disagrees with any content, so the
image is blank no more (R204). -/
def StoreImage.invalidated (i : StoreImage) : StoreImage := { i with erased := false, checkWord := none }

/-- The content phase: the format mark and the content are written, and the check word stays (R204). -/
def StoreImage.filled (c : StoredConfig) (i : StoreImage) : StoreImage := { i with formatMark := true, content := some c }

/-- The last act of a verify phase that found the content written: the check word that agrees is written (R204). -/
def StoreImage.sealed (i : StoreImage) : StoreImage := { i with checkWord := some i.agreeing }

/-- The image after a verified write of a configuration (R204). -/
def StoreImage.written (c : StoredConfig) : StoreImage := (StoreImage.blank.invalidated.filled c).sealed

/-- The effect of SAVE: the mark is set with tag and return route, and the store takes its copy and writes up to its
verify phase, whose report ends the save (R186, R204; log entry 5). -/
def startSave (tag : BitVec 16) (r : Route) (s : State) : State :=
  { s with
    ctl := { s.ctl with save := some { tag := tag, route := r, copy := currentConfig s } },
    chassis := { s.chassis with store := s.chassis.store.invalidated.filled (currentConfig s) } }

/-- A SAVE is handled: refused by its stages with an answer, or begun without one (R186). -/
def takeSave (s : State) : State :=
  match headControl s with
  | none => s
  | some (e, payload) =>
    match parseRequest payload with
    | none => s
    | some q =>
      if isOp 26 q then
        let reply := stages false alwaysHeld (noParams q.params) (fun _ s => done (startSave q.tag e.route s)) e.route (takeControl e s)
        if reply.status = .done then reply.state else answerRequest s q e.route reply
      else s

/-- SAVE. -/
def execSave (s : State) : Host.Outcome State Fault Refusal := requestEvent takeSave s

/-- The answer to a SAVE goes to its kept tag and return route (R187). -/
def answerSave (v : SaveInFlight) (st : Status) (s : State) : State :=
  sendControl v.route (controlAnswer 26#8 v.tag (payloadLimit v.route) st []) s

/-- The write of a SAVE has ended: verified, its image is sealed; failed, the check word is left disagreeing (R187,
R204). -/
def completeSave (verified : Bool) (s : State) : State :=
  match s.ctl.save with
  | none => s
  | some v =>
    let s1 := { s with ctl := { s.ctl with save := none } }
    if verified then answerSave v .done { s1 with chassis := { s1.chassis with store := StoreImage.written v.copy } }
    else answerSave v .storeFault (setFlag .storeFault 0 none s1)

/-- SAVE_COMPLETION. -/
def execSaveCompletion (verified : Bool) (s : State) : Host.Outcome State Fault Refusal := event (completeSave verified) s

end Sys2Proof.Machine
end

