-- ==== Sys2Proof/Machine/PortRequests.lean ====
section
/-!
DEFINITION. The requests of the Supervision Unit (R131 to R137): SEGMENT_SET, the five actions of SEGMENT_FORCE and
PORT_ENABLE.
-/

namespace Sys2Proof.Machine

/-- The port that a request names: OUT_OF_RANGE above 11. -/
def withPort (b : Byte) (s : State) (f : PortNo → Reply) : Reply :=
  match portOf b with
  | some q => f q
  | none => refuse .outOfRange s

/-- Read SEGMENT_SET: a port and the nine settings, clamped (R131). -/
def parseSegmentSet (l : List Byte) : Option (Byte × Settings) :=
  match l with
  | b :: rest => (settingsOf rest).map (fun v => (b, v.clamped))
  | [] => none

/-- The effect of SEGMENT_SET (R131). -/
def setSegment (x : Byte × Settings) (s : State) : Reply :=
  withPort x.1 s fun q => done (s.modPort q (PortRec.stage x.2))

/-- SEGMENT_SET. -/
def execSegmentSet (s : State) : Host.Outcome State Fault Refusal :=
  requestEvent (request (isOp 14) (fun q r => stages false alwaysHeld (parseSegmentSet q.params) setSegment r)) s

/-! ## SEGMENT_FORCE (R132 to R136) -/

/-- The port of a SEGMENT_FORCE with a given action. -/
def forceParam (action : Byte) (l : List Byte) : Option Byte :=
  match l with
  | [p, a] => if a = action then some p else none
  | _ => none

/-- A SEGMENT_FORCE whose action is the given one. -/
def isForce (action : Byte) (q : Request) : Bool := isOp 15 q && (forceParam action q.params).isSome

/-- A SEGMENT_FORCE of a wrong length or with an action outside the five; the row of ISOLATE takes it (log entry 10). -/
def isForceBad (q : Request) : Bool := isOp 15 q && !([0#8, 1#8, 2#8, 3#8, 4#8].any fun a => isForce a q)

/-- The effect of ISOLATE (R133). -/
def forceIsolate (b : Byte) (s : State) : Reply :=
  withPort b s fun q =>
    match (s.port q).state with
    | .off => refuse .conflict s
    | .held => done s
    | .openMode | .active | .isolated | .probation => done (holdByOrder q s)

/-- SEGMENT_FORCE ISOLATE. -/
def execSegmentForceIsolate (dt : Elapsed) (s : State) : Host.Outcome State Fault Refusal :=
  requestEvent (fun s => request (fun q => isForce 0#8 q || isForceBad q) (fun q r =>
    stages false neverHeld (forceParam 0#8 q.params) forceIsolate r) (s.elapse dt)) s

/-- The effect of READMIT (R134). -/
def forceReadmit (b : Byte) (s : State) : Reply :=
  withPort b s fun q =>
    match (s.port q).state with
    | .off => refuse .conflict s
    | .isolated | .held | .probation => done (readmitByOrder q s)
    | .openMode | .active => done s

/-- SEGMENT_FORCE READMIT. -/
def execSegmentForceReadmit (dt : Nat) (s : State) : Host.Outcome State Fault Refusal :=
  requestEvent (fun s => request (isForce 1#8) (fun q r =>
    stages false neverHeld (forceParam 1#8 q.params) forceReadmit r) (s.advance dt)) s

/-- The effect of EXEMPT ON and EXEMPT OFF (R135). -/
def forceExempt (on : Bool) (b : Byte) (s : State) : Reply :=
  withPort b s fun q => done (s.modPort q (fun r => { r with exempt := on }))

/-- SEGMENT_FORCE EXEMPT ON. -/
def execSegmentForceExemptOn (s : State) : Host.Outcome State Fault Refusal :=
  requestEvent (request (isForce 2#8) (fun q r =>
    stages false neverHeld (forceParam 2#8 q.params) (forceExempt true) r)) s

/-- SEGMENT_FORCE EXEMPT OFF. -/
def execSegmentForceExemptOff (s : State) : Host.Outcome State Fault Refusal :=
  requestEvent (request (isForce 3#8) (fun q r =>
    stages false neverHeld (forceParam 3#8 q.params) (forceExempt false) r)) s

/-- The effect of CLEAR (R136). -/
def forceClear (b : Byte) (s : State) : Reply := withPort b s fun q => done (s.modPort q PortRec.wiped)

/-- SEGMENT_FORCE CLEAR. -/
def execSegmentForceClear (s : State) : Host.Outcome State Fault Refusal :=
  requestEvent (request (isForce 4#8) (fun q r =>
    stages false neverHeld (forceParam 4#8 q.params) forceClear r)) s

/-! ## PORT_ENABLE (R137) -/

/-- Read PORT_ENABLE: a port, and on or off. -/
def parsePortEnable (l : List Byte) : Option (Byte × Bool) :=
  match l with
  | [p, b] => (boolOf b).map (fun v => (p, v))
  | _ => none

/-- The effect of PORT_ENABLE: the enable is written into its plan and the port acts on the change. -/
def setEnable (x : Byte × Bool) (s : State) : Reply :=
  withPort x.1 s fun q => done (actOnEnable q (portEnabled s q) x.2 (writeEnable q x.2 s))

/-- PORT_ENABLE. -/
def execPortEnable (dt : Elapsed) (s : State) : Host.Outcome State Fault Refusal :=
  requestEvent (fun s => request (isOp 16) (fun q r =>
    stages false alwaysHeld (parsePortEnable q.params) setEnable r) (s.elapse dt)) s

end Sys2Proof.Machine
end

