-- ==== Sys2Proof/Machine/Print.lean ====
section
/-!
DEFINITION. The messages of the print input queue (Section 7.4) and their commands. Each message is handled whole, as
one event: the answer it prompts takes a fresh buffer while the message still holds its own, selection runs at the end,
and the message's reference is released (R145, R153).
-/

namespace Sys2Proof.Machine

/-! ## OPEN -/

/-- The refusal of an OPEN, the first of Table 7-5 that holds. -/
def openRefusal (q : QueueNo) (sender : Option Entry) (s : State) : Option RefuseReason :=
  if !((s.printer q).configured && (s.printer q).enable) then some .noSuch
  else match sender with
    | none => some .noCode
    | some e =>
      if e.isSuspended then some .suspended
      else if 2 ≤ ticketsHeld s e.code then some .limit
      else if Config.ticketPoolSize ≤ ticketCount s then some .full
      else none

/-- The ticket an OPEN creates (R146). -/
def newTicket (number : Nat) (e : Entry) (form : Fin 16) (label : List Byte) : Ticket :=
  { number := number, requester := e.code, cls := e.printClass, costCentre := e.costCentre, form := form, label := label,
    waitAge := 0, bytesFed := 0 }

/-- A new ticket joins its queue's waiting list and the next ticket number moves on (R143, R147). -/
def Printer.enqueue (t : Ticket) (p : Printer) : Printer :=
  { p with waiting := placeTicket t p.waiting, nextTicket := numberAfter t.number }

/-- The answer to an OPEN that created ticket `t`: GRANTED if selection has granted it, else QUEUED with its 1-based
position among all waiting tickets of its queue (R146). -/
def openAnswer (q : QueueNo) (t : Ticket) (s : State) : PrintAnswer :=
  if ((s.printer q).grant.map Ticket.number) = some t.number then .granted
  else .queued ((s.printer q).waiting.findIdx (fun x => x.number == t.number) + 1)

/-- OPEN (R146). -/
def handleOpen (q : QueueNo) (form : Fin 16) (label : List Byte) (r : Route) (s : State) : State :=
  match openRefusal q (senderOf s r) s, senderOf s r with
  | none, some e =>
    let t := newTicket (nextNumber (s.printer q)) e form label
    let s1 := s.modPrinter q (Printer.enqueue t)
    let s2 := selectFor (some (q, t.number))
      { s1 with print := { s1.print with ticketsOpened := bump s1.print.ticketsOpened } }
    sendAnswer (routeDest r) (openAnswer q t s2) (queueByte q) t.byte s2
  | none, none => s
  | some why, _ =>
    selectAll (sendAnswer (routeDest r) (.refused why) 0 0
      { s with print := { s.print with openRefused := bump s.print.openRefused } })

/-! ## DATA -/

/-- The length of the transmit queue toward a destination; a destination with no queue has no room. -/
def roomToward (d : Dest) (s : State) : Bool :=
  match d with
  | .trunk _ => decide (s.trunk.queue.length < Config.trunkQueueSize)
  | .star p _ => decide ((s.starPort p).queue.length < Config.starQueueSize)
  | .flood _ | .nowhere => false

/-- What a DATA comes to, by the cases of R148. -/
inductive DataVerdict where
  | refuse (why : RefuseReason)
  | wait
  | feed (t : Ticket) (d : Dest)
  deriving DecidableEq, Repr

/-- The first case of R148 that holds. -/
def judgeData (q : QueueNo) (n : Byte) (r : Route) (s : State) : DataVerdict :=
  match findTicket s q n with
  | none => .refuse .noSuch
  | some t =>
    if !ownsTicket s r t then .refuse .notYours
    else if !isGrant s q t then .wait
    else match printerEntry s q with
      | none => .wait
      | some e =>
        if (s.printer q).credit = 0 || !(s.printer q).online || !roomToward (entryDest e) s then .wait
        else .feed t (entryDest e)

/-- The bytes fed of a ticket after a FEED of `n` bytes; what the 32-bit field holds past its top is open (log entry 1). -/
def Ticket.fed (n : Nat) (t : Ticket) : Ticket :=
  { t with bytesFed := if t.bytesFed.toNat + n ≤ 4294967295 then t.bytesFed + BitVec.ofNat 32 n
                       else Config.bytesFedPastTop t.bytesFed n }

/-- The printer's record at a FEED: the credit falls by one, the idle remaining starts again, the grant's bytes fed grow
(R149). -/
def Printer.fed (t : Ticket) (n : Nat) (p : Printer) : Printer :=
  { p with credit := p.credit - 1, idleRemaining := p.idleLimit, state := .granted (t.fed n) }

/-- A DATA is placed as a FEED in its own buffer (R149, R171). -/
def placeFeed (q : QueueNo) (n : Byte) (bytes : List Byte) (b : BufId) (t : Ticket) (d : Dest) (s : State) : State :=
  let s1 := deliver b d (s.modBuf b (fun x => { x with payload := feedPayload (queueByte q) n bytes }))
  let s2 := (s1.modPrinter q (Printer.fed t bytes.length)).modLive t.costCentre (fun c => c.addBytes bytes.length)
  { s2 with print := { s2.print with feeds := bump s2.print.feeds } }

/-- DATA (R148). -/
def handleData (q : QueueNo) (n : Byte) (bytes : List Byte) (b : BufId) (r : Route) (s : State) : State :=
  match judgeData q n r s with
  | .refuse why => sendAnswer (routeDest r) (.refused why) (queueByte q) n s
  | .wait => sendAnswer (routeDest r) .wait (queueByte q) n s
  | .feed t d => placeFeed q n bytes b t d s

/-! ## CLOSE, CANCEL -/

/-- The refusal that CLOSE and CANCEL share, or the ticket named (R151, R152). -/
def ownTicket (q : QueueNo) (n : Byte) (r : Route) (s : State) : Except RefuseReason Ticket :=
  match findTicket s q n with
  | none => .error .noSuch
  | some t => if ownsTicket s r t then .ok t else .error .notYours

/-- CLOSE (R151). Its answer is built before selection (DEDUCED, log entry 29). -/
def handleClose (q : QueueNo) (n : Byte) (r : Route) (s : State) : State :=
  match ownTicket q n r s with
  | .error why => sendAnswer (routeDest r) (.refused why) (queueByte q) n s
  | .ok t =>
    if isGrant s q t then sendAnswer (routeDest r) .closed (queueByte q) n (endGrant .completion q t s)
    else sendAnswer (routeDest r) .cancelled (queueByte q) n (dropWaiting q t s)

/-- CANCEL (R152). A requester's own CANCEL sets no JOB_ABANDONED flag. -/
def handleCancel (q : QueueNo) (n : Byte) (r : Route) (s : State) : State :=
  match ownTicket q n r s with
  | .error why => sendAnswer (routeDest r) (.refused why) (queueByte q) n s
  | .ok t =>
    if isGrant s q t then sendAnswer (routeDest r) .abandoned (queueByte q) n (endGrant (.abandonment false) q t s)
    else sendAnswer (routeDest r) .cancelled (queueByte q) n (dropWaiting q t s)

/-! ## STATUS -/

/-- The configured queue whose printer code is the sender entry's (R150). -/
def printerOf (s : State) (r : Route) : Option QueueNo :=
  match senderOf s r with
  | none => none
  | some e => (List.finRange 6).find? (fun q => (s.printer q).code == some e.code)

/-- The loaded form becomes `f`; a FORM_WAIT whose loaded form changes returns to IDLE (R150 step 4, R164). -/
def Printer.loadForm (f : Fin 16) (p : Printer) : Printer :=
  { p with
    loadedForm := f,
    state := match p.state with
      | .formWait w => if f = p.loadedForm then .formWait w else .idle
      | .disabled => .disabled
      | .idle => .idle
      | .granted t => .granted t }

/-- A printer's report on its record (R150). -/
def Printer.report (online : Bool) (f : Fin 16) (credit : Nat) (p : Printer) : Printer :=
  { p with online := online, credit := min 15 (p.credit + credit) }.loadForm f

/-- STATUS (R150). -/
def handleStatus (online : Bool) (f : Fin 16) (credit : Nat) (r : Route) (s : State) : State :=
  match printerOf s r with
  | none => sendAnswer (routeDest r) (.refused .notYours) 0 0 s
  | some q =>
    let s1 := s.modPrinter q (Printer.report online f credit)
    if online then s1 else setFlag .printerOffline (q.val + 1) none s1

/-! ## Commands -/

/-- The arbiter takes the head entry of the print input queue: the entry leaves the queue, the message is handled, its
reference is released (R145, R49; DEDUCED, log entry 28). -/
def takePrint (e : InputEntry) (f : State → State) (s : State) : State := dropRef e.buf (f (popPrint s))

/-- OPEN: acts when the head entry is an OPEN. -/
def execPrintOpen (s : State) : Host.Outcome State Fault Refusal :=
  event (fun s => match headPrint s with
    | some (e, .openJob q form label) => takePrint e (handleOpen q form label e.route) s
    | _ => s) s

/-- DATA: acts when the head entry is a DATA. -/
def execPrintData (s : State) : Host.Outcome State Fault Refusal :=
  event (fun s => match headPrint s with
    | some (e, .data q n bytes) => takePrint e (fun s => selectAll (handleData q n bytes e.buf e.route s)) s
    | _ => s) s

/-- CLOSE: acts when the head entry is a CLOSE. -/
def execPrintClose (s : State) : Host.Outcome State Fault Refusal :=
  event (fun s => match headPrint s with
    | some (e, .close q n) => takePrint e (fun s => selectAll (handleClose q n e.route s)) s
    | _ => s) s

/-- CANCEL: acts when the head entry is a CANCEL. -/
def execPrintCancel (s : State) : Host.Outcome State Fault Refusal :=
  event (fun s => match headPrint s with
    | some (e, .cancel q n) => takePrint e (fun s => selectAll (handleCancel q n e.route s)) s
    | _ => s) s

/-- STATUS: acts when the head entry is a STATUS. -/
def execPrintStatus (s : State) : Host.Outcome State Fault Refusal :=
  event (fun s => match headPrint s with
    | some (e, .status online f credit) => takePrint e (fun s => selectAll (handleStatus online f credit e.route s)) s
    | _ => s) s

/-- MALFORMED: acts when the head entry is of no PRINT form; it is answered REFUSED MALFORMED and nothing else is done
(R145). -/
def execPrintMalformed (s : State) : Host.Outcome State Fault Refusal :=
  event (fun s => match headPrint s with
    | some (e, .malformed q n) =>
      takePrint e (fun s => selectAll (sendAnswer (routeDest e.route) (.refused .malformed) q n s)) s
    | _ => s) s

end Sys2Proof.Machine
end

