-- ==== Sys2Proof/Machine/PrintRequests.lean ====
section
/-!
DEFINITION. The requests of the Print Arbiter (Section 7.7), of the Accounting Unit (R174) and of the Alert Unit (R193,
R197).
-/

namespace Sys2Proof.Machine

/-- The queue that a request names: OUT_OF_RANGE outside 1–6. -/
def withQueue (b : Byte) (s : State) (f : QueueNo → Reply) : Reply :=
  match queueOf b with
  | some q => f q
  | none => refuse .outOfRange s

/-- A configured queue that a request names; an unconfigured one is NO_SUCH. -/
def withConfigured (b : Byte) (s : State) (f : QueueNo → Reply) : Reply :=
  withQueue b s fun q => if (s.printer q).configured then f q else refuse .noSuch s

/-! ## PRINTER_SET (R162) -/

/-- The printer code of a request: 0 means no printer. -/
def PrinterReq.newCode (p : PrinterReq) : Option DeskCode := if p.code = 0#8 then none else some p.code

/-- Tests 2 to 5 of R162 for queue `q`, the first refusal that holds. -/
def printerRefusal (q : QueueNo) (p : PrinterReq) (s : State) : Option Status :=
  if p.code ≠ 0#8 ∧ isDesk p.code = false then some .outOfRange
  else if p.code ≠ 0#8 ∧ (((findEntry s p.code).filter (fun e => decide (e.origin = .fixed))).isNone) then some .noSuch
  else if p.code ≠ 0#8 ∧ ((findEntry s p.code).bind Entry.printerQueue) ≠ some q then some .conflict
  else if p.newCode ≠ (s.printer q).code ∧ (s.printer q).tickets ≠ [] then some .conflict
  else none

/-- The printer code and the limits of a request are recorded; a changed code takes the reported fields back (R162). The
idle remaining of a grant is cut to the new limit also while it is paused because the printer is offline, which R162, which
speaks of a running one, leaves open (DESIGN CHOICE, log entry 50). -/
def Printer.configure (p : PrinterReq) (r : Printer) : Printer :=
  let r1 := if p.newCode = r.code then r else { r with code := p.newCode, online := false, credit := 0, loadedForm := 0 }
  { r1 with
    idleLimit := p.idleLimit, formHold := p.formHold,
    idleRemaining := if r.grant.isSome then min r.idleRemaining p.idleLimit else r.idleRemaining }

/-- The enable of a queue is set: turned off it loses its tickets and is DISABLED, turned on it is IDLE, unchanged its
state stands (R162, R163). -/
def enableQueue (q : QueueNo) (old new : Bool) (s : State) : State :=
  let s1 := s.modPrinter q (fun r => { r with enable := new })
  match old, new with
  | true, false => removeQueueTickets q s1
  | false, true => s1.modPrinter q (fun r => { r with state := .idle })
  | true, true => s1
  | false, false => s1

/-- The effect of PRINTER_SET (R162). -/
def setPrinter (p : PrinterReq) (s : State) : Reply :=
  withQueue p.queue s fun q =>
    match printerRefusal q p s with
    | some st => refuse st s
    | none =>
      done (selectAll (enableQueue q (s.printer q).enable (p.enable && p.newCode.isSome) (s.modPrinter q (Printer.configure p))))

/-- PRINTER_SET. -/
def execPrinterSet (s : State) : Host.Outcome State Fault Refusal :=
  requestEvent (request (isOp 17) (fun q r => stages false alwaysHeld (parsePrinterSet q.params) setPrinter r)) s

/-! ## FORM_LOADED, QUEUE_PURGE, TICKET_CANCEL (R164 to R166) -/

/-- The effect of FORM_LOADED (R164). -/
def formLoaded (x : Byte × Byte) (s : State) : Reply :=
  withConfigured x.1 s fun q => done (selectAll (s.modPrinter q (Printer.loadForm (fin16 x.2.toNat))))

/-- FORM_LOADED. -/
def execFormLoaded (s : State) : Host.Outcome State Fault Refusal :=
  requestEvent (request (isOp 18) (fun q r => stages false neverHeld (twoParams q.params) formLoaded r)) s

/-- The effect of QUEUE_PURGE (R165). -/
def purgeQueue (b : Byte) (s : State) : Reply :=
  withConfigured b s fun q =>
    doneWith [.fixed (u8 (s.printer q).tickets.length)] (selectAll (removeQueueTickets q s))

/-- QUEUE_PURGE. -/
def execQueuePurge (s : State) : Host.Outcome State Fault Refusal :=
  requestEvent (request (isOp 19) (fun q r => stages false neverHeld (oneParam q.params) purgeQueue r)) s

/-- The effect of TICKET_CANCEL (R166). -/
def cancelTicket (x : Byte × Byte) (s : State) : Reply :=
  withQueue x.1 s fun q =>
    match findTicket s q x.2 with
    | none => refuse .noSuch s
    | some t => done (selectAll (if isGrant s q t then abandonAndTell q t s else cancelWaiting .tell q t s))

/-- TICKET_CANCEL. -/
def execTicketCancel (s : State) : Host.Outcome State Fault Refusal :=
  requestEvent (request (isOp 20) (fun q r => stages false neverHeld (twoParams q.params) cancelTicket r)) s

/-! ## ACCOUNT_SNAPSHOT (R174) -/

/-- Read ACCOUNT_SNAPSHOT: clear 0 or keep 1, in the order in which the rule lists them (R213). -/
def parseSnapshot (l : List Byte) : Option Bool :=
  match l with
  | [b] => if b = 0#8 then some true else if b = 1#8 then some false else none
  | _ => none

/-- The effect of ACCOUNT_SNAPSHOT. -/
def snapshotAccounts (clear : Bool) (s : State) : Reply :=
  let a := takeSnapshot clear s.acct
  doneWith [.fixed [a.snapshot]] { s with acct := a }

/-- ACCOUNT_SNAPSHOT. -/
def execAccountSnapshot (s : State) : Host.Outcome State Fault Refusal :=
  requestEvent (request (isOp 21) (fun q r => stages false neverHeld (parseSnapshot q.params) snapshotAccounts r)) s

/-! ## ALERT_SET, ALERT_CLEAR (R193, R197) -/

/-- A destination that ALERT_SET refuses: a code outside 1–239, a special ID, or a part ID. -/
def destBad (s : State) (d : AlertDest) : Bool :=
  match d with
  | .none => false
  | .code c => !isDesk c
  | .id x | .trunkId x => x == nullId || x == broadcastId || isPartId s x

/-- A destination as ALERT_SET takes it: a station ID of the present trunk range is a trunk-range ID from then on (R193). -/
def AlertDest.taken (base : StationId) (d : AlertDest) : AlertDest :=
  match d with
  | .none => .none
  | .code c => .code c
  | .id x | .trunkId x => if inTrunkRange base x then .trunkId x else .id x

/-- The effect of ALERT_SET (R193). -/
def setAlerts (c : AlertConfig) (s : State) : Reply :=
  if destBad s c.dest then refuse .outOfRange s
  else done (applyAlertConfig { c with dest := c.dest.taken s.office.base } s)

/-- ALERT_SET. -/
def execAlertSet (s : State) : Host.Outcome State Fault Refusal :=
  requestEvent (request (isOp 22) (fun q r => stages false alwaysHeld (parseAlertSet q.params) setAlerts r)) s

/-- The effect of ALERT_CLEAR (R197). -/
def clearAlerts (items : List (AlertKind × Byte)) (s : State) : Reply :=
  if items.any clearItemBad then refuse .outOfRange s
  else doneWith [.fixed (u8 (namedFlags items s).length)] (clearFlags items s)

/-- ALERT_CLEAR. -/
def execAlertClear (s : State) : Host.Outcome State Fault Refusal :=
  requestEvent (request (isOp 23) (fun q r => stages false neverHeld (parseAlertClear q.params) clearAlerts r)) s

end Sys2Proof.Machine
end

