-- ==== Sys2Proof/Machine/Reads.lean ====
section
/-!
DEFINITION. The eight read requests (R28, R41, R92, R139, R167, R176, R188, R189). Fields follow in the order in which
the owning rule or its table names them, with the widths and presence marks of R213.
-/

namespace Sys2Proof.Machine

/-! ## Field encodings (R213; DEDUCED, log entries 25 and 27) -/

/-- A flag or a choice of two: on, yes, set and true are 1. -/
def flagByte (b : Bool) : List Byte := [if b then 1#8 else 0#8]

/-- A one-byte field that may be absent, behind its presence mark. -/
def optU8 (x : Option Nat) : List Byte :=
  match x with
  | some n => 1#8 :: u8 n
  | none => [0#8, 0#8]

/-- A two-byte field that may be absent, behind its presence mark. -/
def optU16 (x : Option Nat) : List Byte :=
  match x with
  | some n => 1#8 :: u16 n
  | none => [0#8, 0#8, 0#8]

/-- A four-byte field that may be absent, behind its presence mark. -/
def optU32 (x : Option (BitVec 32)) : List Byte :=
  match x with
  | some v => 1#8 :: u32 v
  | none => [0#8, 0#8, 0#8, 0#8, 0#8]

/-- A set drawn from a list of four, bit n for member n: the reset-cause record (R201). -/
def ResetCauses.byte (c : ResetCauses) : Byte :=
  (if c.power then 1#8 else 0#8) ||| (if c.panel then 2#8 else 0#8) ||| (if c.command then 4#8 else 0#8)
    ||| (if c.factory then 8#8 else 0#8)

/-- Supervision states in the order of Table 6-1. -/
def SupState.number : SupState → Nat
  | .off => 0
  | .openMode => 1
  | .active => 2
  | .isolated => 3
  | .probation => 4
  | .held => 5

/-- Printer states in the order of Table 7-2. -/
def PrinterState.number : PrinterState → Nat
  | .disabled => 0
  | .idle => 1
  | .granted _ => 2
  | .formWait _ => 3

/-- Burst classes in the order of Table 1-3. -/
def BurstClass.number : BurstClass → Nat
  | .none => 0
  | .inProgress => 1
  | .jabber => 2
  | .garble => 3
  | .runt => 4
  | .check => 5
  | .good => 6
  | .abandoned => 7

/-- Garble causes in the order of Table 1-3. -/
def GarbleCause.number : GarbleCause → Nat
  | .collision => 0
  | .code => 1

/-- Receive states in the order of Section 2.1. -/
def RxState.number : RxState → Nat
  | .idle => 0
  | .receiving => 1
  | .waitIdle => 2

/-- Entry states in the order of Table 4-1. -/
def EntryState.number : EntryState → Nat
  | .active => 0
  | .queried => 1
  | .suspended _ => 2
  | .absent => 3

/-- Suspension reasons in the order of Table 4-1. -/
def Suspension.number : Suspension → Nat
  | .timed .check _ => 0
  | .timed .babble _ => 1
  | .timed .duplicate _ => 2
  | .admin => 3

/-- The suspension of an entry, while SUSPENDED. -/
def EntryState.suspension : EntryState → Option Suspension
  | .suspended w => some w
  | .active => none
  | .queried => none
  | .absent => none

/-- The remaining seconds of a timed suspension. -/
def Suspension.remaining : Suspension → Option Nat
  | .timed _ n => some n
  | .admin => none

/-- A queue attribute: 0 when there is none. -/
def queueField (q : Option QueueNo) : List Byte :=
  match q with
  | some x => [queueByte x]
  | none => [0#8]

/-! ## STATUS_READ (R188) -/

/-- A set flag in an answer: kind, instance, detail-present and detail. -/
def flagItem (f : AlertFlag) : List Byte :=
  u8 (f.kind.index.val + 1) ++ u8 f.inst ++ [if f.detail.isSome then 1#8 else 0#8, f.detail.getD 0#8]

/-- The results of STATUS_READ. -/
def statusResults (s : State) : List Chunk :=
  [.fixed (u32 s.chassis.unitNumber ++ u32 s.office.base ++ flagByte s.ctl.commissioned ++ flagByte s.ctl.officeMark
      ++ flagByte s.ctl.trunkMark ++ [s.chassis.causes.byte] ++ flagByte s.ctl.save.isSome ++ u8 (freeBuffers s)
      ++ u8 s.inputs.control.length ++ u8 s.inputs.print.length ++ u8 s.trunk.queue.length
      ++ (List.finRange 12).flatMap (fun q => u8 (s.port q).state.number)
      ++ u8 s.sup.period ++ u8 s.office.period
      ++ (List.finRange 8).flatMap (fun p => flagByte (!(s.starPort p).link))
      ++ (List.finRange 6).flatMap (fun q => u8 (s.printer q).state.number)
      ++ u8 (ticketCount s) ++ u8 s.dir.entries.length ++ u8 s.dir.pool.length),
   .items (s.alerts.flags.map flagItem),
   .fixed (u8 s.alerts.queue.length)]

/-- STATUS_READ. -/
def execStatusRead (s : State) : Host.Outcome State Fault Refusal :=
  requestEvent (request (isOp 1) (fun q r =>
    stages true neverHeld (noParams q.params) (fun _ s => doneWith (statusResults s) s) r)) s

/-! ## SEGMENT_READ, PORT_READ (R28, R41, R139) -/

/-- A capture record; of a burst in progress fall and L read 0 (R28). -/
def captureBytes (c : Capture) : List Byte :=
  u16 c.rise.toNat ++ (if c.cls = .inProgress then [0#8, 0#8, 0#8, 0#8] else u16 c.fall.toNat ++ u16 c.len.toNat)
    ++ u16 c.gap.toNat ++ u16 c.edges ++ u8 c.cls.number ++ optU8 (c.cause.map GarbleCause.number) ++ flagByte c.truncated

/-- The segment counters of Table 1-8. -/
def SegCounters.bytes (k : SegCounters) : List Byte :=
  u32 k.good ++ u32 k.runt ++ u32 k.garble ++ u32 k.check ++ u32 k.jabber ++ u32 k.truncated

/-- The trunk part of SEGMENT_READ (R28). -/
def trunkPart (s : State) (t : SegNo) : List Byte :=
  let g := s.seg t
  captureBytes g.current ++ captureBytes g.previous
    ++ u32 (BitVec.ofNat 32 (g.settleBusy s.chassis.now).busy) ++ flagByte (!relayClosed s t)
    ++ flagByte g.unterminated ++ flagByte g.unterminated ++ g.counters.bytes

/-- The nine settings of Table 6-5. -/
def Settings.bytes (v : Settings) : List Byte :=
  u8 v.wRunt ++ u8 v.wGarble ++ u8 v.wCheck ++ u8 v.wLink ++ u16 v.warn ++ u16 v.isolate ++ u16 v.runtLimit
    ++ u16 v.jabberLimit ++ u8 v.baseHold ++ u8 v.probation ++ u8 v.loadThreshold ++ u8 v.cleanLimit

/-- The supervision part of a port (R139). `unterminated` is none for a star port. -/
def PortRec.bytes (unterminated : Option Bool) (r : PortRec) : List Byte :=
  u8 r.state.number ++ u16 r.score ++ u16 r.tally ++ u16 r.running ++ u16 r.nRunt ++ u16 r.nGarble ++ u16 r.nCheck
    ++ u16 r.nLink ++ u16 r.nGood ++ u16 r.attributed ++ flagByte r.warning ++ flagByte r.exempt ++ flagByte r.pending
    ++ optU8 (unterminated.map (fun b => if b then 1 else 0)) ++ u8 r.k ++ u16 r.holdLength ++ u16 r.holdRemaining
    ++ u8 r.probationRemaining ++ u8 r.clean ++ optU8 r.lastU ++ r.current.bytes ++ r.staged.bytes
    ++ u32 r.isolations ++ u32 r.readmissions

/-- The effect of SEGMENT_READ for a port byte (R28, R139). -/
def readSegment (edges : Nat) (b : Byte) (s : State) : Reply :=
  match portOf b with
  | none => refuse .outOfRange s
  | some q =>
    match splitPort q with
    | .inl t =>
      let s1 := noteEdges t edges s
      doneWith [.fixed (trunkPart s1 t ++ (s1.port q).bytes (some (s1.seg t).unterminated))] s1
    | .inr _ => refuse .noSuch s

/-- SEGMENT_READ. -/
def execSegmentRead (dt edges : Nat) (s : State) : Host.Outcome State Fault Refusal :=
  requestEvent (fun s => request (isOp 2) (fun q r =>
    stages true neverHeld (oneParam q.params) (fun b s => readSegment edges b s) r) (s.advance dt)) s

/-- The star counters of Table 2-4. -/
def StarCounters.bytes (k : StarCounters) : List Byte :=
  u32 k.rxGood ++ u32 k.rxRunt ++ u32 k.rxCheck ++ u32 k.linkLoss ++ u32 k.txFrames ++ u32 k.queueFull
    ++ u32 k.notConnected ++ u32 k.flushed

/-- A transmit state as a choice: IDLE 0, SENDING 1. -/
def TxState.isSending : TxState → Bool
  | .sending _ => true
  | .idle => false

/-- The star part of PORT_READ (R41). -/
def StarPort.bytes (x : StarPort) : List Byte :=
  flagByte (!x.link) ++ u8 x.rx.number ++ optU16 (if x.rx = .receiving then some x.count else none)
    ++ flagByte x.tx.isSending ++ u8 x.queue.length ++ x.counters.bytes

/-- The bytes that the line of a star port has brought since its last report reach the frame in reception (R34). -/
def noteBytes (p : StarNo) (bytes : List Byte) (s : State) : State :=
  if (s.starPort p).rx = .receiving then s.modStar p (StarPort.receive bytes) else s

/-- The effect of PORT_READ for a port byte (R41, R139). -/
def readPort (bytes : List Byte) (b : Byte) (s : State) : Reply :=
  match portOf b with
  | none => refuse .outOfRange s
  | some q =>
    match splitPort q with
    | .inl _ => refuse .noSuch s
    | .inr p =>
      let s1 := noteBytes p bytes s
      doneWith [.fixed ((s1.starPort p).bytes ++ (s1.port q).bytes none)] s1

/-- PORT_READ. -/
def execPortRead (bytes : List Byte) (s : State) : Host.Outcome State Fault Refusal :=
  requestEvent (request (isOp 3) (fun q r =>
    stages true neverHeld (oneParam q.params) (fun b s => readPort bytes b s) r)) s

/-! ## COUNTERS_READ (R189) -/

/-- Group 0–3 of Table 9-4. -/
def segGroup (s : State) (t : SegNo) : List Byte :=
  let d := s.drops[(portOfSeg t).val]
  let r := s.port (portOfSeg t)
  (s.seg t).counters.bytes ++ u32 d.noBuffer ++ u32 d.badSource ++ u32 d.sourceConflict ++ u32 d.sourceSuspended
    ++ u32 d.notForPart ++ u32 d.unreachable ++ u32 d.reserved ++ u32 r.isolations ++ u32 r.readmissions

/-- Group 4–11 of Table 9-4. -/
def starGroup (s : State) (p : StarNo) : List Byte :=
  let d := s.drops[(portOfStar p).val]
  let r := s.port (portOfStar p)
  (s.starPort p).counters.bytes ++ u32 d.noBuffer ++ u32 d.badSource ++ u32 d.baseClash ++ u32 d.sourceSuspended
    ++ u32 d.earlyBroadcast ++ u32 d.notForPart ++ u32 d.unreachable ++ u32 d.reserved ++ u32 d.noCode ++ u32 d.tooLong
    ++ u32 d.localDest ++ u32 d.nullDest ++ u32 r.isolations ++ u32 r.readmissions

/-- Group 12 of Table 9-4. -/
def bridgeGroup (s : State) : List Byte :=
  let t := s.trunk.counters
  let d := s.dir.counters
  let p := s.print
  let c := s.ctl
  let a := s.alerts
  u32 t.txFrames ++ u32 t.txCollisions ++ u32 t.txAbandon ++ u32 t.trunkDown ++ u32 t.queueFull
    ++ u32 s.inputs.controlFull ++ u32 s.inputs.printFull
    ++ u32 d.querySent ++ u32 d.querySkipped ++ u32 d.agedOut ++ u32 d.wentAbsent ++ u32 d.strikes
    ++ u32 d.babbleSuspensions ++ u32 d.quarantineEnded ++ u32 s.sup.checkSuspensions
    ++ u32 p.ticketsOpened ++ u32 p.openRefused ++ u32 p.feeds ++ u32 p.answerLost ++ u32 p.endingLost
    ++ (List.finRange 6).flatMap (fun q => u32 (s.printer q).completed)
    ++ u32 c.taken ++ u32 c.short ++ u32 c.notPermitted ++ u32 c.busy ++ u32 c.answerLost
    ++ u32 a.queued ++ u32 a.displaced ++ u32 a.dropped ++ u32 a.sent ++ u32 a.unrouted

/-- The effect of COUNTERS_READ for a group byte. -/
def readCounters (b : Byte) (s : State) : Reply :=
  match portOf b with
  | some q =>
    match splitPort q with
    | .inl t => doneWith [.fixed (segGroup s t)] s
    | .inr p => doneWith [.fixed (starGroup s p)] s
  | none => if b = 12#8 then doneWith [.fixed (bridgeGroup s)] s else refuse .outOfRange s

/-- COUNTERS_READ. -/
def execCountersRead (s : State) : Host.Outcome State Fault Refusal :=
  requestEvent (request (isOp 4) (fun q r =>
    stages true neverHeld (oneParam q.params) (fun b s => readCounters b s) r)) s

/-! ## DIRECTORY_READ, DIRECTORY_FIND (R92) -/

/-- The home of an entry as a number, or none while unknown. -/
def Place.homeNumber : Place → Option Nat
  | .trunk t => some t.val
  | .star _ h => h.map (fun p => p.val)

/-- Every field of Table 4-1. -/
def entryBytes (s : State) (e : Entry) : List Byte :=
  [e.code] ++ flagByte (!e.isTrunk) ++ optU8 e.place.homeNumber ++ optU32 e.starId? ++ flagByte (decide (e.origin = .fixed))
    ++ u8 e.state.number ++ optU8 (e.state.suspension.map Suspension.number)
    ++ optU16 (e.state.suspension.bind Suspension.remaining) ++ flagByte e.admin ++ queueField e.printerQueue
    ++ u8 e.costCentre.val ++ u8 e.printClass.val ++ u16 e.presenceLimit ++ u16 e.presenceRemaining
    ++ u16 e.broadcastElapsed ++ u8 e.strikes ++ u8 e.periodMoves ++ u8 e.periodFaults ++ u8 (ticketsHeld s e.code)

/-- The effect of DIRECTORY_READ from code `f` for up to `n` entries. -/
def readDirectory (f n : Byte) (s : State) : Reply :=
  if isDesk f then
    doneWith
      [.items (((s.dir.entries.filter (fun e => decide (f.toNat ≤ e.code.toNat))).take (clamp 1 16 n.toNat)).map (entryBytes s)),
       .fixed (u8 s.dir.entries.length ++ u8 s.dir.pool.length ++ u8 (s.dir.pool.countP (inProxyRange s.office)))] s
  else refuse .outOfRange s

/-- DIRECTORY_READ. -/
def execDirectoryRead (s : State) : Host.Outcome State Fault Refusal :=
  requestEvent (request (isOp 5) (fun q r =>
    stages true neverHeld (twoParams q.params) (fun x s => readDirectory x.1 x.2 s) r)) s

/-- Parameters of a station ID. -/
def idParam (l : List Byte) : Option StationId :=
  match l with
  | [a, b, c, d] => some (be32 a b c d)
  | _ => none

/-- The effect of DIRECTORY_FIND. -/
def findStation (x : StationId) (s : State) : Reply :=
  match indexEntry s x with
  | some e => doneWith [.fixed (entryBytes s e)] s
  | none => refuse .noSuch s

/-- DIRECTORY_FIND. -/
def execDirectoryFind (s : State) : Host.Outcome State Fault Refusal :=
  requestEvent (request (isOp 6) (fun q r =>
    stages true neverHeld (idParam q.params) (fun x s => findStation x s) r)) s

/-! ## QUEUE_READ (R167) -/

/-- Every field of Table 7-3; the requester is its present desk code, with the station ID of a STAR entry. -/
def ticketBytes (s : State) (q : QueueNo) (granted : Bool) (t : Ticket) : List Byte :=
  [queueByte q, t.byte, t.requester] ++ optU32 ((findEntry s t.requester).bind Entry.starId?) ++ u8 t.cls.val
    ++ u8 t.costCentre.val ++ u8 t.form.val ++ (u8 t.label.length ++ t.label) ++ flagByte granted ++ u16 t.waitAge
    ++ u32 t.bytesFed

/-- The wanted form, in FORM_WAIT only. -/
def PrinterState.wanted : PrinterState → Option (Fin 16)
  | .formWait f => some f
  | .disabled => none
  | .idle => none
  | .granted _ => none

/-- Every field of Table 7-1 but the waiting list; the grant is shown by its ticket number. -/
def Printer.bytes (p : Printer) : List Byte :=
  flagByte p.enable ++ [p.code.getD 0#8] ++ u8 p.state.number ++ flagByte p.online ++ u8 p.loadedForm.val
    ++ optU8 (p.state.wanted.map (fun f => f.val)) ++ u8 p.credit ++ optU8 (p.grant.map Ticket.number) ++ u8 p.idleLimit
    ++ u8 p.idleRemaining ++ u16 p.formHold ++ u8 p.nextTicket ++ u32 p.completed

/-- The granted ticket behind a presence mark; the bytes of an absent one, which has no label, are 19 zeros (DESIGN
CHOICE, log entry 26). -/
def grantBytes (s : State) (q : QueueNo) : List Byte :=
  match (s.printer q).grant with
  | some t => 1#8 :: ticketBytes s q true t
  | none => 0#8 :: List.replicate 19 0#8

/-- The results of QUEUE_READ. -/
def queueResults (s : State) (q : QueueNo) : List Chunk :=
  [.fixed ((s.printer q).bytes ++ flagByte (printerReachable s q) ++ grantBytes s q),
   .items ((s.printer q).waiting.map (fun t => ticketBytes s q false t ++ flagByte (reachable s t.requester)))]

/-- The effect of QUEUE_READ. -/
def readQueue (b : Byte) (s : State) : Reply :=
  match queueOf b with
  | some q => doneWith (queueResults s q) s
  | none => refuse .outOfRange s

/-- QUEUE_READ. -/
def execQueueRead (s : State) : Host.Outcome State Fault Refusal :=
  requestEvent (request (isOp 7) (fun q r =>
    stages true neverHeld (oneParam q.params) (fun b s => readQueue b s) r)) s

/-! ## ACCOUNT_READ (R176) -/

/-- A hold set in an answer, 10 bytes (R213). -/
def setBytes (centre : Nat) (c : CostSet) : List Byte :=
  u8 centre ++ u16 c.high ++ u16 c.low ++ flagByte c.saturated ++ u16 c.completed ++ u16 c.abandoned

/-- The effect of ACCOUNT_READ from centre `f` for up to `c` sets. -/
def readAccount (f c : Byte) (s : State) : Reply :=
  if f.toNat ≤ 15 then
    doneWith
      [.fixed [s.acct.snapshot],
       .items ((((List.finRange 16).filter (fun i => decide (f.toNat ≤ i.val))).take (clamp 1 8 c.toNat)).map
         (fun i => setBytes i.val s.acct.hold[i.val]))] s
  else refuse .outOfRange s

/-- ACCOUNT_READ. -/
def execAccountRead (s : State) : Host.Outcome State Fault Refusal :=
  requestEvent (request (isOp 8) (fun q r =>
    stages true neverHeld (twoParams q.params) (fun x s => readAccount x.1 x.2 s) r)) s

end Sys2Proof.Machine
end

