-- ==== Sys2Proof/Machine/Restart.lean ====
section
/-!
DEFINITION. The four resets, the start-up load, the panel reset line and the supply (Sections 11.1, 11.2, 11.4, 11.6).
-/

namespace Sys2Proof.Machine

/-! ## The store image (R202, R205) -/

/-- The three kinds of image, judged by the first that holds; a valid one gives its content (R202). -/
inductive ImageKind where
  | blank
  | valid (c : StoredConfig)
  | invalid
  deriving DecidableEq, Repr

/-- The judgement of an image (R202). -/
def StoreImage.judge (i : StoreImage) : ImageKind :=
  if i.erased && i.checkWord == some 0xFFFF#16 then .blank
  else match i.checkWord == some i.agreeing && i.formatMark, i.content with
    | true, some c => .valid c
    | _, _ => .invalid

/-! ## The start-up load (R202) -/

/-- A stored FIXED entry as though created by ENTRY_FIX at this moment (R93). -/
def FixedEntry.load (f : FixedEntry) : Entry :=
  { code := f.code,
    place := match f.identity with
      | .inl t => .trunk t
      | .inr x => .star x none,
    origin := .fixed, state := .active, admin := f.admin, printerQueue := f.printerQueue, costCentre := f.costCentre,
    printClass := f.printClass, presenceLimit := f.presenceLimit, presenceRemaining := f.presenceLimit,
    broadcastElapsed := 65535, strikes := 0, periodMoves := 0, periodFaults := 0 }

/-- The directory after a load: the stored entries, and the pool of the other codes ascending (Table 4-8). -/
def loadDirectory (c : StoredConfig) : Directory :=
  { Directory.initial with
    entries := c.fixed.map FixedEntry.load,
    pool := Directory.initial.pool.filter (fun x => !(c.fixed.any fun f => f.code == x)) }

/-- The commissioned mark is loaded with at least one FIXED admin entry (R202). -/
def loadsCommissioned (c : StoredConfig) : Bool := c.commissioned && c.fixed.any FixedEntry.admin

/-- A port after a load (Table 6-8). -/
def loadPort (commissioned enable : Bool) (p : PortConfig) : PortRec :=
  { PortRec.initial with
    state := if !enable then .off else if commissioned then .active else .openMode,
    exempt := p.exempt, current := p.settings, staged := p.settings }

/-- The enable of a port in a stored configuration. -/
def StoredConfig.enable (c : StoredConfig) (q : PortNo) : Bool :=
  match splitPort q with
  | .inl t => c.trunk[t.val].enable
  | .inr p => c.office.enables[p.val]

/-- A queue after a load: a printer code that names no loaded FIXED entry carrying that queue is absent, and an
unconfigured queue is off (R141, R169). -/
def loadPrinter (c : StoredConfig) (q : QueueNo) : Printer :=
  let p := c.printers[q.val]
  let code := p.code.filter (fun x => c.fixed.any fun f => f.code == x && f.printerQueue == some q)
  let on := p.enable && code.isSome
  { Printer.initial with
    enable := on, code := code, state := if on then .idle else .disabled, idleLimit := p.idleLimit, formHold := p.formHold }

/-- A segment at the end of a load: reset values, with the relay of a listening port closing over what is on its cable
(Table 1-10, R3). -/
def loadSegment (closed : Bool) (g : Segment) : Segment :=
  let g1 := { Segment.initial with carrier := g.carrier }
  if closed then g1.relayClosed 0 else g1

/-- A star port at the end of a load: reset values, the link as its line stands, and the receiver of a listening port
waiting out a frame in progress (Table 2-5, R42). -/
def loadStar (listens : Bool) (x : StarPort) : StarPort :=
  let x1 := { StarPort.initial with lineUp := x.lineUp, lineBusy := x.lineBusy, link := x.lineUp }
  if listens then x1.beginListening else x1

/-- The state at the end of the start-up load of configuration `c`. What a reset leaves is kept: the queue of commands,
the supply and panel line, the causes, the unit number, the store, the accounting, and what stands on the cables and
lines. Everything else is rebuilt (R29, R42, R47, R93, R108, R140, R169, R191, R199). -/
def loadConfig (c : StoredConfig) (storeFault : Bool) (s : State) : State :=
  let com := loadsCommissioned c
  let ports := Vector.ofFn (fun q : PortNo => loadPort com (c.enable q) c.ports[q.val])
  { pending := s.pending,
    chassis := { s.chassis with run := .running, powerOnDue := false, now := 0, ticks := SecondTicks.zero },
    trunk := { Trunk.initial with
      segs := Vector.ofFn (fun t : SegNo => loadSegment ports[(portOfSeg t).val].state.listens (s.seg t)) },
    star := Vector.ofFn (fun p : StarNo => loadStar ports[(portOfStar p).val].state.listens (s.starPort p)),
    bufs := Vector.replicate 48 Buf.free,
    inputs := { control := [], print := [], controlFull := 0, printFull := 0 },
    drops := Vector.replicate 12 Drops.zero,
    office := c.office,
    segPlans := c.trunk,
    dir := loadDirectory c,
    sup := { ports := ports, period := c.office.period, timer := periodMs c.office.period, checkSuspensions := 0 },
    print := { Printing.initial with printers := Vector.ofFn (loadPrinter c) },
    acct := s.acct,
    ctl := { Control.initial with commissioned := com },
    alerts := { Alerts.initial with
      config := c.alerts, flags := if storeFault then [{ kind := .storeFault, inst := 0, detail := none }] else [] } }

/-- The start-up load (R202). -/
def startUp (s : State) : State :=
  match s.chassis.store.judge with
  | .valid c => loadConfig c false s
  | .blank => loadConfig StoredConfig.default false s
  | .invalid => loadConfig StoredConfig.default true s

/-! ## The resets (R200, R201) -/

/-- A cause is added to the reset-cause record. -/
def addCause (f : ResetCauses → ResetCauses) (s : State) : State :=
  { s with chassis := { s.chassis with causes := f s.chassis.causes } }

/-- A power-on: retained memory is cleared, the record holds POWER alone, and the load follows (R200, R201). -/
def powerOnReset (s : State) : State :=
  startUp (addCause (fun _ => { power := true, panel := false, command := false, factory := false })
    { s with acct := Accounting.initial })

/-- A panel restart (R200, R201). -/
def panelReset (s : State) : State := startUp (addCause (fun c => { c with panel := true }) s)

/-- A command restart (R207). -/
def commandReset (s : State) : State := startUp (addCause (fun c => { c with command := true }) s)

/-- An image whose erase was interrupted: neither blank nor valid (R205; log entry 30). -/
def StoreImage.halfErased : StoreImage := { erased := false, formatMark := false, content := none, checkWord := none }

/-- The store is erased to blank (R205). -/
def eraseStore (s : State) : State := { s with chassis := { s.chassis with store := StoreImage.blank } }

/-- A factory restart (R207). -/
def factoryReset (s : State) : State := startUp (addCause (fun c => { c with factory := true }) (eraseStore s))

/-- A part without its reset values in force: everything the resets rebuild takes its reset value, the relays are open
and the star ports blocked, and what survives resets stands. The part is held, or without supply (R29, R42, R200; DESIGN
CHOICE, log entries 32 and 33). -/
def standStill (r : RunState) (s : State) : State :=
  { pending := s.pending,
    chassis := { s.chassis with run := r, now := 0, ticks := SecondTicks.zero },
    trunk := { Trunk.initial with segs := Vector.ofFn (fun t : SegNo => loadSegment false (s.seg t)) },
    star := Vector.ofFn (fun p : StarNo =>
      { StarPort.initial with lineUp := (s.starPort p).lineUp, lineBusy := (s.starPort p).lineBusy }),
    bufs := Vector.replicate 48 Buf.free,
    inputs := { control := [], print := [], controlFull := 0, printFull := 0 },
    drops := Vector.replicate 12 Drops.zero,
    office := OfficePlan.default,
    segPlans := Vector.replicate 4 SegPlan.default,
    dir := Directory.initial,
    sup := Supervision.initial,
    print := Printing.initial,
    acct := s.acct,
    ctl := Control.initial,
    alerts := Alerts.initial }

/-! ## Commands -/

/-- POWER_ON (R200): the supply has risen through its threshold. While the panel line is asserted the part stays in
reset, and the restart at its release is a power-on (DEDUCED, log entry 31). -/
def execPowerOn (s : State) : Host.Outcome State Fault Refusal :=
  .next (if s.chassis.panelAsserted then
      let s1 := standStill .held s
      { s1 with chassis := { s1.chassis with powerOnDue := true } }
    else powerOnReset s)

/-- PANEL_RESET_ASSERTED (R200): the part is held in reset. Without supply only the line is noted. -/
def execPanelResetAsserted (s : State) : Host.Outcome State Fault Refusal :=
  let s1 := { s with chassis := { s.chassis with panelAsserted := true } }
  .next (if s.chassis.run = .unpowered then s1 else standStill .held s1)

/-- PANEL_RESTART (R200): the panel line is released. A supply failure while it was asserted has made this reset a
power-on. -/
def execPanelRestart (s : State) : Host.Outcome State Fault Refusal :=
  let s1 := { s with chassis := { s.chassis with panelAsserted := false } }
  .next (match s.chassis.run with
    | .held => if s.chassis.powerOnDue then powerOnReset s1 else panelReset s1
    | .running => s1
    | .unpowered => s1)

/-- SUPPLY_LOSS (R187, R205): everything stops; an erase that was running leaves an image that is neither blank nor
valid (DEDUCED, log entry 30). -/
def execSupplyLoss (duringErase : Bool) (s : State) : Host.Outcome State Fault Refusal :=
  let s1 := standStill .unpowered s
  .next (if duringErase then { s1 with chassis := { s1.chassis with store := StoreImage.halfErased } } else s1)

/-- Read RESTART: keep 0 or factory 1. -/
def restartKind (l : List Byte) : Option Bool := (oneParam l).bind boolOf

/-- A RESTART that passes its stages is carried out and never answered; one that is refused is answered (R207). -/
def takeRestart (factory : Bool) (mine : Request → Bool) (s : State) : State :=
  match headControl s with
  | none => s
  | some (e, payload) =>
    match parseRequest payload with
    | none => s
    | some q =>
      if mine q then
        let reply := stages false alwaysHeld (restartKind q.params) (fun _ s => done s) e.route (takeControl e s)
        if reply.status = .done then (if factory then factoryReset reply.state else commandReset reply.state)
        else answerRequest s q e.route reply
      else s

/-- RESTART with kind keep, and a RESTART of a wrong length or with a kind outside the two (log entry 10). -/
def execRestartKeep (s : State) : Host.Outcome State Fault Refusal :=
  requestEvent (takeRestart false (fun q => isOp 27 q && restartKind q.params != some true)) s

/-- RESTART with kind factory. -/
def execRestartFactory (s : State) : Host.Outcome State Fault Refusal :=
  requestEvent (takeRestart true (fun q => isOp 27 q && restartKind q.params == some true)) s

end Sys2Proof.Machine
end

