-- ==== Sys2Proof/Machine/Timers.lean ====
section
/-!
DEFINITION. The commands of the two ticks and of the thresholds they reach (Chapters 5 and 7).
-/

namespace Sys2Proof.Machine

/-- PRESENCE_QUERY (R97). -/
def execPresenceQuery (c : DeskCode) (s : State) : Host.Outcome State Fault Refusal := event (presenceQuery c) s

/-- AGING (R99). -/
def execAging (c : DeskCode) (s : State) : Host.Outcome State Fault Refusal := event (aging c) s

/-- BECOMES_ABSENT (R100). -/
def execBecomesAbsent (c : DeskCode) (s : State) : Host.Outcome State Fault Refusal := event (becomesAbsent c) s

/-- QUARANTINE_END (R106). -/
def execQuarantineEnd (c : DeskCode) (s : State) : Host.Outcome State Fault Refusal := event (quarantineEnd c) s

/-- IDLE_EXPIRY (R158). -/
def execIdleExpiry (q : QueueNo) (s : State) : Host.Outcome State Fault Refusal := event (idleExpiry q) s

/-- FORM_HOLD_REACHED (R143). -/
def execFormHoldReached (q : QueueNo) (s : State) : Host.Outcome State Fault Refusal := event (formHoldReached q) s

/-- ONE_SECOND_TICK (R208). -/
def execOneSecondTick (s : State) : Host.Outcome State Fault Refusal := event oneSecondTick s

/-- ONE_MILLISECOND_TICK (R101, R208). -/
def execOneMillisecondTick (tick : MsTick) (s : State) : Host.Outcome State Fault Refusal :=
  event (oneMillisecondTick tick) s

end Sys2Proof.Machine
end

