-- ==== Sys2Proof/Machine/Dispatch.lean ====
section
/-!
DEFINITION. The meaning of every command: one arm per constructor of Instr, each one direct call.
-/

namespace Sys2Proof.Machine

def exec (i : Instr) (s : State) : Host.Outcome State Fault Refusal :=
  match i with
  | .burstRise t dt => Sys2Proof.Machine.execBurstRise t dt s
  | .headerEvent t dt cells => Sys2Proof.Machine.execHeaderEvent t dt cells s
  | .burstFall t dt edges cells => Sys2Proof.Machine.execBurstFall t dt edges cells s
  | .jabberCut t edges => Sys2Proof.Machine.execJabberCut t edges s
  | .continuationFall t dt => Sys2Proof.Machine.execContinuationFall t dt s
  | .longQuiet t => Sys2Proof.Machine.execLongQuiet t s
  | .terminatorEdge t => Sys2Proof.Machine.execTerminatorEdge t s
  | .transmitClaim dt => Sys2Proof.Machine.execTransmitClaim dt s
  | .transmitCompletion dt => Sys2Proof.Machine.execTransmitCompletion dt s
  | .linkUp p => Sys2Proof.Machine.execLinkUp p s
  | .linkDown p => Sys2Proof.Machine.execLinkDown p s
  | .frameStart p => Sys2Proof.Machine.execFrameStart p s
  | .frameEnd p bytes => Sys2Proof.Machine.execFrameEnd p bytes s
  | .sendStart p => Sys2Proof.Machine.execSendStart p s
  | .sendCompletion p => Sys2Proof.Machine.execSendCompletion p s
  | .fold => Sys2Proof.Machine.execFold s
  | .presenceQuery c => Sys2Proof.Machine.execPresenceQuery c s
  | .aging c => Sys2Proof.Machine.execAging c s
  | .becomesAbsent c => Sys2Proof.Machine.execBecomesAbsent c s
  | .quarantineEnd c => Sys2Proof.Machine.execQuarantineEnd c s
  | .idleExpiry q => Sys2Proof.Machine.execIdleExpiry q s
  | .formHoldReached q => Sys2Proof.Machine.execFormHoldReached q s
  | .alertSend => Sys2Proof.Machine.execAlertSend s
  | .printOpen => Sys2Proof.Machine.execPrintOpen s
  | .printData => Sys2Proof.Machine.execPrintData s
  | .printClose => Sys2Proof.Machine.execPrintClose s
  | .printCancel => Sys2Proof.Machine.execPrintCancel s
  | .printStatus => Sys2Proof.Machine.execPrintStatus s
  | .printMalformed => Sys2Proof.Machine.execPrintMalformed s
  | .statusRead => Sys2Proof.Machine.execStatusRead s
  | .segmentRead dt edges => Sys2Proof.Machine.execSegmentRead dt edges s
  | .portRead bytes => Sys2Proof.Machine.execPortRead bytes s
  | .countersRead => Sys2Proof.Machine.execCountersRead s
  | .directoryRead => Sys2Proof.Machine.execDirectoryRead s
  | .directoryFind => Sys2Proof.Machine.execDirectoryFind s
  | .queueRead => Sys2Proof.Machine.execQueueRead s
  | .accountRead => Sys2Proof.Machine.execAccountRead s
  | .entryFix => Sys2Proof.Machine.execEntryFix s
  | .entryRelease => Sys2Proof.Machine.execEntryRelease s
  | .entrySuspend => Sys2Proof.Machine.execEntrySuspend s
  | .entryResume => Sys2Proof.Machine.execEntryResume s
  | .clearLearned => Sys2Proof.Machine.execClearLearned s
  | .segmentSet => Sys2Proof.Machine.execSegmentSet s
  | .segmentForceIsolate dt => Sys2Proof.Machine.execSegmentForceIsolate dt s
  | .segmentForceReadmit dt => Sys2Proof.Machine.execSegmentForceReadmit dt s
  | .segmentForceExemptOn => Sys2Proof.Machine.execSegmentForceExemptOn s
  | .segmentForceExemptOff => Sys2Proof.Machine.execSegmentForceExemptOff s
  | .segmentForceClear => Sys2Proof.Machine.execSegmentForceClear s
  | .portEnable dt => Sys2Proof.Machine.execPortEnable dt s
  | .printerSet => Sys2Proof.Machine.execPrinterSet s
  | .formLoaded => Sys2Proof.Machine.execFormLoaded s
  | .queuePurge => Sys2Proof.Machine.execQueuePurge s
  | .ticketCancel => Sys2Proof.Machine.execTicketCancel s
  | .accountSnapshot => Sys2Proof.Machine.execAccountSnapshot s
  | .alertSet => Sys2Proof.Machine.execAlertSet s
  | .alertClear => Sys2Proof.Machine.execAlertClear s
  | .officePlan => Sys2Proof.Machine.execOfficePlan s
  | .trunkPlan dt => Sys2Proof.Machine.execTrunkPlan dt s
  | .save => Sys2Proof.Machine.execSave s
  | .saveCompletion verified => Sys2Proof.Machine.execSaveCompletion verified s
  | .restartKeep => Sys2Proof.Machine.execRestartKeep s
  | .restartFactory => Sys2Proof.Machine.execRestartFactory s
  | .clearCauses => Sys2Proof.Machine.execClearCauses s
  | .unknownOperation => Sys2Proof.Machine.execUnknownOperation s
  | .powerOn => Sys2Proof.Machine.execPowerOn s
  | .panelResetAsserted => Sys2Proof.Machine.execPanelResetAsserted s
  | .panelRestart => Sys2Proof.Machine.execPanelRestart s
  | .oneSecondTick => Sys2Proof.Machine.execOneSecondTick s
  | .oneMillisecondTick tick => Sys2Proof.Machine.execOneMillisecondTick tick s
  | .closingCarrierFall t dt => Sys2Proof.Machine.execClosingCarrierFall t dt s
  | .supplyLoss duringErase => Sys2Proof.Machine.execSupplyLoss duringErase s

end Sys2Proof.Machine
end

