-- ==== Sys2Proof/Safety.lean ====
section
/-!
DEFINITION. The terms in which statements about the part are made: what an event may leave unchanged, what a request
asks, and the conditions that every step keeps.
-/

namespace Sys2Proof.Machine

/-! ## Frames -/

/-- A state without the marks of the world outside: carrier on the cables, link signalling and frames on the lines. -/
def State.unmarked (s : State) : State :=
  { s with
    trunk := { s.trunk with segs := s.trunk.segs.map (fun g => { g with carrier := false }) },
    star := s.star.map (fun x => { x with lineUp := false, lineBusy := false }) }

/-- State `t` differs from `s` at most by what sending messages of the bridge's own can change: buffers, transmit
queues, the counters kept with those queues, and the counts of lost answers and endings. -/
def OnlySends (s t : State) : Prop :=
  t = { s with
        bufs := t.bufs, star := t.star,
        trunk := { s.trunk with queue := t.trunk.queue, counters := t.trunk.counters },
        ctl := { s.ctl with answerLost := t.ctl.answerLost },
        print := { s.print with answerLost := t.print.answerLost, endingLost := t.print.endingLost } }
    ∧ ∀ p, t.starPort p = { s.starPort p with queue := (t.starPort p).queue, counters := (t.starPort p).counters }

/-- Every star port of `t` is that of `s` but for its transmit queue and its counters. -/
def StarQueuesOnly (s t : State) : Prop :=
  ∀ p, t.starPort p = { s.starPort p with queue := (t.starPort p).queue, counters := (t.starPort p).counters }

/-- State `t` differs from `s` at most by what the Print Arbiter's share of an event and an answer can change: what
sending messages can change, the printer table with its tickets, the live accounts, and the alert flags, records and
counters. -/
def ArbiterOnly (s t : State) : Prop :=
  t = { s with
        bufs := t.bufs, star := t.star, print := t.print, acct := { s.acct with live := t.acct.live },
        alerts := { t.alerts with config := s.alerts.config },
        trunk := { s.trunk with queue := t.trunk.queue, counters := t.trunk.counters },
        ctl := { s.ctl with answerLost := t.ctl.answerLost } }
    ∧ StarQueuesOnly s t

/-- State `t` differs from `s` at most by what a change of a port's supervision record can bring with it: the records,
the channels of the trunk and the star side, and the Print Arbiter's share. The directory, the plans, the input queues
and the drop counters stand. -/
def ChannelOnly (s t : State) : Prop :=
  t = { s with
        bufs := t.bufs, star := t.star, print := t.print, acct := { s.acct with live := t.acct.live },
        alerts := { t.alerts with config := s.alerts.config }, trunk := t.trunk,
        ctl := { s.ctl with answerLost := t.ctl.answerLost }, sup := { s.sup with ports := t.sup.ports } }

/-- State `t` differs from `s` at most by what traffic and the fold can change: besides the channels and records the
directory, the input queues, the drop counters, the period timer and the clock. The plans, the control marks, the stored image and the queue of commands stand. -/
def TrafficOnly (s t : State) : Prop :=
  t = { s with
        bufs := t.bufs, star := t.star, print := t.print, acct := { s.acct with live := t.acct.live },
        alerts := { t.alerts with config := s.alerts.config }, trunk := t.trunk,
        ctl := { s.ctl with answerLost := t.ctl.answerLost }, sup := t.sup, dir := t.dir, inputs := t.inputs,
        drops := t.drops, chassis := { s.chassis with now := t.chassis.now } }

/-- No segment is driven. -/
def NothingDriven (s : State) : Prop := ∀ v, (s.seg v).driven = false

/-! ## Messages at the head of an input queue -/

/-- A running part whose next control request, in entry `e`, carries an operation, a tag and parameters. -/
def Asks (s : State) (e : InputEntry) (op : Byte) (tag : BitVec 16) (params : List Byte) : Prop :=
  s.isRunning = true ∧ s.inputs.control.head? = some e
    ∧ (s.buf e.buf).payload = op :: tag.extractLsb' 8 8 :: tag.extractLsb' 0 8 :: params

/-- The request at the head may change something: its sender is permitted and no SAVE is in flight. -/
def Free (s : State) (e : InputEntry) : Prop := permitted e.route s = true ∧ s.ctl.save = none

/-- The answer to a request goes out from a state. -/
def answered (e : InputEntry) (op : Byte) (tag : BitVec 16) (st : Status) (results : List Chunk) (s : State) : State :=
  sendControl e.route (controlAnswer op tag (payloadLimit e.route) st results) s

/-! ## The requests that are no reads -/

/-- A request that is no read: its operation, its command, what time and the line have brought with it, the parameters that
have its form (R180), and whether a SAVE in flight holds it back (R186). -/
structure ChangeRow where
  op : Byte
  command : Instr
  brings : State → State
  form : List Byte → Bool
  heldBack : State → List Byte → Bool

/-- A request of one operation that no SAVE holds back. -/
def ChangeRow.free (op : Byte) (command : Instr) (form : List Byte → Bool) (brings : State → State := id) : ChangeRow :=
  { op := op, command := command, brings := brings, form := form, heldBack := fun _ _ => false }

/-- A request of one operation that a SAVE in flight holds back. -/
def ChangeRow.held (op : Byte) (command : Instr) (form : List Byte → Bool) (brings : State → State := id) : ChangeRow :=
  { op := op, command := command, brings := brings, form := form, heldBack := fun _ _ => true }

/-- The requests that are no reads, by operation (R181, R186, R213). An ENTRY_RELEASE is held back for a FIXED entry. `now`
is what PORT_ENABLE, TRUNK_PLAN and ISOLATE bring, `dt` what READMIT brings. -/
def changeRows (now : Elapsed) (dt : Nat) : List ChangeRow :=
  [.held 9#8 .entryFix (fun l => (parseFix l).isSome),
   { op := 10#8, command := .entryRelease, brings := id, form := fun l => l.length == 1,
     heldBack := fun s l => (l.head?.bind (findEntry s)).any (fun e => decide (e.origin = .fixed)) },
   .free 11#8 .entrySuspend (fun l => l.length == 1),
   .free 12#8 .entryResume (fun l => l.length == 1),
   .free 13#8 .clearLearned (fun l => l.isEmpty),
   .held 14#8 .segmentSet (fun l => (settingsOf l.tail).isSome && !l.isEmpty),
   .free 15#8 (.segmentForceIsolate now) (fun l => l.length == 2 && l.getLast? == some 0#8) (·.elapse now),
   .free 15#8 (.segmentForceReadmit dt) (fun l => l.length == 2 && l.getLast? == some 1#8) (·.advance dt),
   .free 15#8 .segmentForceExemptOn (fun l => l.length == 2 && l.getLast? == some 2#8),
   .free 15#8 .segmentForceExemptOff (fun l => l.length == 2 && l.getLast? == some 3#8),
   .free 15#8 .segmentForceClear (fun l => l.length == 2 && l.getLast? == some 4#8),
   .held 16#8 (.portEnable now) (fun l => l.length == 2 && (l.getLast? == some 0#8 || l.getLast? == some 1#8))
     (·.elapse now),
   .held 17#8 .printerSet (fun l => (parsePrinterSet l).isSome),
   .free 18#8 .formLoaded (fun l => l.length == 2),
   .free 19#8 .queuePurge (fun l => l.length == 1),
   .free 20#8 .ticketCancel (fun l => l.length == 2),
   .free 21#8 .accountSnapshot (fun l => l == [0#8] || l == [1#8]),
   .held 22#8 .alertSet (fun l => (parseAlertSet l).isSome),
   .free 23#8 .alertClear (fun l => (parseAlertClear l).isSome),
   .held 24#8 .officePlan (fun l => (parseOffice l).isSome),
   .held 25#8 (.trunkPlan now) (fun l => (parseTrunk l).isSome) (·.elapse now),
   .held 26#8 .save (fun l => l.isEmpty),
   .held 27#8 .restartKeep (fun l => l == [0#8]),
   .held 27#8 .restartFactory (fun l => l == [1#8]),
   .free 28#8 .clearCauses (fun l => l.isEmpty)]

/-! ## Conditions that every step keeps -/

/-- References to a buffer on the transmit queues and the input queues. -/
def refsTo (s : State) (b : BufId) : Nat :=
  s.trunk.queue.count b + ((List.finRange 8).map (fun p => (s.starPort p).queue.count b)).sum
    + (s.inputs.control.map InputEntry.buf).count b + (s.inputs.print.map InputEntry.buf).count b

/-- Every buffer's reference count is the number of references to it (R43). -/
def BufferCounts (s : State) : Prop := ∀ b, (s.buf b).refs = refsTo s b

/-- A buffer carries trunk addressing exactly while the trunk transmit queue holds a reference to it, and star addressing
exactly while some star transmit queue does (Table 3-1). -/
def AddressedAsQueued (s : State) : Prop :=
  ∀ b, (s.buf b).trunkAddr.isSome = s.trunk.queue.contains b
    ∧ (s.buf b).starAddr.isSome = (List.finRange 8).any fun p => (s.starPort p).queue.contains b

/-- The codes 1–239. -/
def deskCodes : List DeskCode := (List.range' 1 239).map (BitVec.ofNat 8)

/-- A stored configuration holds its FIXED entries under distinct codes 1–239. -/
def StoredCodes (c : StoredConfig) : Prop :=
  (c.fixed.map FixedEntry.code).Nodup ∧ ∀ f ∈ c.fixed, isDesk f.code = true

/-- Every code from 1 to 239 is either the key of exactly one entry or stands once in the pool (R70), and what the store
holds or is writing keeps codes apart in the same way. -/
def CodesApart (s : State) : Prop :=
  (s.dir.entries.map Entry.code ++ s.dir.pool).Perm deskCodes
    ∧ (∀ c, s.chassis.store.content = some c → StoredCodes c)
    ∧ (∀ v, s.ctl.save = some v → StoredCodes v.copy)

/-- Before commissioning no port is ACTIVE, ISOLATED or in PROBATION, and after it none is OPEN (R109, R138). -/
def ModeStates (s : State) : Prop :=
  ∀ q, match (s.port q).state with
    | .off => True
    | .held => True
    | .openMode => s.ctl.commissioned = false
    | .active => s.ctl.commissioned = true
    | .isolated => s.ctl.commissioned = true
    | .probation => s.ctl.commissioned = true

/-- No queue holds more than its places: 16 references on the trunk and on each star port, 4 and 8 entries on the input
queues, 8 alert records (R25, R38, R48, R49, R195). -/
def WithinCapacity (s : State) : Prop :=
  s.trunk.queue.length ≤ 16 ∧ (∀ p, (s.starPort p).queue.length ≤ 16) ∧ s.inputs.control.length ≤ 4
    ∧ s.inputs.print.length ≤ 8 ∧ s.alerts.queue.length ≤ 8

/-- What is not connected holds nothing to send: the trunk while it is down, a star port while it is not connected (R27,
R40). -/
def SilentWhenCutOff (s : State) : Prop :=
  (trunkDown s = true → s.trunk.queue = []) ∧
    ∀ p, starConnected s p = false → (s.starPort p).queue = [] ∧ (s.starPort p).tx = .idle

/-- While commissioned, at least one FIXED entry carries the admin attribute (R87). -/
def AdminKept (s : State) : Prop := s.ctl.commissioned = true → hasAdmin s = true

/-- The bytes count of a cost-centre set is well formed: both halves in 16 bits, and the top of the count where the
saturated mark is set (R170, R171). -/
def CostSet.wf (c : CostSet) : Prop :=
  c.low ≤ 65535 ∧ c.high ≤ 65535 ∧ (c.saturated = true → c.low = 65535 ∧ c.high = 65535)

end Sys2Proof.Machine
end

