-- ==== Sys2Proof/Certificates/Slice0/Obligations.lean ====
section
/-!
DEFINITION. The statements for the provers. Each docstring names the rules of the manual it formalises; a statement of
kind 'derived' says what rests on the model's own choices. `s` is any state, run-reachable or not, unless a premise says
otherwise; `u` is the state that the command answers.
-/

open Sys2Proof Sys2Proof.Machine

/-! ## The queue of commands -/

/-- A step with a command at the front of the queue is that command executed on the state with the queue's rest. The
queue is the model's (log entry 11). -/
def Obligations.StepRunsTheFrontCommand : Prop :=
  ∀ (c : Instr) (q : List Instr) (s : State), step (s.withPending (c :: q)) = exec c (s.withPending q)

/-- While the part is held in reset or without supply, every command but the three of the supply and the panel line and
the loss of supply leaves all but the marks of the world outside as it stood (R200). That other resets end a power-off
is the model's reading. -/
def Obligations.HeldPartTakesNothing : Prop :=
  ∀ (c : Instr) (s : State), s.isRunning = false →
    c ≠ .powerOn → c ≠ .panelResetAsserted → c ≠ .panelRestart → (∀ b, c ≠ .supplyLoss b) →
    ∃ u, exec c s = .next u ∧ u.unmarked = s.unmarked

/-! ## Segment channels, repeater, transmitter -/

/-- BURST_RISE on a segment that hears: the current record moves to previous, a new one opens with the rise time, class
IN_PROGRESS, truncated no, edges 0 and its gap, the long-quiet mark is used and cleared, and the quiet-time count is
cleared (R10). Where the rise neither claims the repeater nor collides with the transmitter, nothing else changes. -/
def Obligations.RiseOpensARecord : Prop :=
  ∀ (t : SegNo) (dt : Nat) (s : State),
    s.isRunning = true → relayClosed s t = true → (s.seg t).carrier = false → (s.seg t).phase = .quiet →
    let rise := BitVec.ofNat 16 (s.chassis.now + dt)
    let opened : Capture :=
      { rise := rise, fall := 0, len := 0, gap := if (s.seg t).longQuiet then 65535#16 else rise - (s.seg t).lastFall,
        edges := 0, cls := .inProgress, cause := none, truncated := false }
    (∃ u, exec (.burstRise t dt) s = .next u
      ∧ (u.seg t).previous = (s.seg t).current ∧ (u.seg t).current = opened
      ∧ (u.seg t).longQuiet = false ∧ (u.seg t).quietCount = 0)
    ∧ ((s.trunk.holder ≠ .none ∨ segConnected s t = false) →
      (s.trunk.holder = .transmitter → (s.seg t).driven = false) →
      exec (.burstRise t dt) s = .next ((s.advance dt).modSeg t (fun g =>
        { g with
          carrier := true, phase := .burst, previous := g.current, current := opened,
          longQuiet := false, quietCount := 0, riseAt := s.chassis.now + dt, busyFrom := s.chassis.now + dt,
          runtAtRise := (s.port (portOfSeg t)).current.runtLimit,
          jabberAtRise := (s.port (portOfSeg t)).current.jabberLimit,
          collided := g.driven, decoder := Decoder.initial })))

/-- BURST_RISE on a connected segment while the repeater is idle makes it the holder; the drive set becomes every other
connected segment that is not in jabber continuation; only the trunk and the clock change (R20). -/
def Obligations.RiseClaimsTheRepeater : Prop :=
  ∀ (t : SegNo) (dt : Nat) (s : State),
    s.isRunning = true → relayClosed s t = true → (s.seg t).carrier = false → (s.seg t).phase = .quiet →
    segConnected s t = true → s.trunk.holder = .none → NothingDriven s →
    ∃ u, exec (.burstRise t dt) s = .next u
      ∧ u = { (s.advance dt) with trunk := { s.trunk with segs := u.trunk.segs, holder := .segment t, truncate := false } }
      ∧ (∀ v, (u.seg v).driven = (decide (v ≠ t) && segConnected s v && decide ((s.seg v).phase ≠ .continuation)))
      ∧ (∀ v, v ≠ t → u.seg v = { s.seg v with driven := (u.seg v).driven, collided := (u.seg v).collided })
      ∧ (u.seg t).phase = .burst ∧ (u.seg t).current.cls = .inProgress

/-- Foreign carrier on a segment that the transmitter is driving ends its attempt: the repeater is released, the attempt
count rises and TX_COLLISIONS counts it; the fourth failed attempt abandons the head frame (R26). Nothing but the trunk,
the abandoned frame's buffer and the clock changes. In any state, the one connected segment leaving service takes the trunk
down: every reference on its queue is released and counts one in TRUNK_DOWN, and an attempt, or a repeating that the segment
holds, ends without completion or collision (R27, R22). -/
def Obligations.CollisionEndsTheAttempt : Prop :=
  (∀ (t : SegNo) (dt : Nat) (b : BufId) (rest : List BufId) (s : State),
    s.isRunning = true → relayClosed s t = true → (s.seg t).carrier = false → (s.seg t).phase = .quiet →
    s.trunk.holder = .transmitter → (s.seg t).driven = true → s.trunk.queue = b :: rest →
    ∃ u, exec (.burstRise t dt) s = .next u
      ∧ u.trunk.holder = .none ∧ NothingDriven u ∧ u.trunk.truncate = false
      ∧ u.trunk.counters.txCollisions = bump s.trunk.counters.txCollisions
      ∧ u.trunk.counters.txFrames = s.trunk.counters.txFrames
      ∧ (s.trunk.attempts < 3 → u.trunk.attempts = s.trunk.attempts + 1 ∧ u.trunk.queue = b :: rest
          ∧ u.trunk.counters.txAbandon = s.trunk.counters.txAbandon ∧ u.bufs = s.bufs)
      ∧ (3 ≤ s.trunk.attempts → u.trunk.attempts = 0 ∧ u.trunk.queue = rest
          ∧ u.trunk.counters.txAbandon = bump s.trunk.counters.txAbandon
          ∧ u.bufs = (dropRef b { s with trunk := { s.trunk with queue := rest } }).bufs)
      ∧ u = { (s.advance dt) with trunk := u.trunk, bufs := u.bufs })
  ∧ ∀ (v : SegNo) (new : SupState) (s : State),
    (∀ w, segConnected s w = decide (w = v)) → new.inService = false →
    let d := setPortState (portOfSeg v) new s
    d.trunk.queue = [] ∧ d.trunk.attempts = 0
      ∧ (s.trunk.holder = .none → d.trunk.holder = .none)
      ∧ (s.trunk.holder = .transmitter ∨ s.trunk.holder = .segment v →
          d.trunk.holder = .none ∧ NothingDriven d ∧ d.trunk.onWire = [] ∧ d.trunk.truncate = false)
      ∧ d.trunk.counters = { s.trunk.counters with
          trunkDown := BitVec.ofNat 32 (min (s.trunk.counters.trunkDown.toNat + s.trunk.queue.length) 4294967295) }
      ∧ d.bufs = (dropRefs s.trunk.queue { s with trunk := { s.trunk with queue := [] } }).bufs

/-- HEADER_EVENT of the holder's burst. With a header that passes: a suspended source truncates; a broadcast of an ACTIVE
or QUERIED source is judged by its elapsed time, early ones truncate and earn a strike, others start the elapsed time
again. The strike that reaches the babble limit on a commissioned bridge suspends the entry for BABBLE for the quarantine
time, sets QUARANTINE with its code and counts BABBLE_SUSPENSIONS (R104). A header that fails, a source that no entry
holds, an ABSENT source's broadcast and a frame to a station change the decoder alone (R23, R103). That a source code is
looked up whichever side its entry is of is DEDUCED (log entry 21). -/
def Obligations.HeaderDecision : Prop :=
  ∀ (t : SegNo) (dt : Nat) (cells : List Bool) (s : State),
    s.isRunning = true → (s.seg t).phase = .burst → s.trunk.holder = .segment t → (s.seg t).decoder.header = none →
    let heard := (s.advance dt).modSeg t (fun g => { g with decoder := g.decoder.feed cells })
    let src := byteAt ((s.seg t).decoder.feed cells).store 1
    let dst := byteAt ((s.seg t).decoder.feed cells).store 0
    (((s.seg t).decoder.feed cells).header ≠ some true ∨ findEntry s src = none →
      exec (.headerEvent t dt cells) s = .next heard)
    ∧ ∀ e : Entry, ((s.seg t).decoder.feed cells).header = some true → findEntry s src = some e →
    ∃ u, exec (.headerEvent t dt cells) s = .next u
      ∧ (e.isSuspended = true →
          u.trunk.truncate = true ∧ NothingDriven u ∧ (u.seg t).current.truncated = true
          ∧ (u.seg t).counters.truncated = bump (s.seg t).counters.truncated ∧ u.dir = s.dir ∧ u.trunk.holder = .segment t)
      ∧ (e.inUse = true → dst = 0#8 → e.broadcastElapsed < s.office.minSpacing →
          u.trunk.truncate = true ∧ NothingDriven u ∧ (u.seg t).current.truncated = true
          ∧ (u.seg t).counters.truncated = bump (s.seg t).counters.truncated
          ∧ let babble := s.ctl.commissioned = true ∧ s.office.babbleLimit ≤ min (e.strikes + 1) 31
            findEntry u e.code = some { e with
              strikes := min (e.strikes + 1) 31,
              state := if babble then .suspended (.timed .babble s.office.quarantine) else e.state }
            ∧ u.dir.counters = { s.dir.counters with
                strikes := bump s.dir.counters.strikes,
                babbleSuspensions := if babble then bump s.dir.counters.babbleSuspensions
                  else s.dir.counters.babbleSuspensions }
            ∧ (babble → (flagOf u .quarantine 0).map AlertFlag.detail = some (some e.code)))
      ∧ (e.inUse = true → dst = 0#8 → s.office.minSpacing ≤ e.broadcastElapsed →
          u.trunk.truncate = s.trunk.truncate
          ∧ findEntry u e.code = some { e with
              broadcastElapsed := 0, strikes := if 4 * s.office.minSpacing ≤ e.broadcastElapsed then 0 else e.strikes })
      ∧ (e.isSuspended = false → dst ≠ 0#8 ∨ e.state = .absent → u = heard)
      ∧ TrafficOnly s u ∧ u.sup = s.sup ∧ u.inputs = s.inputs ∧ u.drops = s.drops ∧ u.dir.pool = s.dir.pool

/-- BURST_FALL before the jabber limit: the record is closed with the time of the last transition and exactly one class,
the first test of Table 1-4 that holds, which its counter counts; the segment is quiet, and a holder's fall releases the
repeater (R13, R14, R22). Then the result is handed on: RUNT, GARBLE and CHECK as a fault event of the port, a CHECK whose
header passed and whose source has an entry is attributed, a GOOD one counts in n_good, and on a connected segment its frame
is bridged with the truncated mark of its record, and goes no further in PROBATION (R17, R18). A buffer that bridging took
is held to the end of the event, the Print Arbiter's share included, and then has the references that were placed (R44). The
report of bits is one that does not complete the header. That the quiet time runs from the fall as it is taken (log entry
13), that attribution looks at the entries of either side (log entry 21), that the arbiter's share comes at the event's end
(log entry 38), and that a frame of the bridge's own which is not placed frees its buffer at once (log entry 52), are
DEDUCED. -/
def Obligations.FallClassifiesTheBurst : Prop :=
  ∀ (t : SegNo) (dt edges : Nat) (cells : List Bool) (s : State),
    s.isRunning = true → (s.seg t).phase = .burst →
    s.chassis.now + dt < (s.seg t).riseAt + (s.seg t).jabberAtRise →
    ((s.seg t).decoder.header ≠ none ∨ ((s.seg t).decoder.feed cells).header = none) →
    let g := s.seg t
    let fall := BitVec.ofNat 16 (s.chassis.now + dt - 4)
    let len := fall - g.current.rise
    let n := min (g.current.edges + edges) 65535
    let cls : BurstClass :=
      if g.collided then .garble
      else if len.toNat < g.runtAtRise then .runt
      else if n < len.toNat / 2 ∨ 2 * (len.toNat / 2) + 2 < n then .garble
      else if (g.decoder.feed cells).verdict = none then .check
      else .good
    let record : Capture := { g.current with
      fall := fall, len := len, edges := n, cls := cls,
      cause := if cls = .garble then some (if g.collided then .collision else .code) else none }
    let q := portOfSeg t
    let now := s.chassis.now + dt
    let d := g.decoder.feed cells
    let ended := (s.advance dt).modSeg t (fun x => { x.settleBusy now with
      carrier := false, phase := .quiet, lastFall := fall, quietCount := 0, quietSince := now, collided := false,
      decoder := Decoder.initial, current := record,
      counters := { x.counters with
        runt := if cls = .runt then bump x.counters.runt else x.counters.runt,
        garble := if cls = .garble then bump x.counters.garble else x.counters.garble,
        check := if cls = .check then bump x.counters.check else x.counters.check,
        good := if cls = .good then bump x.counters.good else x.counters.good } })
    let closed := if s.trunk.holder = .segment t then
        { ended with trunk := { ended.trunk with
            holder := .none, truncate := false, onWire := [],
            segs := ended.trunk.segs.map (fun x => if x.driven then { x with driven := false, quietSince := now } else x) } }
      else ended
    ∃ u, exec (.burstFall t dt edges cells) s = .next u
      ∧ (cls = .runt → u = settle s (faultEvent .runt q closed))
      ∧ (cls = .garble → u = settle s (faultEvent .garble q closed))
      ∧ (cls = .check →
          let judged := faultEvent .check q closed
          (d.header = some true → ∀ e, findEntry s (byteAt d.store 1) = some e →
            u = settle s ((judged.modEntry e.code (fun x => { x with periodFaults := min (x.periodFaults + 1) 255 })).modPort q
              (fun r => { r with attributed := min (r.attributed + 1) 65535 })))
          ∧ (d.header ≠ some true ∨ findEntry s (byteAt d.store 1) = none → u = settle s judged))
      ∧ (cls = .good → ∀ f, d.verdict = some f →
          let counted := closed.modPort q (fun r => { r with nGood := min (r.nGood + 1) 65535 })
          let bridged := bridgeTrunk t g.current.truncated f counted
          (segConnected s t = true →
            (∀ b, bridged.1 = some b → u = dropRef b (settle s bridged.2))
            ∧ (bridged.1 = none → u = settle s bridged.2))
          ∧ (segConnected s t = false → u = counted))
      ∧ (u.seg t).current = record
      ∧ (u.seg t).previous = g.previous ∧ (u.seg t).counters = g.counters.count cls
      ∧ (u.seg t).phase = .quiet ∧ (u.seg t).carrier = false ∧ (u.seg t).quietCount = 0 ∧ (u.seg t).lastFall = fall
      ∧ (s.trunk.holder = .segment t → u.trunk.holder = .none ∧ NothingDriven u ∧ u.trunk.truncate = false)
      ∧ (∀ v, v ≠ t → (u.seg v).current = (s.seg v).current ∧ (u.seg v).counters = (s.seg v).counters)
      ∧ (∀ q, q ≠ portOfSeg t → u.port q = s.port q) ∧ TrafficOnly s u

/-- JABBER_CUT: the record is closed at the jabber limit with class JABBER, the score is lifted to the isolate threshold,
and a port that is ACTIVE or PROBATION and not exempt is isolated, while any other goes on in jabber continuation (R15,
R17, R113). -/
def Obligations.JabberIsCut : Prop :=
  ∀ (t : SegNo) (edges : Nat) (s : State),
    s.isRunning = true → (s.seg t).phase = .burst →
    let r := s.port (portOfSeg t)
    let verdict := (r.state = .active ∨ r.state = .probation) ∧ r.exempt = false
    ∃ u, exec (.jabberCut t edges) s = .next u
      ∧ (u.seg t).current.cls = .jabber
      ∧ (u.seg t).current.len = BitVec.ofNat 16 (s.seg t).jabberAtRise
      ∧ (u.seg t).current.fall = (s.seg t).current.rise + BitVec.ofNat 16 (s.seg t).jabberAtRise
      ∧ (u.seg t).counters.jabber = bump (s.seg t).counters.jabber
      ∧ (u.port (portOfSeg t)).score = max r.score r.current.isolate
      ∧ (verdict → (u.port (portOfSeg t)).state = .isolated ∧ (u.seg t).phase = .quiet)
      ∧ (¬ verdict → (u.port (portOfSeg t)).state = r.state ∧ (u.seg t).phase = .continuation)
      ∧ (∀ q, q ≠ portOfSeg t → u.port q = s.port q)
      ∧ ChannelOnly (s.advance (u.chassis.now - s.chassis.now)) u

/-- The three commands by which a segment comes to rest change that segment and the clock alone: the fall of a jabber
continuation (R15), the fall of carrier that stood when the relay closed (R3), the 17th quiet millisecond (R12). That the
quiet time of R24 runs from the fall is DEDUCED (log entry 13); that a millisecond under the bridge's own drive is quiet is
the model's choice (log entry 43). -/
def Obligations.SegmentComesToRest : Prop :=
  ∀ (t : SegNo) (dt : Nat) (s : State), s.isRunning = true →
    ((s.seg t).phase = .continuation →
      exec (.continuationFall t dt) s = .next ((s.advance dt).modSeg t (fun g =>
        { g.settleBusy (s.chassis.now + dt) with
          carrier := false, phase := .quiet, lastFall := BitVec.ofNat 16 (s.chassis.now + dt - 4), quietCount := 0,
          quietSince := s.chassis.now + dt })))
    ∧ ((s.seg t).phase = .closing →
      exec (.closingCarrierFall t dt) s = .next ((s.advance dt).modSeg t (fun g =>
        { g with carrier := false, phase := .quiet, quietSince := s.chassis.now + dt })))
    ∧ (relayClosed s t = true → (s.seg t).carrier = false → (s.seg t).quietCount = 16 →
      exec (.longQuiet t) s = .next (s.modSeg t (fun g => { g with quietCount := 17, longQuiet := true })))

/-- TERMINATOR_EDGE after a sample that differed: the recorded level turns over; in OFF and under IGNORE nothing else
happens; under REPORT and ISOLATE the TERMINATOR flag stands set, and under ISOLATE a LOSS isolates a port that a trigger
may isolate (R4, R5, R118). -/
def Obligations.TerminatorEdgeActs : Prop :=
  ∀ (t : SegNo) (s : State), s.isRunning = true → (s.seg t).differing = true →
    let lost := !(s.seg t).unterminated
    let r := s.port (portOfSeg t)
    let plan := s.segPlans[t.val]
    let ignored := (lost = true ∧ plan.loss = .ignore) ∨ (lost = false ∧ plan.ret = .ignore)
    ∃ u, exec (.terminatorEdge t) s = .next u
      ∧ (u.seg t).unterminated = lost ∧ (u.seg t).differing = false
      ∧ (r.state = .off ∨ ignored → u = s.modSeg t (fun g => { g with unterminated := lost, differing := false }))
      ∧ (r.state ≠ .off → ¬ ignored → ∃ f, flagOf u .terminator t.val = some f
          ∧ (flagOf s .terminator t.val = none → f.detail = some (if lost then 1#8 else 2#8)))
      ∧ (lost = true → plan.loss = .isolate → r.state = .active ∨ r.state = .probation → r.exempt = false →
          (u.port (portOfSeg t)).state = .isolated)
      ∧ (lost = false ∨ plan.loss ≠ .isolate → u.sup = s.sup)
      ∧ (∀ q, q ≠ portOfSeg t → u.port q = s.port q) ∧ ChannelOnly s u

/-- TRANSMIT_CLAIM (R24): with the repeater idle, a frame queued, a segment connected and every connected segment quiet
for 12 µs and 64 µs more for each failed attempt, the transmitter takes the repeater, drives every connected segment and
sends the head frame; one connected segment that is not so quiet holds it back. TRANSMIT_COMPLETION of an attempt (R26):
the frame leaves the queue, its reference is released, TX_FRAMES counts it, the repeater is released, and the next frame
becomes head with attempt count 0. From when the quiet
time runs is the model's reading (log entry 13); that an attempt whose drive set has become empty completes and counts is
its choice (log entry 42). -/
def Obligations.TransmitterSends : Prop :=
  ∀ (dt : Nat) (b : BufId) (rest : List BufId) (s : State), s.isRunning = true → s.trunk.queue = b :: rest →
    (s.trunk.holder = .none → NothingDriven s → (∃ v, segConnected s v = true) →
      (∀ v, segConnected s v = true → (s.seg v).carrier = false ∧ (s.seg v).phase = .quiet
        ∧ (s.seg v).quietSince + 48 + 256 * s.trunk.attempts ≤ s.chassis.now + dt) →
      ∃ u, exec (.transmitClaim dt) s = .next u
        ∧ u = { (s.advance dt) with trunk :=
            { s.trunk with segs := u.trunk.segs, holder := .transmitter, onWire := bufTrunkFrame (s.buf b) } }
        ∧ ∀ v, u.seg v = { s.seg v with driven := segConnected s v })
    ∧ (∀ v, segConnected s v = true →
        ((s.seg v).carrier = true ∨ (s.seg v).phase ≠ .quiet
          ∨ s.chassis.now + dt < (s.seg v).quietSince + 48 + 256 * s.trunk.attempts) →
        exec (.transmitClaim dt) s = .next (s.advance dt))
    ∧ (s.trunk.holder = .transmitter →
      ∃ u, exec (.transmitCompletion dt) s = .next u
        ∧ u = { (s.advance dt) with
                bufs := (dropRef b { s with trunk := { s.trunk with queue := rest } }).bufs,
                trunk := { s.trunk with
                  segs := u.trunk.segs, holder := .none, truncate := false, onWire := [], queue := rest, attempts := 0,
                  counters := { s.trunk.counters with txFrames := bump s.trunk.counters.txFrames } } }
        ∧ ∀ v, u.seg v = { s.seg v with driven := false, quietSince := (u.seg v).quietSince })

/-! ## Star ports -/

/-- LINK_UP and LINK_DOWN. LINK_UP sets the recorded link UP and changes no counter and no flag of the port; what follows
is the Print Arbiter's share of the event (R31). LINK_DOWN records the link DOWN and LINK_LOSS counts it; in OFF nothing
further happens; in any other state the frame in reception is abandoned, LINK_DOWN is flagged, a link-loss event is
counted, and a port that was connected has an empty transmit queue whose references FLUSHED counts; a link already DOWN
changes nothing but the marks of the line, which are the model's (R32, R40; log entry 18).
Then the Print Arbiter's share of any event (R144): where the event changed what is reachable, a printer that it made
unreachable loses its credit, the grants whose printer or requester is not reachable end, and selection runs. A lost grant
is abandoned, its requester is answered ABANDONED, and BREAK goes out only while the printer is reachable (R159, R160). For
an eligible printer selection grants the head candidate if its form is loaded, else, while the head is young, the first
candidate whose form is loaded, and otherwise awaits the head's form; with no candidate the printer is IDLE (R153). A grant
starts the idle remaining at the limit and is told to its requester but for the ticket of the OPEN being handled (R154).
That the share is taken at the event's end, the order of the queues, and that an answer which is not placed frees its buffer
for the next, are the model's readings (log entries 38, 15 and 52). -/
def Obligations.LinkEvents : Prop :=
  ∀ (p : StarNo) (s : State), s.isRunning = true →
    let x := s.starPort p
    let r := s.port (portOfStar p)
    (∃ u, exec (.linkUp p) s = .next u
      ∧ u = settle s (s.modStar p (fun x => { x with lineUp := true, link := true }))
      ∧ ArbiterOnly (s.modStar p (fun x => { x with lineUp := true, link := true })) u
      ∧ (x.link = true → u = s.modStar p (fun x => { x with lineUp := true })))
    ∧ (∃ u, exec (.linkDown p) s = .next u
      ∧ (x.link = false → u = s.modStar p (fun x => { x with lineUp := false, lineBusy := false }))
      ∧ (x.link = true → (u.starPort p).link = false ∧ (u.starPort p).counters.linkLoss = bump x.counters.linkLoss)
      ∧ (x.link = true → r.state = .off → u.alerts.flags = s.alerts.flags ∧ u.sup = s.sup)
      ∧ (x.link = true → r.state ≠ .off →
          (u.starPort p).rx = .idle ∧ (u.starPort p).store = [] ∧ (u.starPort p).count = 0
          ∧ (flagOf u .linkDown p.val).isSome = true ∧ (u.port (portOfStar p)).nLink = gain 65535 r.nLink)
      ∧ (x.link = true → r.state = .active ∨ r.state = .openMode →
          (u.starPort p).queue = [] ∧ (u.starPort p).tx = .idle
          ∧ (u.starPort p).counters.flushed = BitVec.ofNat 32 (min (x.counters.flushed.toNat + x.queue.length) 4294967295))
      ∧ (x.link = true → r.state ≠ .active → r.state ≠ .openMode →
          (u.starPort p).queue = x.queue ∧ (u.starPort p).counters.flushed = x.counters.flushed)
      ∧ (x.link = true →
          let cut := s.modStar p (fun x => { x with
            lineUp := false, lineBusy := false, link := false,
            counters := { x.counters with linkLoss := bump x.counters.linkLoss } })
          let flushed := if starConnected s p then flushStar p cut else cut
          u = settle s (if r.state = .off then flushed else
            faultEvent .link (portOfStar p) (setFlag .linkDown p.val none
              (flushed.modStar p (fun x => { x with rx := .idle, store := [], count := 0 })))))
      ∧ (∀ v, v ≠ p → u.starPort v = { s.starPort v with queue := (u.starPort v).queue, counters := (u.starPort v).counters })
      ∧ (∀ q, q ≠ portOfStar p → u.port q = s.port q) ∧ ChannelOnly s u)
    ∧ ∀ (before : State) (v : QueueNo) (opened : Option (QueueNo × Nat)),
      let k := s.printer v
      (settle before s = if reachableStations before = reachableStations s then s else
        selectAll ((List.finRange 6).foldl (fun y w => endLostGrant w y)
          ((List.finRange 6).foldl (fun y w => clearLostCredit before w y) s)))
      ∧ selectAll s = selectFor none s ∧ selectFor opened s = (List.finRange 6).foldl (fun y w => select opened w y) s
      ∧ clearLostCredit before v s = (if printerReachable before v = true ∧ printerReachable s v = false
          then s.modPrinter v (fun y => { y with credit := 0 }) else s)
      ∧ (k.grant = none → endLostGrant v s = s)
      ∧ (∀ t, k.state = .granted t →
          let ended := fun y : State => sendAnswer (codeDest s t.requester) .abandoned (queueByte v) t.byte
            (setFlag .jobAbandoned (v.val + 1) (some t.byte)
              ((y.modPrinter v (fun z => { z with state := if z.enable then .idle else .disabled })).modLive t.costCentre
                CostSet.addAbandoned))
          (printerReachable s v = true → reachable s t.requester = true → endLostGrant v s = s)
          ∧ (printerReachable s v = true → reachable s t.requester = false →
            endLostGrant v s = ended (sendEnding v (breakPayload (queueByte v) t.byte) s))
          ∧ (printerReachable s v = false → endLostGrant v s = ended s))
      ∧ candidates s v = k.waiting.filter (fun t => reachable s t.requester)
      ∧ (eligible s v = true ↔ k.code.isSome = true ∧ k.enable = true ∧ k.online = true ∧ printerReachable s v = true
          ∧ k.state ≠ .disabled ∧ k.grant = none)
      ∧ (eligible s v = false → select opened v s = s)
      ∧ (eligible s v = true →
          let grants := fun t : Ticket =>
            let g := s.modPrinter v (fun y => { y with
              state := .granted t, waiting := y.waiting.erase t, idleRemaining := y.idleLimit })
            select opened v s = if opened = some (v, t.number) then g
              else sendAnswer (codeDest s t.requester) .granted (queueByte v) t.byte g
          (candidates s v = [] → select opened v s = s.modPrinter v (fun y => { y with state := .idle }))
          ∧ (∀ head, (candidates s v).head? = some head →
            (head.form = k.loadedForm → grants head)
            ∧ (head.form ≠ k.loadedForm → head.waitAge < k.formHold →
              ∀ t, (candidates s v).find? (fun y => y.form == k.loadedForm) = some t → grants t)
            ∧ (head.form ≠ k.loadedForm →
              k.formHold ≤ head.waitAge ∨ (∀ y ∈ candidates s v, y.form ≠ k.loadedForm) →
              select opened v s = if k.state = .formWait head.form then s
                else setFlag .formChange (v.val + 1) (some (BitVec.ofNat 8 head.form.val))
                  (s.modPrinter v (fun y => { y with state := .formWait head.form })))))

/-- FRAME_START and FRAME_END: a receiver that listens and is IDLE begins reception; at the end a frame in reception takes
the first class of Table 2-2 that holds and its counter gains one, a frame waited out takes none, and the receiver is
IDLE (R33 to R36). Then the result is handed on: RUNT and CHECK as a fault event of the port, a CHECK whose source ID has an
entry is attributed, a GOOD one counts in n_good, and on a connected port it is bridged, and goes no further in PROBATION
(R36, R37). A buffer that bridging took is held to the end of the event (R44). That the receive store is empty after every
frame is the model's choice (log entry 45); that the Print Arbiter's share comes at the event's end, and that a frame of the
bridge's own which is not placed frees its buffer at once, are DEDUCED (log entries 38 and 52). -/
def Obligations.StarFrameIsClassified : Prop :=
  ∀ (p : StarNo) (bytes : List Byte) (s : State), s.isRunning = true →
    ((s.port (portOfStar p)).state.listens = true → (s.starPort p).rx = .idle →
      exec (.frameStart p) s
        = .next (s.modStar p (fun x => { x with lineBusy := true, rx := .receiving, store := [], count := 0 })))
    ∧ (∃ u, exec (.frameEnd p bytes) s = .next u
      ∧ (u.starPort p).rx = .idle ∧ (u.starPort p).lineBusy = false
      ∧ let x := s.starPort p
        let store := (x.store ++ bytes).take 1513
        let n := min (x.count + bytes.length) 65535
        let cls : StarClass :=
          if n < 13 then .runt
          else if 1513 < n then .check
          else if n ≠ 13 + be16 (byteAt store 9) (byteAt store 10) then .check
          else if checkBytes (crc16 (store.take (n - 2))) ≠ store.drop (n - 2) then .check
          else .good
        let k := (u.starPort p).counters
        (x.rx = .receiving →
          k.rxRunt = (if cls = .runt then bump x.counters.rxRunt else x.counters.rxRunt)
          ∧ k.rxCheck = (if cls = .check then bump x.counters.rxCheck else x.counters.rxCheck)
          ∧ k.rxGood = (if cls = .good then bump x.counters.rxGood else x.counters.rxGood))
        ∧ (x.rx ≠ .receiving →
          u = s.modStar p (fun x => { x with
            lineBusy := false, rx := .idle, store := if x.rx = .idle then x.store else [],
            count := if x.rx = .idle then x.count else 0 }))
        ∧ (x.rx = .receiving →
          let q := portOfStar p
          let closed := s.modStar p (fun y => { y with
            lineBusy := false, rx := .idle, store := [], count := 0,
            counters := { y.counters with
              rxRunt := if cls = .runt then bump y.counters.rxRunt else y.counters.rxRunt,
              rxCheck := if cls = .check then bump y.counters.rxCheck else y.counters.rxCheck,
              rxGood := if cls = .good then bump y.counters.rxGood else y.counters.rxGood } })
          let source := be32 (byteAt store 4) (byteAt store 5) (byteAt store 6) (byteAt store 7)
          (cls = .runt → u = settle s (faultEvent .runt q closed))
          ∧ (cls = .check →
            let judged := faultEvent .check q closed
            (∀ e, indexEntry s source = some e →
              u = settle s ((judged.modEntry e.code (fun y => { y with periodFaults := min (y.periodFaults + 1) 255 })).modPort q
                (fun r => { r with attributed := min (r.attributed + 1) 65535 })))
            ∧ (indexEntry s source = none → u = settle s judged))
          ∧ (cls = .good →
            let counted := closed.modPort q (fun r => { r with nGood := min (r.nGood + 1) 65535 })
            let bridged := bridgeStar p (starRxOf store) counted
            (starConnected s p = true →
              (∀ b, bridged.1 = some b → u = dropRef b (settle s bridged.2))
              ∧ (bridged.1 = none → u = settle s bridged.2))
            ∧ (starConnected s p = false → u = counted)))
        ∧ (∀ q, q ≠ portOfStar p → u.port q = s.port q) ∧ TrafficOnly s u)

/-- SEND_START and SEND_COMPLETION: a connected port with an idle transmitter begins the head frame; at the last check
byte the reference leaves the queue and is released and TX_FRAMES gains one (R39). That the transmitter is IDLE between a
completion and the start of the next frame, which R39 begins at once, is the model's choice (log entry 44). -/
def Obligations.StarPortSends : Prop :=
  ∀ (p : StarNo) (b : BufId) (rest : List BufId) (s : State),
    s.isRunning = true → (s.starPort p).queue = b :: rest →
    (starConnected s p = true → (s.starPort p).tx = .idle →
      exec (.sendStart p) s = .next (s.modStar p (fun x => { x with tx := .sending (bufStarFrame (s.buf b)) })))
    ∧ (∀ f, (s.starPort p).tx = .sending f →
      exec (.sendCompletion p) s = .next (dropRef b (s.modStar p (fun x => { x with
        queue := rest, tx := .idle, counters := { x.counters with txFrames := bump x.counters.txFrames } }))))

/-! ## Supervision -/

/-- A fault event adds one to its period count, and isolates the port exactly when the port is ACTIVE or PROBATION, is
not exempt, and its running score reaches the isolate threshold; otherwise nothing but the count changes (R110 to R112,
R128). -/
def Obligations.FaultEventMayIsolate : Prop :=
  ∀ (k : FaultKind) (q : PortNo) (s : State),
    let r := (s.port q).count k
    let u := faultEvent k q s
    ((r.state = .active ∨ r.state = .probation) ∧ r.exempt = false ∧ r.current.isolate ≤ r.running →
      (u.port q).state = .isolated ∧ (u.port q).k = min (r.k + 1) 6
      ∧ (u.port q).holdLength = r.current.baseHold * 2 ^ (min (r.k + 1) 6 - 1)
      ∧ (u.port q).holdRemaining = (u.port q).holdLength ∧ (u.port q).score = r.score
      ∧ (u.port q).isolations = bump r.isolations ∧ (flagOf u .portIsolated q.val).isSome = true
      ∧ ∀ v, v ≠ q → u.port v = s.port v)
    ∧ (¬ ((r.state = .active ∨ r.state = .probation) ∧ r.exempt = false ∧ r.current.isolate ≤ r.running) →
      u = s.modPort q (fun _ => r))

/-- FOLD at the expiry of the period timer: every port's new score is its old score less the decay, plus the addition of
its state and utilisation, held at 1023, where a load threshold of 100 grants no relief; its counts are cleared, its staged
settings adopted, its utilisation recorded; and the timer is loaded with the staged period (R119 to R122, R127). The whole
of it is the folds of the twelve ports, each through its nine stages (FoldReachesItsVerdict), the clearing of the period
counts of entries with unknown home, the timer and the period, and the Print Arbiter's share (R120). That the ports are folded
in ascending order, and that the arbiter's share comes after them, are the model's readings (log entries 15 and 38). -/
def Obligations.FoldScoresEveryPort : Prop :=
  ∀ (s : State), s.isRunning = true → s.sup.timer = 0 →
    ∃ u, exec .fold s = .next u
      ∧ u.sup.period = s.office.period ∧ u.sup.timer = (s.office.period + 1) * 50
      ∧ (let folded := (List.finRange 12).foldl (fun y q => foldPort q y) s
        u = settle s { folded with
          dir := { folded.dir with entries := folded.dir.entries.map (fun e =>
            if e.homeUnknown then { e with periodFaults := 0, periodMoves := 0 } else e) },
          sup := { folded.sup with period := s.office.period, timer := (s.office.period + 1) * 50 } })
      ∧ ∀ q,
        let r := s.port q
        let v := u.port q
        let util : Option Nat := match splitPort q with
          | .inl t => some (min (((s.seg t).settleBusy s.chassis.now).busy * 100 / ((s.sup.period + 1) * 200000)) 100)
          | .inr _ => none
        let raw := r.current.wRunt * r.nRunt + r.current.wGarble * r.nGarble + r.current.wCheck * r.nCheck
          + r.current.wLink * r.nLink
        let a := if r.state = .isolated ∨ r.state = .held ∨ r.state = .off then 0
          else match util with
            | some x => if r.current.loadThreshold < 100 ∧ r.current.loadThreshold ≤ x then raw - r.current.wGarble * r.nGarble / 2 else raw
            | none => raw
        v.score = min 1023 (r.score - (if r.score = 0 then 0 else max 1 (r.score / 8)) + a)
        ∧ v.nRunt = 0 ∧ v.nGarble = 0 ∧ v.nCheck = 0 ∧ v.nLink = 0 ∧ v.nGood = 0 ∧ v.attributed = 0
        ∧ v.lastU = util ∧ v.pending = false ∧ v.current = (if r.pending then r.staged else r.current)
        ∧ v.staged = r.staged ∧ v.exempt = r.exempt ∧ TrafficOnly s u ∧ u.inputs = s.inputs ∧ u.drops = s.drops

/-- The verdict of a port's fold by its state: an ACTIVE port at its isolate threshold is isolated, a hold runs down and
ends in probation, a probation runs down by one and ends in readmission or in isolation with the next hold, and OPEN, HELD
and OFF reach no verdict (R124, R128, R130). Then the other stages of a whole fold: the warning flag by the new score, with
the WARNING alert at its rise (R123); the clean count, which forgives k at the clean limit (R125); and the culprits among
the entries homed on the port (R126). A hold restarts on a segment that is unterminated under the LOSS action ISOLATE and
not exempt (R124). The fold of one port leaves the records of the others, and FOLD is the folds of all twelve
(FoldScoresEveryPort, R120). That a count which a lowered clean limit has overtaken forgives k is DEDUCED (log entry 22). -/
def Obligations.FoldReachesItsVerdict : Prop :=
  ∀ (q : PortNo) (s : State),
    let r := s.port q
    let v := (verdict q s).port q
    let isolated := v.state = .isolated ∧ v.k = min (r.k + 1) 6
      ∧ v.holdLength = r.current.baseHold * 2 ^ (min (r.k + 1) 6 - 1) ∧ v.holdRemaining = v.holdLength
      ∧ v.probationRemaining = 0 ∧ v.clean = 0 ∧ v.isolations = bump r.isolations
    let u := foldPort q s
    let w := u.port q
    let a := addition (foldUtil q s) r
    let restarts := ∃ t : SegNo, q = portOfSeg t ∧ (s.seg t).unterminated = true ∧ (s.segPlans[t.val]).loss = .isolate
      ∧ r.exempt = false
    (r.state = .active → v.state = (if r.exempt = false ∧ r.current.isolate ≤ r.score then .isolated else .active))
    ∧ (r.state = .active → r.exempt = false → r.current.isolate ≤ r.score → isolated)
    ∧ (r.state = .isolated → 2 ≤ r.holdRemaining → v.state = .isolated ∧ v.holdRemaining = r.holdRemaining - 1)
    ∧ (r.state = .isolated → r.holdRemaining = 1 → ¬ restarts →
        v.state = .probation ∧ v.probationRemaining = r.current.probation)
    ∧ (r.state = .isolated → r.holdRemaining = 1 → restarts →
        v.state = .isolated ∧ v.holdRemaining = r.holdLength)
    ∧ (r.state = .probation → 2 ≤ r.probationRemaining →
        v.state = .probation ∧ v.probationRemaining = r.probationRemaining - 1 ∧ v.k = r.k)
    ∧ (r.state = .probation → r.probationRemaining = 1 →
        v.state = (if r.exempt = true ∨ r.score < r.current.warn then .active else .isolated))
    ∧ (r.state = .probation → r.probationRemaining = 1 → r.exempt = true ∨ r.score < r.current.warn →
        v.k = r.k ∧ v.clean = 0 ∧ v.readmissions = bump r.readmissions)
    ∧ (r.state = .probation → r.probationRemaining = 1 → r.exempt = false → r.current.warn ≤ r.score → isolated)
    ∧ (r.state = .openMode ∨ r.state = .held ∨ r.state = .off → verdict q s = s)
    ∧ (w.warning = (if r.current.warn ≤ w.score then true else if w.score < r.current.warn / 2 then false else r.warning))
    ∧ (r.warning = false → r.current.warn ≤ w.score → (flagOf u .warning q.val).isSome = true)
    ∧ (a ≠ 0 → w.clean = 0)
    ∧ (a = 0 → r.state = .active → r.exempt = true ∨ w.score < r.current.isolate →
        (r.clean + 1 < r.current.cleanLimit → w.clean = r.clean + 1 ∧ w.k = r.k)
        ∧ (r.current.cleanLimit ≤ r.clean + 1 → w.clean = 0 ∧ w.k = 0))
    ∧ (a = 0 → r.state = .openMode ∨ r.state = .held ∨ r.state = .off → w.clean = r.clean ∧ w.k = r.k)
    ∧ (∀ p, p ≠ q → u.port p = s.port p)
    ∧ ∀ (c : DeskCode) (e : Entry), (s.dir.entries.map Entry.code).Nodup → findEntry s c = some e →
        let culprit := s.ctl.commissioned = true ∧ (r.state = .active ∨ r.state = .probation) ∧ e.homedOn q = true
          ∧ s.office.faultLimit ≤ e.periodFaults ∧ r.attributed ≤ 2 * e.periodFaults
        let faults := if e.homedOn q then 0 else e.periodFaults
        let moves := if e.homedOn q then 0 else e.periodMoves
        (culprit → e.state ≠ .suspended .admin →
          findEntry u c = some { e with
            state := .suspended (.timed .check s.office.quarantine), periodFaults := faults, periodMoves := moves }
          ∧ (flagOf u .quarantine 0).isSome = true)
        ∧ (¬ culprit ∨ e.state = .suspended .admin →
          findEntry u c = some { e with periodFaults := faults, periodMoves := moves })

/-! ## Presence and ticks -/

/-- PRESENCE_QUERY at the tick that brings a running countdown of an ACTIVE entry to its query lead: the countdown falls
by one, the entry is QUERIED, and QUERY_SENT or, with no buffer free, QUERY_SKIPPED counts it (R95, R97). The query is a ROLL
of the query form with the presence remaining, and joins the queue toward the entry's home with the bridge as source, or is
refused there by the queue's own count (R66, R214). That the free buffer with the lowest index is taken is the model's
choice (log entry 14). -/
def Obligations.PresenceIsQueried : Prop :=
  ∀ (c : DeskCode) (e : Entry) (s : State),
    s.isRunning = true → findEntry s c = some e → e.state = .active → homeConnected s e = true →
    2 ≤ e.presenceRemaining → e.presenceRemaining ≤ max 5 (e.presenceLimit / 8) + 1 →
    ∃ u, exec (.presenceQuery c) s = .next u
      ∧ findEntry u c = some { e with presenceRemaining := e.presenceRemaining - 1, state := .queried }
      ∧ (0 < freeBuffers s → u.dir.counters = { s.dir.counters with querySent := bump s.dir.counters.querySent })
      ∧ (freeBuffers s = 0 → u.dir.counters = { s.dir.counters with querySkipped := bump s.dir.counters.querySkipped })
      ∧ (∀ d, d ≠ c → findEntry u d = findEntry s d) ∧ u.dir.pool = s.dir.pool ∧ u.print = s.print
      ∧ (∀ b, freeBuf s = some b →
          let left := e.presenceRemaining - 1
          let query := [1#8, BitVec.ofNat 8 (left / 256), BitVec.ofNat 8 left]
          (∀ h, e.place = .trunk h →
            (s.trunk.queue.length < 16 → u.trunk.queue = s.trunk.queue ++ [b] ∧ u.buf b =
              { refs := 1, kind := 4#8, payload := query, trunkAddr := some { dst := c, src := 240#8 }, starAddr := none })
            ∧ (16 ≤ s.trunk.queue.length → u.trunk.queue = s.trunk.queue
              ∧ u.trunk.counters.queueFull = bump s.trunk.counters.queueFull))
          ∧ (∀ x p, e.place = .star x (some p) →
            (∀ v, v ≠ p → u.starPort v = s.starPort v)
            ∧ ((s.starPort p).queue.length < 16 → (u.starPort p).queue = (s.starPort p).queue ++ [b] ∧ u.buf b =
              { refs := 1, kind := 4#8, payload := query, trunkAddr := none,
                starAddr := some { dst := x, src := s.chassis.unitNumber } })
            ∧ (16 ≤ (s.starPort p).queue.length → (u.starPort p).queue = (s.starPort p).queue
              ∧ (u.starPort p).counters.queueFull = bump (s.starPort p).counters.queueFull)))
      ∧ OnlySends { s with dir := u.dir } u

/-- The tick that ends a running countdown. AGING of a LEARNED entry removes it, puts its code at the pool's tail and counts
AGED_OUT (R99, R77); BECOMES_ABSENT leaves a FIXED entry ABSENT with presence remaining 0 and counts WENT_ABSENT (R100). No
ticket names the entry any more, and what else changes is the Print Arbiter's share. -/
def Obligations.CountdownEnds : Prop :=
  ∀ (c : DeskCode) (e : Entry) (s : State),
    s.isRunning = true → findEntry s c = some e → e.inUse = true → homeConnected s e = true → e.presenceRemaining ≤ 1 →
    (e.origin = .learned →
      ∃ u, exec (.aging c) s = .next u
        ∧ (∀ t ∈ allTickets u, t.requester ≠ c)
        ∧ ArbiterOnly { s with dir :=
            { entries := s.dir.entries.filter (fun x => x.code != c), pool := s.dir.pool ++ [c],
              counters := { s.dir.counters with agedOut := bump s.dir.counters.agedOut } } } u)
    ∧ (e.origin = .fixed →
      ∃ u, exec (.becomesAbsent c) s = .next u
        ∧ (∀ t ∈ allTickets u, t.requester ≠ c)
        ∧ ArbiterOnly { s with dir :=
            { s.dir with
              entries := s.dir.entries.map (fun x =>
                if x.code = c then { x with presenceRemaining := 0, state := .absent } else x),
              counters := { s.dir.counters with wentAbsent := bump s.dir.counters.wentAbsent } } } u)

/-- QUARANTINE_END at the tick that ends a timed suspension: the entry is ACTIVE with full presence and its strikes and
period counts 0, QUARANTINE_ENDED counts it, and what follows is the Print Arbiter's share (R106). -/
def Obligations.QuarantineEnds : Prop :=
  ∀ (c : DeskCode) (e : Entry) (why : TimedReason) (n : Nat) (s : State),
    s.isRunning = true → findEntry s c = some e → e.state = .suspended (.timed why n) → n ≤ 1 →
    ∃ u, exec (.quarantineEnd c) s = .next u
      ∧ ArbiterOnly { s with dir := { s.dir with
          entries := s.dir.entries.map (fun x => if x.code = c then
            { x with state := .active, presenceRemaining := x.presenceLimit, strikes := 0, periodFaults := 0, periodMoves := 0 }
            else x),
          counters := { s.dir.counters with quarantineEnded := bump s.dir.counters.quarantineEnded } } } u

/-- ONE_SECOND_TICK, for what it brings to no threshold, as one block takes it. The Presence Monitor: a countdown that runs
and a suspension timer fall by one, and every other entry stands (R95, R105). The Print Arbiter: the idle remaining of a
granted, online printer falls by one, and every waiting ticket grows one second older but a head that is left for
FORM_HOLD_REACHED (R143, R158); a printer that is not eligible changes in nothing else, and what selection then does is the
arbiter's share. A tick that the Time Base has not given changes nothing (R208). That thresholds have commands of their
own, and that the Presence Monitor takes each tick first, are the model's choices (log entries 7 and 47). -/
def Obligations.SecondTickCounts : Prop :=
  ∀ (s : State), s.isRunning = true →
    let k := s.chassis.ticks
    let aged := fun (q : QueueNo) (t : Ticket) =>
      if (candidates s q).head? = some t ∧ t.waitAge + 1 = (s.printer q).formHold then t
      else { t with waitAge := min (t.waitAge + 1) 65535 }
    let idle := fun q : QueueNo =>
      if (s.printer q).grant.isSome = true ∧ (s.printer q).online = true ∧ 1 < (s.printer q).idleRemaining
      then (s.printer q).idleRemaining - 1 else (s.printer q).idleRemaining
    (k.printDue ≤ k.presenceDue → 0 < k.presenceDue →
      exec .oneSecondTick s = .next { s with
        chassis := { s.chassis with ticks := { k with presenceDue := k.presenceDue - 1 } },
        dir := { s.dir with entries := s.dir.entries.map (fun e => match e.state with
          | .suspended (.timed why n) => if n ≤ 1 then e else { e with state := .suspended (.timed why (n - 1)) }
          | .suspended .admin => e
          | .absent => e
          | .active => if homeConnected s e = true ∧ max 5 (e.presenceLimit / 8) + 1 < e.presenceRemaining
              then { e with presenceRemaining := e.presenceRemaining - 1 } else e
          | .queried => if homeConnected s e = true ∧ 1 < e.presenceRemaining
              then { e with presenceRemaining := e.presenceRemaining - 1 } else e) } })
    ∧ (k.presenceDue < k.printDue → ∃ u, exec .oneSecondTick s = .next u
      ∧ (∀ q, eligible s q = false →
          u.printer q = { s.printer q with idleRemaining := idle q, waiting := (s.printer q).waiting.map (aged q) })
      ∧ (∀ q, ∀ t ∈ (u.printer q).waiting, t ∈ (s.printer q).waiting.map (aged q))
      ∧ ArbiterOnly { s with chassis := { s.chassis with ticks := { k with printDue := k.printDue - 1 } } } u)
    ∧ (k.presenceDue = 0 → k.printDue = 0 → exec .oneSecondTick s = .next s)

/-- ONE_MILLISECOND_TICK, for what it brings to no threshold, as each block takes it that the command reaches: the Time Base
counts it and at the thousandth gives both blocks of the 1 s tick theirs, every broadcast elapsed time gains one up to
65535, each segment takes its terminator sample and its quiet millisecond, the period timer falls, a burst in progress takes
its transitions whichever blocks are reached, and nothing else changes (R4, R11, R12, R101, R119, R208; log entries 2, 7, 19, 43 and 47). -/
def Obligations.MillisecondTickCounts : Prop :=
  ∀ (tick : MsTick) (s : State), s.isRunning = true →
    let k := s.chassis.ticks
    exec (.oneMillisecondTick tick) s = .next { s with
      chassis := if tick.reach.timeBase = false then s.chassis else { s.chassis with
        now := (s.chassis.now / 4000 + 1) * 4000,
        ticks := if k.ms < 999 then { k with ms := k.ms + 1 }
          else { ms := 0, presenceDue := k.presenceDue + 1, printDue := k.printDue + 1 } },
      dir := if tick.reach.presence = false then s.dir else { s.dir with entries := s.dir.entries.map (fun e =>
        { e with broadcastElapsed := min (e.broadcastElapsed + 1) 65535 }) },
      sup := if tick.reach.supervision = false then s.sup else { s.sup with timer := s.sup.timer - 1 },
      trunk := { s.trunk with segs := Vector.ofFn (fun t : SegNo =>
        { s.seg t with
          differing := if tick.reach.channels = false then (s.seg t).differing
            else tick.senses.getLsbD t.val != (s.seg t).unterminated,
          quietCount := if tick.reach.channels = true ∧ relayClosed s t = true ∧ (s.seg t).carrier = false
              ∧ (s.seg t).quietCount < 16
            then (s.seg t).quietCount + 1 else (s.seg t).quietCount,
          current := if (s.seg t).phase = .burst
            then { (s.seg t).current with edges := min ((s.seg t).current.edges + tick.edges[t.val]) 65535 }
            else (s.seg t).current }) } }

/-- IDLE_EXPIRY at the tick that ends the idle remaining of a granted job whose printer is online: the job is abandoned,
the abandonment is counted to its cost centre and flagged, and it is no longer a ticket of its queue (R158, R155, R172).
FORM_HOLD_REACHED: the tick that brings the head ticket of an eligible printer to the form-hold limit, with a form that
is not loaded, puts the printer in FORM_WAIT for that form (R143, R153). -/
def Obligations.PrintTimersRun : Prop :=
  ∀ (q : QueueNo) (t : Ticket) (s : State), s.isRunning = true →
    ((s.printer q).state = .granted t → (s.printer q).online = true → (s.printer q).idleRemaining ≤ 1 →
      (∀ x ∈ (s.printer q).waiting, x.number ≠ t.number) →
      ∃ u, exec (.idleExpiry q) s = .next u
        ∧ (∀ x ∈ (u.printer q).tickets, x.number ≠ t.number)
        ∧ u.acct.live[t.costCentre.val] = (s.acct.live[t.costCentre.val]).addAbandoned
        ∧ (∀ cc : Fin 16, cc ≠ t.costCentre → u.acct.live[cc.val] = s.acct.live[cc.val])
        ∧ (flagOf u .jobAbandoned (q.val + 1)).isSome = true
        ∧ (u.printer q).completed = (s.printer q).completed ∧ ArbiterOnly s u)
    ∧ (∀ rest, eligible s q = true → candidates s q = t :: rest → t.waitAge + 1 = (s.printer q).formHold →
      t.waitAge < 65535 → t.form ≠ (s.printer q).loadedForm →
      ∃ u, exec (.formHoldReached q) s = .next u
        ∧ (u.printer q).state = .formWait t.form
        ∧ ((s.printer q).state ≠ .formWait t.form → (flagOf u .formChange (q.val + 1)).isSome = true)
        ∧ u.acct = s.acct ∧ ArbiterOnly s u)

/-! ## Alerts -/

/-- ALERT_SEND: with no buffer free the record stays; otherwise the head record leaves the queue and counts in ALERT_SENT
or, where its destination comes to no queue, in ALERT_UNROUTED (R196). The message has the alert form with the record's kind,
instance, level and detail (R213) and goes where R66 resolves the destination as it stands now. That a flood with no
connected port comes to no queue is the model's reading (log entry 12); that the free buffer with the lowest index is taken
is its choice (log entry 14); that a station ID which lay in the trunk range at ALERT_SET is left unsent once it is outside
is R193, and by what the model knows such an ID is its choice (log entry 51). -/
def Obligations.AlertIsSent : Prop :=
  ∀ (r : AlertRecord) (rest : List AlertRecord) (s : State), s.isRunning = true → s.alerts.queue = r :: rest →
    let told := [192#8, BitVec.ofNat 8 (r.kind.index.val + 1), BitVec.ofNat 8 r.inst, BitVec.ofNat 8 r.level.val,
      if r.detail.isSome then 1#8 else 0#8, r.detail.getD 0#8]
    let inRange := fun x : StationId => (x - s.office.base).toNat < 256
    let desk := fun x : StationId => (x - s.office.base).truncate 8
    let special := fun x : StationId =>
      x = 0#32 ∨ x = 0xFFFFFFFF#32 ∨ x = s.chassis.unitNumber ∨ x = s.office.base + 240#32
    (freeBuffers s = 0 → exec .alertSend s = .next s)
    ∧ (0 < freeBuffers s → ∃ u, exec .alertSend s = .next u
        ∧ u.alerts = { s.alerts with
            queue := rest,
            sent := if resolves (alertDest s) s then bump s.alerts.sent else s.alerts.sent,
            unrouted := if resolves (alertDest s) s then s.alerts.unrouted else bump s.alerts.unrouted }
        ∧ OnlySends { s with alerts := u.alerts } u
        ∧ ∀ b, freeBuf s = some b →
          let nowhere := u.trunk = s.trunk ∧ u.star = s.star ∧ u.alerts.unrouted = bump s.alerts.unrouted
          let toTrunk := fun c : DeskCode =>
            u.star = s.star ∧ u.alerts.sent = bump s.alerts.sent
            ∧ (trunkDown s = true → u.trunk.queue = s.trunk.queue
              ∧ u.trunk.counters.trunkDown = bump s.trunk.counters.trunkDown)
            ∧ (trunkDown s = false → 16 ≤ s.trunk.queue.length → u.trunk.queue = s.trunk.queue
              ∧ u.trunk.counters.queueFull = bump s.trunk.counters.queueFull)
            ∧ (trunkDown s = false → s.trunk.queue.length < 16 → u.trunk.queue = s.trunk.queue ++ [b] ∧ u.buf b =
              { refs := 1, kind := 3#8, payload := told, trunkAddr := some { dst := c, src := 240#8 }, starAddr := none })
          let toStar := fun (p : StarNo) (x : StationId) =>
            u.trunk = s.trunk ∧ u.alerts.sent = bump s.alerts.sent ∧ (∀ v, v ≠ p → u.starPort v = s.starPort v)
            ∧ (starConnected s p = false → u.starPort p = { s.starPort p with counters :=
              { (s.starPort p).counters with notConnected := bump (s.starPort p).counters.notConnected } })
            ∧ (starConnected s p = true → 16 ≤ (s.starPort p).queue.length → u.starPort p = { s.starPort p with counters :=
              { (s.starPort p).counters with queueFull := bump (s.starPort p).counters.queueFull } })
            ∧ (starConnected s p = true → (s.starPort p).queue.length < 16 →
              u.starPort p = { s.starPort p with queue := (s.starPort p).queue ++ [b] } ∧ u.buf b =
                { refs := 1, kind := 3#8, payload := told, trunkAddr := none,
                  starAddr := some { dst := x, src := s.chassis.unitNumber } })
          let flooded := fun x : StationId =>
            u.trunk = s.trunk
            ∧ (u.alerts.sent = if ∃ p, starConnected s p = true then bump s.alerts.sent else s.alerts.sent)
            ∧ ∀ p, (starConnected s p = false → u.starPort p = s.starPort p)
              ∧ (starConnected s p = true → 16 ≤ (s.starPort p).queue.length → u.starPort p = { s.starPort p with counters :=
                { (s.starPort p).counters with queueFull := bump (s.starPort p).counters.queueFull } })
              ∧ (starConnected s p = true → (s.starPort p).queue.length < 16 →
                u.starPort p = { s.starPort p with queue := (s.starPort p).queue ++ [b] }
                ∧ (u.buf b).kind = 3#8 ∧ (u.buf b).payload = told
                ∧ (u.buf b).starAddr = some { dst := x, src := s.chassis.unitNumber })
          let toEntry := fun e : Entry =>
            (∀ h, e.place = .trunk h → toTrunk e.code) ∧ (∀ x p, e.place = .star x (some p) → toStar p x)
            ∧ (∀ x, e.place = .star x none → nowhere)
          let toTrunkId := fun x : StationId =>
            (inRange x ∧ 1 ≤ (desk x).toNat ∧ (desk x).toNat ≤ 239 → toTrunk (desk x))
            ∧ (¬ (inRange x ∧ 1 ≤ (desk x).toNat ∧ (desk x).toNat ≤ 239) → nowhere)
          (s.alerts.config.dest = .none → nowhere)
          ∧ (∀ c, s.alerts.config.dest = .code c →
            (∀ e, findEntry s c = some e → toEntry e) ∧ (findEntry s c = none → toTrunk c))
          ∧ (∀ x, s.alerts.config.dest = .id x →
            (∀ e, indexEntry s x = some e → toEntry e)
            ∧ (indexEntry s x = none →
              (special x → nowhere) ∧ (¬ special x → inRange x → toTrunkId x) ∧ (¬ special x → ¬ inRange x → flooded x)))
          ∧ (∀ x, s.alerts.config.dest = .trunkId x →
            (∀ e, indexEntry s x = some e → toEntry e) ∧ (indexEntry s x = none → toTrunkId x)))

/-- A flag set from clear takes its detail and raises one record when its kind is enabled, the bridge is commissioned and
a destination is given, and none otherwise; into a full queue the record displaces the last of a lower level, or is dropped,
each with its count; a flag already set raises nothing and keeps its detail, but for the three kinds that replace it (R192,
R194, R195). Lamp n of a running part is lit exactly while a flag is set whose kind is enabled at level n, before
commissioning and with no destination too; the lamps of a part in reset are dark (R199, Table 10-4). -/
def Obligations.FlagRaisesOneRecord : Prop :=
  ∀ (k : AlertKind) (i : Nat) (d : Option Byte) (s : State),
    let u := setFlag k i d s
    let raised : AlertRecord := { kind := k, inst := i, level := s.alerts.config.level k, detail := d }
    (flagOf s k i = none → flagOf u k i = some { kind := k, inst := i, detail := d })
    ∧ (flagOf s k i = none → s.alerts.config.enabled k = true → s.ctl.commissioned = true → s.alerts.config.dest ≠ .none →
        s.alerts.queue.length < 8 →
        raised ∈ u.alerts.queue
        ∧ u.alerts.queue.length = s.alerts.queue.length + 1 ∧ u.alerts.queued = bump s.alerts.queued)
    ∧ (∀ l, flagOf s k i = none → s.alerts.config.enabled k = true → s.ctl.commissioned = true →
        s.alerts.config.dest ≠ .none → 8 ≤ s.alerts.queue.length → s.alerts.queue.getLast? = some l →
        (l.level < raised.level →
          raised ∈ u.alerts.queue ∧ (∀ x ∈ s.alerts.queue.dropLast, x ∈ u.alerts.queue)
          ∧ u.alerts.queue.length = s.alerts.queue.length
          ∧ u.alerts.displaced = bump s.alerts.displaced ∧ u.alerts.queued = bump s.alerts.queued
          ∧ u.alerts.dropped = s.alerts.dropped)
        ∧ (raised.level ≤ l.level →
          u.alerts.queue = s.alerts.queue ∧ u.alerts.dropped = bump s.alerts.dropped
          ∧ u.alerts.displaced = s.alerts.displaced ∧ u.alerts.queued = s.alerts.queued))
    ∧ ((s.alerts.config.enabled k = false ∨ s.ctl.commissioned = false ∨ s.alerts.config.dest = .none) →
        u.alerts.queue = s.alerts.queue)
    ∧ (∀ f, flagOf s k i = some f →
        u.alerts.queue = s.alerts.queue
        ∧ flagOf u k i = some { f with
            detail := if k = .codeConflict ∨ k = .duplicate ∨ k = .quarantine then d else f.detail })
    ∧ (∀ n : Fin 4, lampLit s n = true ↔
        s.isRunning = true ∧ ∃ f ∈ s.alerts.flags, s.alerts.config.enabled f.kind = true ∧ s.alerts.config.level f.kind = n)
    ∧ (s.isRunning = true → s.alerts.config.enabled k = true → lampLit u (s.alerts.config.level k) = true)

/-! ## Print messages -/

/-- OPEN. One that a test of Table 7-5 refuses creates nothing and OPEN_REFUSED gains one: an unconfigured or disabled
queue, a sender with no entry, a SUSPENDED sender, a sender with 2 tickets, a pool of 32. One that passes creates one
ticket with the number, class, cost centre, form and label that R146 and R147 give it, and TICKETS_OPENED gains one; the
ticket waits or has been granted (R146, R147). The number is the first free one counting up from the next ticket number,
from 255 on to 1 (R147). Selection runs, and the answer after it is GRANTED where it has granted the ticket, and else QUEUED
with the ticket's place among the waiting tickets of its queue (R146, R154); then the message is released (R145). That it
still holds its buffer while the answers take theirs is DEDUCED (log entry 28), and so is that an answer which is not placed
frees its buffer for the next (log entry 52). -/
def Obligations.OpenIsTested : Prop :=
  ∀ (e : InputEntry) (q : QueueNo) (form : Fin 16) (label : List Byte) (s : State),
    s.isRunning = true → headPrint s = some (e, .openJob q form label) →
    (((s.printer q).code = none ∨ (s.printer q).enable = false ∨ senderOf s e.route = none
        ∨ (∃ x, senderOf s e.route = some x ∧ (x.isSuspended = true ∨ 2 ≤ ticketsHeld s x.code))
        ∨ 32 ≤ ticketCount s) →
      ∃ u, exec .printOpen s = .next u
        ∧ u.print.openRefused = bump s.print.openRefused ∧ u.print.ticketsOpened = s.print.ticketsOpened
        ∧ ticketCount u = ticketCount s ∧ u.acct = s.acct
        ∧ ArbiterOnly { s with inputs := { s.inputs with print := s.inputs.print.tail } } u)
    ∧ (∀ x, (s.printer q).code.isSome = true → (s.printer q).enable = true → senderOf s e.route = some x →
        x.isSuspended = false → ticketsHeld s x.code < 2 → ticketCount s < 32 →
      let t : Ticket := { number := nextNumber (s.printer q), requester := x.code, cls := x.printClass,
                          costCentre := x.costCentre, form := form, label := label, waitAge := 0, bytesFed := 0 }
      ∃ u, exec .printOpen s = .next u
        ∧ t ∈ (u.printer q).tickets ∧ ticketCount u = ticketCount s + 1
        ∧ u.print.ticketsOpened = bump s.print.ticketsOpened ∧ u.print.openRefused = s.print.openRefused
        ∧ (u.printer q).nextTicket = (if t.number = 255 then 1 else t.number + 1) ∧ u.acct = s.acct
        ∧ (let place := fun k => ((s.printer q).nextTicket - 1 + k) % 255 + 1
          1 ≤ (s.printer q).nextTicket → (s.printer q).nextTicket ≤ 255 →
          ∃ k, k < 33 ∧ t.number = place k ∧ (∀ y ∈ (s.printer q).tickets, y.number ≠ t.number)
            ∧ ∀ j, j < k → ∃ y ∈ (s.printer q).tickets, y.number = place j)
        ∧ (let opened := { s with
            inputs := { s.inputs with print := s.inputs.print.tail },
            print := { s.print with
              printers := (s.modPrinter q (fun p => { p with
                waiting := placeTicket t p.waiting, nextTicket := if t.number = 255 then 1 else t.number + 1 })).print.printers,
              ticketsOpened := bump s.print.ticketsOpened } }
          let chosen := selectFor (some (q, t.number)) opened
          let place := (chosen.printer q).waiting.findIdx (fun y => y.number == t.number) + 1
          u = dropRef e.buf (sendAnswer (routeDest e.route)
            (if ((chosen.printer q).grant.map Ticket.number) = some t.number then .granted else .queued place)
            (queueByte q) t.byte chosen))
        ∧ ArbiterOnly { s with inputs := { s.inputs with print := s.inputs.print.tail } } u)

/-- A DATA for the sender's own grant, with credit, an online printer and room toward it, becomes a FEED: FEEDS gains
one, the credit falls by one, the idle remaining starts again, and the bytes are charged to the ticket's cost centre; the
message's own buffer, rewritten as the FEED, joins the queue toward the printer's entry with the bridge as source (R148,
R149, R171). The ticket's 32-bit bytes fed are stated where they do not overflow. -/
def Obligations.DataBecomesAFeed : Prop :=
  ∀ (e : InputEntry) (q : QueueNo) (n : Byte) (bytes : List Byte) (t : Ticket) (x w : Entry) (s : State),
    s.isRunning = true → headPrint s = some (e, .data q n bytes) →
    (s.printer q).state = .granted t → t.number = n.toNat → senderOf s e.route = some x → x.code = t.requester →
    printerEntry s q = some w → 0 < (s.printer q).credit → (s.printer q).online = true →
    roomToward (entryDest w) s = true → t.bytesFed.toNat + bytes.length ≤ 4294967295 →
    ∃ u, exec .printData s = .next u
      ∧ u.print.feeds = bump s.print.feeds
      ∧ u.printer q = { s.printer q with
          credit := (s.printer q).credit - 1, idleRemaining := (s.printer q).idleLimit,
          state := .granted { t with bytesFed := t.bytesFed + BitVec.ofNat 32 bytes.length } }
      ∧ (∀ v, v ≠ q → ((s.printer v).state = .disabled → u.printer v = s.printer v))
      ∧ u.acct.live[t.costCentre.val] = (s.acct.live[t.costCentre.val]).addBytes bytes.length
      ∧ (∀ cc : Fin 16, cc ≠ t.costCentre → u.acct.live[cc.val] = s.acct.live[cc.val])
      ∧ (1 ≤ (s.buf e.buf).refs →
          (∀ h, w.place = .trunk h → trunkDown s = false →
            (∃ more, u.trunk.queue = s.trunk.queue ++ e.buf :: more)
            ∧ (u.buf e.buf).payload = feedPayload (queueByte q) n bytes
            ∧ (u.buf e.buf).trunkAddr = some { dst := w.code, src := 240#8 })
          ∧ (∀ y p, w.place = .star y (some p) → starConnected s p = true →
            (∃ more, (u.starPort p).queue = (s.starPort p).queue ++ e.buf :: more)
            ∧ (u.buf e.buf).payload = feedPayload (queueByte q) n bytes
            ∧ (u.buf e.buf).starAddr = some { dst := y, src := s.chassis.unitNumber }))
      ∧ ArbiterOnly { s with inputs := { s.inputs with print := s.inputs.print.tail } } u

/-- CLOSE of the sender's own grant completes the job: the completed jobs of the queue and of the cost centre gain one
and the ticket is gone (R151, R155, R172). CLOSE of its own WAITING ticket removes it without any account, with the answer
CANCELLED (R151). CLOSE, CANCEL and DATA for a number that no ticket of the queue holds are REFUSED NO_SUCH, and for another
station's ticket, or from a sender with no entry, NOT_YOURS (R148, R151, R152). DATA for the sender's WAITING ticket, or for
its grant with no credit, an offline printer or a full queue toward it, is answered WAIT (R148). After each the message is
released and selection runs (R145, R153). That the answer comes before selection is DEDUCED (log entry 29), and so are that the
message holds its own buffer until both are over (log entry 28) and that an answer which is not placed frees its buffer for
the next (log entry 52). -/
def Obligations.CloseCompletesTheJob : Prop :=
  ∀ (e : InputEntry) (q : QueueNo) (n : Byte) (s : State), s.isRunning = true →
    let taken := { s with inputs := { s.inputs with print := s.inputs.print.tail } }
    let replied := fun (a : PrintAnswer) (y : State) =>
      dropRef e.buf (selectAll (sendAnswer (routeDest e.route) a (queueByte q) n y))
    let mine := fun t : Ticket => ∃ x, senderOf s e.route = some x ∧ x.code = t.requester
    let refusals := fun c : Instr =>
      (findTicket s q n = none → exec c s = .next (replied (.refused .noSuch) taken))
      ∧ (∀ t, findTicket s q n = some t → ¬ mine t → exec c s = .next (replied (.refused .notYours) taken))
    (headPrint s = some (e, .close q n) →
      refusals .printClose
      ∧ (∀ t, (s.printer q).state = .granted t → t.number = n.toNat → mine t →
        (∀ y ∈ (s.printer q).waiting, y.number ≠ t.number) →
        ∃ u, exec .printClose s = .next u
          ∧ (u.printer q).completed = bump (s.printer q).completed
          ∧ u.acct.live[t.costCentre.val] = (s.acct.live[t.costCentre.val]).addCompleted
          ∧ (∀ cc : Fin 16, cc ≠ t.costCentre → u.acct.live[cc.val] = s.acct.live[cc.val])
          ∧ (∀ y ∈ (u.printer q).tickets, y.number ≠ t.number) ∧ ticketCount u + 1 = ticketCount s
          ∧ ArbiterOnly taken u)
      ∧ (∀ t, findTicket s q n = some t → (s.printer q).grant ≠ some t → mine t →
        ∃ u, exec .printClose s = .next u
          ∧ u = replied .cancelled (taken.modPrinter q (fun p => { p with waiting := p.waiting.erase t }))
          ∧ u.acct = s.acct ∧ (u.printer q).completed = (s.printer q).completed ∧ ticketCount u + 1 = ticketCount s
          ∧ (((s.printer q).tickets.map Ticket.number).Nodup → ∀ y ∈ (u.printer q).tickets, y.number ≠ n.toNat)
          ∧ ArbiterOnly taken u))
    ∧ (headPrint s = some (e, .cancel q n) → refusals .printCancel)
    ∧ (∀ bytes, headPrint s = some (e, .data q n bytes) →
      refusals .printData
      ∧ (∀ t, findTicket s q n = some t → mine t →
        ((s.printer q).grant ≠ some t ∨ ∃ w, printerEntry s q = some w
          ∧ ((s.printer q).credit = 0 ∨ (s.printer q).online = false ∨ roomToward (entryDest w) s = false)) →
        exec .printData s = .next (replied .wait taken)))

/-- CANCEL of the sender's own ticket removes it: a waiting one without any account, a granted one as an abandoned job,
and in neither case is JOB_ABANDONED set (R152, R155, R172). -/
def Obligations.CancelRemovesTheTicket : Prop :=
  ∀ (e : InputEntry) (q : QueueNo) (n : Byte) (t : Ticket) (x : Entry) (s : State),
    s.isRunning = true → headPrint s = some (e, .cancel q n) → findTicket s q n = some t →
    senderOf s e.route = some x → x.code = t.requester → ((s.printer q).tickets.map Ticket.number).Nodup →
    ∃ u, exec .printCancel s = .next u
      ∧ (∀ y ∈ (u.printer q).tickets, y.number ≠ n.toNat) ∧ ticketCount u + 1 = ticketCount s
      ∧ ((s.printer q).grant = some t →
          u.acct.live[t.costCentre.val] = (s.acct.live[t.costCentre.val]).addAbandoned)
      ∧ ((s.printer q).grant ≠ some t → u.acct = s.acct)
      ∧ flagOf u .jobAbandoned (q.val + 1) = flagOf s .jobAbandoned (q.val + 1)
      ∧ (u.printer q).completed = (s.printer q).completed
      ∧ ArbiterOnly { s with inputs := { s.inputs with print := s.inputs.print.tail } } u

/-- STATUS from the printer of a queue records the readiness, the form and the credit, held at 15; a report of offline
sets PRINTER_OFFLINE. From any other sender nothing is recorded (R150). -/
def Obligations.StatusIsRecorded : Prop :=
  ∀ (e : InputEntry) (online : Bool) (form : Fin 16) (credit : Nat) (s : State),
    s.isRunning = true → headPrint s = some (e, .status online form credit) →
    ∃ u, exec .printStatus s = .next u
      ∧ (∀ q, printerOf s e.route = some q →
          (u.printer q).online = online ∧ (u.printer q).loadedForm = form
          ∧ (u.printer q).credit = min 15 ((s.printer q).credit + credit)
          ∧ (online = false → (flagOf u .printerOffline (q.val + 1)).isSome = true)
          ∧ (∀ t, (s.printer q).state = .granted t → (u.printer q).state = .granted t))
      ∧ (printerOf s e.route = none → ∀ q,
          (u.printer q).online = (s.printer q).online ∧ (u.printer q).loadedForm = (s.printer q).loadedForm
          ∧ (u.printer q).credit = (s.printer q).credit)
      ∧ u.acct = s.acct ∧ ArbiterOnly { s with inputs := { s.inputs with print := s.inputs.print.tail } } u

/-- MALFORMED: the message is taken and answered REFUSED MALFORMED by its return route in a fresh buffer, or the answer is
lost with no buffer free; with no printer eligible nothing but what the answer changes is changed, and with one eligible
what else changes is the selection of R153 (R145). That the message still holds its own buffer when the answer takes one is
DEDUCED (log entry 28), and that the free buffer with the lowest index is taken is the model's choice (log entry 14). -/
def Obligations.MalformedIsRefused : Prop :=
  ∀ (e : InputEntry) (q n : Byte) (s : State),
    s.isRunning = true → headPrint s = some (e, .malformed q n) →
    let told := [0x10#8, 7#8, q, n, RefuseReason.malformed.number]
    ∃ u, exec .printMalformed s = .next u
      ∧ (∀ b, freeBuf s = some b → 1 ≤ (s.buf e.buf).refs →
          (∀ t c, e.route = .segment t c → trunkDown s = false → s.trunk.queue.length < 16 →
            (∃ more, u.trunk.queue = s.trunk.queue ++ b :: more)
            ∧ (u.buf b).kind = 2#8 ∧ (u.buf b).payload = told ∧ (u.buf b).trunkAddr = some { dst := c, src := 240#8 })
          ∧ (∀ p x, e.route = .star p x → starConnected s p = true → (s.starPort p).queue.length < 16 →
            (∃ more, (u.starPort p).queue = (s.starPort p).queue ++ b :: more)
            ∧ (u.buf b).kind = 2#8 ∧ (u.buf b).payload = told
            ∧ (u.buf b).starAddr = some { dst := x, src := s.chassis.unitNumber }))
      ∧ ((∀ p, eligible s p = false) →
          OnlySends { s with inputs := { s.inputs with print := s.inputs.print.tail } } u
          ∧ (freeBuf s = none → u.print.answerLost = bump s.print.answerLost))
      ∧ ArbiterOnly { s with inputs := { s.inputs with print := s.inputs.print.tail } } u

/-! ## Control requests -/

/-- The eight reads are answered DONE to every sender, commissioned or not, and change nothing but what taking the
request, noting what the line has brought and sending the answer change (R181, R182); a number that names nothing of their
kind is answered OUT_OF_RANGE or NO_SUCH (R92, R139, R167, R176, R189). The layout of results rests on log entries 25 to
27. -/
def Obligations.ReadsAreAnsweredToAll : Prop :=
  ∀ (e : InputEntry) (tag : BitVec 16) (s : State),
    let s1 := takeControl e s
    (Asks s e 1#8 tag [] →
      exec .statusRead s = .next (answered e 1#8 tag .done (statusResults s1) s1))
    ∧ (∀ (t : SegNo) (dt edges : Nat), Asks s e 2#8 tag [BitVec.ofNat 8 t.val] →
      let s2 := noteEdges t edges (takeControl e (s.advance dt))
      exec (.segmentRead dt edges) s = .next (answered e 2#8 tag .done
        [.fixed (trunkPart s2 t ++ (s2.port (portOfSeg t)).bytes (some (s2.seg t).unterminated))] s2))
    ∧ (∀ (p : StarNo) (bytes : List Byte), Asks s e 3#8 tag [BitVec.ofNat 8 (p.val + 4)] →
      let s2 := if (s.starPort p).rx = .receiving then s1.modStar p (fun x => { x with
          store := (x.store ++ bytes).take 1513, count := min (x.count + bytes.length) 65535 }) else s1
      exec (.portRead bytes) s = .next (answered e 3#8 tag .done
        [.fixed ((s2.starPort p).bytes ++ (s2.port (portOfStar p)).bytes none)] s2))
    ∧ (Asks s e 4#8 tag [12#8] → exec .countersRead s = .next (answered e 4#8 tag .done [.fixed (bridgeGroup s1)] s1))
    ∧ (∀ t : SegNo, Asks s e 4#8 tag [BitVec.ofNat 8 t.val] →
      exec .countersRead s = .next (answered e 4#8 tag .done [.fixed (segGroup s1 t)] s1))
    ∧ (∀ p : StarNo, Asks s e 4#8 tag [BitVec.ofNat 8 (p.val + 4)] →
      exec .countersRead s = .next (answered e 4#8 tag .done [.fixed (starGroup s1 p)] s1))
    ∧ (∀ f n : Byte, Asks s e 5#8 tag [f, n] → isDesk f = true →
      exec .directoryRead s = .next (answered e 5#8 tag .done
        [.items (((s.dir.entries.filter (fun x => decide (f.toNat ≤ x.code.toNat))).take (clamp 1 16 n.toNat)).map (entryBytes s1)),
         .fixed (u8 s.dir.entries.length ++ u8 s.dir.pool.length ++ u8 (s.dir.pool.countP (inProxyRange s.office)))] s1))
    ∧ (∀ x y, Asks s e 6#8 tag (u32 x) → indexEntry s x = some y →
      exec .directoryFind s = .next (answered e 6#8 tag .done [.fixed (entryBytes s1 y)] s1))
    ∧ (∀ q : QueueNo, Asks s e 7#8 tag [queueByte q] →
      exec .queueRead s = .next (answered e 7#8 tag .done (queueResults s1 q) s1))
    ∧ (∀ f n : Byte, Asks s e 8#8 tag [f, n] → f.toNat ≤ 15 →
      exec .accountRead s = .next (answered e 8#8 tag .done
        [.fixed [s.acct.snapshot],
         .items ((((List.finRange 16).filter (fun i => decide (f.toNat ≤ i.val))).take (clamp 1 8 n.toNat)).map
           (fun i => setBytes i.val s.acct.hold[i.val]))] s1))
    ∧ (∀ (b n : Byte) (x : StationId) (dt edges : Nat) (bytes : List Byte),
      let late := takeControl e (s.advance dt)
      (Asks s e 2#8 tag [b] → 12 ≤ b.toNat →
        exec (.segmentRead dt edges) s = .next (answered e 2#8 tag .outOfRange [] late))
      ∧ (Asks s e 2#8 tag [b] → 4 ≤ b.toNat → b.toNat ≤ 11 →
        exec (.segmentRead dt edges) s = .next (answered e 2#8 tag .noSuch [] late))
      ∧ (Asks s e 3#8 tag [b] → 12 ≤ b.toNat → exec (.portRead bytes) s = .next (answered e 3#8 tag .outOfRange [] s1))
      ∧ (Asks s e 3#8 tag [b] → b.toNat ≤ 3 → exec (.portRead bytes) s = .next (answered e 3#8 tag .noSuch [] s1))
      ∧ (Asks s e 4#8 tag [b] → 13 ≤ b.toNat → exec .countersRead s = .next (answered e 4#8 tag .outOfRange [] s1))
      ∧ (Asks s e 5#8 tag [b, n] → isDesk b = false → exec .directoryRead s = .next (answered e 5#8 tag .outOfRange [] s1))
      ∧ (Asks s e 6#8 tag (u32 x) → indexEntry s x = none →
        exec .directoryFind s = .next (answered e 6#8 tag .noSuch [] s1))
      ∧ (Asks s e 7#8 tag [b] → b = 0#8 ∨ 7 ≤ b.toNat → exec .queueRead s = .next (answered e 7#8 tag .outOfRange [] s1))
      ∧ (Asks s e 8#8 tag [b, n] → 16 ≤ b.toNat → exec .accountRead s = .next (answered e 8#8 tag .outOfRange [] s1)))

/-- Requests turned away. On a commissioned bridge a request that is no read, from a sender without a FIXED admin entry,
is answered NOT_PERMITTED and changes nothing but the count of them (R181). While a SAVE is in flight a permitted request
that changes stored configuration, a SAVE and a RESTART are answered BUSY and change nothing but the count of them (R186).
`changeRows` lists the requests that are no reads, each with its form, whether a SAVE holds it back, and the time and the
transitions of bursts in progress that its command reports, which count although the request is turned away (R11). -/
def Obligations.RequestsAreTurnedAway : Prop :=
  ∀ (e : InputEntry) (tag : BitVec 16) (params : List Byte) (dt : Elapsed) (n : Nat) (s : State),
    (s.ctl.commissioned = true → (∀ x, senderOf s e.route = some x → x.origin = .learned ∨ x.admin = false) →
      ∀ row ∈ changeRows dt n, row.form params = true → Asks s e row.op tag params →
        let s1 := takeControl e (row.brings s)
        exec row.command s = .next (answered e row.op tag .notPermitted []
          { s1 with ctl := { s1.ctl with notPermitted := bump s.ctl.notPermitted } }))
    ∧ (permitted e.route s = true → s.ctl.save.isSome = true →
      ∀ row ∈ changeRows dt n, row.form params = true → row.heldBack s params = true → Asks s e row.op tag params →
        let s1 := takeControl e (row.brings s)
        exec row.command s = .next (answered e row.op tag .busy [] { s1 with ctl := { s1.ctl with busy := bump s.ctl.busy } }))

/-- ENTRY_FIX. A request that a test of Table 4-7 refuses is answered with the first refusal that holds (R82). One for a
code in the pool creates the FIXED entry that it describes, ACTIVE with full presence, and the code leaves the pool; a STAR
ID that no entry holds has its home unknown (R83). A LEARNED entry of the same identity is converted and a FIXED one
updated; one of another identity gives way to a new entry, a LEARNED STAR entry by renumbering or, with no proxy code left,
by removal (R84, R85). A station whose LEARNED entry stands under another code moves to the requested one, where codes are held apart (R86). That a
TRUNK request's other identity bytes are not looked at is the model's choice (log entry 23). -/
def Obligations.EntryFixCreates : Prop :=
  ∀ (e : InputEntry) (tag : BitVec 16) (params : List Byte) (f : FixReq) (s : State),
    Asks s e 9#8 tag params → Free s e → parseFix params = some f →
    let refused := fun st => exec .entryFix s = .next (answered e 9#8 tag st [] (takeControl e s))
    (f.plan = none → refused .outOfRange)
    ∧ ∀ pl : FixPlan, f.plan = some pl →
      let badId := ∃ x h, pl.place = .star x h
        ∧ (x = nullId ∨ x = broadcastId ∨ x = s.chassis.unitNumber ∨ inTrunkRange s.office.base x = true)
      let clash := fixTakesTrunk s pl = true ∨ fixIdFixed s pl = true ∨ fixWithTickets s pl = true
        ∨ fixQueueTaken s pl = true ∨ fixPrinterMoved s pl = true
        ∨ (s.ctl.commissioned = true ∧ onlyAdmin s pl.code = true ∧ pl.admin = false)
      let created : Entry :=
        { code := pl.code, place := pl.place, origin := .fixed, state := .active, admin := pl.admin,
          printerQueue := pl.queue, costCentre := pl.costCentre, printClass := pl.printClass, presenceLimit := pl.limit,
          presenceRemaining := pl.limit, broadcastElapsed := 65535, strikes := 0, periodMoves := 0, periodFaults := 0 }
      (badId → refused .outOfRange)
      ∧ (¬ badId → clash → refused .conflict)
      ∧ (¬ badId → ¬ clash → ∃ u, exec .entryFix s = .next u
        ∧ (findEntry s pl.code = none → elsewhere s pl = none →
          findEntry u pl.code = some created
          ∧ u.dir.pool = s.dir.pool.filter (fun c => c != pl.code)
          ∧ (∀ d, d ≠ pl.code → findEntry u d = findEntry s d))
        ∧ (∀ x, findEntry s pl.code = some x → elsewhere s pl = none →
          (sameIdentity x.place pl.place = true →
            findEntry u pl.code = some { x with
              place := match pl.place with
                | .trunk t => .trunk t
                | .star _ _ => x.place,
              origin := .fixed, admin := pl.admin, printerQueue := pl.queue, costCentre := pl.costCentre,
              printClass := pl.printClass, presenceLimit := pl.limit,
              state := if x.origin = .learned ∧ x.inUse = true then .active else x.state,
              presenceRemaining := if x.origin = .learned ∧ x.inUse = true then pl.limit
                else min x.presenceRemaining pl.limit }
            ∧ u.dir.pool = s.dir.pool ∧ (∀ d, d ≠ pl.code → findEntry u d = findEntry s d))
          ∧ (sameIdentity x.place pl.place = false → x.origin = .fixed →
            findEntry u pl.code = some created ∧ u.dir.pool = s.dir.pool
            ∧ (∀ d, d ≠ pl.code → findEntry u d = findEntry s d))
          ∧ (sameIdentity x.place pl.place = false → x.origin = .learned → pl.code ∉ s.dir.pool →
            findEntry u pl.code = some created ∧ (flagOf u .codeConflict 0).isSome = true
            ∧ (∀ n, proxyCode s = some n → findEntry s n = none →
              findEntry u n = some { x with code := n } ∧ u.dir.pool = s.dir.pool.filter (fun c => c != n)
              ∧ (∀ d, d ≠ pl.code → d ≠ n → findEntry u d = findEntry s d))
            ∧ (proxyCode s = none → (flagOf u .poolEmpty 0).isSome = true ∧ u.dir.pool = s.dir.pool
              ∧ (∀ d, d ≠ pl.code → findEntry u d = findEntry s d))))
        ∧ (∀ old, elsewhere s pl = some old → CodesApart s →
          findEntry u pl.code = some { created with
            place := old.place, state := old.state, strikes := old.strikes, broadcastElapsed := old.broadcastElapsed,
            periodMoves := old.periodMoves, periodFaults := old.periodFaults }
          ∧ (findEntry s pl.code = none →
            u.dir.pool = (s.dir.pool ++ [old.code]).filter (fun c => c != pl.code)
            ∧ findEntry u old.code = none
            ∧ (∀ d, d ≠ pl.code → d ≠ old.code → findEntry u d = findEntry s d)))
        ∧ (s.ctl.officeMark = true → s.ctl.trunkMark = true → pl.admin = true → u.ctl.commissioned = true)
        ∧ (s.ctl.commissioned = true ∨ s.ctl.officeMark = false ∨ s.ctl.trunkMark = false →
            ArbiterOnly { takeControl e s with dir := u.dir } u))

/-- The three requests on one entry. ENTRY_RELEASE of an entry that is no printer code and not the only admin entry of a
commissioned bridge removes it, and its code stands at the pool's tail (R88, R77). ENTRY_SUSPEND suspends an entry for
ADMIN without a timer, whatever its state and origin (R89). ENTRY_RESUME makes a SUSPENDED or ABSENT entry ACTIVE with full
presence and cleared counts, and leaves any other as it stands (R90). -/
def Obligations.EntryReleasedSuspendedResumed : Prop :=
  ∀ (e : InputEntry) (tag : BitVec 16) (c : DeskCode) (x : Entry) (s : State),
    permitted e.route s = true → isDesk c = true → findEntry s c = some x →
    let s1 := takeControl e s
    (Asks s e 10#8 tag [c] → (s.ctl.save = none ∨ x.origin = .learned) → isPrinterCode s c = false → (s.ctl.commissioned = true → onlyAdmin s c = false) →
      ∃ u, exec .entryRelease s = .next u
        ∧ (∀ t ∈ allTickets u, t.requester ≠ c)
        ∧ ArbiterOnly { s1 with dir := { s.dir with
            entries := s.dir.entries.filter (fun y => y.code != c), pool := s.dir.pool ++ [c] } } u)
    ∧ (Asks s e 11#8 tag [c] →
      ∃ u, exec .entrySuspend s = .next u
        ∧ ArbiterOnly { s1 with dir := { s.dir with
            entries := s.dir.entries.map (fun y => if y.code = c then { y with state := .suspended .admin } else y) } } u)
    ∧ (Asks s e 12#8 tag [c] →
      ∃ u, exec .entryResume s = .next u
        ∧ (x.state = .active ∨ x.state = .queried → ArbiterOnly s1 u)
        ∧ (¬ (x.state = .active ∨ x.state = .queried) → ArbiterOnly { s1 with dir := { s.dir with
            entries := s.dir.entries.map (fun y => if y.code = c then
              { y with state := .active, presenceRemaining := y.presenceLimit, strikes := 0, periodFaults := 0,
                       periodMoves := 0 } else y) } } u))

/-- CLEAR_LEARNED removes every LEARNED entry and leaves the FIXED ones; the codes join the pool's tail in ascending
order, in which the directory keeps its entries (R91). Codes are held by one entry each. -/
def Obligations.LearnedEntriesCleared : Prop :=
  ∀ (e : InputEntry) (tag : BitVec 16) (s : State),
    Asks s e 13#8 tag [] → permitted e.route s = true → (s.dir.entries.map Entry.code).Nodup →
    ∃ u, exec .clearLearned s = .next u
      ∧ ArbiterOnly { takeControl e s with dir := { s.dir with
          entries := s.dir.entries.filter (fun x => decide (x.origin = .fixed)),
          pool := s.dir.pool ++ (s.dir.entries.filter (fun x => decide (x.origin = .learned))).map Entry.code } } u

/-- SEGMENT_SET stages the nine settings, clamped with the thresholds as a pair, on its port and changes no setting in
force (R131). -/
def Obligations.SettingsAreStaged : Prop :=
  ∀ (e : InputEntry) (tag : BitVec 16) (q : PortNo) (rest : List Byte) (v : Settings) (s : State),
    Asks s e 14#8 tag (BitVec.ofNat 8 q.val :: rest) → Free s e → settingsOf rest = some v →
    exec .segmentSet s = .next (answered e 14#8 tag .done []
        ((takeControl e s).modPort q (fun r => { r with staged := v.clamped, pending := true })))
      ∧ 1 ≤ v.clamped.warn ∧ v.clamped.warn < v.clamped.isolate ∧ v.clamped.isolate ≤ 1023

/-- The five actions of SEGMENT_FORCE. ISOLATE holds a port, opens its relay with the effects of R2 or blocks and flushes
its star port; READMIT returns one to service; OFF refuses both with CONFLICT, and a port already HELD under ISOLATE, or in
service under READMIT, is left as it stands and answered DONE. EXEMPT ON, EXEMPT OFF and CLEAR act in any state (R133 to
R136). The transitions that ISOLATE, PORT_ENABLE and TRUNK_PLAN report are counted by the bursts in progress, whatever comes
of the request, and also where the request at the head is another's (R11). What an ABANDONED record holds besides its class
is the model's choice (log entry 41), and so are that commands report transitions (log entry 19) and that a command whose row
is not that of the request at the head changes nothing else (log entry 3). That the Print Arbiter's share comes at the end of
the effect and before the answer is DEDUCED (log entry 38), and so is that an answer which is not placed frees its buffer for
the next (log entry 52). -/
def Obligations.PortIsForced : Prop :=
  ∀ (e : InputEntry) (tag : BitVec 16) (q : PortNo) (now : Elapsed) (dt : Nat) (s : State),
    permitted e.route s = true →
    let r := s.port q
    let b := BitVec.ofNat 8 q.val
    let late := takeControl e (s.advance dt)
    let elapsed := takeControl e (s.elapse now)
    (s.elapse now = { (s.advance now.ticks) with
      trunk := { s.trunk with segs := Vector.ofFn (fun v : SegNo =>
        { s.seg v with
          current := if (s.seg v).phase = .burst
            then { (s.seg v).current with edges := min ((s.seg v).current.edges + now.edges[v.val]) 65535 }
            else (s.seg v).current }) } })
    ∧ (∀ op params, Asks s e op tag params →
      (op ≠ 15#8 → exec (.segmentForceIsolate now) s = .next (s.elapse now))
      ∧ (op ≠ 16#8 → exec (.portEnable now) s = .next (s.elapse now))
      ∧ (op ≠ 25#8 → exec (.trunkPlan now) s = .next (s.elapse now)))
    ∧ (Asks s e 15#8 tag [b, 0#8] → r.state = .openMode ∨ r.state = .active ∨ r.state = .isolated ∨ r.state = .probation →
      ∃ u, exec (.segmentForceIsolate now) s = .next u
        ∧ u.port q = { r with state := .held, holdRemaining := 0, probationRemaining := 0 }
        ∧ flagOf u .portIsolated q.val = flagOf s .portIsolated q.val
        ∧ (∀ t, q = portOfSeg t → relayClosed u t = false
          ∧ (relayClosed s t = true → (u.seg t).phase = .quiet
            ∧ ((s.seg t).phase = .burst → (u.seg t).current = { (s.seg t).current with
                cls := .abandoned, edges := min ((s.seg t).current.edges + now.edges[t.val]) 65535 }))
          ∧ (segConnected s t = true → (u.seg t).driven = false
            ∧ (s.trunk.holder = .segment t → u.trunk.holder = .none ∧ u.trunk.truncate = false)))
        ∧ (∀ p, q = portOfStar p → starConnected u p = false
          ∧ (r.state.listens = true → (u.starPort p).rx = .idle)
          ∧ (starConnected s p = true → (u.starPort p).queue = [] ∧ (u.starPort p).tx = .idle))
        ∧ (∀ v, (s.seg v).phase = .burst →
          (u.seg v).current.edges = min ((s.seg v).current.edges + now.edges[v.val]) 65535)
        ∧ u = answered e 15#8 tag .done [] (settle (s.elapse now) (setPortState q .held
            (elapsed.modPort q (fun r => { r with holdRemaining := 0, probationRemaining := 0 }))))
        ∧ (∀ p, p ≠ q → u.port p = s.port p) ∧ ChannelOnly elapsed u)
    ∧ (Asks s e 15#8 tag [b, 0#8] → r.state = .off →
      exec (.segmentForceIsolate now) s = .next (answered e 15#8 tag .conflict [] elapsed))
    ∧ (Asks s e 15#8 tag [b, 0#8] → r.state = .held →
      exec (.segmentForceIsolate now) s = .next (answered e 15#8 tag .done [] elapsed))
    ∧ (∀ b : Byte, Asks s e 15#8 tag [b, 0#8] → 12 ≤ b.toNat →
      exec (.segmentForceIsolate now) s = .next (answered e 15#8 tag .outOfRange [] elapsed))
    ∧ (Asks s e 15#8 tag [b, 1#8] → r.state = .off →
      exec (.segmentForceReadmit dt) s = .next (answered e 15#8 tag .conflict [] late))
    ∧ (Asks s e 15#8 tag [b, 1#8] → r.state = .active ∨ r.state = .openMode →
      exec (.segmentForceReadmit dt) s = .next (answered e 15#8 tag .done [] late))
    ∧ (Asks s e 15#8 tag [b, 1#8] → r.state = .isolated ∨ r.state = .held ∨ r.state = .probation →
      ∃ u, exec (.segmentForceReadmit dt) s = .next u
        ∧ u.port q = { r with
            state := if s.ctl.commissioned then .active else .openMode, score := 0, nRunt := 0, nGarble := 0, nCheck := 0,
            nLink := 0, nGood := 0, attributed := 0, holdRemaining := 0, probationRemaining := 0, clean := 0 }
        ∧ flagOf u .readmitted q.val = flagOf s .readmitted q.val
        ∧ (∀ t, q = portOfSeg t → relayClosed u t = true ∧ segConnected u t = true)
        ∧ (∀ p, q = portOfStar p → starConnected u p = (s.starPort p).link)
        ∧ (∀ p, p ≠ q → u.port p = s.port p) ∧ ChannelOnly late u)
    ∧ (Asks s e 15#8 tag [b, 2#8] → exec .segmentForceExemptOn s
        = .next (answered e 15#8 tag .done [] ((takeControl e s).modPort q (fun r => { r with exempt := true }))))
    ∧ (Asks s e 15#8 tag [b, 3#8] → exec .segmentForceExemptOff s
        = .next (answered e 15#8 tag .done [] ((takeControl e s).modPort q (fun r => { r with exempt := false }))))
    ∧ (Asks s e 15#8 tag [b, 4#8] → exec .segmentForceClear s
        = .next (answered e 15#8 tag .done [] ((takeControl e s).modPort q (fun r =>
            { r with score := 0, nRunt := 0, nGarble := 0, nCheck := 0, nLink := 0, nGood := 0, attributed := 0, k := 0,
                     clean := 0 }))))

/-- PORT_ENABLE writes the port's enable into its plan; turned off the port is OFF with its timers 0 and its score kept,
turned on it enters service with a score and counts of 0, unchanged it stands (R137). The bursts in progress count the
transitions that the command reports (R11; log entry 19), a burst that the disabling abandons among them, whose record keeps
that count by the model's choice (log entry 41). -/
def Obligations.PortIsEnabled : Prop :=
  ∀ (e : InputEntry) (tag : BitVec 16) (q : PortNo) (on : Bool) (now : Elapsed) (s : State),
    Asks s e 16#8 tag [BitVec.ofNat 8 q.val, if on then 1#8 else 0#8] → Free s e →
    let r := s.port q
    ∃ u, exec (.portEnable now) s = .next u ∧ portEnabled u q = on
      ∧ (portEnabled s q = true → on = false →
          u.port q = { r with state := .off, holdRemaining := 0, probationRemaining := 0, clean := 0 })
      ∧ (portEnabled s q = false → on = true →
          u.port q = { r with state := if s.ctl.commissioned then .active else .openMode, score := 0, nRunt := 0,
                              nGarble := 0, nCheck := 0, nLink := 0, nGood := 0, attributed := 0 })
      ∧ (portEnabled s q = on → u.port q = r)
      ∧ (∀ p, p ≠ q → u.port p = s.port p ∧ portEnabled u p = portEnabled s p)
      ∧ (∀ v, (s.seg v).phase = .burst →
          (u.seg v).current.edges = min ((s.seg v).current.edges + now.edges[v.val]) 65535)
      ∧ ChannelOnly { takeControl e (s.elapse now) with segPlans := u.segPlans, office := { s.office with enables := u.office.enables } } u

/-- PRINTER_SET. The five tests in their order: a queue outside 1–6 and a code outside 1–239 are OUT_OF_RANGE, a code in
the pool or of a LEARNED entry is NO_SUCH, a FIXED entry that does not carry the queue is CONFLICT, and so is a changed code
while the queue holds a ticket. One that passes records the code, the limits and the enable of its queue; a changed code
takes the reported fields back, a grant's idle remaining is cut to the new limit, and a queue turned off holds no ticket
(R162, R163). That an idle remaining paused by an offline printer is cut as well is the model's choice (log entry 50). -/
def Obligations.PrinterIsSet : Prop :=
  ∀ (e : InputEntry) (tag : BitVec 16) (params : List Byte) (p : PrinterReq) (q : QueueNo) (s : State),
    Asks s e 17#8 tag params → Free s e → parsePrinterSet params = some p →
    let refused := fun st => exec .printerSet s = .next (answered e 17#8 tag st [] (takeControl e s))
    let newCode := if p.code = 0#8 then none else some p.code
    let held := ∃ x, findEntry s p.code = some x ∧ x.origin = .fixed
    let carries := ∃ x, findEntry s p.code = some x ∧ x.printerQueue = some q
    let busy := newCode ≠ (s.printer q).code ∧ (s.printer q).tickets ≠ []
    (p.queue = 0#8 ∨ 7 ≤ p.queue.toNat → refused .outOfRange)
    ∧ (p.queue = queueByte q → 240 ≤ p.code.toNat → refused .outOfRange)
    ∧ (p.queue = queueByte q → 1 ≤ p.code.toNat → p.code.toNat ≤ 239 → ¬ held → refused .noSuch)
    ∧ (p.queue = queueByte q → 1 ≤ p.code.toNat → p.code.toNat ≤ 239 → held → ¬ carries → refused .conflict)
    ∧ (p.queue = queueByte q → p.code = 0#8 ∨ (p.code.toNat ≤ 239 ∧ held ∧ carries) → busy → refused .conflict)
    ∧ (p.queue = queueByte q → p.code = 0#8 ∨ (p.code.toNat ≤ 239 ∧ held ∧ carries) → ¬ busy →
    ∃ u, exec .printerSet s = .next u
      ∧ (u.printer q).code = newCode ∧ (u.printer q).enable = (p.enable && newCode.isSome)
      ∧ (u.printer q).idleLimit = p.idleLimit ∧ (u.printer q).formHold = p.formHold
      ∧ (newCode ≠ (s.printer q).code →
          (u.printer q).online = false ∧ (u.printer q).credit = 0 ∧ (u.printer q).loadedForm = 0)
      ∧ (∀ t, (s.printer q).state = .granted t → (s.printer q).enable = true → (u.printer q).enable = true →
          (u.printer q).state = .granted t
          ∧ (u.printer q).idleRemaining = min (s.printer q).idleRemaining p.idleLimit)
      ∧ ((s.printer q).enable = true → (u.printer q).enable = false →
          (u.printer q).tickets = [] ∧ (u.printer q).state = .disabled)
      ∧ (∀ v, v ≠ q → (u.printer v).code = (s.printer v).code ∧ (u.printer v).enable = (s.printer v).enable)
      ∧ ArbiterOnly (takeControl e s) u)

/-- The requests on a configured queue's jobs: FORM_LOADED records the form, clamped to 0–15, returns a printer whose
FORM_WAIT it changes to IDLE, leaves online and credit, and selection runs; QUEUE_PURGE leaves no ticket and the enable as
it was, TICKET_CANCEL removes the one ticket named, and is answered NO_SUCH where there is none (R164, R165, R166). -/
def Obligations.QueueIsServed : Prop :=
  ∀ (e : InputEntry) (tag : BitVec 16) (q : QueueNo) (s : State), permitted e.route s = true → (s.printer q).code.isSome = true →
    (∀ b : Byte, Asks s e 18#8 tag [queueByte q, b] →
      let f : Fin 16 := if h : b.toNat < 16 then ⟨b.toNat, h⟩ else 15
      ∃ u, exec .formLoaded s = .next u ∧ (u.printer q).loadedForm = f ∧ (u.printer q).online = (s.printer q).online
        ∧ (u.printer q).credit = (s.printer q).credit ∧ u.acct = s.acct ∧ ArbiterOnly (takeControl e s) u
        ∧ u = answered e 18#8 tag .done [] (selectAll ((takeControl e s).modPrinter q (fun p => { p with
            loadedForm := f,
            state := match p.state with
              | .formWait w => if f = p.loadedForm then .formWait w else .idle
              | .disabled => .disabled
              | .idle => .idle
              | .granted t => .granted t }))))
    ∧ (Asks s e 19#8 tag [queueByte q] →
      ∃ u, exec .queuePurge s = .next u ∧ (u.printer q).tickets = [] ∧ (u.printer q).enable = (s.printer q).enable
        ∧ (u.printer q).nextTicket = (s.printer q).nextTicket ∧ ArbiterOnly (takeControl e s) u)
    ∧ (∀ n, Asks s e 20#8 tag [queueByte q, n] → findTicket s q n = none →
      exec .ticketCancel s = .next (answered e 20#8 tag .noSuch [] (takeControl e s)))
    ∧ (∀ n t, Asks s e 20#8 tag [queueByte q, n] → findTicket s q n = some t →
      ((s.printer q).tickets.map Ticket.number).Nodup →
      ∃ u, exec .ticketCancel s = .next u ∧ (∀ y ∈ (u.printer q).tickets, y.number ≠ n.toNat)
        ∧ ticketCount u + 1 = ticketCount s
        ∧ ((s.printer q).grant = some t →
            u.acct.live[t.costCentre.val] = (s.acct.live[t.costCentre.val]).addAbandoned
            ∧ (flagOf u .jobAbandoned (q.val + 1)).isSome = true)
        ∧ ((s.printer q).grant ≠ some t → u.acct = s.acct) ∧ ArbiterOnly (takeControl e s) u)

/-- A FEED's bytes are added to a set's count until the count would pass 4294967295; from then on it reads 4294967295
with the saturated mark set (R171). -/
def Obligations.BytesCountSaturates : Prop :=
  ∀ (c : CostSet) (n : Nat), c.wf → n ≤ 490 →
    (c.addBytes n).wf
    ∧ (c.bytes + n ≤ 4294967295 → c.saturated = false → (c.addBytes n).bytes = c.bytes + n ∧ (c.addBytes n).saturated = false)
    ∧ (4294967295 < c.bytes + n → (c.addBytes n).bytes = 4294967295 ∧ (c.addBytes n).saturated = true)
    ∧ (c.saturated = true → c.addBytes n = c)
    ∧ (c.addBytes n).completed = c.completed ∧ (c.addBytes n).abandoned = c.abandoned

/-- ALERT_SET replaces the whole configuration, and queued records leave when their kind is turned off or there is no
destination; a station ID of the present trunk range is a trunk-range ID from then on (R193; that the model keeps
it so is its choice, log entry 51). ALERT_CLEAR clears every flag its items name and no other, and leaves the queue (R193, R197). That an
ALERT_SET is taken whatever its unused destination bytes hold is the model's choice (log entry 23). -/
def Obligations.AlertsAreSetAndCleared : Prop :=
  ∀ (e : InputEntry) (tag : BitVec 16) (params : List Byte) (s : State), permitted e.route s = true →
    (∀ c, Asks s e 22#8 tag params → s.ctl.save = none → parseAlertSet params = some c → destBad s c.dest = false →
      let kept := s.alerts.queue.filter (fun r =>
        decide (c.dest ≠ .none) && !(s.alerts.config.enabled r.kind && !c.enabled r.kind))
      exec .alertSet s = .next (answered e 22#8 tag .done [] { takeControl e s with alerts := { s.alerts with
        config := { c with dest := c.dest.taken s.office.base }, queue := kept,
        displaced := bumpBy (s.alerts.queue.length - kept.length) s.alerts.displaced } })
      ∧ (c.dest = .none → c.dest.taken s.office.base = .none)
      ∧ (∀ d, c.dest = .code d → c.dest.taken s.office.base = .code d)
      ∧ (∀ x, c.dest = .id x → c.dest.taken s.office.base
          = if (x - s.office.base).toNat < 256 then .trunkId x else .id x))
    ∧ (∀ items, Asks s e 23#8 tag params → parseAlertClear params = some items →
      (∀ i ∈ items, i.2 = 255#8 ∨ i.1.hasInstance i.2.toNat = true) →
      ∃ u, exec .alertClear s = .next u
        ∧ (∀ f, f ∈ u.alerts.flags ↔ f ∈ s.alerts.flags
            ∧ ∀ i ∈ items, ¬ (f.kind = i.1 ∧ (i.2 = 255#8 ∨ f.inst = i.2.toNat)))
        ∧ OnlySends { takeControl e s with alerts := { s.alerts with flags := u.alerts.flags } } u)

/-- OFFICE_PLAN that passes its tests is in force and sets its acceptance mark; TRUNK_PLAN is in force, stages its settings
on ports 0–3 and sets its mark. Every port whose enable a plan turns off is OFF, every port it turns on is in service with
a score of 0, and one whose enable it leaves stands but for commissioning. With the other plan accepted and a FIXED admin
entry either plan commissions the bridge, after which no port is OPEN (R184, R185, R206, R138). The bursts in progress count the
transitions that TRUNK_PLAN reports (R11; log entry 19), and what the record of a burst that it abandons keeps of them is the
model's choice (log entry 41). The order in which the enables of one plan act is the model's
choice (log entry 15). -/
def Obligations.PlansAreAccepted : Prop :=
  ∀ (e : InputEntry) (tag : BitVec 16) (params : List Byte) (now : Elapsed) (s : State), Free s e →
    let service := fun u : State => if u.ctl.commissioned then SupState.active else SupState.openMode
    (∀ p st, Asks s e 24#8 tag params → parseOffice params = some p → officeRefusal p s = some st →
      exec .officePlan s = .next (answered e 24#8 tag st [] (takeControl e s)))
    ∧ (∀ p, Asks s e 24#8 tag params → parseOffice params = some p → officeRefusal p s = none →
      ∃ u, exec .officePlan s = .next u ∧ u.office = p ∧ u.ctl.officeMark = true ∧ u.segPlans = s.segPlans
        ∧ u.sup.period = s.sup.period
        ∧ (∀ q : StarNo, s.office.enables[q.val] = true → p.enables[q.val] = false → (u.port (portOfStar q)).state = .off)
        ∧ (∀ q : StarNo, s.office.enables[q.val] = false → p.enables[q.val] = true →
            (u.port (portOfStar q)).state = service u ∧ (u.port (portOfStar q)).score = 0)
        ∧ (∀ q : StarNo, s.office.enables[q.val] = p.enables[q.val] → (s.port (portOfStar q)).state ≠ .openMode →
            u.port (portOfStar q) = s.port (portOfStar q))
        ∧ (s.ctl.trunkMark = true → hasAdmin s = true → u.ctl.commissioned = true
            ∧ (s.ctl.commissioned = false → ∀ q, (u.port q).state ≠ .openMode))
        ∧ (s.ctl.trunkMark = false ∨ hasAdmin s = false → u.ctl.commissioned = s.ctl.commissioned)
        ∧ u.dir = s.dir ∧ u.chassis = s.chassis ∧ u.inputs = (takeControl e s).inputs ∧ u.drops = s.drops)
    ∧ (∀ p, Asks s e 25#8 tag params → parseTrunk params = some p →
      ∃ u, exec (.trunkPlan now) s = .next u ∧ u.segPlans = p.plans ∧ u.ctl.trunkMark = true ∧ u.office = s.office
        ∧ (∀ t : SegNo, (u.port (portOfSeg t)).staged = p.settings ∧ (u.port (portOfSeg t)).pending = true
            ∧ (u.port (portOfSeg t)).current = (s.port (portOfSeg t)).current)
        ∧ (∀ t : SegNo, (s.segPlans[t.val]).enable = true → (p.plans[t.val]).enable = false →
            (u.port (portOfSeg t)).state = .off)
        ∧ (∀ t : SegNo, (s.segPlans[t.val]).enable = false → (p.plans[t.val]).enable = true →
            (u.port (portOfSeg t)).state = service u ∧ (u.port (portOfSeg t)).score = 0)
        ∧ (s.ctl.officeMark = false ∨ hasAdmin s = false → u.ctl.commissioned = s.ctl.commissioned)
        ∧ (s.ctl.officeMark = true → hasAdmin s = true → u.ctl.commissioned = true
            ∧ (s.ctl.commissioned = false → ∀ q, (u.port q).state ≠ .openMode))
        ∧ (∀ v, (s.seg v).phase = .burst →
          (u.seg v).current.edges = min ((s.seg v).current.edges + now.edges[v.val]) 65535)
        ∧ u.dir = s.dir ∧ u.chassis = (s.advance now.ticks).chassis ∧ u.inputs = (takeControl e s).inputs ∧ u.drops = s.drops)

/-- SAVE sets the mark with tag and route, takes its copy and is not answered, and its write leaves the new format mark and
content under a check word that disagrees; a verified completion writes the check word that agrees, so that the next
start-up judges the image valid with that copy, and a failed one leaves the image as it stands with STORE_FAULT set; the
completion clears the mark (R186, R187, R204). That the content is in the store as soon as SAVE is taken is the model's
choice (log entry 5). -/
def Obligations.SaveWritesTheStore : Prop :=
  ∀ (e : InputEntry) (tag : BitVec 16) (verified : Bool) (v : SaveInFlight) (s : State),
    (Asks s e 26#8 tag [] → Free s e →
      ∃ u, exec .save s = .next u ∧ u.ctl.save = some { tag := tag, route := e.route, copy := currentConfig s }
        ∧ u.chassis.store = { erased := false, formatMark := true, content := some (currentConfig s), checkWord := none }
        ∧ u.chassis.store.judge = .invalid
        ∧ u = { takeControl e s with ctl := u.ctl, chassis := { s.chassis with store := u.chassis.store } })
    ∧ (s.isRunning = true → s.ctl.save = some v →
      ∃ u, exec (.saveCompletion verified) s = .next u ∧ u.ctl.save = none
        ∧ (verified = true → u.chassis.store.judge = .valid v.copy
          ∧ u.chassis.store.checkWord = some (crc16 u.chassis.store.body.toList))
        ∧ (verified = false → u.chassis.store = s.chassis.store ∧ (flagOf u .storeFault 0).isSome = true)
        ∧ OnlySends { s with ctl := { s.ctl with save := none }, chassis := { s.chassis with store := u.chassis.store },
                             alerts := u.alerts } u)

/-- RESTART that passes its stages is a reset and is not answered: keep adds COMMAND and loads the store, factory adds
FACTORY and comes up with a blank store, OPEN mode, no entries and no printers; accounting survives both (R207, R201,
R177). Each is the start-up load of its image (R202). -/
def Obligations.RestartsTakeTheirReset : Prop :=
  ∀ (e : InputEntry) (tag : BitVec 16) (s : State), Free s e →
    (Asks s e 27#8 tag [0#8] → ∃ u, exec .restartKeep s = .next u
      ∧ u.chassis.causes = { s.chassis.causes with command := true } ∧ u.chassis.store = s.chassis.store
      ∧ u.acct = s.acct ∧ (∀ p, (u.starPort p).queue = []) ∧ u.trunk.queue = [] ∧ u.inputs.control = []
      ∧ (∀ c, s.chassis.store.judge = .valid c → u.office = c.office ∧ u.segPlans = c.trunk ∧ u.alerts.config = c.alerts)
      ∧ u = startUp { takeControl e s with chassis := { s.chassis with causes := { s.chassis.causes with command := true } } })
    ∧ (Asks s e 27#8 tag [1#8] → ∃ u, exec .restartFactory s = .next u
      ∧ u.chassis.causes = { s.chassis.causes with factory := true } ∧ u.chassis.store = StoreImage.blank
      ∧ u.acct = s.acct ∧ u.ctl.commissioned = false ∧ u.dir.entries = [] ∧ (∀ q, (u.printer q).code = none)
      ∧ u.office = OfficePlan.default ∧ u.alerts.flags = []
      ∧ u = startUp { takeControl e s with chassis := { s.chassis with
          causes := { s.chassis.causes with factory := true }, store := StoreImage.blank } })

/-- Three requests as whole equations. ACCOUNT_SNAPSHOT copies every live set into its hold set, moves the snapshot
number on, and with clear empties the live sets, with keep leaves them (R174). CLEAR_CAUSES empties the reset-cause record
(R201). A request whose operation byte is unknown is answered BAD_REQUEST, and one too short for its tag is counted and
not answered (R180). Nothing else changes. The first byte of the answer to an unknown operation of 128 or above is a free value
(log entry 9). -/
def Obligations.SnapshotCausesUnknown : Prop :=
  ∀ (e : InputEntry) (tag : BitVec 16) (op : Byte) (params : List Byte) (clear : Bool) (s : State),
    (Asks s e 21#8 tag [if clear then 0#8 else 1#8] → permitted e.route s = true →
      exec .accountSnapshot s = .next (answered e 21#8 tag .done [.fixed [s.acct.snapshot + 1]]
        { takeControl e s with acct :=
            { live := if clear then Vector.replicate 16 CostSet.zero else s.acct.live, hold := s.acct.live,
              snapshot := s.acct.snapshot + 1 } }))
    ∧ (Asks s e 28#8 tag [] → permitted e.route s = true →
      exec .clearCauses s = .next (answered e 28#8 tag .done []
        { takeControl e s with chassis := { s.chassis with
            causes := { power := false, panel := false, command := false, factory := false } } }))
    ∧ (Asks s e op tag params → op = 0#8 ∨ 28 < op.toNat →
      exec .unknownOperation s = .next (answered e op tag .badRequest [] (takeControl e s)))
    ∧ (s.isRunning = true → s.inputs.control.head? = some e → (s.buf e.buf).payload.length < 3 →
      exec .unknownOperation s = .next
        { takeControl e s with ctl := { (takeControl e s).ctl with short := bump s.ctl.short } })

/-! ## Resets -/

/-- The events of the supply and of the panel line: a power-on clears the accounts and leaves POWER alone in the record;
asserting the panel line holds the part with every relay open and every queue empty and keeps the accounts; its release
adds PANEL, or is a power-on where the supply had failed meanwhile; a loss of supply stops the part, and with it a SAVE (R200,
R201, R177, R27, R187). A power-on and a panel restart are the start-up load of the store image (R202, StartUpLoadsTheStore).
What the registers of a part in reset or without supply hold is the model's choice (log entry 32); that a power-on under an
asserted line waits for its release is DEDUCED (log entry 31). -/
def Obligations.SupplyAndPanelReset : Prop :=
  ∀ (b : Bool) (s : State),
    (s.chassis.panelAsserted = false → ∃ u, exec .powerOn s = .next u ∧ u.isRunning = true
      ∧ u.chassis.causes = { power := true, panel := false, command := false, factory := false }
      ∧ u.acct = Accounting.initial ∧ u.chassis.store = s.chassis.store ∧ u.chassis.unitNumber = s.chassis.unitNumber
      ∧ u = startUp { s with acct := Accounting.initial, chassis := { s.chassis with
          causes := { power := true, panel := false, command := false, factory := false } } })
    ∧ (s.chassis.panelAsserted = true → ∃ u, exec .powerOn s = .next u ∧ u.isRunning = false ∧ u.chassis.powerOnDue = true)
    ∧ (s.isRunning = true → ∃ u, exec .panelResetAsserted s = .next u ∧ u.isRunning = false
      ∧ (∀ t, relayClosed u t = false) ∧ u.trunk.queue = [] ∧ u.ctl.save = none ∧ u.acct = s.acct
      ∧ u.chassis.store = s.chassis.store)
    ∧ (s.chassis.run = .held → s.chassis.powerOnDue = false → ∃ u, exec .panelRestart s = .next u ∧ u.isRunning = true
      ∧ u.chassis.causes = { s.chassis.causes with panel := true } ∧ u.acct = s.acct ∧ u.chassis.panelAsserted = false
      ∧ u = startUp { s with chassis := { s.chassis with
          panelAsserted := false, causes := { s.chassis.causes with panel := true } } })
    ∧ (s.chassis.run = .held → s.chassis.powerOnDue = true → ∃ u, exec .panelRestart s = .next u ∧ u.isRunning = true
      ∧ u.chassis.causes = { power := true, panel := false, command := false, factory := false }
      ∧ u.acct = Accounting.initial
      ∧ u = startUp { s with acct := Accounting.initial, chassis := { s.chassis with
          panelAsserted := false, causes := { power := true, panel := false, command := false, factory := false } } })
    ∧ (∃ u, exec (.supplyLoss b) s = .next u ∧ u.chassis.run = .unpowered ∧ (∀ t, relayClosed u t = false)
      ∧ u.ctl.save = none)

/-- The start-up load of an image: a blank one gives the defaults and no flag, an invalid one the defaults and the
STORE_FAULT flag, and a valid one is commissioned exactly when it carries the mark and a FIXED admin entry; every port is
OFF, ACTIVE or OPEN by its enable and the commissioned mark (R202, R140). -/
def Obligations.StartUpLoadsTheStore : Prop :=
  ∀ (s : State),
    let u := startUp s
    (s.chassis.store.judge = .blank → u.office = OfficePlan.default ∧ u.alerts.flags = [] ∧ u.ctl.commissioned = false)
    ∧ (s.chassis.store.judge = .invalid →
        u.office = OfficePlan.default ∧ (flagOf u .storeFault 0).isSome = true ∧ u.ctl.commissioned = false)
    ∧ (∀ c, s.chassis.store.judge = .valid c →
        u.office = c.office ∧ u.dir.entries = c.fixed.map FixedEntry.load ∧ u.alerts.flags = []
        ∧ (u.ctl.commissioned = true ↔ c.commissioned = true ∧ ∃ f ∈ c.fixed, f.admin = true))
    ∧ (∀ q, (u.port q).state = (if portEnabled u q = false then .off else if u.ctl.commissioned then .active else .openMode)
        ∧ (u.port q).score = 0 ∧ (u.port q).k = 0)
    ∧ u.acct = s.acct ∧ u.chassis.now = 0 ∧ u.isRunning = true

/-! ## Bridging -/

/-- The bridging of a good trunk frame. What drops it: no buffer free; a source code of 0 or 240–255; a truncated mark; a
source that a FIXED STAR entry holds; a source entry that is SUSPENDED. A CONTROL frame to the bridge is excepted from the
truncated mark and the suspension. A dropped frame leaves no reference on any queue (R44, R53, R54). The buffer that a frame
takes is held to the end of its event, for which FallClassifiesTheBurst says what follows (R44). Learning by the rows of
Table 4-4, with move and code conflict (R78 to R80). The destination rules: a broadcast goes to every connected star port if
the plan allows it, a frame to the bridge to an input queue by its kind, a frame for a STAR entry to its home or to
UNREACHABLE, and any other no further (R50, R55 to R58). -/
def Obligations.TrunkFrameMayBeDropped : Prop :=
  ∀ (t : SegNo) (f : TrunkRx) (s : State),
    let u := (bridgeTrunk t false f s).2
    let cut := (bridgeTrunk t true f s).2
    let d := s.drops[(portOfSeg t).val]
    let d' := u.drops[(portOfSeg t).val]
    let toControl := f.dst = 240#8 ∧ f.kind = 3#8
    let sameQueues := fun x : State => x.trunk.queue = s.trunk.queue ∧ x.star = s.star ∧ x.inputs = s.inputs
    let l := learnTrunk t f.src s
    let learned : Entry :=
      { code := f.src, place := .trunk t, origin := .learned, state := .active, admin := false, printerQueue := none,
        costCentre := 0, printClass := 1, presenceLimit := s.office.learnedLimit,
        presenceRemaining := s.office.learnedLimit, broadcastElapsed := 65535, strikes := 0, periodMoves := 0,
        periodFaults := 0 }
    let duplicate := EntryState.suspended (.timed .duplicate s.office.quarantine)
    let unreached := fun x : State => x = s.modDrops (portOfSeg t) (fun k => { k with unreachable := bump k.unreachable })
    (freeBuffers s = 0 → d'.noBuffer = bump d.noBuffer ∧ u.bufs = s.bufs ∧ u.dir = s.dir)
    ∧ (0 < freeBuffers s → isDesk f.src = false → d'.badSource = bump d.badSource ∧ u.dir = s.dir)
    ∧ (∀ e, 0 < freeBuffers s → isDesk f.src = true → findEntry s f.src = some e → e.isTrunk = true → e.isSuspended = true →
        ¬ toControl → d'.sourceSuspended = bump d.sourceSuspended ∧ u.dir = s.dir)
    ∧ (∀ e, 0 < freeBuffers s → isDesk f.src = true → findEntry s f.src = some e → e.isTrunk = false → e.origin = .fixed →
        d'.sourceConflict = bump d.sourceConflict ∧ u.dir = s.dir ∧ sameQueues u)
    ∧ ((freeBuffers s = 0 ∨ isDesk f.src = false
        ∨ (∃ e, findEntry s f.src = some e ∧ e.isTrunk = true ∧ e.isSuspended = true ∧ ¬ toControl)) → sameQueues u)
    ∧ (isDesk f.src = true → 0 < freeBuffers s → ¬ (toControl ∧ (findEntry s f.src).isSome = true) →
        sameQueues cut ∧ cut.dir = s.dir ∧ cut.drops = s.drops)
    ∧ (freeBuffers s = 0 → ∀ cutOff, (bridgeTrunk t cutOff f s).1 = none)
    ∧ (∀ b s1, takeBuf f.kind f.payload s = some (b, s1) → ∀ cutOff, (bridgeTrunk t cutOff f s).1 = some b)
    ∧ (∀ b s1 s2, takeBuf f.kind f.payload s = some (b, s1) → isDesk f.src = true → learnTrunk t f.src s1 = (true, s2) →
        ((∀ e, findEntry s2 f.src = some e → e.isSuspended = false) → u = placeTrunk t f b s2)
        ∧ (toControl → (∃ e, findEntry s2 f.src = some e ∧ e.isSuspended = true) →
          u = dispatch b f.kind (.segment t f.src) (portOfSeg t) s2)
        ∧ (toControl → (findEntry s f.src).isSome = true → cut = dispatch b f.kind (.segment t f.src) (portOfSeg t) s1))
    ∧ (findEntry s f.src = none →
        l.1 = true ∧ findEntry l.2 f.src = some learned ∧ l.2.dir.pool = s.dir.pool.filter (fun c => c != f.src)
        ∧ (∀ c, c ≠ f.src → findEntry l.2 c = findEntry s c))
    ∧ (∀ e h, findEntry s f.src = some e → e.place = .trunk h →
        let moved := { e with place := .trunk t, periodMoves := gain 255 e.periodMoves }
        (e.isSuspended = true → l = (true, s))
        ∧ (e.isSuspended = false → h = t →
          l.1 = true ∧ findEntry l.2 f.src = some { e with presenceRemaining := e.presenceLimit, state := .active })
        ∧ (e.isSuspended = false → h ≠ t → e.origin = .learned →
          l.1 = true
          ∧ (moved.periodMoves ≤ s.office.moveLimit →
            findEntry l.2 f.src = some { moved with presenceRemaining := e.presenceLimit, state := .active })
          ∧ (s.office.moveLimit < moved.periodMoves →
            findEntry l.2 f.src = some { moved with state := duplicate } ∧ (flagOf l.2 .duplicate 0).isSome = true))
        ∧ (e.isSuspended = false → h ≠ t → e.origin = .fixed →
          l.1 = true ∧ findEntry l.2 f.src = some { e with state := duplicate }
          ∧ (flagOf l.2 .duplicate 0).isSome = true))
    ∧ (∀ e x h, findEntry s f.src = some e → e.place = .star x h →
        (flagOf l.2 .codeConflict 0).map AlertFlag.detail = some (some f.src)
        ∧ (e.origin = .fixed → l.1 = false ∧ l.2.dir = s.dir)
        ∧ (e.origin = .learned → f.src ∉ s.dir.pool →
          l.1 = true ∧ findEntry l.2 f.src = some learned
          ∧ (∀ n, proxyCode s = some n → findEntry s n = none →
            findEntry l.2 n = some { e with code := n } ∧ (∀ c, c ≠ f.src → c ≠ n → findEntry l.2 c = findEntry s c))
          ∧ (proxyCode s = none → (flagOf l.2 .poolEmpty 0).isSome = true
            ∧ (∀ c, c ≠ f.src → findEntry l.2 c = findEntry s c))))
    ∧ (∀ b : BufId, let u := placeTrunk t f b s
        (f.dst = 0#8 → s.office.trunkToStar = false → u = s)
        ∧ (f.dst = 0#8 → s.office.trunkToStar = true →
          u.trunk = s.trunk ∧ u.inputs = s.inputs ∧ u.drops = s.drops ∧ u.dir = s.dir
          ∧ (u.buf b).starAddr = some { dst := broadcastId, src := idOfDesk s.office.base f.src }
          ∧ ∀ p, u.starPort p = if starConnected s p = false then s.starPort p
              else if (s.starPort p).queue.length < 16 then { s.starPort p with queue := (s.starPort p).queue ++ [b] }
              else { s.starPort p with counters := { (s.starPort p).counters with
                queueFull := bump (s.starPort p).counters.queueFull } })
        ∧ (f.dst = 240#8 → u = dispatch b f.kind (.segment t f.src) (portOfSeg t) s)
        ∧ (f.dst ≠ 0#8 → f.dst ≠ 240#8 →
          (∀ e, findEntry s f.dst = some e → e.isTrunk = true → u = s)
          ∧ (∀ e x h, findEntry s f.dst = some e → e.place = .star x h →
            (e.isSuspended = true ∨ h = none → unreached u)
            ∧ ∀ p, h = some p → e.isSuspended = false →
              (starConnected s p = false → unreached u)
              ∧ (starConnected s p = true → (s.starPort p).queue.length < 16 →
                (u.starPort p).queue = (s.starPort p).queue ++ [b] ∧ (∀ v, v ≠ p → u.starPort v = s.starPort v)
                ∧ (u.buf b).starAddr = some { dst := x, src := idOfDesk s.office.base f.src }
                ∧ u.trunk = s.trunk ∧ u.inputs = s.inputs ∧ u.drops = s.drops))
          ∧ (findEntry s f.dst = none → u = if f.dst.toNat ≤ 240 then s
              else s.modDrops (portOfSeg t) (fun k => { k with reserved := bump k.reserved }))))
    ∧ (∀ (b : BufId) (r : Route) (q : PortNo),
        (f.kind = 3#8 → s.inputs.control.length < 4 →
          (dispatch b f.kind r q s).inputs.control = s.inputs.control ++ [{ buf := b, route := r }])
        ∧ (f.kind = 3#8 → 4 ≤ s.inputs.control.length →
          dispatch b f.kind r q s = { s with inputs := { s.inputs with controlFull := bump s.inputs.controlFull } })
        ∧ (f.kind = 2#8 → s.inputs.print.length < 8 →
          (dispatch b f.kind r q s).inputs.print = s.inputs.print ++ [{ buf := b, route := r }])
        ∧ (f.kind = 2#8 → 8 ≤ s.inputs.print.length →
          dispatch b f.kind r q s = { s with inputs := { s.inputs with printFull := bump s.inputs.printFull } })
        ∧ (f.kind = 4#8 → dispatch b f.kind r q s = s)
        ∧ (f.kind ≠ 2#8 → f.kind ≠ 3#8 → f.kind ≠ 4#8 →
          dispatch b f.kind r q s = s.modDrops q (fun k => { k with notForPart := bump k.notForPart })))

/-- The bridging of a good star frame. Its source checks: a special ID or a part ID counts BAD_SOURCE, another ID of the
trunk range BASE_CLASH; after learning a SUSPENDED source counts SOURCE_SUSPENDED but for a CONTROL frame to the bridge, and
an early broadcast EARLY_BROADCAST (R59, R60), with a strike on its entry, which at the babble limit of a commissioned
bridge suspends it for BABBLE (R103, R104). No buffer free drops the frame and counts NO_BUFFER, and a buffer taken is held to
the end of the event, for which StarFrameIsClassified says what follows (R44). Learning by the rows of Table 4-5: a station with no entry and a code to be
had takes the first code of the pool in the proxy range as its LEARNED entry's, homed on the port, with the defaults of
Table 4-3; with no such code POOL_EMPTY is set and the directory stands (R71, R73, R81). The destination rules in the order
of Table 3-4 (R61 to R65); that an entry both SUSPENDED and homed on the ingress port counts LOCAL is the model's choice
(log entry 46), and so is that a broadcast that loses its trunk copy for NO_CODE or TOO_LONG is counted also where no other
star port is connected (log entry 49). -/
def Obligations.StarStationIsLearned : Prop :=
  ∀ (p : StarNo) (x : StationId) (s : State),
    (indexEntry s x = none →
      let u := learnStar p x s
      (∀ c, s.dir.pool.find? (fun c => decide (s.office.proxyLow.toNat ≤ c.toNat) && decide (c.toNat ≤ s.office.proxyHigh.toNat))
          = some c → findEntry s c = none →
        findEntry u c = some
          { code := c, place := .star x (some p), origin := .learned, state := .active, admin := false, printerQueue := none,
            costCentre := 0, printClass := 1, presenceLimit := s.office.learnedLimit,
            presenceRemaining := s.office.learnedLimit, broadcastElapsed := 65535, strikes := 0, periodMoves := 0,
            periodFaults := 0 }
        ∧ u.dir.pool = s.dir.pool.filter (fun d => d != c) ∧ (∀ d, d ≠ c → findEntry u d = findEntry s d))
      ∧ ((∀ c ∈ s.dir.pool, inProxyRange s.office c = false) →
        u.dir = s.dir ∧ (flagOf u .poolEmpty 0).isSome = true))
    ∧ (∀ e, indexEntry s x = some e → (s.dir.entries.map Entry.code).Nodup →
      let u := learnStar p x s
      (e.isSuspended = true → u = s)
      ∧ (e.isSuspended = false → e.place = .star x (some p) ∨ e.place = .star x none →
        findEntry u e.code = some
          { e with place := .star x (some p), presenceRemaining := e.presenceLimit, state := .active })
      ∧ (∀ h, e.isSuspended = false → e.place = .star x (some h) → h ≠ p →
        let moved := { e with place := .star x (some p), periodMoves := gain 255 e.periodMoves }
        (moved.periodMoves ≤ s.office.moveLimit →
          findEntry u e.code = some { moved with presenceRemaining := e.presenceLimit, state := .active })
        ∧ (s.office.moveLimit < moved.periodMoves →
          findEntry u e.code = some { moved with state := .suspended (.timed .duplicate s.office.quarantine) }
          ∧ (flagOf u .duplicate 0).isSome = true)))
    ∧ (∀ (f : StarRx) (b : BufId), f.src = x →
      let q := portOfStar p
      let base := s.office.base
      let part := fun y : StationId => y = s.chassis.unitNumber ∨ y = base + 240#32
      let inRange := fun y : StationId => (y - base).toNat < 256
      let others := fun u : State => ∀ v, u.starPort v =
        if v = p ∨ starConnected s v = false then s.starPort v
        else if (s.starPort v).queue.length < 16 then { s.starPort v with queue := (s.starPort v).queue ++ [b] }
        else { s.starPort v with counters := { (s.starPort v).counters with
          queueFull := bump (s.starPort v).counters.queueFull } }
      let onward := fun (u : State) (dst : DeskCode) =>
        (indexEntry s x = none → u.trunk = s.trunk ∧ u.drops = (s.modDrops q (fun k => { k with noCode := bump k.noCode })).drops)
        ∧ ∀ e, indexEntry s x = some e →
          (500 < f.payload.length →
            u.trunk = s.trunk ∧ u.drops = (s.modDrops q (fun k => { k with tooLong := bump k.tooLong })).drops)
          ∧ (f.payload.length ≤ 500 →
            u.drops = s.drops
            ∧ (trunkDown s = true → u.trunk.queue = s.trunk.queue
              ∧ u.trunk.counters.trunkDown = bump s.trunk.counters.trunkDown)
            ∧ (trunkDown s = false → 16 ≤ s.trunk.queue.length → u.trunk.queue = s.trunk.queue
              ∧ u.trunk.counters.queueFull = bump s.trunk.counters.queueFull)
            ∧ (trunkDown s = false → s.trunk.queue.length < 16 → u.trunk.queue = s.trunk.queue ++ [b]
              ∧ (u.buf b).trunkAddr = some { dst := dst, src := e.code }))
      let whole := bridgeStar p f s
      let source := decideStar p f b s
      let a := admitStar p f b s
      let u := placeStar p f b s
      (freeBuffers s = 0 → whole = (none, s.modDrops q (fun k => { k with noBuffer := bump k.noBuffer })))
      ∧ (∀ s1, takeBuf f.kind f.payload s = some (b, s1) → whole = (some b, decideStar p f b s1))
      ∧ (x = 0#32 ∨ x = 0xFFFFFFFF#32 ∨ part x → source = s.modDrops q (fun k => { k with badSource := bump k.badSource }))
      ∧ (¬ (x = 0#32 ∨ x = 0xFFFFFFFF#32 ∨ part x) → inRange x →
        source = s.modDrops q (fun k => { k with baseClash := bump k.baseClash }))
      ∧ (¬ (x = 0#32 ∨ x = 0xFFFFFFFF#32 ∨ part x) → ¬ inRange x → source = admitStar p f b (learnStar p x s))
      ∧ (∀ e, indexEntry s x = some e → e.isSuspended = true →
        (part f.dst ∧ f.kind = 3#8 → a = dispatch b f.kind (.star p x) q s)
        ∧ (¬ (part f.dst ∧ f.kind = 3#8) → a = s.modDrops q (fun k => { k with sourceSuspended := bump k.sourceSuspended })))
      ∧ (∀ e, indexEntry s x = some e → e.inUse = true → f.dst = 0xFFFFFFFF#32 →
        (e.broadcastElapsed < s.office.minSpacing →
          a.drops = (s.modDrops q (fun k => { k with earlyBroadcast := bump k.earlyBroadcast })).drops
          ∧ a.star = s.star ∧ a.trunk = s.trunk ∧ a.inputs = s.inputs
          ∧ let babble := s.ctl.commissioned = true ∧ s.office.babbleLimit ≤ min (e.strikes + 1) 31
            (findEntry s e.code = some e →
              findEntry a e.code = some { e with
                strikes := min (e.strikes + 1) 31,
                state := if babble then .suspended (.timed .babble s.office.quarantine) else e.state }
              ∧ a.dir.counters = { s.dir.counters with
                  strikes := bump s.dir.counters.strikes,
                  babbleSuspensions := if babble then bump s.dir.counters.babbleSuspensions
                    else s.dir.counters.babbleSuspensions }
              ∧ (babble → (flagOf a .quarantine 0).map AlertFlag.detail = some (some e.code))))
        ∧ (s.office.minSpacing ≤ e.broadcastElapsed →
          a = placeStar p f b (s.modEntry e.code (fun y => { y with
            broadcastElapsed := 0, strikes := if 4 * s.office.minSpacing ≤ y.broadcastElapsed then 0 else y.strikes }))))
      ∧ ((∀ e, indexEntry s x = some e → e.isSuspended = false ∧ (f.dst ≠ 0xFFFFFFFF#32 ∨ e.inUse = false)) → a = u)
      ∧ (f.dst = 0#32 → u = s.modDrops q (fun k => { k with nullDest := bump k.nullDest }))
      ∧ (f.dst ≠ 0#32 → part f.dst → u = dispatch b f.kind (.star p x) q s)
      ∧ (f.dst = 0xFFFFFFFF#32 → ¬ part f.dst →
        others u ∧ (u.buf b).starAddr = some { dst := f.dst, src := x }
        ∧ (s.office.starToTrunk = false → u.trunk = s.trunk ∧ u.drops = s.drops)
        ∧ (s.office.starToTrunk = true → onward u 0#8))
      ∧ (f.dst ≠ 0#32 → f.dst ≠ 0xFFFFFFFF#32 → ¬ part f.dst → inRange f.dst →
        let d := (f.dst - base).truncate 8
        u.star = s.star
        ∧ (d = 0#8 ∨ 240 < d.toNat → u = s.modDrops q (fun k => { k with reserved := bump k.reserved }))
        ∧ (1 ≤ d.toNat → d.toNat ≤ 239 → onward u d))
      ∧ (f.dst ≠ 0#32 → f.dst ≠ 0xFFFFFFFF#32 → ¬ part f.dst → ¬ inRange f.dst →
        (∀ e, indexEntry s f.dst = some e →
          (e.homedOn q = true → u = s.modDrops q (fun k => { k with localDest := bump k.localDest }))
          ∧ (e.homedOn q = false → e.isSuspended = true ∨ e.place = .star f.dst none →
            u = s.modDrops q (fun k => { k with unreachable := bump k.unreachable }))
          ∧ (∀ h, e.homedOn q = false → e.isSuspended = false → e.place = .star f.dst (some h) →
            (starConnected s h = false → u = s.modDrops q (fun k => { k with unreachable := bump k.unreachable }))
            ∧ (starConnected s h = true → (s.starPort h).queue.length < 16 →
              (u.starPort h).queue = (s.starPort h).queue ++ [b] ∧ (∀ v, v ≠ h → u.starPort v = s.starPort v)
              ∧ (u.buf b).starAddr = some { dst := f.dst, src := x } ∧ u.trunk = s.trunk ∧ u.drops = s.drops)))
        ∧ (indexEntry s f.dst = none →
          others u ∧ (u.buf b).starAddr = some { dst := f.dst, src := x } ∧ u.trunk = s.trunk ∧ u.drops = s.drops)))

/-! ## Frames -/

/-- A trunk frame as the transmitter sends it, decoded from its bits, is the frame it was built from: addresses, kind and
payload come back for every payload of up to 500 bytes (R7, R8, R209, R210). -/
def Obligations.TrunkFrameDecodes : Prop :=
  ∀ (a : TrunkAddr) (kind : Byte) (payload : List Byte), payload.length ≤ 500 →
    (Decoder.initial.feed ((trunkFrame a kind payload).flatMap byteBits)).verdict
      = some { dst := a.dst, src := a.src, kind := kind, payload := payload }

/-- A star frame as a port sends it, received whole, is GOOD and is the frame it was built from, for every payload of up
to 1500 bytes (R35, R210, R211). -/
def Obligations.StarFrameIsGood : Prop :=
  ∀ (a : StarAddr) (kind : Byte) (payload : List Byte), payload.length ≤ 1500 →
    let f := starFrame a kind payload
    classifyStar (f.take 1513) f.length = .good
      ∧ starRxOf (f.take 1513) = { dst := a.dst, src := a.src, kind := kind, payload := payload }

/-! ## Conditions that every step keeps -/

/-- After reset the conditions below hold: buffers are unreferenced, every code is in the pool, ports are OPEN, queues are
empty (Tables 1-10, 2-5, 4-8, 6-8). -/
def Obligations.ResetMeetsTheConditions : Prop :=
  BufferCounts State.reset ∧ AddressedAsQueued State.reset ∧ CodesApart State.reset ∧ ModeStates State.reset ∧ WithinCapacity State.reset
    ∧ SilentWhenCutOff State.reset ∧ AdminKept State.reset

/-- A buffer's reference count is the number of references to it, and its trunk and star addressing are present exactly
while a reference to it is on a queue of that kind, after every step as before it (R43, Table 3-1). -/
def Obligations.BufferCountsKept : Prop :=
  ∀ s s' : State, BufferCounts s → step s = .next s' →
    BufferCounts s' ∧ (AddressedAsQueued s → AddressedAsQueued s')

/-- Every code from 1 to 239 is the key of exactly one entry or stands once in the pool, after every step as before it
(R70). -/
def Obligations.CodesKeptApart : Prop :=
  ∀ s s' : State, CodesApart s → step s = .next s' → CodesApart s'

/-- Before commissioning no port is ACTIVE, ISOLATED or in PROBATION, and after it none is OPEN, after every step as
before it (R109, R112, R138). -/
def Obligations.ModeStatesKept : Prop :=
  ∀ s s' : State, ModeStates s → step s = .next s' → ModeStates s'

/-- No queue comes to hold more than its places (R25, R38, R48, R49, R195). -/
def Obligations.CapacityKept : Prop :=
  ∀ s s' : State, WithinCapacity s → step s = .next s' → WithinCapacity s'

/-- What is cut off has nothing left to send: the trunk while it is down and every star port while it is not connected
(R27, R40). -/
def Obligations.CutOffStaysSilent : Prop :=
  ∀ s s' : State, SilentWhenCutOff s → step s = .next s' → SilentWhenCutOff s'

/-- While the bridge is commissioned, at least one FIXED directory entry carries the admin attribute (R87). The premise
that codes are held apart rules out states that no run reaches. -/
def Obligations.AdminEntryKept : Prop :=
  ∀ s s' : State, CodesApart s → AdminKept s → step s = .next s' → AdminKept s'
end

