-- ==== Sys2Proof/Laws/State.lean ====
section
/-!
SUPPORT. What each update of the state leaves in each field, and what a table reads as after one element of it was
changed. Every lemma but those of the last two sections holds by computation, so that no proof unfolds a record update.
-/

namespace Sys2Proof.Machine

/-! ## `State.modSeg` -/

@[simp] theorem State.modSeg_pending (s : State) (t : SegNo) (f : Segment → Segment) : (s.modSeg t f).pending = s.pending := rfl
@[simp] theorem State.modSeg_chassis (s : State) (t : SegNo) (f : Segment → Segment) : (s.modSeg t f).chassis = s.chassis := rfl
@[simp] theorem State.modSeg_star (s : State) (t : SegNo) (f : Segment → Segment) : (s.modSeg t f).star = s.star := rfl
@[simp] theorem State.modSeg_bufs (s : State) (t : SegNo) (f : Segment → Segment) : (s.modSeg t f).bufs = s.bufs := rfl
@[simp] theorem State.modSeg_inputs (s : State) (t : SegNo) (f : Segment → Segment) : (s.modSeg t f).inputs = s.inputs := rfl
@[simp] theorem State.modSeg_drops (s : State) (t : SegNo) (f : Segment → Segment) : (s.modSeg t f).drops = s.drops := rfl
@[simp] theorem State.modSeg_office (s : State) (t : SegNo) (f : Segment → Segment) : (s.modSeg t f).office = s.office := rfl
@[simp] theorem State.modSeg_segPlans (s : State) (t : SegNo) (f : Segment → Segment) : (s.modSeg t f).segPlans = s.segPlans := rfl
@[simp] theorem State.modSeg_dir (s : State) (t : SegNo) (f : Segment → Segment) : (s.modSeg t f).dir = s.dir := rfl
@[simp] theorem State.modSeg_sup (s : State) (t : SegNo) (f : Segment → Segment) : (s.modSeg t f).sup = s.sup := rfl
@[simp] theorem State.modSeg_print (s : State) (t : SegNo) (f : Segment → Segment) : (s.modSeg t f).print = s.print := rfl
@[simp] theorem State.modSeg_acct (s : State) (t : SegNo) (f : Segment → Segment) : (s.modSeg t f).acct = s.acct := rfl
@[simp] theorem State.modSeg_ctl (s : State) (t : SegNo) (f : Segment → Segment) : (s.modSeg t f).ctl = s.ctl := rfl
@[simp] theorem State.modSeg_alerts (s : State) (t : SegNo) (f : Segment → Segment) : (s.modSeg t f).alerts = s.alerts := rfl
@[simp] theorem State.modSeg_starPort (s : State) (t : SegNo) (f : Segment → Segment) (v : StarNo) : (s.modSeg t f).starPort v = s.starPort v := rfl
@[simp] theorem State.modSeg_buf (s : State) (t : SegNo) (f : Segment → Segment) (i : BufId) : (s.modSeg t f).buf i = s.buf i := rfl
@[simp] theorem State.modSeg_port (s : State) (t : SegNo) (f : Segment → Segment) (r : PortNo) : (s.modSeg t f).port r = s.port r := rfl
@[simp] theorem State.modSeg_printer (s : State) (t : SegNo) (f : Segment → Segment) (v : QueueNo) : (s.modSeg t f).printer v = s.printer v := rfl
@[simp] theorem State.modSeg_isRunning (s : State) (t : SegNo) (f : Segment → Segment) : (s.modSeg t f).isRunning = s.isRunning := rfl
@[simp] theorem State.modSeg_trunk_holder (s : State) (t : SegNo) (f : Segment → Segment) : (s.modSeg t f).trunk.holder = s.trunk.holder := rfl
@[simp] theorem State.modSeg_trunk_truncate (s : State) (t : SegNo) (f : Segment → Segment) : (s.modSeg t f).trunk.truncate = s.trunk.truncate := rfl
@[simp] theorem State.modSeg_trunk_queue (s : State) (t : SegNo) (f : Segment → Segment) : (s.modSeg t f).trunk.queue = s.trunk.queue := rfl
@[simp] theorem State.modSeg_trunk_attempts (s : State) (t : SegNo) (f : Segment → Segment) : (s.modSeg t f).trunk.attempts = s.trunk.attempts := rfl
@[simp] theorem State.modSeg_trunk_onWire (s : State) (t : SegNo) (f : Segment → Segment) : (s.modSeg t f).trunk.onWire = s.trunk.onWire := rfl
@[simp] theorem State.modSeg_trunk_counters (s : State) (t : SegNo) (f : Segment → Segment) : (s.modSeg t f).trunk.counters = s.trunk.counters := rfl

/-! ## `State.mapSegs` -/

@[simp] theorem State.mapSegs_pending (s : State) (f : Segment → Segment) : (s.mapSegs f).pending = s.pending := rfl
@[simp] theorem State.mapSegs_chassis (s : State) (f : Segment → Segment) : (s.mapSegs f).chassis = s.chassis := rfl
@[simp] theorem State.mapSegs_star (s : State) (f : Segment → Segment) : (s.mapSegs f).star = s.star := rfl
@[simp] theorem State.mapSegs_bufs (s : State) (f : Segment → Segment) : (s.mapSegs f).bufs = s.bufs := rfl
@[simp] theorem State.mapSegs_inputs (s : State) (f : Segment → Segment) : (s.mapSegs f).inputs = s.inputs := rfl
@[simp] theorem State.mapSegs_drops (s : State) (f : Segment → Segment) : (s.mapSegs f).drops = s.drops := rfl
@[simp] theorem State.mapSegs_office (s : State) (f : Segment → Segment) : (s.mapSegs f).office = s.office := rfl
@[simp] theorem State.mapSegs_segPlans (s : State) (f : Segment → Segment) : (s.mapSegs f).segPlans = s.segPlans := rfl
@[simp] theorem State.mapSegs_dir (s : State) (f : Segment → Segment) : (s.mapSegs f).dir = s.dir := rfl
@[simp] theorem State.mapSegs_sup (s : State) (f : Segment → Segment) : (s.mapSegs f).sup = s.sup := rfl
@[simp] theorem State.mapSegs_print (s : State) (f : Segment → Segment) : (s.mapSegs f).print = s.print := rfl
@[simp] theorem State.mapSegs_acct (s : State) (f : Segment → Segment) : (s.mapSegs f).acct = s.acct := rfl
@[simp] theorem State.mapSegs_ctl (s : State) (f : Segment → Segment) : (s.mapSegs f).ctl = s.ctl := rfl
@[simp] theorem State.mapSegs_alerts (s : State) (f : Segment → Segment) : (s.mapSegs f).alerts = s.alerts := rfl
@[simp] theorem State.mapSegs_starPort (s : State) (f : Segment → Segment) (v : StarNo) : (s.mapSegs f).starPort v = s.starPort v := rfl
@[simp] theorem State.mapSegs_buf (s : State) (f : Segment → Segment) (i : BufId) : (s.mapSegs f).buf i = s.buf i := rfl
@[simp] theorem State.mapSegs_port (s : State) (f : Segment → Segment) (r : PortNo) : (s.mapSegs f).port r = s.port r := rfl
@[simp] theorem State.mapSegs_printer (s : State) (f : Segment → Segment) (v : QueueNo) : (s.mapSegs f).printer v = s.printer v := rfl
@[simp] theorem State.mapSegs_isRunning (s : State) (f : Segment → Segment) : (s.mapSegs f).isRunning = s.isRunning := rfl
@[simp] theorem State.mapSegs_trunk_holder (s : State) (f : Segment → Segment) : (s.mapSegs f).trunk.holder = s.trunk.holder := rfl
@[simp] theorem State.mapSegs_trunk_truncate (s : State) (f : Segment → Segment) : (s.mapSegs f).trunk.truncate = s.trunk.truncate := rfl
@[simp] theorem State.mapSegs_trunk_queue (s : State) (f : Segment → Segment) : (s.mapSegs f).trunk.queue = s.trunk.queue := rfl
@[simp] theorem State.mapSegs_trunk_attempts (s : State) (f : Segment → Segment) : (s.mapSegs f).trunk.attempts = s.trunk.attempts := rfl
@[simp] theorem State.mapSegs_trunk_onWire (s : State) (f : Segment → Segment) : (s.mapSegs f).trunk.onWire = s.trunk.onWire := rfl
@[simp] theorem State.mapSegs_trunk_counters (s : State) (f : Segment → Segment) : (s.mapSegs f).trunk.counters = s.trunk.counters := rfl

/-! ## `noteAllEdges` -/

@[simp] theorem noteAllEdges_pending (edges : Vector Nat 4) (s : State) : (noteAllEdges edges s).pending = s.pending := rfl
@[simp] theorem noteAllEdges_chassis (edges : Vector Nat 4) (s : State) : (noteAllEdges edges s).chassis = s.chassis := rfl
@[simp] theorem noteAllEdges_star (edges : Vector Nat 4) (s : State) : (noteAllEdges edges s).star = s.star := rfl
@[simp] theorem noteAllEdges_bufs (edges : Vector Nat 4) (s : State) : (noteAllEdges edges s).bufs = s.bufs := rfl
@[simp] theorem noteAllEdges_inputs (edges : Vector Nat 4) (s : State) : (noteAllEdges edges s).inputs = s.inputs := rfl
@[simp] theorem noteAllEdges_drops (edges : Vector Nat 4) (s : State) : (noteAllEdges edges s).drops = s.drops := rfl
@[simp] theorem noteAllEdges_office (edges : Vector Nat 4) (s : State) : (noteAllEdges edges s).office = s.office := rfl
@[simp] theorem noteAllEdges_segPlans (edges : Vector Nat 4) (s : State) : (noteAllEdges edges s).segPlans = s.segPlans := rfl
@[simp] theorem noteAllEdges_dir (edges : Vector Nat 4) (s : State) : (noteAllEdges edges s).dir = s.dir := rfl
@[simp] theorem noteAllEdges_sup (edges : Vector Nat 4) (s : State) : (noteAllEdges edges s).sup = s.sup := rfl
@[simp] theorem noteAllEdges_print (edges : Vector Nat 4) (s : State) : (noteAllEdges edges s).print = s.print := rfl
@[simp] theorem noteAllEdges_acct (edges : Vector Nat 4) (s : State) : (noteAllEdges edges s).acct = s.acct := rfl
@[simp] theorem noteAllEdges_ctl (edges : Vector Nat 4) (s : State) : (noteAllEdges edges s).ctl = s.ctl := rfl
@[simp] theorem noteAllEdges_alerts (edges : Vector Nat 4) (s : State) : (noteAllEdges edges s).alerts = s.alerts := rfl
@[simp] theorem noteAllEdges_starPort (edges : Vector Nat 4) (s : State) (v : StarNo) : (noteAllEdges edges s).starPort v = s.starPort v := rfl
@[simp] theorem noteAllEdges_buf (edges : Vector Nat 4) (s : State) (i : BufId) : (noteAllEdges edges s).buf i = s.buf i := rfl
@[simp] theorem noteAllEdges_port (edges : Vector Nat 4) (s : State) (r : PortNo) : (noteAllEdges edges s).port r = s.port r := rfl
@[simp] theorem noteAllEdges_printer (edges : Vector Nat 4) (s : State) (v : QueueNo) : (noteAllEdges edges s).printer v = s.printer v := rfl
@[simp] theorem noteAllEdges_isRunning (edges : Vector Nat 4) (s : State) : (noteAllEdges edges s).isRunning = s.isRunning := rfl
@[simp] theorem noteAllEdges_trunk_holder (edges : Vector Nat 4) (s : State) : (noteAllEdges edges s).trunk.holder = s.trunk.holder := rfl
@[simp] theorem noteAllEdges_trunk_truncate (edges : Vector Nat 4) (s : State) : (noteAllEdges edges s).trunk.truncate = s.trunk.truncate := rfl
@[simp] theorem noteAllEdges_trunk_queue (edges : Vector Nat 4) (s : State) : (noteAllEdges edges s).trunk.queue = s.trunk.queue := rfl
@[simp] theorem noteAllEdges_trunk_attempts (edges : Vector Nat 4) (s : State) : (noteAllEdges edges s).trunk.attempts = s.trunk.attempts := rfl
@[simp] theorem noteAllEdges_trunk_onWire (edges : Vector Nat 4) (s : State) : (noteAllEdges edges s).trunk.onWire = s.trunk.onWire := rfl
@[simp] theorem noteAllEdges_trunk_counters (edges : Vector Nat 4) (s : State) : (noteAllEdges edges s).trunk.counters = s.trunk.counters := rfl
@[simp] theorem noteAllEdges_seg (edges : Vector Nat 4) (s : State) (t : SegNo) :
    (noteAllEdges edges s).seg t = (s.seg t).noteEdges edges[t.val] := by
  simp [noteAllEdges, State.seg]

/-! ## `State.modTrunkCounters` -/

@[simp] theorem State.modTrunkCounters_pending (s : State) (f : TrunkCounters → TrunkCounters) : (s.modTrunkCounters f).pending = s.pending := rfl
@[simp] theorem State.modTrunkCounters_chassis (s : State) (f : TrunkCounters → TrunkCounters) : (s.modTrunkCounters f).chassis = s.chassis := rfl
@[simp] theorem State.modTrunkCounters_star (s : State) (f : TrunkCounters → TrunkCounters) : (s.modTrunkCounters f).star = s.star := rfl
@[simp] theorem State.modTrunkCounters_bufs (s : State) (f : TrunkCounters → TrunkCounters) : (s.modTrunkCounters f).bufs = s.bufs := rfl
@[simp] theorem State.modTrunkCounters_inputs (s : State) (f : TrunkCounters → TrunkCounters) : (s.modTrunkCounters f).inputs = s.inputs := rfl
@[simp] theorem State.modTrunkCounters_drops (s : State) (f : TrunkCounters → TrunkCounters) : (s.modTrunkCounters f).drops = s.drops := rfl
@[simp] theorem State.modTrunkCounters_office (s : State) (f : TrunkCounters → TrunkCounters) : (s.modTrunkCounters f).office = s.office := rfl
@[simp] theorem State.modTrunkCounters_segPlans (s : State) (f : TrunkCounters → TrunkCounters) : (s.modTrunkCounters f).segPlans = s.segPlans := rfl
@[simp] theorem State.modTrunkCounters_dir (s : State) (f : TrunkCounters → TrunkCounters) : (s.modTrunkCounters f).dir = s.dir := rfl
@[simp] theorem State.modTrunkCounters_sup (s : State) (f : TrunkCounters → TrunkCounters) : (s.modTrunkCounters f).sup = s.sup := rfl
@[simp] theorem State.modTrunkCounters_print (s : State) (f : TrunkCounters → TrunkCounters) : (s.modTrunkCounters f).print = s.print := rfl
@[simp] theorem State.modTrunkCounters_acct (s : State) (f : TrunkCounters → TrunkCounters) : (s.modTrunkCounters f).acct = s.acct := rfl
@[simp] theorem State.modTrunkCounters_ctl (s : State) (f : TrunkCounters → TrunkCounters) : (s.modTrunkCounters f).ctl = s.ctl := rfl
@[simp] theorem State.modTrunkCounters_alerts (s : State) (f : TrunkCounters → TrunkCounters) : (s.modTrunkCounters f).alerts = s.alerts := rfl
@[simp] theorem State.modTrunkCounters_starPort (s : State) (f : TrunkCounters → TrunkCounters) (v : StarNo) : (s.modTrunkCounters f).starPort v = s.starPort v := rfl
@[simp] theorem State.modTrunkCounters_buf (s : State) (f : TrunkCounters → TrunkCounters) (i : BufId) : (s.modTrunkCounters f).buf i = s.buf i := rfl
@[simp] theorem State.modTrunkCounters_port (s : State) (f : TrunkCounters → TrunkCounters) (r : PortNo) : (s.modTrunkCounters f).port r = s.port r := rfl
@[simp] theorem State.modTrunkCounters_printer (s : State) (f : TrunkCounters → TrunkCounters) (v : QueueNo) : (s.modTrunkCounters f).printer v = s.printer v := rfl
@[simp] theorem State.modTrunkCounters_isRunning (s : State) (f : TrunkCounters → TrunkCounters) : (s.modTrunkCounters f).isRunning = s.isRunning := rfl
@[simp] theorem State.modTrunkCounters_trunk_segs (s : State) (f : TrunkCounters → TrunkCounters) : (s.modTrunkCounters f).trunk.segs = s.trunk.segs := rfl
@[simp] theorem State.modTrunkCounters_trunk_holder (s : State) (f : TrunkCounters → TrunkCounters) : (s.modTrunkCounters f).trunk.holder = s.trunk.holder := rfl
@[simp] theorem State.modTrunkCounters_trunk_truncate (s : State) (f : TrunkCounters → TrunkCounters) : (s.modTrunkCounters f).trunk.truncate = s.trunk.truncate := rfl
@[simp] theorem State.modTrunkCounters_trunk_queue (s : State) (f : TrunkCounters → TrunkCounters) : (s.modTrunkCounters f).trunk.queue = s.trunk.queue := rfl
@[simp] theorem State.modTrunkCounters_trunk_attempts (s : State) (f : TrunkCounters → TrunkCounters) : (s.modTrunkCounters f).trunk.attempts = s.trunk.attempts := rfl
@[simp] theorem State.modTrunkCounters_trunk_onWire (s : State) (f : TrunkCounters → TrunkCounters) : (s.modTrunkCounters f).trunk.onWire = s.trunk.onWire := rfl
@[simp] theorem State.modTrunkCounters_seg (s : State) (f : TrunkCounters → TrunkCounters) (u : SegNo) :
    (s.modTrunkCounters f).seg u = s.seg u := rfl
@[simp] theorem State.modTrunkCounters_trunk_counters (s : State) (f : TrunkCounters → TrunkCounters) :
    (s.modTrunkCounters f).trunk.counters = f s.trunk.counters := rfl

/-! ## `State.modStar` -/

@[simp] theorem State.modStar_pending (s : State) (p : StarNo) (f : StarPort → StarPort) : (s.modStar p f).pending = s.pending := rfl
@[simp] theorem State.modStar_chassis (s : State) (p : StarNo) (f : StarPort → StarPort) : (s.modStar p f).chassis = s.chassis := rfl
@[simp] theorem State.modStar_trunk (s : State) (p : StarNo) (f : StarPort → StarPort) : (s.modStar p f).trunk = s.trunk := rfl
@[simp] theorem State.modStar_bufs (s : State) (p : StarNo) (f : StarPort → StarPort) : (s.modStar p f).bufs = s.bufs := rfl
@[simp] theorem State.modStar_inputs (s : State) (p : StarNo) (f : StarPort → StarPort) : (s.modStar p f).inputs = s.inputs := rfl
@[simp] theorem State.modStar_drops (s : State) (p : StarNo) (f : StarPort → StarPort) : (s.modStar p f).drops = s.drops := rfl
@[simp] theorem State.modStar_office (s : State) (p : StarNo) (f : StarPort → StarPort) : (s.modStar p f).office = s.office := rfl
@[simp] theorem State.modStar_segPlans (s : State) (p : StarNo) (f : StarPort → StarPort) : (s.modStar p f).segPlans = s.segPlans := rfl
@[simp] theorem State.modStar_dir (s : State) (p : StarNo) (f : StarPort → StarPort) : (s.modStar p f).dir = s.dir := rfl
@[simp] theorem State.modStar_sup (s : State) (p : StarNo) (f : StarPort → StarPort) : (s.modStar p f).sup = s.sup := rfl
@[simp] theorem State.modStar_print (s : State) (p : StarNo) (f : StarPort → StarPort) : (s.modStar p f).print = s.print := rfl
@[simp] theorem State.modStar_acct (s : State) (p : StarNo) (f : StarPort → StarPort) : (s.modStar p f).acct = s.acct := rfl
@[simp] theorem State.modStar_ctl (s : State) (p : StarNo) (f : StarPort → StarPort) : (s.modStar p f).ctl = s.ctl := rfl
@[simp] theorem State.modStar_alerts (s : State) (p : StarNo) (f : StarPort → StarPort) : (s.modStar p f).alerts = s.alerts := rfl
@[simp] theorem State.modStar_seg (s : State) (p : StarNo) (f : StarPort → StarPort) (u : SegNo) : (s.modStar p f).seg u = s.seg u := rfl
@[simp] theorem State.modStar_buf (s : State) (p : StarNo) (f : StarPort → StarPort) (i : BufId) : (s.modStar p f).buf i = s.buf i := rfl
@[simp] theorem State.modStar_port (s : State) (p : StarNo) (f : StarPort → StarPort) (r : PortNo) : (s.modStar p f).port r = s.port r := rfl
@[simp] theorem State.modStar_printer (s : State) (p : StarNo) (f : StarPort → StarPort) (v : QueueNo) : (s.modStar p f).printer v = s.printer v := rfl
@[simp] theorem State.modStar_isRunning (s : State) (p : StarNo) (f : StarPort → StarPort) : (s.modStar p f).isRunning = s.isRunning := rfl

/-! ## `State.modBuf` -/

@[simp] theorem State.modBuf_pending (s : State) (b : BufId) (f : Buf → Buf) : (s.modBuf b f).pending = s.pending := rfl
@[simp] theorem State.modBuf_chassis (s : State) (b : BufId) (f : Buf → Buf) : (s.modBuf b f).chassis = s.chassis := rfl
@[simp] theorem State.modBuf_trunk (s : State) (b : BufId) (f : Buf → Buf) : (s.modBuf b f).trunk = s.trunk := rfl
@[simp] theorem State.modBuf_star (s : State) (b : BufId) (f : Buf → Buf) : (s.modBuf b f).star = s.star := rfl
@[simp] theorem State.modBuf_inputs (s : State) (b : BufId) (f : Buf → Buf) : (s.modBuf b f).inputs = s.inputs := rfl
@[simp] theorem State.modBuf_drops (s : State) (b : BufId) (f : Buf → Buf) : (s.modBuf b f).drops = s.drops := rfl
@[simp] theorem State.modBuf_office (s : State) (b : BufId) (f : Buf → Buf) : (s.modBuf b f).office = s.office := rfl
@[simp] theorem State.modBuf_segPlans (s : State) (b : BufId) (f : Buf → Buf) : (s.modBuf b f).segPlans = s.segPlans := rfl
@[simp] theorem State.modBuf_dir (s : State) (b : BufId) (f : Buf → Buf) : (s.modBuf b f).dir = s.dir := rfl
@[simp] theorem State.modBuf_sup (s : State) (b : BufId) (f : Buf → Buf) : (s.modBuf b f).sup = s.sup := rfl
@[simp] theorem State.modBuf_print (s : State) (b : BufId) (f : Buf → Buf) : (s.modBuf b f).print = s.print := rfl
@[simp] theorem State.modBuf_acct (s : State) (b : BufId) (f : Buf → Buf) : (s.modBuf b f).acct = s.acct := rfl
@[simp] theorem State.modBuf_ctl (s : State) (b : BufId) (f : Buf → Buf) : (s.modBuf b f).ctl = s.ctl := rfl
@[simp] theorem State.modBuf_alerts (s : State) (b : BufId) (f : Buf → Buf) : (s.modBuf b f).alerts = s.alerts := rfl
@[simp] theorem State.modBuf_seg (s : State) (b : BufId) (f : Buf → Buf) (u : SegNo) : (s.modBuf b f).seg u = s.seg u := rfl
@[simp] theorem State.modBuf_starPort (s : State) (b : BufId) (f : Buf → Buf) (v : StarNo) : (s.modBuf b f).starPort v = s.starPort v := rfl
@[simp] theorem State.modBuf_port (s : State) (b : BufId) (f : Buf → Buf) (r : PortNo) : (s.modBuf b f).port r = s.port r := rfl
@[simp] theorem State.modBuf_printer (s : State) (b : BufId) (f : Buf → Buf) (v : QueueNo) : (s.modBuf b f).printer v = s.printer v := rfl
@[simp] theorem State.modBuf_isRunning (s : State) (b : BufId) (f : Buf → Buf) : (s.modBuf b f).isRunning = s.isRunning := rfl

/-! ## `State.modDrops` -/

@[simp] theorem State.modDrops_pending (s : State) (q : PortNo) (f : Drops → Drops) : (s.modDrops q f).pending = s.pending := rfl
@[simp] theorem State.modDrops_chassis (s : State) (q : PortNo) (f : Drops → Drops) : (s.modDrops q f).chassis = s.chassis := rfl
@[simp] theorem State.modDrops_trunk (s : State) (q : PortNo) (f : Drops → Drops) : (s.modDrops q f).trunk = s.trunk := rfl
@[simp] theorem State.modDrops_star (s : State) (q : PortNo) (f : Drops → Drops) : (s.modDrops q f).star = s.star := rfl
@[simp] theorem State.modDrops_bufs (s : State) (q : PortNo) (f : Drops → Drops) : (s.modDrops q f).bufs = s.bufs := rfl
@[simp] theorem State.modDrops_inputs (s : State) (q : PortNo) (f : Drops → Drops) : (s.modDrops q f).inputs = s.inputs := rfl
@[simp] theorem State.modDrops_office (s : State) (q : PortNo) (f : Drops → Drops) : (s.modDrops q f).office = s.office := rfl
@[simp] theorem State.modDrops_segPlans (s : State) (q : PortNo) (f : Drops → Drops) : (s.modDrops q f).segPlans = s.segPlans := rfl
@[simp] theorem State.modDrops_dir (s : State) (q : PortNo) (f : Drops → Drops) : (s.modDrops q f).dir = s.dir := rfl
@[simp] theorem State.modDrops_sup (s : State) (q : PortNo) (f : Drops → Drops) : (s.modDrops q f).sup = s.sup := rfl
@[simp] theorem State.modDrops_print (s : State) (q : PortNo) (f : Drops → Drops) : (s.modDrops q f).print = s.print := rfl
@[simp] theorem State.modDrops_acct (s : State) (q : PortNo) (f : Drops → Drops) : (s.modDrops q f).acct = s.acct := rfl
@[simp] theorem State.modDrops_ctl (s : State) (q : PortNo) (f : Drops → Drops) : (s.modDrops q f).ctl = s.ctl := rfl
@[simp] theorem State.modDrops_alerts (s : State) (q : PortNo) (f : Drops → Drops) : (s.modDrops q f).alerts = s.alerts := rfl
@[simp] theorem State.modDrops_seg (s : State) (q : PortNo) (f : Drops → Drops) (u : SegNo) : (s.modDrops q f).seg u = s.seg u := rfl
@[simp] theorem State.modDrops_starPort (s : State) (q : PortNo) (f : Drops → Drops) (v : StarNo) : (s.modDrops q f).starPort v = s.starPort v := rfl
@[simp] theorem State.modDrops_buf (s : State) (q : PortNo) (f : Drops → Drops) (i : BufId) : (s.modDrops q f).buf i = s.buf i := rfl
@[simp] theorem State.modDrops_port (s : State) (q : PortNo) (f : Drops → Drops) (r : PortNo) : (s.modDrops q f).port r = s.port r := rfl
@[simp] theorem State.modDrops_printer (s : State) (q : PortNo) (f : Drops → Drops) (v : QueueNo) : (s.modDrops q f).printer v = s.printer v := rfl
@[simp] theorem State.modDrops_isRunning (s : State) (q : PortNo) (f : Drops → Drops) : (s.modDrops q f).isRunning = s.isRunning := rfl

/-! ## `State.modPort` -/

@[simp] theorem State.modPort_pending (s : State) (q : PortNo) (f : PortRec → PortRec) : (s.modPort q f).pending = s.pending := rfl
@[simp] theorem State.modPort_chassis (s : State) (q : PortNo) (f : PortRec → PortRec) : (s.modPort q f).chassis = s.chassis := rfl
@[simp] theorem State.modPort_trunk (s : State) (q : PortNo) (f : PortRec → PortRec) : (s.modPort q f).trunk = s.trunk := rfl
@[simp] theorem State.modPort_star (s : State) (q : PortNo) (f : PortRec → PortRec) : (s.modPort q f).star = s.star := rfl
@[simp] theorem State.modPort_bufs (s : State) (q : PortNo) (f : PortRec → PortRec) : (s.modPort q f).bufs = s.bufs := rfl
@[simp] theorem State.modPort_inputs (s : State) (q : PortNo) (f : PortRec → PortRec) : (s.modPort q f).inputs = s.inputs := rfl
@[simp] theorem State.modPort_drops (s : State) (q : PortNo) (f : PortRec → PortRec) : (s.modPort q f).drops = s.drops := rfl
@[simp] theorem State.modPort_office (s : State) (q : PortNo) (f : PortRec → PortRec) : (s.modPort q f).office = s.office := rfl
@[simp] theorem State.modPort_segPlans (s : State) (q : PortNo) (f : PortRec → PortRec) : (s.modPort q f).segPlans = s.segPlans := rfl
@[simp] theorem State.modPort_dir (s : State) (q : PortNo) (f : PortRec → PortRec) : (s.modPort q f).dir = s.dir := rfl
@[simp] theorem State.modPort_print (s : State) (q : PortNo) (f : PortRec → PortRec) : (s.modPort q f).print = s.print := rfl
@[simp] theorem State.modPort_acct (s : State) (q : PortNo) (f : PortRec → PortRec) : (s.modPort q f).acct = s.acct := rfl
@[simp] theorem State.modPort_ctl (s : State) (q : PortNo) (f : PortRec → PortRec) : (s.modPort q f).ctl = s.ctl := rfl
@[simp] theorem State.modPort_alerts (s : State) (q : PortNo) (f : PortRec → PortRec) : (s.modPort q f).alerts = s.alerts := rfl
@[simp] theorem State.modPort_seg (s : State) (q : PortNo) (f : PortRec → PortRec) (u : SegNo) : (s.modPort q f).seg u = s.seg u := rfl
@[simp] theorem State.modPort_starPort (s : State) (q : PortNo) (f : PortRec → PortRec) (v : StarNo) : (s.modPort q f).starPort v = s.starPort v := rfl
@[simp] theorem State.modPort_buf (s : State) (q : PortNo) (f : PortRec → PortRec) (i : BufId) : (s.modPort q f).buf i = s.buf i := rfl
@[simp] theorem State.modPort_printer (s : State) (q : PortNo) (f : PortRec → PortRec) (v : QueueNo) : (s.modPort q f).printer v = s.printer v := rfl
@[simp] theorem State.modPort_isRunning (s : State) (q : PortNo) (f : PortRec → PortRec) : (s.modPort q f).isRunning = s.isRunning := rfl
@[simp] theorem State.modPort_sup_period (s : State) (q : PortNo) (f : PortRec → PortRec) : (s.modPort q f).sup.period = s.sup.period := rfl
@[simp] theorem State.modPort_sup_timer (s : State) (q : PortNo) (f : PortRec → PortRec) : (s.modPort q f).sup.timer = s.sup.timer := rfl
@[simp] theorem State.modPort_sup_checkSuspensions (s : State) (q : PortNo) (f : PortRec → PortRec) : (s.modPort q f).sup.checkSuspensions = s.sup.checkSuspensions := rfl

/-! ## `State.modPrinter` -/

@[simp] theorem State.modPrinter_pending (s : State) (q : QueueNo) (f : Printer → Printer) : (s.modPrinter q f).pending = s.pending := rfl
@[simp] theorem State.modPrinter_chassis (s : State) (q : QueueNo) (f : Printer → Printer) : (s.modPrinter q f).chassis = s.chassis := rfl
@[simp] theorem State.modPrinter_trunk (s : State) (q : QueueNo) (f : Printer → Printer) : (s.modPrinter q f).trunk = s.trunk := rfl
@[simp] theorem State.modPrinter_star (s : State) (q : QueueNo) (f : Printer → Printer) : (s.modPrinter q f).star = s.star := rfl
@[simp] theorem State.modPrinter_bufs (s : State) (q : QueueNo) (f : Printer → Printer) : (s.modPrinter q f).bufs = s.bufs := rfl
@[simp] theorem State.modPrinter_inputs (s : State) (q : QueueNo) (f : Printer → Printer) : (s.modPrinter q f).inputs = s.inputs := rfl
@[simp] theorem State.modPrinter_drops (s : State) (q : QueueNo) (f : Printer → Printer) : (s.modPrinter q f).drops = s.drops := rfl
@[simp] theorem State.modPrinter_office (s : State) (q : QueueNo) (f : Printer → Printer) : (s.modPrinter q f).office = s.office := rfl
@[simp] theorem State.modPrinter_segPlans (s : State) (q : QueueNo) (f : Printer → Printer) : (s.modPrinter q f).segPlans = s.segPlans := rfl
@[simp] theorem State.modPrinter_dir (s : State) (q : QueueNo) (f : Printer → Printer) : (s.modPrinter q f).dir = s.dir := rfl
@[simp] theorem State.modPrinter_sup (s : State) (q : QueueNo) (f : Printer → Printer) : (s.modPrinter q f).sup = s.sup := rfl
@[simp] theorem State.modPrinter_acct (s : State) (q : QueueNo) (f : Printer → Printer) : (s.modPrinter q f).acct = s.acct := rfl
@[simp] theorem State.modPrinter_ctl (s : State) (q : QueueNo) (f : Printer → Printer) : (s.modPrinter q f).ctl = s.ctl := rfl
@[simp] theorem State.modPrinter_alerts (s : State) (q : QueueNo) (f : Printer → Printer) : (s.modPrinter q f).alerts = s.alerts := rfl
@[simp] theorem State.modPrinter_seg (s : State) (q : QueueNo) (f : Printer → Printer) (u : SegNo) : (s.modPrinter q f).seg u = s.seg u := rfl
@[simp] theorem State.modPrinter_starPort (s : State) (q : QueueNo) (f : Printer → Printer) (v : StarNo) : (s.modPrinter q f).starPort v = s.starPort v := rfl
@[simp] theorem State.modPrinter_buf (s : State) (q : QueueNo) (f : Printer → Printer) (i : BufId) : (s.modPrinter q f).buf i = s.buf i := rfl
@[simp] theorem State.modPrinter_port (s : State) (q : QueueNo) (f : Printer → Printer) (r : PortNo) : (s.modPrinter q f).port r = s.port r := rfl
@[simp] theorem State.modPrinter_isRunning (s : State) (q : QueueNo) (f : Printer → Printer) : (s.modPrinter q f).isRunning = s.isRunning := rfl
@[simp] theorem State.modPrinter_print_ticketsOpened (s : State) (q : QueueNo) (f : Printer → Printer) : (s.modPrinter q f).print.ticketsOpened = s.print.ticketsOpened := rfl
@[simp] theorem State.modPrinter_print_openRefused (s : State) (q : QueueNo) (f : Printer → Printer) : (s.modPrinter q f).print.openRefused = s.print.openRefused := rfl
@[simp] theorem State.modPrinter_print_feeds (s : State) (q : QueueNo) (f : Printer → Printer) : (s.modPrinter q f).print.feeds = s.print.feeds := rfl
@[simp] theorem State.modPrinter_print_answerLost (s : State) (q : QueueNo) (f : Printer → Printer) : (s.modPrinter q f).print.answerLost = s.print.answerLost := rfl
@[simp] theorem State.modPrinter_print_endingLost (s : State) (q : QueueNo) (f : Printer → Printer) : (s.modPrinter q f).print.endingLost = s.print.endingLost := rfl

/-! ## `State.modLive` -/

@[simp] theorem State.modLive_pending (s : State) (cc : Fin 16) (f : CostSet → CostSet) : (s.modLive cc f).pending = s.pending := rfl
@[simp] theorem State.modLive_chassis (s : State) (cc : Fin 16) (f : CostSet → CostSet) : (s.modLive cc f).chassis = s.chassis := rfl
@[simp] theorem State.modLive_trunk (s : State) (cc : Fin 16) (f : CostSet → CostSet) : (s.modLive cc f).trunk = s.trunk := rfl
@[simp] theorem State.modLive_star (s : State) (cc : Fin 16) (f : CostSet → CostSet) : (s.modLive cc f).star = s.star := rfl
@[simp] theorem State.modLive_bufs (s : State) (cc : Fin 16) (f : CostSet → CostSet) : (s.modLive cc f).bufs = s.bufs := rfl
@[simp] theorem State.modLive_inputs (s : State) (cc : Fin 16) (f : CostSet → CostSet) : (s.modLive cc f).inputs = s.inputs := rfl
@[simp] theorem State.modLive_drops (s : State) (cc : Fin 16) (f : CostSet → CostSet) : (s.modLive cc f).drops = s.drops := rfl
@[simp] theorem State.modLive_office (s : State) (cc : Fin 16) (f : CostSet → CostSet) : (s.modLive cc f).office = s.office := rfl
@[simp] theorem State.modLive_segPlans (s : State) (cc : Fin 16) (f : CostSet → CostSet) : (s.modLive cc f).segPlans = s.segPlans := rfl
@[simp] theorem State.modLive_dir (s : State) (cc : Fin 16) (f : CostSet → CostSet) : (s.modLive cc f).dir = s.dir := rfl
@[simp] theorem State.modLive_sup (s : State) (cc : Fin 16) (f : CostSet → CostSet) : (s.modLive cc f).sup = s.sup := rfl
@[simp] theorem State.modLive_print (s : State) (cc : Fin 16) (f : CostSet → CostSet) : (s.modLive cc f).print = s.print := rfl
@[simp] theorem State.modLive_ctl (s : State) (cc : Fin 16) (f : CostSet → CostSet) : (s.modLive cc f).ctl = s.ctl := rfl
@[simp] theorem State.modLive_alerts (s : State) (cc : Fin 16) (f : CostSet → CostSet) : (s.modLive cc f).alerts = s.alerts := rfl
@[simp] theorem State.modLive_seg (s : State) (cc : Fin 16) (f : CostSet → CostSet) (u : SegNo) : (s.modLive cc f).seg u = s.seg u := rfl
@[simp] theorem State.modLive_starPort (s : State) (cc : Fin 16) (f : CostSet → CostSet) (v : StarNo) : (s.modLive cc f).starPort v = s.starPort v := rfl
@[simp] theorem State.modLive_buf (s : State) (cc : Fin 16) (f : CostSet → CostSet) (i : BufId) : (s.modLive cc f).buf i = s.buf i := rfl
@[simp] theorem State.modLive_port (s : State) (cc : Fin 16) (f : CostSet → CostSet) (r : PortNo) : (s.modLive cc f).port r = s.port r := rfl
@[simp] theorem State.modLive_printer (s : State) (cc : Fin 16) (f : CostSet → CostSet) (v : QueueNo) : (s.modLive cc f).printer v = s.printer v := rfl
@[simp] theorem State.modLive_isRunning (s : State) (cc : Fin 16) (f : CostSet → CostSet) : (s.modLive cc f).isRunning = s.isRunning := rfl
@[simp] theorem State.modLive_acct_hold (s : State) (cc : Fin 16) (f : CostSet → CostSet) : (s.modLive cc f).acct.hold = s.acct.hold := rfl
@[simp] theorem State.modLive_acct_snapshot (s : State) (cc : Fin 16) (f : CostSet → CostSet) : (s.modLive cc f).acct.snapshot = s.acct.snapshot := rfl

/-! ## `State.modPresence` -/

@[simp] theorem State.modPresence_pending (s : State) (f : PresenceCounters → PresenceCounters) : (s.modPresence f).pending = s.pending := rfl
@[simp] theorem State.modPresence_chassis (s : State) (f : PresenceCounters → PresenceCounters) : (s.modPresence f).chassis = s.chassis := rfl
@[simp] theorem State.modPresence_trunk (s : State) (f : PresenceCounters → PresenceCounters) : (s.modPresence f).trunk = s.trunk := rfl
@[simp] theorem State.modPresence_star (s : State) (f : PresenceCounters → PresenceCounters) : (s.modPresence f).star = s.star := rfl
@[simp] theorem State.modPresence_bufs (s : State) (f : PresenceCounters → PresenceCounters) : (s.modPresence f).bufs = s.bufs := rfl
@[simp] theorem State.modPresence_inputs (s : State) (f : PresenceCounters → PresenceCounters) : (s.modPresence f).inputs = s.inputs := rfl
@[simp] theorem State.modPresence_drops (s : State) (f : PresenceCounters → PresenceCounters) : (s.modPresence f).drops = s.drops := rfl
@[simp] theorem State.modPresence_office (s : State) (f : PresenceCounters → PresenceCounters) : (s.modPresence f).office = s.office := rfl
@[simp] theorem State.modPresence_segPlans (s : State) (f : PresenceCounters → PresenceCounters) : (s.modPresence f).segPlans = s.segPlans := rfl
@[simp] theorem State.modPresence_sup (s : State) (f : PresenceCounters → PresenceCounters) : (s.modPresence f).sup = s.sup := rfl
@[simp] theorem State.modPresence_print (s : State) (f : PresenceCounters → PresenceCounters) : (s.modPresence f).print = s.print := rfl
@[simp] theorem State.modPresence_acct (s : State) (f : PresenceCounters → PresenceCounters) : (s.modPresence f).acct = s.acct := rfl
@[simp] theorem State.modPresence_ctl (s : State) (f : PresenceCounters → PresenceCounters) : (s.modPresence f).ctl = s.ctl := rfl
@[simp] theorem State.modPresence_alerts (s : State) (f : PresenceCounters → PresenceCounters) : (s.modPresence f).alerts = s.alerts := rfl
@[simp] theorem State.modPresence_seg (s : State) (f : PresenceCounters → PresenceCounters) (u : SegNo) : (s.modPresence f).seg u = s.seg u := rfl
@[simp] theorem State.modPresence_starPort (s : State) (f : PresenceCounters → PresenceCounters) (v : StarNo) : (s.modPresence f).starPort v = s.starPort v := rfl
@[simp] theorem State.modPresence_buf (s : State) (f : PresenceCounters → PresenceCounters) (i : BufId) : (s.modPresence f).buf i = s.buf i := rfl
@[simp] theorem State.modPresence_port (s : State) (f : PresenceCounters → PresenceCounters) (r : PortNo) : (s.modPresence f).port r = s.port r := rfl
@[simp] theorem State.modPresence_printer (s : State) (f : PresenceCounters → PresenceCounters) (v : QueueNo) : (s.modPresence f).printer v = s.printer v := rfl
@[simp] theorem State.modPresence_isRunning (s : State) (f : PresenceCounters → PresenceCounters) : (s.modPresence f).isRunning = s.isRunning := rfl
@[simp] theorem State.modPresence_dir_entries (s : State) (f : PresenceCounters → PresenceCounters) : (s.modPresence f).dir.entries = s.dir.entries := rfl
@[simp] theorem State.modPresence_dir_pool (s : State) (f : PresenceCounters → PresenceCounters) : (s.modPresence f).dir.pool = s.dir.pool := rfl

/-! ## `State.modEntry` -/

@[simp] theorem State.modEntry_pending (s : State) (c : DeskCode) (f : Entry → Entry) : (s.modEntry c f).pending = s.pending := rfl
@[simp] theorem State.modEntry_chassis (s : State) (c : DeskCode) (f : Entry → Entry) : (s.modEntry c f).chassis = s.chassis := rfl
@[simp] theorem State.modEntry_trunk (s : State) (c : DeskCode) (f : Entry → Entry) : (s.modEntry c f).trunk = s.trunk := rfl
@[simp] theorem State.modEntry_star (s : State) (c : DeskCode) (f : Entry → Entry) : (s.modEntry c f).star = s.star := rfl
@[simp] theorem State.modEntry_bufs (s : State) (c : DeskCode) (f : Entry → Entry) : (s.modEntry c f).bufs = s.bufs := rfl
@[simp] theorem State.modEntry_inputs (s : State) (c : DeskCode) (f : Entry → Entry) : (s.modEntry c f).inputs = s.inputs := rfl
@[simp] theorem State.modEntry_drops (s : State) (c : DeskCode) (f : Entry → Entry) : (s.modEntry c f).drops = s.drops := rfl
@[simp] theorem State.modEntry_office (s : State) (c : DeskCode) (f : Entry → Entry) : (s.modEntry c f).office = s.office := rfl
@[simp] theorem State.modEntry_segPlans (s : State) (c : DeskCode) (f : Entry → Entry) : (s.modEntry c f).segPlans = s.segPlans := rfl
@[simp] theorem State.modEntry_sup (s : State) (c : DeskCode) (f : Entry → Entry) : (s.modEntry c f).sup = s.sup := rfl
@[simp] theorem State.modEntry_print (s : State) (c : DeskCode) (f : Entry → Entry) : (s.modEntry c f).print = s.print := rfl
@[simp] theorem State.modEntry_acct (s : State) (c : DeskCode) (f : Entry → Entry) : (s.modEntry c f).acct = s.acct := rfl
@[simp] theorem State.modEntry_ctl (s : State) (c : DeskCode) (f : Entry → Entry) : (s.modEntry c f).ctl = s.ctl := rfl
@[simp] theorem State.modEntry_alerts (s : State) (c : DeskCode) (f : Entry → Entry) : (s.modEntry c f).alerts = s.alerts := rfl
@[simp] theorem State.modEntry_seg (s : State) (c : DeskCode) (f : Entry → Entry) (u : SegNo) : (s.modEntry c f).seg u = s.seg u := rfl
@[simp] theorem State.modEntry_starPort (s : State) (c : DeskCode) (f : Entry → Entry) (v : StarNo) : (s.modEntry c f).starPort v = s.starPort v := rfl
@[simp] theorem State.modEntry_buf (s : State) (c : DeskCode) (f : Entry → Entry) (i : BufId) : (s.modEntry c f).buf i = s.buf i := rfl
@[simp] theorem State.modEntry_port (s : State) (c : DeskCode) (f : Entry → Entry) (r : PortNo) : (s.modEntry c f).port r = s.port r := rfl
@[simp] theorem State.modEntry_printer (s : State) (c : DeskCode) (f : Entry → Entry) (v : QueueNo) : (s.modEntry c f).printer v = s.printer v := rfl
@[simp] theorem State.modEntry_isRunning (s : State) (c : DeskCode) (f : Entry → Entry) : (s.modEntry c f).isRunning = s.isRunning := rfl
@[simp] theorem State.modEntry_dir_pool (s : State) (c : DeskCode) (f : Entry → Entry) : (s.modEntry c f).dir.pool = s.dir.pool := rfl
@[simp] theorem State.modEntry_dir_counters (s : State) (c : DeskCode) (f : Entry → Entry) : (s.modEntry c f).dir.counters = s.dir.counters := rfl

/-! ## `State.dropEntry` -/

@[simp] theorem State.dropEntry_pending (s : State) (c : DeskCode) : (s.dropEntry c).pending = s.pending := rfl
@[simp] theorem State.dropEntry_chassis (s : State) (c : DeskCode) : (s.dropEntry c).chassis = s.chassis := rfl
@[simp] theorem State.dropEntry_trunk (s : State) (c : DeskCode) : (s.dropEntry c).trunk = s.trunk := rfl
@[simp] theorem State.dropEntry_star (s : State) (c : DeskCode) : (s.dropEntry c).star = s.star := rfl
@[simp] theorem State.dropEntry_bufs (s : State) (c : DeskCode) : (s.dropEntry c).bufs = s.bufs := rfl
@[simp] theorem State.dropEntry_inputs (s : State) (c : DeskCode) : (s.dropEntry c).inputs = s.inputs := rfl
@[simp] theorem State.dropEntry_drops (s : State) (c : DeskCode) : (s.dropEntry c).drops = s.drops := rfl
@[simp] theorem State.dropEntry_office (s : State) (c : DeskCode) : (s.dropEntry c).office = s.office := rfl
@[simp] theorem State.dropEntry_segPlans (s : State) (c : DeskCode) : (s.dropEntry c).segPlans = s.segPlans := rfl
@[simp] theorem State.dropEntry_sup (s : State) (c : DeskCode) : (s.dropEntry c).sup = s.sup := rfl
@[simp] theorem State.dropEntry_print (s : State) (c : DeskCode) : (s.dropEntry c).print = s.print := rfl
@[simp] theorem State.dropEntry_acct (s : State) (c : DeskCode) : (s.dropEntry c).acct = s.acct := rfl
@[simp] theorem State.dropEntry_ctl (s : State) (c : DeskCode) : (s.dropEntry c).ctl = s.ctl := rfl
@[simp] theorem State.dropEntry_alerts (s : State) (c : DeskCode) : (s.dropEntry c).alerts = s.alerts := rfl
@[simp] theorem State.dropEntry_seg (s : State) (c : DeskCode) (u : SegNo) : (s.dropEntry c).seg u = s.seg u := rfl
@[simp] theorem State.dropEntry_starPort (s : State) (c : DeskCode) (v : StarNo) : (s.dropEntry c).starPort v = s.starPort v := rfl
@[simp] theorem State.dropEntry_buf (s : State) (c : DeskCode) (i : BufId) : (s.dropEntry c).buf i = s.buf i := rfl
@[simp] theorem State.dropEntry_port (s : State) (c : DeskCode) (r : PortNo) : (s.dropEntry c).port r = s.port r := rfl
@[simp] theorem State.dropEntry_printer (s : State) (c : DeskCode) (v : QueueNo) : (s.dropEntry c).printer v = s.printer v := rfl
@[simp] theorem State.dropEntry_isRunning (s : State) (c : DeskCode) : (s.dropEntry c).isRunning = s.isRunning := rfl
@[simp] theorem State.dropEntry_dir_pool (s : State) (c : DeskCode) : (s.dropEntry c).dir.pool = s.dir.pool := rfl
@[simp] theorem State.dropEntry_dir_counters (s : State) (c : DeskCode) : (s.dropEntry c).dir.counters = s.dir.counters := rfl

/-! ## `State.addEntry` -/

@[simp] theorem State.addEntry_pending (s : State) (e : Entry) : (s.addEntry e).pending = s.pending := rfl
@[simp] theorem State.addEntry_chassis (s : State) (e : Entry) : (s.addEntry e).chassis = s.chassis := rfl
@[simp] theorem State.addEntry_trunk (s : State) (e : Entry) : (s.addEntry e).trunk = s.trunk := rfl
@[simp] theorem State.addEntry_star (s : State) (e : Entry) : (s.addEntry e).star = s.star := rfl
@[simp] theorem State.addEntry_bufs (s : State) (e : Entry) : (s.addEntry e).bufs = s.bufs := rfl
@[simp] theorem State.addEntry_inputs (s : State) (e : Entry) : (s.addEntry e).inputs = s.inputs := rfl
@[simp] theorem State.addEntry_drops (s : State) (e : Entry) : (s.addEntry e).drops = s.drops := rfl
@[simp] theorem State.addEntry_office (s : State) (e : Entry) : (s.addEntry e).office = s.office := rfl
@[simp] theorem State.addEntry_segPlans (s : State) (e : Entry) : (s.addEntry e).segPlans = s.segPlans := rfl
@[simp] theorem State.addEntry_sup (s : State) (e : Entry) : (s.addEntry e).sup = s.sup := rfl
@[simp] theorem State.addEntry_print (s : State) (e : Entry) : (s.addEntry e).print = s.print := rfl
@[simp] theorem State.addEntry_acct (s : State) (e : Entry) : (s.addEntry e).acct = s.acct := rfl
@[simp] theorem State.addEntry_ctl (s : State) (e : Entry) : (s.addEntry e).ctl = s.ctl := rfl
@[simp] theorem State.addEntry_alerts (s : State) (e : Entry) : (s.addEntry e).alerts = s.alerts := rfl
@[simp] theorem State.addEntry_seg (s : State) (e : Entry) (u : SegNo) : (s.addEntry e).seg u = s.seg u := rfl
@[simp] theorem State.addEntry_starPort (s : State) (e : Entry) (v : StarNo) : (s.addEntry e).starPort v = s.starPort v := rfl
@[simp] theorem State.addEntry_buf (s : State) (e : Entry) (i : BufId) : (s.addEntry e).buf i = s.buf i := rfl
@[simp] theorem State.addEntry_port (s : State) (e : Entry) (r : PortNo) : (s.addEntry e).port r = s.port r := rfl
@[simp] theorem State.addEntry_printer (s : State) (e : Entry) (v : QueueNo) : (s.addEntry e).printer v = s.printer v := rfl
@[simp] theorem State.addEntry_isRunning (s : State) (e : Entry) : (s.addEntry e).isRunning = s.isRunning := rfl
@[simp] theorem State.addEntry_dir_counters (s : State) (e : Entry) : (s.addEntry e).dir.counters = s.dir.counters := rfl

/-! ## `State.toPool` -/

@[simp] theorem State.toPool_pending (s : State) (c : DeskCode) : (s.toPool c).pending = s.pending := rfl
@[simp] theorem State.toPool_chassis (s : State) (c : DeskCode) : (s.toPool c).chassis = s.chassis := rfl
@[simp] theorem State.toPool_trunk (s : State) (c : DeskCode) : (s.toPool c).trunk = s.trunk := rfl
@[simp] theorem State.toPool_star (s : State) (c : DeskCode) : (s.toPool c).star = s.star := rfl
@[simp] theorem State.toPool_bufs (s : State) (c : DeskCode) : (s.toPool c).bufs = s.bufs := rfl
@[simp] theorem State.toPool_inputs (s : State) (c : DeskCode) : (s.toPool c).inputs = s.inputs := rfl
@[simp] theorem State.toPool_drops (s : State) (c : DeskCode) : (s.toPool c).drops = s.drops := rfl
@[simp] theorem State.toPool_office (s : State) (c : DeskCode) : (s.toPool c).office = s.office := rfl
@[simp] theorem State.toPool_segPlans (s : State) (c : DeskCode) : (s.toPool c).segPlans = s.segPlans := rfl
@[simp] theorem State.toPool_sup (s : State) (c : DeskCode) : (s.toPool c).sup = s.sup := rfl
@[simp] theorem State.toPool_print (s : State) (c : DeskCode) : (s.toPool c).print = s.print := rfl
@[simp] theorem State.toPool_acct (s : State) (c : DeskCode) : (s.toPool c).acct = s.acct := rfl
@[simp] theorem State.toPool_ctl (s : State) (c : DeskCode) : (s.toPool c).ctl = s.ctl := rfl
@[simp] theorem State.toPool_alerts (s : State) (c : DeskCode) : (s.toPool c).alerts = s.alerts := rfl
@[simp] theorem State.toPool_seg (s : State) (c : DeskCode) (u : SegNo) : (s.toPool c).seg u = s.seg u := rfl
@[simp] theorem State.toPool_starPort (s : State) (c : DeskCode) (v : StarNo) : (s.toPool c).starPort v = s.starPort v := rfl
@[simp] theorem State.toPool_buf (s : State) (c : DeskCode) (i : BufId) : (s.toPool c).buf i = s.buf i := rfl
@[simp] theorem State.toPool_port (s : State) (c : DeskCode) (r : PortNo) : (s.toPool c).port r = s.port r := rfl
@[simp] theorem State.toPool_printer (s : State) (c : DeskCode) (v : QueueNo) : (s.toPool c).printer v = s.printer v := rfl
@[simp] theorem State.toPool_isRunning (s : State) (c : DeskCode) : (s.toPool c).isRunning = s.isRunning := rfl
@[simp] theorem State.toPool_dir_entries (s : State) (c : DeskCode) : (s.toPool c).dir.entries = s.dir.entries := rfl
@[simp] theorem State.toPool_dir_counters (s : State) (c : DeskCode) : (s.toPool c).dir.counters = s.dir.counters := rfl

/-! ## `State.advance` -/

@[simp] theorem State.advance_pending (s : State) (dt : Nat) : (s.advance dt).pending = s.pending := rfl
@[simp] theorem State.advance_trunk (s : State) (dt : Nat) : (s.advance dt).trunk = s.trunk := rfl
@[simp] theorem State.advance_star (s : State) (dt : Nat) : (s.advance dt).star = s.star := rfl
@[simp] theorem State.advance_bufs (s : State) (dt : Nat) : (s.advance dt).bufs = s.bufs := rfl
@[simp] theorem State.advance_inputs (s : State) (dt : Nat) : (s.advance dt).inputs = s.inputs := rfl
@[simp] theorem State.advance_drops (s : State) (dt : Nat) : (s.advance dt).drops = s.drops := rfl
@[simp] theorem State.advance_office (s : State) (dt : Nat) : (s.advance dt).office = s.office := rfl
@[simp] theorem State.advance_segPlans (s : State) (dt : Nat) : (s.advance dt).segPlans = s.segPlans := rfl
@[simp] theorem State.advance_dir (s : State) (dt : Nat) : (s.advance dt).dir = s.dir := rfl
@[simp] theorem State.advance_sup (s : State) (dt : Nat) : (s.advance dt).sup = s.sup := rfl
@[simp] theorem State.advance_print (s : State) (dt : Nat) : (s.advance dt).print = s.print := rfl
@[simp] theorem State.advance_acct (s : State) (dt : Nat) : (s.advance dt).acct = s.acct := rfl
@[simp] theorem State.advance_ctl (s : State) (dt : Nat) : (s.advance dt).ctl = s.ctl := rfl
@[simp] theorem State.advance_alerts (s : State) (dt : Nat) : (s.advance dt).alerts = s.alerts := rfl
@[simp] theorem State.advance_seg (s : State) (dt : Nat) (u : SegNo) : (s.advance dt).seg u = s.seg u := rfl
@[simp] theorem State.advance_starPort (s : State) (dt : Nat) (v : StarNo) : (s.advance dt).starPort v = s.starPort v := rfl
@[simp] theorem State.advance_buf (s : State) (dt : Nat) (i : BufId) : (s.advance dt).buf i = s.buf i := rfl
@[simp] theorem State.advance_port (s : State) (dt : Nat) (r : PortNo) : (s.advance dt).port r = s.port r := rfl
@[simp] theorem State.advance_printer (s : State) (dt : Nat) (v : QueueNo) : (s.advance dt).printer v = s.printer v := rfl
@[simp] theorem State.advance_isRunning (s : State) (dt : Nat) : (s.advance dt).isRunning = s.isRunning := rfl
@[simp] theorem State.advance_chassis_run (s : State) (dt : Nat) : (s.advance dt).chassis.run = s.chassis.run := rfl
@[simp] theorem State.advance_chassis_panelAsserted (s : State) (dt : Nat) : (s.advance dt).chassis.panelAsserted = s.chassis.panelAsserted := rfl
@[simp] theorem State.advance_chassis_causes (s : State) (dt : Nat) : (s.advance dt).chassis.causes = s.chassis.causes := rfl
@[simp] theorem State.advance_chassis_unitNumber (s : State) (dt : Nat) : (s.advance dt).chassis.unitNumber = s.chassis.unitNumber := rfl
@[simp] theorem State.advance_chassis_store (s : State) (dt : Nat) : (s.advance dt).chassis.store = s.chassis.store := rfl
@[simp] theorem State.advance_chassis_ticks (s : State) (dt : Nat) : (s.advance dt).chassis.ticks = s.chassis.ticks := rfl
@[simp] theorem State.advance_chassis_now (s : State) (dt : Nat) : (s.advance dt).chassis.now = s.chassis.now + dt := rfl

/-! ## `State.elapse` -/

@[simp] theorem State.elapse_pending (s : State) (dt : Elapsed) : (s.elapse dt).pending = s.pending := rfl
@[simp] theorem State.elapse_star (s : State) (dt : Elapsed) : (s.elapse dt).star = s.star := rfl
@[simp] theorem State.elapse_bufs (s : State) (dt : Elapsed) : (s.elapse dt).bufs = s.bufs := rfl
@[simp] theorem State.elapse_inputs (s : State) (dt : Elapsed) : (s.elapse dt).inputs = s.inputs := rfl
@[simp] theorem State.elapse_drops (s : State) (dt : Elapsed) : (s.elapse dt).drops = s.drops := rfl
@[simp] theorem State.elapse_office (s : State) (dt : Elapsed) : (s.elapse dt).office = s.office := rfl
@[simp] theorem State.elapse_segPlans (s : State) (dt : Elapsed) : (s.elapse dt).segPlans = s.segPlans := rfl
@[simp] theorem State.elapse_dir (s : State) (dt : Elapsed) : (s.elapse dt).dir = s.dir := rfl
@[simp] theorem State.elapse_sup (s : State) (dt : Elapsed) : (s.elapse dt).sup = s.sup := rfl
@[simp] theorem State.elapse_print (s : State) (dt : Elapsed) : (s.elapse dt).print = s.print := rfl
@[simp] theorem State.elapse_acct (s : State) (dt : Elapsed) : (s.elapse dt).acct = s.acct := rfl
@[simp] theorem State.elapse_ctl (s : State) (dt : Elapsed) : (s.elapse dt).ctl = s.ctl := rfl
@[simp] theorem State.elapse_alerts (s : State) (dt : Elapsed) : (s.elapse dt).alerts = s.alerts := rfl
@[simp] theorem State.elapse_isRunning (s : State) (dt : Elapsed) : (s.elapse dt).isRunning = s.isRunning := rfl
@[simp] theorem State.elapse_trunk_holder (s : State) (dt : Elapsed) : (s.elapse dt).trunk.holder = s.trunk.holder := rfl
@[simp] theorem State.elapse_trunk_truncate (s : State) (dt : Elapsed) : (s.elapse dt).trunk.truncate = s.trunk.truncate := rfl
@[simp] theorem State.elapse_trunk_queue (s : State) (dt : Elapsed) : (s.elapse dt).trunk.queue = s.trunk.queue := rfl
@[simp] theorem State.elapse_trunk_attempts (s : State) (dt : Elapsed) : (s.elapse dt).trunk.attempts = s.trunk.attempts := rfl
@[simp] theorem State.elapse_trunk_onWire (s : State) (dt : Elapsed) : (s.elapse dt).trunk.onWire = s.trunk.onWire := rfl
@[simp] theorem State.elapse_trunk_counters (s : State) (dt : Elapsed) : (s.elapse dt).trunk.counters = s.trunk.counters := rfl
@[simp] theorem State.elapse_chassis (s : State) (dt : Elapsed) : (s.elapse dt).chassis = (s.advance dt.ticks).chassis := rfl
@[simp] theorem State.elapse_starPort (s : State) (dt : Elapsed) (v : StarNo) : (s.elapse dt).starPort v = s.starPort v := rfl
@[simp] theorem State.elapse_buf (s : State) (dt : Elapsed) (i : BufId) : (s.elapse dt).buf i = s.buf i := rfl
@[simp] theorem State.elapse_port (s : State) (dt : Elapsed) (r : PortNo) : (s.elapse dt).port r = s.port r := rfl
@[simp] theorem State.elapse_printer (s : State) (dt : Elapsed) (v : QueueNo) : (s.elapse dt).printer v = s.printer v := rfl
@[simp] theorem State.elapse_seg (s : State) (dt : Elapsed) (t : SegNo) :
    (s.elapse dt).seg t = (s.seg t).noteEdges dt.edges[t.val] := noteAllEdges_seg _ _ _

/-! ## `State.withPending` -/

@[simp] theorem State.withPending_chassis (s : State) (l : List Instr) : (s.withPending l).chassis = s.chassis := rfl
@[simp] theorem State.withPending_trunk (s : State) (l : List Instr) : (s.withPending l).trunk = s.trunk := rfl
@[simp] theorem State.withPending_star (s : State) (l : List Instr) : (s.withPending l).star = s.star := rfl
@[simp] theorem State.withPending_bufs (s : State) (l : List Instr) : (s.withPending l).bufs = s.bufs := rfl
@[simp] theorem State.withPending_inputs (s : State) (l : List Instr) : (s.withPending l).inputs = s.inputs := rfl
@[simp] theorem State.withPending_drops (s : State) (l : List Instr) : (s.withPending l).drops = s.drops := rfl
@[simp] theorem State.withPending_office (s : State) (l : List Instr) : (s.withPending l).office = s.office := rfl
@[simp] theorem State.withPending_segPlans (s : State) (l : List Instr) : (s.withPending l).segPlans = s.segPlans := rfl
@[simp] theorem State.withPending_dir (s : State) (l : List Instr) : (s.withPending l).dir = s.dir := rfl
@[simp] theorem State.withPending_sup (s : State) (l : List Instr) : (s.withPending l).sup = s.sup := rfl
@[simp] theorem State.withPending_print (s : State) (l : List Instr) : (s.withPending l).print = s.print := rfl
@[simp] theorem State.withPending_acct (s : State) (l : List Instr) : (s.withPending l).acct = s.acct := rfl
@[simp] theorem State.withPending_ctl (s : State) (l : List Instr) : (s.withPending l).ctl = s.ctl := rfl
@[simp] theorem State.withPending_alerts (s : State) (l : List Instr) : (s.withPending l).alerts = s.alerts := rfl
@[simp] theorem State.withPending_seg (s : State) (l : List Instr) (u : SegNo) : (s.withPending l).seg u = s.seg u := rfl
@[simp] theorem State.withPending_starPort (s : State) (l : List Instr) (v : StarNo) : (s.withPending l).starPort v = s.starPort v := rfl
@[simp] theorem State.withPending_buf (s : State) (l : List Instr) (i : BufId) : (s.withPending l).buf i = s.buf i := rfl
@[simp] theorem State.withPending_port (s : State) (l : List Instr) (r : PortNo) : (s.withPending l).port r = s.port r := rfl
@[simp] theorem State.withPending_printer (s : State) (l : List Instr) (v : QueueNo) : (s.withPending l).printer v = s.printer v := rfl
@[simp] theorem State.withPending_isRunning (s : State) (l : List Instr) : (s.withPending l).isRunning = s.isRunning := rfl

/-! ## One element of a table changed -/

/-- The element changed reads as the change of what it was. -/
@[simp] theorem modAt_self {α : Type} {n : Nat} (v : Vector α n) (i : Fin n) (f : α → α) :
    (modAt v i f)[i.val] = f v[i.val] := by
  simp [modAt]

/-- Every other element reads as before. -/
theorem modAt_ne {α : Type} {n : Nat} (v : Vector α n) (i j : Fin n) (f : α → α) (h : j ≠ i) :
    (modAt v i f)[j.val] = v[j.val] := by
  simp only [modAt]
  exact Vector.getElem_set_ne i.isLt j.isLt (fun e => h (Fin.ext e.symm))

/-- Any element after one was changed. -/
theorem modAt_get {α : Type} {n : Nat} (v : Vector α n) (i j : Fin n) (f : α → α) :
    (modAt v i f)[j.val] = if j = i then f v[j.val] else v[j.val] := by
  split
  · next h => subst h; exact modAt_self v j f
  · next h => exact modAt_ne v i j f h

/-- A change that gives back what stood there is none. -/
theorem modAt_id {α : Type} {n : Nat} (v : Vector α n) (i : Fin n) (f : α → α) (h : f v[i.val] = v[i.val]) :
    modAt v i f = v := by
  simp [modAt, h]

/-- Two changes of one element are one change. -/
theorem modAt_modAt {α : Type} {n : Nat} (v : Vector α n) (i : Fin n) (f g : α → α) :
    modAt (modAt v i f) i g = modAt v i (fun x => g (f x)) := by
  simp [modAt]

/-! ## Elements of the state's tables -/

theorem State.seg_modSeg (s : State) (t u : SegNo) (f : Segment → Segment) :
    (s.modSeg t f).seg u = if u = t then f (s.seg u) else s.seg u := modAt_get _ _ _ _

@[simp] theorem State.seg_modSeg_self (s : State) (t : SegNo) (f : Segment → Segment) :
    (s.modSeg t f).seg t = f (s.seg t) := modAt_self _ _ _

theorem State.seg_modSeg_ne (s : State) {t u : SegNo} (f : Segment → Segment) (h : u ≠ t) :
    (s.modSeg t f).seg u = s.seg u := modAt_ne _ _ _ _ h

@[simp] theorem State.seg_mapSegs (s : State) (f : Segment → Segment) (u : SegNo) :
    (s.mapSegs f).seg u = f (s.seg u) := by simp [State.mapSegs, State.seg]

theorem State.starPort_modStar (s : State) (p v : StarNo) (f : StarPort → StarPort) :
    (s.modStar p f).starPort v = if v = p then f (s.starPort v) else s.starPort v := modAt_get _ _ _ _

@[simp] theorem State.starPort_modStar_self (s : State) (p : StarNo) (f : StarPort → StarPort) :
    (s.modStar p f).starPort p = f (s.starPort p) := modAt_self _ _ _

theorem State.starPort_modStar_ne (s : State) {p v : StarNo} (f : StarPort → StarPort) (h : v ≠ p) :
    (s.modStar p f).starPort v = s.starPort v := modAt_ne _ _ _ _ h

theorem State.buf_modBuf (s : State) (b i : BufId) (f : Buf → Buf) :
    (s.modBuf b f).buf i = if i = b then f (s.buf i) else s.buf i := modAt_get _ _ _ _

@[simp] theorem State.buf_modBuf_self (s : State) (b : BufId) (f : Buf → Buf) :
    (s.modBuf b f).buf b = f (s.buf b) := modAt_self _ _ _

theorem State.buf_modBuf_ne (s : State) {b i : BufId} (f : Buf → Buf) (h : i ≠ b) :
    (s.modBuf b f).buf i = s.buf i := modAt_ne _ _ _ _ h

theorem State.port_modPort (s : State) (q r : PortNo) (f : PortRec → PortRec) :
    (s.modPort q f).port r = if r = q then f (s.port r) else s.port r := modAt_get _ _ _ _

@[simp] theorem State.port_modPort_self (s : State) (q : PortNo) (f : PortRec → PortRec) :
    (s.modPort q f).port q = f (s.port q) := modAt_self _ _ _

theorem State.port_modPort_ne (s : State) {q r : PortNo} (f : PortRec → PortRec) (h : r ≠ q) :
    (s.modPort q f).port r = s.port r := modAt_ne _ _ _ _ h

theorem State.printer_modPrinter (s : State) (q v : QueueNo) (f : Printer → Printer) :
    (s.modPrinter q f).printer v = if v = q then f (s.printer v) else s.printer v := modAt_get _ _ _ _

@[simp] theorem State.printer_modPrinter_self (s : State) (q : QueueNo) (f : Printer → Printer) :
    (s.modPrinter q f).printer q = f (s.printer q) := modAt_self _ _ _

theorem State.printer_modPrinter_ne (s : State) {q v : QueueNo} (f : Printer → Printer) (h : v ≠ q) :
    (s.modPrinter q f).printer v = s.printer v := modAt_ne _ _ _ _ h

theorem State.live_modLive (s : State) (cc i : Fin 16) (f : CostSet → CostSet) :
    (s.modLive cc f).acct.live[i.val] = if i = cc then f s.acct.live[i.val] else s.acct.live[i.val] := modAt_get _ _ _ _

theorem State.drops_modDrops (s : State) (q r : PortNo) (f : Drops → Drops) :
    (s.modDrops q f).drops[r.val] = if r = q then f s.drops[r.val] else s.drops[r.val] := modAt_get _ _ _ _

/-! ## Transitions -/

/-- Transitions change the burst's record alone, and only in a burst (R11). -/
theorem Segment.noteEdges_eq (n : Nat) (g : Segment) :
    g.noteEdges n = { g with current := if g.phase = .burst
      then { g.current with edges := min (g.current.edges + n) 65535 } else g.current } := by
  unfold Segment.noteEdges Segment.addEdges
  split <;> rfl

@[simp] theorem Segment.noteEdges_phase (n : Nat) (g : Segment) : (g.noteEdges n).phase = g.phase := by
  rw [Segment.noteEdges_eq]

@[simp] theorem Segment.noteEdges_carrier (n : Nat) (g : Segment) : (g.noteEdges n).carrier = g.carrier := by
  rw [Segment.noteEdges_eq]

@[simp] theorem Segment.noteEdges_driven (n : Nat) (g : Segment) : (g.noteEdges n).driven = g.driven := by
  rw [Segment.noteEdges_eq]

/-! ## What depends on a few fields -/

/-- What is connected depends on the supervision records alone. -/
theorem segConnected_congr {s u : State} (h : u.sup.ports = s.sup.ports) (t : SegNo) : segConnected u t = segConnected s t := by
  simp [segConnected, State.port, h]

theorem trunkDown_congr {s u : State} (h : u.sup.ports = s.sup.ports) : trunkDown u = trunkDown s := by
  simp [trunkDown, segConnected_congr h]

/-- A star port is connected by its record and its link. -/
theorem starConnected_congr {s u : State} (h : u.sup.ports = s.sup.ports) (p : StarNo)
    (hl : (u.starPort p).link = (s.starPort p).link) : starConnected u p = starConnected s p := by
  simp [starConnected, State.port, h, hl]

/-- The directory's lookups depend on its entries alone. -/
theorem findEntry_congr {s u : State} (h : u.dir.entries = s.dir.entries) (c : DeskCode) : findEntry u c = findEntry s c := by
  simp [findEntry, h]

theorem indexEntry_congr {s u : State} (h : u.dir.entries = s.dir.entries) (x : StationId) :
    indexEntry u x = indexEntry s x := by
  simp [indexEntry, h]

theorem senderOf_congr {s u : State} (h : u.dir.entries = s.dir.entries) (r : Route) : senderOf u r = senderOf s r := by
  cases r <;> simp [senderOf, findEntry_congr h, indexEntry_congr h]

/-- Whether a home is connected depends on the supervision records and the links. -/
theorem homeConnected_congr {s u : State} (h : u.sup.ports = s.sup.ports)
    (hl : ∀ p, (u.starPort p).link = (s.starPort p).link) (e : Entry) : homeConnected u e = homeConnected s e := by
  unfold homeConnected
  split
  · exact segConnected_congr h _
  · exact starConnected_congr h _ (hl _)
  · rfl

/-- What is reachable depends on the entries, the supervision records and the links. -/
theorem reachable_congr {s u : State} (hd : u.dir.entries = s.dir.entries) (h : u.sup.ports = s.sup.ports)
    (hl : ∀ p, (u.starPort p).link = (s.starPort p).link) (c : DeskCode) : reachable u c = reachable s c := by
  simp [reachable, findEntry_congr hd, entryReachable, homeConnected_congr h hl]

end Sys2Proof.Machine
end

