-- ==== Sys2Proof/Laws/Sends.lean ====
section
/-!
SUPPORT. What sending a message of the bridge's own can change (`OnlySends`), for each operation that builds, offers or
releases a reference.
-/

namespace Sys2Proof.Machine

/-! ## The relation -/

/-- `OnlySends`, field by field. -/
theorem onlySends_iff (s t : State) : OnlySends s t ↔
    t.pending = s.pending ∧ t.chassis = s.chassis ∧ t.inputs = s.inputs ∧ t.drops = s.drops ∧ t.office = s.office
      ∧ t.segPlans = s.segPlans ∧ t.dir = s.dir ∧ t.sup = s.sup ∧ t.acct = s.acct ∧ t.alerts = s.alerts
      ∧ t.trunk = { s.trunk with queue := t.trunk.queue, counters := t.trunk.counters }
      ∧ t.ctl = { s.ctl with answerLost := t.ctl.answerLost }
      ∧ t.print = { s.print with answerLost := t.print.answerLost, endingLost := t.print.endingLost }
      ∧ ∀ p, t.starPort p = { s.starPort p with queue := (t.starPort p).queue, counters := (t.starPort p).counters } := by
  constructor
  · rintro ⟨h, hs⟩
    rw [h] at hs ⊢
    exact ⟨rfl, rfl, rfl, rfl, rfl, rfl, rfl, rfl, rfl, rfl, rfl, rfl, rfl, hs⟩
  · rintro ⟨h1, h2, h3, h4, h5, h6, h7, h8, h9, h10, h11, h12, h13, hs⟩
    refine ⟨?_, hs⟩
    obtain ⟨a1, a2, a3, a4, a5, a6, a7, a8, a9, a10, a11, a12, a13, a14, a15⟩ := t
    simp only at h1 h2 h3 h4 h5 h6 h7 h8 h9 h10 h11 h12 h13
    subst h1 h2 h3 h4 h5 h6 h7 h8 h9 h10
    simp only [State.mk.injEq, true_and]
    exact ⟨h11, h13, h12, trivial⟩

theorem OnlySends.refl (s : State) : OnlySends s s := ⟨rfl, fun _ => rfl⟩

theorem OnlySends.trans {s t u : State} (h : OnlySends s t) (k : OnlySends t u) : OnlySends s u := by
  rw [onlySends_iff] at *
  obtain ⟨h1, h2, h3, h4, h5, h6, h7, h8, h9, h10, h11, h12, h13, hs⟩ := h
  obtain ⟨k1, k2, k3, k4, k5, k6, k7, k8, k9, k10, k11, k12, k13, ks⟩ := k
  refine ⟨k1.trans h1, k2.trans h2, k3.trans h3, k4.trans h4, k5.trans h5, k6.trans h6, k7.trans h7, k8.trans h8,
    k9.trans h9, k10.trans h10, ?_, ?_, ?_, fun p => ?_⟩
  · rw [h11] at k11; exact k11
  · rw [h12] at k12; exact k12
  · rw [h13] at k13; exact k13
  · have hp := hs p
    have kp := ks p
    rw [hp] at kp
    exact kp

/-- A list of steps that only send only sends. -/
theorem OnlySends.foldl {α : Type} (f : State → α → State) (hf : ∀ s a, OnlySends s (f s a)) (l : List α) (s : State) :
    OnlySends s (l.foldl f s) := by
  induction l generalizing s with
  | nil => exact .refl s
  | cons a l ih => exact (hf s a).trans (ih _)

/-! ## What `OnlySends` leaves -/

theorem OnlySends.pending {s t : State} (h : OnlySends s t) : t.pending = s.pending := ((onlySends_iff s t).1 h).1
theorem OnlySends.chassis {s t : State} (h : OnlySends s t) : t.chassis = s.chassis := ((onlySends_iff s t).1 h).2.1
theorem OnlySends.inputs {s t : State} (h : OnlySends s t) : t.inputs = s.inputs := ((onlySends_iff s t).1 h).2.2.1
theorem OnlySends.drops {s t : State} (h : OnlySends s t) : t.drops = s.drops := ((onlySends_iff s t).1 h).2.2.2.1
theorem OnlySends.office {s t : State} (h : OnlySends s t) : t.office = s.office := ((onlySends_iff s t).1 h).2.2.2.2.1
theorem OnlySends.segPlans {s t : State} (h : OnlySends s t) : t.segPlans = s.segPlans :=
  ((onlySends_iff s t).1 h).2.2.2.2.2.1
theorem OnlySends.dir {s t : State} (h : OnlySends s t) : t.dir = s.dir := ((onlySends_iff s t).1 h).2.2.2.2.2.2.1
theorem OnlySends.sup {s t : State} (h : OnlySends s t) : t.sup = s.sup := ((onlySends_iff s t).1 h).2.2.2.2.2.2.2.1
theorem OnlySends.acct {s t : State} (h : OnlySends s t) : t.acct = s.acct := ((onlySends_iff s t).1 h).2.2.2.2.2.2.2.2.1
theorem OnlySends.alerts {s t : State} (h : OnlySends s t) : t.alerts = s.alerts :=
  ((onlySends_iff s t).1 h).2.2.2.2.2.2.2.2.2.1
theorem OnlySends.trunk {s t : State} (h : OnlySends s t) :
    t.trunk = { s.trunk with queue := t.trunk.queue, counters := t.trunk.counters } :=
  ((onlySends_iff s t).1 h).2.2.2.2.2.2.2.2.2.2.1
theorem OnlySends.ctl {s t : State} (h : OnlySends s t) : t.ctl = { s.ctl with answerLost := t.ctl.answerLost } :=
  ((onlySends_iff s t).1 h).2.2.2.2.2.2.2.2.2.2.2.1
theorem OnlySends.print {s t : State} (h : OnlySends s t) :
    t.print = { s.print with answerLost := t.print.answerLost, endingLost := t.print.endingLost } :=
  ((onlySends_iff s t).1 h).2.2.2.2.2.2.2.2.2.2.2.2.1

theorem OnlySends.printer {s t : State} (h : OnlySends s t) (q : QueueNo) : t.printer q = s.printer q := by
  simp only [State.printer]; rw [h.print]

theorem OnlySends.port {s t : State} (h : OnlySends s t) (q : PortNo) : t.port q = s.port q := by
  simp only [State.port, h.sup]

theorem OnlySends.seg {s t : State} (h : OnlySends s t) (u : SegNo) : t.seg u = s.seg u := by
  simp only [State.seg]; rw [h.trunk]

theorem OnlySends.link {s t : State} (h : OnlySends s t) (p : StarNo) : (t.starPort p).link = (s.starPort p).link := by
  rw [h.2 p]

theorem OnlySends.isRunning {s t : State} (h : OnlySends s t) : t.isRunning = s.isRunning := by
  simp only [State.isRunning, h.chassis]

theorem OnlySends.segConnected {s t : State} (h : OnlySends s t) (u : SegNo) :
    Machine.segConnected t u = Machine.segConnected s u := segConnected_congr (by rw [h.sup]) u

theorem OnlySends.starConnected {s t : State} (h : OnlySends s t) (p : StarNo) :
    Machine.starConnected t p = Machine.starConnected s p := starConnected_congr (by rw [h.sup]) p (h.link p)

theorem OnlySends.findEntry {s t : State} (h : OnlySends s t) (c : DeskCode) :
    Machine.findEntry t c = Machine.findEntry s c := findEntry_congr (by rw [h.dir]) c

theorem OnlySends.reachable {s t : State} (h : OnlySends s t) (c : DeskCode) :
    Machine.reachable t c = Machine.reachable s c :=
  reachable_congr (by rw [h.dir]) (by rw [h.sup]) h.link c

/-! ## The operations -/

theorem onlySends_modBuf (b : BufId) (f : Buf → Buf) (s : State) : OnlySends s (s.modBuf b f) := ⟨rfl, fun _ => rfl⟩

theorem onlySends_modStar (p : StarNo) (f : StarPort → StarPort) (s : State)
    (hf : ∀ x, f x = { x with queue := (f x).queue, counters := (f x).counters }) : OnlySends s (s.modStar p f) := by
  refine ⟨rfl, fun v => ?_⟩
  rw [State.starPort_modStar]
  split
  · exact hf _
  · rfl

theorem onlySends_modTrunkCounters (f : TrunkCounters → TrunkCounters) (s : State) : OnlySends s (s.modTrunkCounters f) :=
  ⟨rfl, fun _ => rfl⟩

theorem onlySends_addRef (b : BufId) (s : State) : OnlySends s (addRef b s) := onlySends_modBuf _ _ _

/-- A released reference leaves every other buffer, and its own with one reference less or free (R45). -/
theorem buf_dropRef (b i : BufId) (s : State) :
    (dropRef b s).buf i = if i = b then (s.buf i).released (onTrunkQueue s b) (onStarQueue s b) else s.buf i := by
  simp only [dropRef, State.buf_modBuf]

@[simp] theorem Buf.released_refs (onTrunk onStar : Bool) (x : Buf) : (x.released onTrunk onStar).refs = x.refs - 1 := by
  unfold Buf.released
  split
  · simp only [Buf.free]; omega
  · rfl

/-- Beyond its last reference a buffer keeps kind and payload. -/
theorem Buf.released_of_one_lt {x : Buf} (h : 1 < x.refs) (onTrunk onStar : Bool) :
    x.released onTrunk onStar = { x with
      refs := x.refs - 1, trunkAddr := if onTrunk then x.trunkAddr else none,
      starAddr := if onStar then x.starAddr else none } := by
  simp [Buf.released, show ¬ x.refs ≤ 1 by omega]

theorem onlySends_dropRef (b : BufId) (s : State) : OnlySends s (dropRef b s) := onlySends_modBuf _ _ _

theorem onlySends_dropRefs (bs : List BufId) (s : State) : OnlySends s (dropRefs bs s) :=
  OnlySends.foldl _ (fun s b => onlySends_dropRef b s) bs s

@[simp] theorem endHold_none (s : State) : endHold none s = s := rfl

@[simp] theorem endHold_some (b : BufId) (s : State) : endHold (some b) s = dropRef b s := rfl

theorem onlySends_endHold (h : Option BufId) (s : State) : OnlySends s (endHold h s) := by
  cases h
  · exact .refl s
  · exact onlySends_dropRef _ s

/-- The end of an event's hold changes the buffers alone. -/
theorem endHold_eq (h : Option BufId) (s : State) : endHold h s = { s with bufs := (endHold h s).bufs } := by
  cases h <;> rfl

/-- Releasing references changes the buffers alone. -/
theorem dropRefs_eq (bs : List BufId) (s : State) : dropRefs bs s = { s with bufs := (dropRefs bs s).bufs } := by
  induction bs generalizing s with
  | nil => rfl
  | cons b bs ih => exact ih (dropRef b s)

theorem onlySends_setTrunkAddr (b : BufId) (dst src : DeskCode) (s : State) : OnlySends s (setTrunkAddr b dst src s) :=
  onlySends_modBuf _ _ _

theorem onlySends_setStarAddr (b : BufId) (dst src : StationId) (s : State) : OnlySends s (setStarAddr b dst src s) :=
  onlySends_modBuf _ _ _

/-- An offer to the trunk transmit queue changes the queue, its counters and the buffer's count alone. -/
theorem onlySends_offerTrunk (b : BufId) (s : State) : OnlySends s (offerTrunk b s) := by
  unfold offerTrunk
  split
  · exact onlySends_modTrunkCounters _ _
  · split
    · exact onlySends_modTrunkCounters _ _
    · exact OnlySends.trans (t := { s with trunk := { s.trunk with queue := s.trunk.queue ++ [b] } })
        ⟨rfl, fun _ => rfl⟩ (onlySends_addRef b _)

/-- An offer to a star transmit queue changes that port's queue and counters and the buffer's count alone. -/
theorem onlySends_offerStar (p : StarNo) (b : BufId) (s : State) : OnlySends s (offerStar p b s) := by
  unfold offerStar
  split
  · exact onlySends_modStar _ _ _ fun _ => rfl
  · split
    · exact onlySends_modStar _ _ _ fun _ => rfl
    · exact (onlySends_modStar p _ s fun _ => rfl).trans (onlySends_addRef b _)

theorem onlySends_offerStars (ps : List StarNo) (b : BufId) (s : State) : OnlySends s (offerStars ps b s) :=
  OnlySends.foldl _ (fun s p => onlySends_offerStar p b s) ps s

/-- Delivery to a destination only sends. -/
theorem onlySends_deliver (b : BufId) (d : Dest) (s : State) : OnlySends s (deliver b d s) := by
  cases d with
  | trunk c => exact (onlySends_setTrunkAddr b c bridgeCode s).trans (onlySends_offerTrunk b _)
  | star p x => exact (onlySends_setStarAddr b x s.chassis.unitNumber s).trans (onlySends_offerStar p b _)
  | flood x => exact (onlySends_setStarAddr b x s.chassis.unitNumber s).trans (onlySends_offerStars _ b _)
  | nowhere => exact .refl s

/-- A buffer is to be had exactly while one is free. -/
theorem freeBuf_isSome (s : State) : (freeBuf s).isSome = decide (0 < freeBuffers s) := by
  rw [freeBuf, freeBuffers, Bool.eq_iff_iff, List.find?_isSome, decide_eq_true_iff, List.countP_pos_iff]

theorem takeBuf_none (kind : Byte) (payload : List Byte) (s : State) :
    takeBuf kind payload s = none ↔ freeBuffers s = 0 := by
  have h := freeBuf_isSome s
  unfold takeBuf
  cases hb : freeBuf s with
  | none => simp [hb] at h ⊢; omega
  | some b => simp [hb] at h ⊢; omega

/-- Taking a buffer changes the buffers alone. -/
theorem onlySends_takeBuf {kind : Byte} {payload : List Byte} {s s1 : State} {b : BufId}
    (h : takeBuf kind payload s = some (b, s1)) : OnlySends s s1 := by
  unfold takeBuf at h
  split at h
  · cases h
  · cases h; exact onlySends_modBuf _ _ _

/-- A frame built and sent only sends. -/
theorem onlySends_sendBuilt {kind : Byte} {payload : List Byte} {d : Dest} {s s1 : State}
    (h : sendBuilt kind payload d s = some s1) : OnlySends s s1 := by
  unfold sendBuilt at h
  split at h
  · cases h
  · next b s2 hb =>
    cases h
    exact ((onlySends_takeBuf hb).trans (onlySends_deliver b d s2)).trans (onlySends_dropRef b _)

/-- A frame is built unless no buffer is free. -/
theorem sendBuilt_none (kind : Byte) (payload : List Byte) (d : Dest) (s : State) :
    sendBuilt kind payload d s = none ↔ freeBuffers s = 0 := by
  rw [← takeBuf_none kind payload s]
  unfold sendBuilt
  split <;> simp [*]

/-- A print answer only sends. -/
theorem onlySends_sendAnswer (d : Dest) (a : PrintAnswer) (q n : Byte) (s : State) : OnlySends s (sendAnswer d a q n s) := by
  unfold sendAnswer
  split
  · next h => exact onlySends_sendBuilt h
  · exact ⟨rfl, fun _ => rfl⟩

theorem onlySends_answerRequester (a : PrintAnswer) (q : QueueNo) (t : Ticket) (s : State) :
    OnlySends s (answerRequester a q t s) := onlySends_sendAnswer _ _ _ _ _

/-- END and BREAK only send. -/
theorem onlySends_sendEnding (q : QueueNo) (payload : List Byte) (s : State) : OnlySends s (sendEnding q payload s) := by
  unfold sendEnding
  split
  · exact .refl s
  · split
    · split
      · next h => exact onlySends_sendBuilt h
      · exact ⟨rfl, fun _ => rfl⟩
    · exact .refl s

/-- A control answer only sends. -/
theorem onlySends_sendControl (r : Route) (payload : List Byte) (s : State) : OnlySends s (sendControl r payload s) := by
  unfold sendControl
  split
  · next h => exact onlySends_sendBuilt h
  · exact ⟨rfl, fun _ => rfl⟩

theorem onlySends_answered (e : InputEntry) (op : Byte) (tag : BitVec 16) (st : Status) (results : List Chunk) (s : State) :
    OnlySends s (answered e op tag st results s) := onlySends_sendControl _ _ _

end Sys2Proof.Machine
end

