-- ==== Sys2Proof/Laws/Arbiter.lean ====
section
/-!
SUPPORT. What the Print Arbiter's share of an event can change (`ArbiterOnly`), for setting a flag and for each operation
of the arbiter; and where that share is nothing.
-/

namespace Sys2Proof.Machine

/-! ## Setting a flag -/

/-- Offering a record changes the alert queue and its counters alone. -/
theorem offerRecord_eq (r : AlertRecord) (s : State) :
    ∃ a, offerRecord r s = { s with alerts := a } ∧ a.config = s.alerts.config ∧ a.flags = s.alerts.flags := by
  unfold offerRecord
  simp only
  split
  · exact ⟨_, rfl, rfl, rfl⟩
  · split
    · split
      · exact ⟨_, rfl, rfl, rfl⟩
      · exact ⟨_, rfl, rfl, rfl⟩
    · exact ⟨_, rfl, rfl, rfl⟩

/-- Raising a record changes the alert queue and its counters alone. -/
theorem raiseRecord_eq (f : AlertFlag) (s : State) :
    ∃ a, raiseRecord f s = { s with alerts := a } ∧ a.config = s.alerts.config ∧ a.flags = s.alerts.flags := by
  unfold raiseRecord
  split
  · exact offerRecord_eq _ _
  · exact ⟨_, rfl, rfl, rfl⟩

/-- Setting a flag changes the Alert Unit alone, and not its configuration. -/
theorem setFlag_eq (k : AlertKind) (i : Nat) (d : Option Byte) (s : State) :
    ∃ a, setFlag k i d s = { s with alerts := a } ∧ a.config = s.alerts.config := by
  unfold setFlag
  split
  · split
    · exact ⟨_, rfl, rfl⟩
    · exact ⟨_, rfl, rfl⟩
  · obtain ⟨a, h, h1, -⟩ := raiseRecord_eq { kind := k, inst := i, detail := d }
      { s with alerts := { s.alerts with flags := insertFlag { kind := k, inst := i, detail := d } s.alerts.flags } }
    exact ⟨a, h, h1⟩

/-- The backlog changes the alert queue and its counters alone. -/
theorem raiseBacklog_eq (s : State) :
    ∃ a, raiseBacklog s = { s with alerts := a } ∧ a.config = s.alerts.config ∧ a.flags = s.alerts.flags := by
  unfold raiseBacklog
  split
  · exact ⟨_, rfl, rfl, rfl⟩
  · generalize [3, 2, 1, 0].flatMap (flagsAtLevel s.alerts) = l
    suffices h : ∀ x : State, ∃ a,
        l.foldl (fun s f => offerRecord (recordOf s.alerts.config f) s) x = { x with alerts := a }
          ∧ a.config = x.alerts.config ∧ a.flags = x.alerts.flags from h s
    induction l with
    | nil => exact fun x => ⟨_, rfl, rfl, rfl⟩
    | cons f l ih =>
      intro x
      obtain ⟨a, ha, hc, hf⟩ := offerRecord_eq (recordOf x.alerts.config f) x
      obtain ⟨b, hb, hc', hf'⟩ := ih { x with alerts := a }
      refine ⟨b, ?_, hc'.trans hc, hf'.trans hf⟩
      rw [List.foldl_cons, ha, hb]

/-! ## The relation -/

/-- `ArbiterOnly`, field by field. -/
theorem arbiterOnly_iff (s t : State) : ArbiterOnly s t ↔
    t.pending = s.pending ∧ t.chassis = s.chassis ∧ t.inputs = s.inputs ∧ t.drops = s.drops ∧ t.office = s.office
      ∧ t.segPlans = s.segPlans ∧ t.dir = s.dir ∧ t.sup = s.sup ∧ t.acct = { s.acct with live := t.acct.live }
      ∧ t.alerts.config = s.alerts.config
      ∧ t.trunk = { s.trunk with queue := t.trunk.queue, counters := t.trunk.counters }
      ∧ t.ctl = { s.ctl with answerLost := t.ctl.answerLost } ∧ StarQueuesOnly s t := by
  constructor
  · rintro ⟨h, hs⟩
    rw [h] at hs ⊢
    exact ⟨rfl, rfl, rfl, rfl, rfl, rfl, rfl, rfl, rfl, rfl, rfl, rfl, hs⟩
  · rintro ⟨h1, h2, h3, h4, h5, h6, h7, h8, h9, h10, h11, h12, hs⟩
    refine ⟨?_, hs⟩
    obtain ⟨a1, a2, a3, a4, a5, a6, a7, a8, a9, a10, a11, a12, a13, a14, a15⟩ := t
    simp only at h1 h2 h3 h4 h5 h6 h7 h8 h9 h10 h11 h12
    subst h1 h2 h3 h4 h5 h6 h7 h8
    simp only [State.mk.injEq, true_and]
    exact ⟨h11, h9, h12, by rw [← h10]⟩

theorem StarQueuesOnly.trans {s t u : State} (h : StarQueuesOnly s t) (k : StarQueuesOnly t u) : StarQueuesOnly s u := by
  intro p
  have hp := h p
  have kp := k p
  rw [hp] at kp
  exact kp

theorem ArbiterOnly.refl (s : State) : ArbiterOnly s s := ⟨rfl, fun _ => rfl⟩

theorem ArbiterOnly.trans {s t u : State} (h : ArbiterOnly s t) (k : ArbiterOnly t u) : ArbiterOnly s u := by
  rw [arbiterOnly_iff] at *
  obtain ⟨h1, h2, h3, h4, h5, h6, h7, h8, h9, h10, h11, h12, hs⟩ := h
  obtain ⟨k1, k2, k3, k4, k5, k6, k7, k8, k9, k10, k11, k12, ks⟩ := k
  refine ⟨k1.trans h1, k2.trans h2, k3.trans h3, k4.trans h4, k5.trans h5, k6.trans h6, k7.trans h7, k8.trans h8,
    ?_, k10.trans h10, ?_, ?_, hs.trans ks⟩
  · rw [h9] at k9; exact k9
  · rw [h11] at k11; exact k11
  · rw [h12] at k12; exact k12

theorem OnlySends.arbiter {s t : State} (h : OnlySends s t) : ArbiterOnly s t := by
  rw [arbiterOnly_iff]
  rw [onlySends_iff] at h
  obtain ⟨h1, h2, h3, h4, h5, h6, h7, h8, h9, h10, h11, h12, -, hs⟩ := h
  exact ⟨h1, h2, h3, h4, h5, h6, h7, h8, by rw [h9], by rw [h10], h11, h12, hs⟩

/-- A list of steps within the arbiter's share stays within it. -/
theorem ArbiterOnly.foldl {α : Type} (f : State → α → State) (hf : ∀ s a, ArbiterOnly s (f s a)) (l : List α) (s : State) :
    ArbiterOnly s (l.foldl f s) := by
  induction l generalizing s with
  | nil => exact .refl s
  | cons a l ih => exact (hf s a).trans (ih _)

/-! ## What `ArbiterOnly` leaves -/

theorem ArbiterOnly.dir {s t : State} (h : ArbiterOnly s t) : t.dir = s.dir :=
  ((arbiterOnly_iff s t).1 h).2.2.2.2.2.2.1
theorem ArbiterOnly.sup {s t : State} (h : ArbiterOnly s t) : t.sup = s.sup :=
  ((arbiterOnly_iff s t).1 h).2.2.2.2.2.2.2.1
theorem ArbiterOnly.chassis {s t : State} (h : ArbiterOnly s t) : t.chassis = s.chassis := ((arbiterOnly_iff s t).1 h).2.1
theorem ArbiterOnly.inputs {s t : State} (h : ArbiterOnly s t) : t.inputs = s.inputs := ((arbiterOnly_iff s t).1 h).2.2.1
theorem ArbiterOnly.drops {s t : State} (h : ArbiterOnly s t) : t.drops = s.drops := ((arbiterOnly_iff s t).1 h).2.2.2.1
theorem ArbiterOnly.office {s t : State} (h : ArbiterOnly s t) : t.office = s.office :=
  ((arbiterOnly_iff s t).1 h).2.2.2.2.1
theorem ArbiterOnly.segPlans {s t : State} (h : ArbiterOnly s t) : t.segPlans = s.segPlans :=
  ((arbiterOnly_iff s t).1 h).2.2.2.2.2.1

theorem ArbiterOnly.link {s t : State} (h : ArbiterOnly s t) (p : StarNo) : (t.starPort p).link = (s.starPort p).link := by
  rw [h.2 p]

theorem ArbiterOnly.port {s t : State} (h : ArbiterOnly s t) (q : PortNo) : t.port q = s.port q := by
  simp only [State.port, h.sup]

theorem ArbiterOnly.seg {s t : State} (h : ArbiterOnly s t) (u : SegNo) : t.seg u = s.seg u := by
  simp only [State.seg]
  rw [((arbiterOnly_iff s t).1 h).2.2.2.2.2.2.2.2.2.2.1]

theorem ArbiterOnly.reachable {s t : State} (h : ArbiterOnly s t) (c : DeskCode) :
    Machine.reachable t c = Machine.reachable s c :=
  reachable_congr (by rw [h.dir]) (by rw [h.sup]) h.link c

/-! ## The operations -/

theorem arbiterOnly_modPrinter (q : QueueNo) (f : Printer → Printer) (s : State) : ArbiterOnly s (s.modPrinter q f) :=
  ⟨rfl, fun _ => rfl⟩

theorem arbiterOnly_modLive (cc : Fin 16) (f : CostSet → CostSet) (s : State) : ArbiterOnly s (s.modLive cc f) :=
  ⟨rfl, fun _ => rfl⟩

/-- Any change of the printer table and its counters is within the arbiter's share. -/
theorem arbiterOnly_print (p : Printing) (s : State) : ArbiterOnly s { s with print := p } := ⟨rfl, fun _ => rfl⟩

theorem arbiterOnly_setFlag (k : AlertKind) (i : Nat) (d : Option Byte) (s : State) : ArbiterOnly s (setFlag k i d s) := by
  obtain ⟨a, h, hc⟩ := setFlag_eq k i d s
  rw [h]
  refine ⟨?_, fun _ => rfl⟩
  simp only [← hc]

/-- The ending of a grant: the ending message, the printer's record, the account and, for an abandonment, the flag. -/
theorem arbiterOnly_endGrant (how : Ending) (q : QueueNo) (t : Ticket) (s : State) : ArbiterOnly s (endGrant how q t s) := by
  have base : ∀ (payload : List Byte) (f : Printer → Printer) (g : CostSet → CostSet),
      ArbiterOnly s (((sendEnding q payload s).modPrinter q f).modLive t.costCentre g) := fun payload f g =>
    ((onlySends_sendEnding q payload s).arbiter.trans (arbiterOnly_modPrinter q f _)).trans (arbiterOnly_modLive _ g _)
  cases how with
  | completion => exact base _ _ _
  | abandonment flagged =>
    simp only [endGrant]
    split
    · exact (base _ _ _).trans (arbiterOnly_setFlag _ _ _ _)
    · exact base _ _ _

theorem arbiterOnly_abandonAndTell (q : QueueNo) (t : Ticket) (s : State) : ArbiterOnly s (abandonAndTell q t s) :=
  (arbiterOnly_endGrant _ q t s).trans (onlySends_answerRequester _ q t _).arbiter

theorem arbiterOnly_dropWaiting (q : QueueNo) (t : Ticket) (s : State) : ArbiterOnly s (dropWaiting q t s) :=
  arbiterOnly_modPrinter _ _ _

theorem arbiterOnly_grantTicket (told : Bool) (q : QueueNo) (t : Ticket) (s : State) :
    ArbiterOnly s (grantTicket told q t s) := by
  simp only [grantTicket]
  split
  · exact arbiterOnly_modPrinter _ _ _
  · exact (arbiterOnly_modPrinter _ _ _).trans (onlySends_answerRequester _ q t _).arbiter

theorem arbiterOnly_awaitForm (q : QueueNo) (f : Fin 16) (s : State) : ArbiterOnly s (awaitForm q f s) := by
  unfold awaitForm
  split
  · exact .refl s
  · exact (arbiterOnly_modPrinter q _ s).trans (arbiterOnly_setFlag _ _ _ _)

/-- Selection for one printer stays within the arbiter's share. -/
theorem arbiterOnly_select (o : Option (QueueNo × Nat)) (q : QueueNo) (s : State) : ArbiterOnly s (select o q s) := by
  unfold select
  split
  · split
    · exact arbiterOnly_grantTicket _ _ _ _
    · exact arbiterOnly_awaitForm _ _ _
    · exact arbiterOnly_modPrinter _ _ _
  · exact .refl s

/-- A printer that is not eligible is not selected for (R153). -/
theorem select_of_not_eligible {o : Option (QueueNo × Nat)} {q : QueueNo} {s : State} (h : eligible s q = false) :
    select o q s = s := by
  simp [select, h]

/-- What selection comes to, by what it chooses (R153, R154). -/
theorem select_of_eligible {o : Option (QueueNo × Nat)} {q : QueueNo} {s : State} (h : eligible s q = true) :
    (∀ t, choose (s.printer q) (candidates s q) = .grant t → select o q s = grantTicket (o == some (q, t.number)) q t s)
    ∧ (∀ f, choose (s.printer q) (candidates s q) = .await f → select o q s = awaitForm q f s)
    ∧ (choose (s.printer q) (candidates s q) = .nothing →
        select o q s = s.modPrinter q (fun p => { p with state := .idle })) := by
  simp only [select, h, if_true]
  exact ⟨fun t e => by rw [e], fun f e => by rw [e], fun e => by rw [e]⟩

/-- The choice of R153, case by case. -/
theorem choose_cases (p : Printer) (cands : List Ticket) :
    (cands = [] ∧ choose p cands = .nothing)
    ∨ ∃ head, cands.head? = some head
      ∧ ((head.form = p.loadedForm ∧ choose p cands = .grant head)
        ∨ (head.form ≠ p.loadedForm ∧ head.waitAge < p.formHold
          ∧ ∃ t, cands.find? (fun y => y.form == p.loadedForm) = some t ∧ choose p cands = .grant t)
        ∨ (head.form ≠ p.loadedForm
          ∧ (p.formHold ≤ head.waitAge ∨ cands.find? (fun y => y.form == p.loadedForm) = none)
          ∧ choose p cands = .await head.form)) := by
  cases cands with
  | nil => exact .inl ⟨rfl, rfl⟩
  | cons head rest =>
    refine .inr ⟨head, rfl, ?_⟩
    by_cases hf : head.form = p.loadedForm
    · exact .inl ⟨hf, by simp only [choose, hf, if_true]⟩
    by_cases hw : head.waitAge < p.formHold
    · cases ht : (head :: rest).find? (fun y => y.form == p.loadedForm) with
      | some t => exact .inr (.inl ⟨hf, hw, t, rfl, by simp only [choose, hf, hw, if_true, if_false, ht]⟩)
      | none => exact .inr (.inr ⟨hf, .inr rfl, by simp only [choose, hf, hw, if_true, if_false, ht]⟩)
    · exact .inr (.inr ⟨hf, .inl (Nat.le_of_not_lt hw), by simp only [choose, hf, hw, if_false]⟩)

theorem arbiterOnly_selectFor (o : Option (QueueNo × Nat)) (s : State) : ArbiterOnly s (selectFor o s) :=
  ArbiterOnly.foldl _ (fun s q => arbiterOnly_select o q s) _ s

theorem arbiterOnly_selectAll (s : State) : ArbiterOnly s (selectAll s) := arbiterOnly_selectFor none s

theorem arbiterOnly_endLostGrant (q : QueueNo) (s : State) : ArbiterOnly s (endLostGrant q s) := by
  unfold endLostGrant
  split
  · exact .refl s
  · split
    · exact .refl s
    · exact arbiterOnly_abandonAndTell _ _ _

/-- Without a grant there is nothing to lose. -/
theorem endLostGrant_of_none {q : QueueNo} {s : State} (h : (s.printer q).grant = none) : endLostGrant q s = s := by
  simp only [endLostGrant, h]

/-- A grant stands while its printer and its requester are reachable, and is abandoned otherwise (R159, R160). -/
theorem endLostGrant_of_some {q : QueueNo} {s : State} {t : Ticket} (h : (s.printer q).grant = some t) :
    endLostGrant q s =
      if printerReachable s q = true ∧ reachable s t.requester = true then s else abandonAndTell q t s := by
  simp only [endLostGrant, h, Bool.and_eq_true]

/-- An ending is sent only while the printer is reachable (R157). -/
theorem sendEnding_of_unreachable {q : QueueNo} {payload : List Byte} {s : State} (h : printerReachable s q = false) :
    sendEnding q payload s = s := by
  unfold printerReachable at h
  unfold sendEnding
  split
  · rfl
  · simp_all

theorem arbiterOnly_clearLostCredit (before : State) (q : QueueNo) (s : State) :
    ArbiterOnly s (clearLostCredit before q s) := by
  unfold clearLostCredit
  split
  · exact arbiterOnly_modPrinter _ _ _
  · exact .refl s

/-- The arbiter's share of an event is within `ArbiterOnly`. -/
theorem arbiterOnly_settle (before s : State) : ArbiterOnly s (settle before s) := by
  unfold settle
  split
  · exact .refl s
  · exact ((ArbiterOnly.foldl _ (fun s q => arbiterOnly_clearLostCredit before q s) _ s).trans
      (ArbiterOnly.foldl _ (fun s q => arbiterOnly_endLostGrant q s) _ _)).trans (arbiterOnly_selectAll _)

theorem arbiterOnly_cancelWaiting (m : TellMode) (q : QueueNo) (t : Ticket) (s : State) :
    ArbiterOnly s (cancelWaiting m q t s) := by
  cases m with
  | tell => exact (arbiterOnly_dropWaiting q t s).trans (onlySends_answerRequester _ q t _).arbiter
  | silent => exact arbiterOnly_dropWaiting q t s

theorem arbiterOnly_abandonGrant (m : TellMode) (q : QueueNo) (t : Ticket) (s : State) :
    ArbiterOnly s (abandonGrant m q t s) := by
  cases m with
  | tell => exact arbiterOnly_abandonAndTell q t s
  | silent => exact arbiterOnly_endGrant (.abandonment true) q t s

theorem arbiterOnly_removeTicketsAt (m : TellMode) (p : Ticket → Bool) (q : QueueNo) (s : State) :
    ArbiterOnly s (removeTicketsAt m p q s) := by
  have h := ArbiterOnly.foldl _ (fun s t => arbiterOnly_cancelWaiting m q t s) ((s.printer q).waiting.filter p) s
  simp only [removeTicketsAt]
  split
  · split
    · exact h.trans (arbiterOnly_abandonGrant _ _ _ _)
    · exact h
  · exact h

theorem arbiterOnly_removeTicketsOf (m : TellMode) (c : DeskCode) (s : State) : ArbiterOnly s (removeTicketsOf m c s) :=
  ArbiterOnly.foldl _ (fun s q => arbiterOnly_removeTicketsAt m _ q s) _ s

theorem arbiterOnly_restState (q : QueueNo) (s : State) : ArbiterOnly s (restState q s) := by
  unfold restState
  split
  · exact .refl s
  · exact arbiterOnly_modPrinter _ _ _

theorem arbiterOnly_removeQueueTickets (q : QueueNo) (s : State) : ArbiterOnly s (removeQueueTickets q s) :=
  (arbiterOnly_removeTicketsAt _ _ q s).trans (arbiterOnly_restState q _)

theorem arbiterOnly_renameRequester (old new : DeskCode) (s : State) : ArbiterOnly s (renameRequester old new s) :=
  ⟨rfl, fun _ => rfl⟩

/-! ## Where the arbiter has no share -/

/-- The reachable codes depend on the entries, the supervision records and the links. -/
theorem reachableStations_congr {s u : State} (hd : u.dir.entries = s.dir.entries) (h : u.sup.ports = s.sup.ports)
    (hl : ∀ p, (u.starPort p).link = (s.starPort p).link) : reachableStations u = reachableStations s := by
  have : entryReachable u = entryReachable s := by
    funext e; simp only [entryReachable, homeConnected_congr h hl]
  simp only [reachableStations, hd, this]

/-- An event that leaves entries, records and links as they were leaves nothing for the arbiter to do. -/
theorem settle_eq_self {s u : State} (hd : u.dir.entries = s.dir.entries) (h : u.sup.ports = s.sup.ports)
    (hl : ∀ p, (u.starPort p).link = (s.starPort p).link) : settle s u = u := by
  simp only [settle, reachableStations_congr hd h hl, if_true]

/-- An event that only sends leaves nothing for the arbiter to do. -/
theorem settle_of_onlySends {s u : State} (h : OnlySends s u) : settle s u = u :=
  settle_eq_self (by rw [h.dir]) (by rw [h.sup]) h.link

/-- An event within the arbiter's own share is settled already. -/
theorem settle_of_arbiterOnly {s u : State} (h : ArbiterOnly s u) : settle s u = u :=
  settle_eq_self (by rw [h.dir]) (by rw [h.sup]) h.link

end Sys2Proof.Machine
end

