-- ==== Sys2Proof/Laws/Channel.lean ====
section
/-!
SUPPORT. What a change of a port's supervision record can bring with it (`ChannelOnly`), for each operation of the
Supervision Unit and of the channels; and what traffic and the fold can change (`TrafficOnly`), for each operation of
learning, bridging and the fold.
-/

namespace Sys2Proof.Machine

/-! ## The relation of the channels -/

/-- `ChannelOnly`, field by field. -/
theorem channelOnly_iff (s t : State) : ChannelOnly s t ↔
    t.pending = s.pending ∧ t.chassis = s.chassis ∧ t.inputs = s.inputs ∧ t.drops = s.drops ∧ t.office = s.office
      ∧ t.segPlans = s.segPlans ∧ t.dir = s.dir ∧ t.sup = { s.sup with ports := t.sup.ports }
      ∧ t.acct = { s.acct with live := t.acct.live } ∧ t.alerts.config = s.alerts.config
      ∧ t.ctl = { s.ctl with answerLost := t.ctl.answerLost } := by
  constructor
  · intro h
    rw [h]
    exact ⟨rfl, rfl, rfl, rfl, rfl, rfl, rfl, rfl, rfl, rfl, rfl⟩
  · rintro ⟨h1, h2, h3, h4, h5, h6, h7, h8, h9, h10, h11⟩
    unfold ChannelOnly
    obtain ⟨a1, a2, a3, a4, a5, a6, a7, a8, a9, a10, a11, a12, a13, a14, a15⟩ := t
    simp only at h1 h2 h3 h4 h5 h6 h7 h8 h9 h10 h11
    subst h1 h2 h3 h4 h5 h6 h7
    simp only [State.mk.injEq, true_and]
    exact ⟨h8, h9, h11, by rw [← h10]⟩

theorem ChannelOnly.refl (s : State) : ChannelOnly s s := rfl

theorem ChannelOnly.trans {s t u : State} (h : ChannelOnly s t) (k : ChannelOnly t u) : ChannelOnly s u := by
  rw [channelOnly_iff] at *
  obtain ⟨h1, h2, h3, h4, h5, h6, h7, h8, h9, h10, h11⟩ := h
  obtain ⟨k1, k2, k3, k4, k5, k6, k7, k8, k9, k10, k11⟩ := k
  refine ⟨k1.trans h1, k2.trans h2, k3.trans h3, k4.trans h4, k5.trans h5, k6.trans h6, k7.trans h7, ?_, ?_,
    k10.trans h10, ?_⟩
  · rw [h8] at k8; exact k8
  · rw [h9] at k9; exact k9
  · rw [h11] at k11; exact k11

theorem ArbiterOnly.channel {s t : State} (h : ArbiterOnly s t) : ChannelOnly s t := by
  rw [channelOnly_iff]
  rw [arbiterOnly_iff] at h
  obtain ⟨h1, h2, h3, h4, h5, h6, h7, h8, h9, h10, -, h12, -⟩ := h
  exact ⟨h1, h2, h3, h4, h5, h6, h7, by rw [h8], h9, h10, h12⟩

theorem OnlySends.channel {s t : State} (h : OnlySends s t) : ChannelOnly s t := h.arbiter.channel

theorem ChannelOnly.foldl {α : Type} (f : State → α → State) (hf : ∀ s a, ChannelOnly s (f s a)) (l : List α) (s : State) :
    ChannelOnly s (l.foldl f s) := by
  induction l generalizing s with
  | nil => exact .refl s
  | cons a l ih => exact (hf s a).trans (ih _)

/-! ## The operations of the channels -/

theorem channelOnly_modSeg (t : SegNo) (f : Segment → Segment) (s : State) : ChannelOnly s (s.modSeg t f) := rfl
theorem channelOnly_mapSegs (f : Segment → Segment) (s : State) : ChannelOnly s (s.mapSegs f) := rfl
theorem channelOnly_modStar (p : StarNo) (f : StarPort → StarPort) (s : State) : ChannelOnly s (s.modStar p f) := rfl
theorem channelOnly_modPort (q : PortNo) (f : PortRec → PortRec) (s : State) : ChannelOnly s (s.modPort q f) := rfl
theorem channelOnly_modTrunkCounters (f : TrunkCounters → TrunkCounters) (s : State) :
    ChannelOnly s (s.modTrunkCounters f) := rfl
theorem channelOnly_trunk (t : Trunk) (s : State) : ChannelOnly s { s with trunk := t } := rfl

theorem channelOnly_releaseRepeater (s : State) : ChannelOnly s (releaseRepeater s) := rfl

theorem channelOnly_popTrunk (s : State) : ChannelOnly s (popTrunk s) := by
  unfold popTrunk
  split
  · exact .refl s
  · exact (channelOnly_trunk _ s).trans (onlySends_dropRef _ _).channel

/-- The flush of the trunk transmit queue (R27). -/
theorem channelOnly_flushTrunk (s : State) : ChannelOnly s (flushTrunk s) := by
  unfold flushTrunk
  split
  · have h : ChannelOnly s ((dropRefs s.trunk.queue { s with trunk := { s.trunk with queue := [], attempts := 0 } }).modTrunkCounters
        (fun c => { c with trunkDown := bumpBy s.trunk.queue.length c.trunkDown })) :=
      ((channelOnly_trunk _ s).trans (onlySends_dropRefs _ _).channel).trans (channelOnly_modTrunkCounters _ _)
    simp only
    split
    · exact h.trans (channelOnly_releaseRepeater _)
    · exact h
  · exact .refl s

/-- A segment leaves the connected set (R2, R22, R27). -/
theorem channelOnly_segLeaves (t : SegNo) (s : State) : ChannelOnly s (segLeaves t s) := by
  unfold segLeaves
  simp only
  split
  · exact (channelOnly_releaseRepeater s).trans (channelOnly_flushTrunk _)
  · exact (channelOnly_modSeg t _ s).trans (channelOnly_flushTrunk _)

/-- The flush of a star transmit queue: it is empty, nothing is being sent, and FLUSHED counts its references (R40). -/
theorem starPort_flushStar (p : StarNo) (s : State) :
    (flushStar p s).starPort p = { s.starPort p with
      queue := [], tx := .idle, counters := { (s.starPort p).counters with
        flushed := bumpBy (s.starPort p).queue.length (s.starPort p).counters.flushed } } := by
  rw [flushStar, dropRefs_eq]
  exact State.starPort_modStar_self s p _

/-- The flush of the trunk transmit queue while the trunk is down: it is empty, the next frame starts with attempt count 0,
TRUNK_DOWN counts its references, and no attempt goes on (R27). -/
theorem trunk_flushTrunk {s : State} (h : trunkDown s = true) :
    (flushTrunk s).trunk.queue = [] ∧ (flushTrunk s).trunk.attempts = 0
    ∧ (flushTrunk s).trunk.counters
        = { s.trunk.counters with trunkDown := bumpBy s.trunk.queue.length s.trunk.counters.trunkDown }
    ∧ (flushTrunk s).trunk.holder = (if s.trunk.holder = .transmitter then .none else s.trunk.holder) := by
  have e := dropRefs_eq s.trunk.queue { s with trunk := { s.trunk with queue := [], attempts := 0 } }
  simp only [flushTrunk, h, if_true]
  rw [e]
  split
  · refine ⟨rfl, rfl, rfl, ?_⟩
    rename_i hh
    exact (if_pos hh).symm
  · refine ⟨rfl, rfl, rfl, ?_⟩
    rename_i hh
    exact (if_neg hh).symm

/-- The flush of a star transmit queue (R40). -/
theorem channelOnly_flushStar (p : StarNo) (s : State) : ChannelOnly s (flushStar p s) :=
  (channelOnly_modStar p _ s).trans (onlySends_dropRefs _ _).channel

/-! ## The operations of the Supervision Unit -/

/-- A port takes a state, with all that the change does to its channel. -/
theorem channelOnly_setPortState (q : PortNo) (new : SupState) (s : State) : ChannelOnly s (setPortState q new s) := by
  unfold setPortState
  simp only
  have h1 : ChannelOnly s (s.modPort q (fun r => { r with state := new })) := rfl
  cases splitPort q with
  | inl t =>
    simp only
    have h2 : ChannelOnly s
        (if (s.port q).state.listens && !new.listens then
            (s.modPort q (fun r => { r with state := new })).modSeg t (Segment.relayOpened s.chassis.now)
          else if !(s.port q).state.listens && new.listens then
            (s.modPort q (fun r => { r with state := new })).modSeg t (Segment.relayClosed s.chassis.now)
          else s.modPort q (fun r => { r with state := new })) := by
      split
      · exact h1.trans (channelOnly_modSeg _ _ _)
      · split
        · exact h1.trans (channelOnly_modSeg _ _ _)
        · exact h1
    split
    · exact h2.trans (channelOnly_segLeaves _ _)
    · exact h2
  | inr p =>
    simp only
    have h2 : ChannelOnly s
        (if (s.port q).state.listens && !new.listens then
            (s.modPort q (fun r => { r with state := new })).modStar p StarPort.abandonRx
          else if !(s.port q).state.listens && new.listens then
            (s.modPort q (fun r => { r with state := new })).modStar p StarPort.beginListening
          else s.modPort q (fun r => { r with state := new })) := by
      split
      · exact h1.trans (channelOnly_modStar _ _ _)
      · split
        · exact h1.trans (channelOnly_modStar _ _ _)
        · exact h1
    split
    · exact h2.trans (channelOnly_flushStar _ _)
    · exact h2

theorem channelOnly_setFlag (k : AlertKind) (i : Nat) (d : Option Byte) (s : State) : ChannelOnly s (setFlag k i d s) :=
  (arbiterOnly_setFlag k i d s).channel

/-- Isolation (R128). -/
theorem channelOnly_isolatePort (q : PortNo) (s : State) : ChannelOnly s (isolatePort q s) :=
  ((channelOnly_modPort q _ s).trans (channelOnly_setPortState q _ _)).trans (channelOnly_setFlag _ _ _ _)

/-- A fault event of any kind (R110 to R112). -/
theorem channelOnly_faultEvent (k : FaultKind) (q : PortNo) (s : State) : ChannelOnly s (faultEvent k q s) := by
  unfold faultEvent
  simp only
  split
  · exact (channelOnly_modPort q _ s).trans (channelOnly_isolatePort q _)
  · exact channelOnly_modPort q _ s

theorem channelOnly_goodEvent (q : PortNo) (s : State) : ChannelOnly s (goodEvent q s) := channelOnly_modPort q _ s

theorem channelOnly_jabberEvent (q : PortNo) (s : State) : ChannelOnly s (jabberEvent q s) := by
  unfold jabberEvent
  simp only
  split
  · exact (channelOnly_modPort q _ s).trans (channelOnly_isolatePort q _)
  · exact channelOnly_modPort q _ s

theorem channelOnly_terminatorTrigger (q : PortNo) (s : State) : ChannelOnly s (terminatorTrigger q s) := by
  unfold terminatorTrigger
  split
  · exact channelOnly_isolatePort q s
  · exact .refl s

theorem channelOnly_readmitPort (q : PortNo) (s : State) : ChannelOnly s (readmitPort q s) :=
  ((channelOnly_modPort q _ s).trans (channelOnly_setPortState q _ _)).trans (channelOnly_setFlag _ _ _ _)

/-- The verdict of a fold (R124). -/
theorem channelOnly_verdict (q : PortNo) (s : State) : ChannelOnly s (verdict q s) := by
  unfold verdict
  simp only
  split
  · split
    · exact channelOnly_isolatePort q s
    · exact .refl s
  · split
    · split
      · exact (channelOnly_modPort q _ s).trans (channelOnly_readmitPort q _)
      · exact (channelOnly_modPort q _ s).trans (channelOnly_isolatePort q _)
    · exact channelOnly_modPort q _ s
  · split
    · split
      · exact channelOnly_modPort q _ s
      · exact ((channelOnly_modPort q _ s).trans (channelOnly_modPort q _ _)).trans (channelOnly_setPortState q _ _)
    · exact channelOnly_modPort q _ s
  all_goals exact .refl s

theorem channelOnly_readmitByOrder (q : PortNo) (s : State) : ChannelOnly s (readmitByOrder q s) :=
  (channelOnly_modPort q _ s).trans (channelOnly_setPortState q _ _)
theorem channelOnly_holdByOrder (q : PortNo) (s : State) : ChannelOnly s (holdByOrder q s) :=
  (channelOnly_modPort q _ s).trans (channelOnly_setPortState q _ _)
theorem channelOnly_disablePort (q : PortNo) (s : State) : ChannelOnly s (disablePort q s) :=
  (channelOnly_modPort q _ s).trans (channelOnly_setPortState q _ _)
theorem channelOnly_enablePort (q : PortNo) (s : State) : ChannelOnly s (enablePort q s) :=
  (channelOnly_modPort q _ s).trans (channelOnly_setPortState q _ _)

/-- A port acts on a change of its enable (R137). -/
theorem channelOnly_actOnEnable (q : PortNo) (old new : Bool) (s : State) : ChannelOnly s (actOnEnable q old new s) := by
  cases old <;> cases new
  · exact .refl s
  · exact channelOnly_enablePort q s
  · exact channelOnly_disablePort q s
  · exact .refl s

/-! ## The relation of traffic -/

/-- `TrafficOnly`, field by field. -/
theorem trafficOnly_iff (s t : State) : TrafficOnly s t ↔
    t.pending = s.pending ∧ t.chassis = { s.chassis with now := t.chassis.now } ∧ t.office = s.office
      ∧ t.segPlans = s.segPlans ∧ t.acct = { s.acct with live := t.acct.live } ∧ t.alerts.config = s.alerts.config
      ∧ t.ctl = { s.ctl with answerLost := t.ctl.answerLost } := by
  constructor
  · intro h
    rw [h]
    exact ⟨rfl, rfl, rfl, rfl, rfl, rfl, rfl⟩
  · rintro ⟨h1, h2, h3, h4, h5, h6, h7⟩
    unfold TrafficOnly
    obtain ⟨a1, a2, a3, a4, a5, a6, a7, a8, a9, a10, a11, a12, a13, a14, a15⟩ := t
    simp only at h1 h2 h3 h4 h5 h6 h7
    subst h1 h3 h4
    simp only [State.mk.injEq, true_and]
    exact ⟨h2, h5, h7, by rw [← h6]⟩

theorem TrafficOnly.refl (s : State) : TrafficOnly s s := rfl

theorem TrafficOnly.trans {s t u : State} (h : TrafficOnly s t) (k : TrafficOnly t u) : TrafficOnly s u := by
  rw [trafficOnly_iff] at *
  obtain ⟨h1, h2, h3, h4, h5, h6, h7⟩ := h
  obtain ⟨k1, k2, k3, k4, k5, k6, k7⟩ := k
  refine ⟨k1.trans h1, ?_, k3.trans h3, k4.trans h4, ?_, k6.trans h6, ?_⟩
  · rw [h2] at k2; exact k2
  · rw [h5] at k5; exact k5
  · rw [h7] at k7; exact k7

theorem ChannelOnly.traffic {s t : State} (h : ChannelOnly s t) : TrafficOnly s t := by
  rw [trafficOnly_iff]
  rw [channelOnly_iff] at h
  obtain ⟨h1, h2, -, -, h5, h6, -, -, h9, h10, h11⟩ := h
  exact ⟨h1, by rw [h2], h5, h6, h9, h10, h11⟩

theorem ArbiterOnly.traffic {s t : State} (h : ArbiterOnly s t) : TrafficOnly s t := h.channel.traffic
theorem OnlySends.traffic {s t : State} (h : OnlySends s t) : TrafficOnly s t := h.channel.traffic

theorem TrafficOnly.foldl {α : Type} (f : State → α → State) (hf : ∀ s a, TrafficOnly s (f s a)) (l : List α) (s : State) :
    TrafficOnly s (l.foldl f s) := by
  induction l generalizing s with
  | nil => exact .refl s
  | cons a l ih => exact (hf s a).trans (ih _)

theorem trafficOnly_dir (d : Directory) (s : State) : TrafficOnly s { s with dir := d } := rfl
theorem trafficOnly_modDrops (q : PortNo) (f : Drops → Drops) (s : State) : TrafficOnly s (s.modDrops q f) := rfl
theorem trafficOnly_advance (dt : Nat) (s : State) : TrafficOnly s (s.advance dt) := rfl
theorem trafficOnly_modEntry (c : DeskCode) (f : Entry → Entry) (s : State) : TrafficOnly s (s.modEntry c f) := rfl
theorem trafficOnly_addEntry (e : Entry) (s : State) : TrafficOnly s (s.addEntry e) := rfl

/-! ## The operations of the directory -/

theorem trafficOnly_suspendTimed (r : TimedReason) (c : DeskCode) (s : State) : TrafficOnly s (suspendTimed r c s) := by
  unfold suspendTimed
  split
  · exact .refl s
  · split
    · exact (trafficOnly_modEntry c _ s).trans (arbiterOnly_setFlag _ _ _ _).traffic
    · exact .refl s

theorem trafficOnly_renumber (old new : DeskCode) (s : State) : TrafficOnly s (renumber old new s) := by
  unfold renumber
  split
  · exact .refl s
  · exact (trafficOnly_dir _ s).trans (arbiterOnly_renameRequester _ _ _).traffic

theorem trafficOnly_removeKeepingCode (m : TellMode) (c : DeskCode) (s : State) :
    TrafficOnly s (removeKeepingCode m c s) :=
  (arbiterOnly_removeTicketsOf m c s).traffic.trans (trafficOnly_dir _ _)

theorem trafficOnly_displaceProxy (c : DeskCode) (s : State) : TrafficOnly s (displaceProxy c s) := by
  unfold displaceProxy
  split
  · exact trafficOnly_renumber _ _ _
  · exact (arbiterOnly_setFlag _ _ _ s).traffic.trans (trafficOnly_removeKeepingCode _ _ _)

theorem trafficOnly_moveEntry (c : DeskCode) (h : SegNo ⊕ StarNo) (s : State) : TrafficOnly s (moveEntry c h s) := by
  unfold moveEntry
  simp only
  split
  · exact trafficOnly_modEntry _ _ _
  · split
    · exact (trafficOnly_modEntry c _ s).trans (trafficOnly_suspendTimed _ _ _)
    · exact (trafficOnly_modEntry c _ s).trans (trafficOnly_modEntry _ _ _)

/-- Learning from a trunk frame. -/
theorem trafficOnly_learnTrunk (t : SegNo) (c : DeskCode) (s : State) : TrafficOnly s (learnTrunk t c s).2 := by
  unfold learnTrunk
  split
  · exact trafficOnly_addEntry _ _
  · split
    · split
      · exact .refl s
      · split
        · exact trafficOnly_modEntry _ _ _
        · split
          · exact trafficOnly_moveEntry _ _ _
          · exact trafficOnly_suspendTimed _ _ _
    · exact ((arbiterOnly_setFlag _ _ _ s).traffic.trans (trafficOnly_displaceProxy _ _)).trans (trafficOnly_addEntry _ _)
    · exact (arbiterOnly_setFlag _ _ _ s).traffic

/-- Learning from a star frame. -/
theorem trafficOnly_learnStar (p : StarNo) (x : StationId) (s : State) : TrafficOnly s (learnStar p x s) := by
  unfold learnStar
  split
  · split
    · exact .refl s
    · split
      · split
        · exact trafficOnly_modEntry _ _ _
        · exact trafficOnly_moveEntry _ _ _
      · exact (trafficOnly_modEntry _ _ s).trans (trafficOnly_modEntry _ _ _)
      · exact .refl s
  · split
    · exact trafficOnly_addEntry _ _
    · exact (arbiterOnly_setFlag _ _ _ s).traffic

theorem trafficOnly_strike (c : DeskCode) (s : State) : TrafficOnly s (strike c s) := by
  unfold strike
  simp only
  have h : TrafficOnly s ((s.modEntry c (fun e => { e with strikes := gain 31 e.strikes })).modPresence
    (fun p => { p with strikes := bump p.strikes })) := rfl
  split
  · exact h
  · split
    · exact (h.trans (trafficOnly_suspendTimed _ _ _)).trans rfl
    · exact h

/-- The broadcast window. -/
theorem trafficOnly_applyWindow (e : Entry) (s : State) : TrafficOnly s (applyWindow e s).2 := by
  unfold applyWindow
  split
  · exact trafficOnly_strike _ _
  · exact trafficOnly_modEntry _ _ _

theorem trafficOnly_chargeFault (q : PortNo) (c : DeskCode) (s : State) : TrafficOnly s (chargeFault q c s) := rfl

/-! ## The operations of bridging -/

theorem trafficOnly_offerControl (b : BufId) (r : Route) (s : State) : TrafficOnly s (offerControl b r s) := by
  unfold offerControl
  split <;> rfl

theorem trafficOnly_offerPrint (b : BufId) (r : Route) (s : State) : TrafficOnly s (offerPrint b r s) := by
  unfold offerPrint
  split <;> rfl

theorem trafficOnly_dispatch (b : BufId) (kind : Byte) (r : Route) (q : PortNo) (s : State) :
    TrafficOnly s (dispatch b kind r q s) := by
  unfold dispatch
  split
  · exact trafficOnly_offerControl _ _ _
  · split
    · exact trafficOnly_offerPrint _ _ _
    · split
      · exact .refl s
      · exact trafficOnly_modDrops _ _ _

theorem trafficOnly_floodStars (x : Option StarNo) (b : BufId) (s : State) : TrafficOnly s (floodStars x b s) :=
  (onlySends_offerStars _ b s).traffic

theorem trafficOnly_placeTrunk (t : SegNo) (f : TrunkRx) (b : BufId) (s : State) : TrafficOnly s (placeTrunk t f b s) := by
  unfold placeTrunk
  simp only
  split
  · split
    · exact (onlySends_setStarAddr _ _ _ s).traffic.trans (trafficOnly_floodStars _ _ _)
    · exact .refl s
  · split
    · exact trafficOnly_dispatch _ _ _ _ _
    · split
      · split
        · split
          · exact (onlySends_setStarAddr _ _ _ s).traffic.trans (onlySends_offerStar _ _ _).traffic
          · exact trafficOnly_modDrops _ _ _
        · exact .refl s
      · split
        · exact trafficOnly_modDrops _ _ _
        · exact .refl s

theorem trafficOnly_decideTrunk (t : SegNo) (tr : Bool) (f : TrunkRx) (b : BufId) (s : State) :
    TrafficOnly s (decideTrunk t tr f b s) := by
  unfold decideTrunk
  simp only
  split
  · exact trafficOnly_modDrops _ _ _
  · split
    · split
      · exact trafficOnly_dispatch _ _ _ _ _
      · exact .refl s
    · have hl := trafficOnly_learnTrunk t f.src s
      split
      · next s1 h => rw [h] at hl; exact hl.trans (trafficOnly_modDrops _ _ _)
      · next s1 h =>
        rw [h] at hl
        split
        · split
          · exact hl.trans (trafficOnly_dispatch _ _ _ _ _)
          · exact hl.trans (trafficOnly_modDrops _ _ _)
        · exact hl.trans (trafficOnly_placeTrunk _ _ _ _)

/-- The bridging event of a good trunk frame. -/
theorem trafficOnly_bridgeTrunk (t : SegNo) (tr : Bool) (f : TrunkRx) (s : State) :
    TrafficOnly s (bridgeTrunk t tr f s).2 := by
  unfold bridgeTrunk
  split
  · exact trafficOnly_modDrops _ _ _
  · next b s1 h => exact (onlySends_takeBuf h).traffic.trans (trafficOnly_decideTrunk _ _ _ _ _)

theorem trafficOnly_offerTrunkCopy (q : PortNo) (dst : DeskCode) (f : StarRx) (b : BufId) (s : State) :
    TrafficOnly s (offerTrunkCopy q dst f b s) := by
  unfold offerTrunkCopy
  split
  · exact trafficOnly_modDrops _ _ _
  · split
    · exact trafficOnly_modDrops _ _ _
    · exact (onlySends_setTrunkAddr _ _ _ s).traffic.trans (onlySends_offerTrunk _ _).traffic

theorem trafficOnly_placeIndexed (p : StarNo) (f : StarRx) (b : BufId) (e : Entry) (s : State) :
    TrafficOnly s (placeIndexed p f b e s) := by
  unfold placeIndexed
  simp only
  split
  · exact trafficOnly_modDrops _ _ _
  · split
    · exact (onlySends_setStarAddr _ _ _ s).traffic.trans (onlySends_offerStar _ _ _).traffic
    · exact trafficOnly_modDrops _ _ _

theorem trafficOnly_placeStar (p : StarNo) (f : StarRx) (b : BufId) (s : State) : TrafficOnly s (placeStar p f b s) := by
  unfold placeStar
  simp only
  have hf : TrafficOnly s (floodStars (some p) b (setStarAddr b f.dst f.src s)) :=
    (onlySends_setStarAddr _ _ _ s).traffic.trans (trafficOnly_floodStars _ _ _)
  split
  · exact trafficOnly_modDrops _ _ _
  · split
    · exact trafficOnly_dispatch _ _ _ _ _
    · split
      · split
        · exact hf.trans (trafficOnly_offerTrunkCopy _ _ _ _ _)
        · exact hf
      · split
        · split
          · exact trafficOnly_offerTrunkCopy _ _ _ _ _
          · exact trafficOnly_modDrops _ _ _
        · split
          · exact trafficOnly_placeIndexed _ _ _ _ _
          · exact hf

theorem trafficOnly_admitStar (p : StarNo) (f : StarRx) (b : BufId) (s : State) : TrafficOnly s (admitStar p f b s) := by
  unfold admitStar
  simp only
  split
  · exact trafficOnly_placeStar _ _ _ _
  · next e _ =>
    split
    · split
      · exact trafficOnly_dispatch _ _ _ _ _
      · exact trafficOnly_modDrops _ _ _
    · split
      · have hw := trafficOnly_applyWindow e s
        split
        · next s1 h => rw [h] at hw; exact hw.trans (trafficOnly_modDrops _ _ _)
        · next s1 h => rw [h] at hw; exact hw.trans (trafficOnly_placeStar _ _ _ _)
      · exact trafficOnly_placeStar _ _ _ _

theorem trafficOnly_decideStar (p : StarNo) (f : StarRx) (b : BufId) (s : State) : TrafficOnly s (decideStar p f b s) := by
  unfold decideStar
  simp only
  split
  · exact trafficOnly_modDrops _ _ _
  · split
    · exact trafficOnly_modDrops _ _ _
    · exact (trafficOnly_learnStar _ _ s).trans (trafficOnly_admitStar _ _ _ _)

/-- The bridging event of a good star frame. -/
theorem trafficOnly_bridgeStar (p : StarNo) (f : StarRx) (s : State) : TrafficOnly s (bridgeStar p f s).2 := by
  unfold bridgeStar
  split
  · exact trafficOnly_modDrops _ _ _
  · next b s1 h => exact (onlySends_takeBuf h).traffic.trans (trafficOnly_decideStar _ _ _ _)

/-! ## The fold -/

theorem trafficOnly_suspendCulprit (c : DeskCode) (s : State) : TrafficOnly s (suspendCulprit c s) := by
  unfold suspendCulprit
  split
  · exact .refl s
  · split
    · exact (trafficOnly_suspendTimed _ _ s).trans rfl
    · exact .refl s

theorem trafficOnly_culpritStage (q : PortNo) (st : SupState) (s : State) : TrafficOnly s (culpritStage q st s) := by
  unfold culpritStage
  split
  · exact TrafficOnly.foldl _ (fun s c => trafficOnly_suspendCulprit c s) _ s
  · exact .refl s

theorem trafficOnly_clearStage (q : PortNo) (s : State) : TrafficOnly s (clearStage q s) := by
  unfold clearStage
  simp only
  split <;> rfl

/-- The fold of one port. -/
theorem trafficOnly_foldPort (q : PortNo) (s : State) : TrafficOnly s (foldPort q s) := by
  unfold foldPort
  simp only
  have h1 : TrafficOnly s (s.modPort q (PortRec.scored (foldUtil q s))) := rfl
  refine TrafficOnly.trans ?_ (trafficOnly_clearStage q _)
  refine TrafficOnly.trans ?_ (trafficOnly_culpritStage q _ _)
  refine TrafficOnly.trans ?_ (channelOnly_modPort q _ _).traffic
  refine TrafficOnly.trans ?_ (channelOnly_verdict q _).traffic
  split
  · exact h1.trans (channelOnly_setFlag _ _ _ _).traffic
  · exact h1

/-- The expiry of the period timer. -/
theorem trafficOnly_foldAll (s : State) : TrafficOnly s (foldAll s) := by
  have h := TrafficOnly.foldl (fun s q => foldPort q s) (fun s q => trafficOnly_foldPort q s) (List.finRange 12) s
  unfold foldAll
  generalize (List.finRange 12).foldl (fun s q => foldPort q s) s = x at h ⊢
  exact h.trans rfl

end Sys2Proof.Machine
end

