-- ==== Sys2Proof/Laws/Control.lean ====
section
/-!
SUPPORT. How a command of the Control Unit runs: taking the request, its stages, and its answer; and how an event of the
other blocks runs.
-/

namespace Sys2Proof.Machine

/-! ## Events -/

/-- An event of a running part is its effect, settled. -/
theorem event_of_running {f : State → State} {s : State} (h : s.isRunning = true) :
    event f s = .next (settle s (f s)) := by
  simp only [event, h, if_true]

/-- An event of a running part that leaves entries, records and links is its effect. -/
theorem event_of_local {f : State → State} {s : State} (h : s.isRunning = true)
    (hd : (f s).dir.entries = s.dir.entries) (hp : (f s).sup.ports = s.sup.ports)
    (hl : ∀ p, ((f s).starPort p).link = (s.starPort p).link) : event f s = .next (f s) := by
  rw [event_of_running h, settle_eq_self hd hp hl]

/-- An event of a part that does not run changes nothing. -/
theorem event_of_stopped {f : State → State} {s : State} (h : s.isRunning = false) : event f s = .next s := by
  simp [event, h]

theorem lineEvent_of_running {m f : State → State} {s : State} (h : s.isRunning = true) :
    lineEvent m f s = .next (settle s (f (m s))) := by
  simp only [lineEvent, h, if_true]

theorem lineEvent_of_stopped {m f : State → State} {s : State} (h : s.isRunning = false) :
    lineEvent m f s = .next (m s) := by
  simp [lineEvent, h]

theorem bridgingEvent_of_running {m : State → State} {f : State → Option BufId × State} {s : State}
    (h : s.isRunning = true) : bridgingEvent m f s = .next (endHold (f (m s)).1 (settle s (f (m s)).2)) := by
  simp only [bridgingEvent, h, if_true]

theorem bridgingEvent_of_stopped {m : State → State} {f : State → Option BufId × State} {s : State}
    (h : s.isRunning = false) : bridgingEvent m f s = .next (m s) := by
  simp [bridgingEvent, h]

/-- An event that has taken no buffer is an event of a line. -/
theorem bridgingEvent_of_none {m : State → State} {f : State → State} {g : State → Option BufId × State} {s : State}
    (h : g (m s) = (none, f (m s))) : bridgingEvent m g s = lineEvent m f s := by
  simp only [bridgingEvent, lineEvent, h, endHold]

theorem requestEvent_of_running {f : State → State} {s : State} (h : s.isRunning = true) :
    requestEvent f s = .next (f s) := by
  simp only [requestEvent, h, if_true]

theorem requestEvent_of_stopped {f : State → State} {s : State} (h : s.isRunning = false) :
    requestEvent f s = .next s := by
  simp [requestEvent, h]

/-! ## Taking a request -/

@[simp] theorem takeControl_pending (e : InputEntry) (s : State) : (takeControl e s).pending = s.pending := rfl
@[simp] theorem takeControl_chassis (e : InputEntry) (s : State) : (takeControl e s).chassis = s.chassis := rfl
@[simp] theorem takeControl_trunk (e : InputEntry) (s : State) : (takeControl e s).trunk = s.trunk := rfl
@[simp] theorem takeControl_star (e : InputEntry) (s : State) : (takeControl e s).star = s.star := rfl
@[simp] theorem takeControl_drops (e : InputEntry) (s : State) : (takeControl e s).drops = s.drops := rfl
@[simp] theorem takeControl_office (e : InputEntry) (s : State) : (takeControl e s).office = s.office := rfl
@[simp] theorem takeControl_segPlans (e : InputEntry) (s : State) : (takeControl e s).segPlans = s.segPlans := rfl
@[simp] theorem takeControl_dir (e : InputEntry) (s : State) : (takeControl e s).dir = s.dir := rfl
@[simp] theorem takeControl_sup (e : InputEntry) (s : State) : (takeControl e s).sup = s.sup := rfl
@[simp] theorem takeControl_print (e : InputEntry) (s : State) : (takeControl e s).print = s.print := rfl
@[simp] theorem takeControl_acct (e : InputEntry) (s : State) : (takeControl e s).acct = s.acct := rfl
@[simp] theorem takeControl_alerts (e : InputEntry) (s : State) : (takeControl e s).alerts = s.alerts := rfl
@[simp] theorem takeControl_ctl (e : InputEntry) (s : State) :
    (takeControl e s).ctl = { s.ctl with taken := bump s.ctl.taken } := rfl
@[simp] theorem takeControl_inputs (e : InputEntry) (s : State) :
    (takeControl e s).inputs = { s.inputs with control := s.inputs.control.tail } := rfl
@[simp] theorem takeControl_port (e : InputEntry) (s : State) (q : PortNo) : (takeControl e s).port q = s.port q := rfl
@[simp] theorem takeControl_seg (e : InputEntry) (s : State) (t : SegNo) : (takeControl e s).seg t = s.seg t := rfl
@[simp] theorem takeControl_starPort (e : InputEntry) (s : State) (p : StarNo) :
    (takeControl e s).starPort p = s.starPort p := rfl
@[simp] theorem takeControl_printer (e : InputEntry) (s : State) (q : QueueNo) :
    (takeControl e s).printer q = s.printer q := rfl
@[simp] theorem takeControl_isRunning (e : InputEntry) (s : State) : (takeControl e s).isRunning = s.isRunning := rfl
@[simp] theorem takeControl_findEntry (e : InputEntry) (s : State) (c : DeskCode) :
    findEntry (takeControl e s) c = findEntry s c := rfl
@[simp] theorem takeControl_indexEntry (e : InputEntry) (s : State) (x : StationId) :
    indexEntry (takeControl e s) x = indexEntry s x := rfl

@[simp] theorem takeControl_permitted (e : InputEntry) (r : Route) (s : State) :
    permitted r (takeControl e s) = permitted r s := rfl

/-- The request that the head of the control input queue holds. -/
theorem headControl_of_asks {s : State} {e : InputEntry} {op : Byte} {tag : BitVec 16} {params : List Byte}
    (h : Asks s e op tag params) :
    headControl s = some (e, op :: tag.extractLsb' 8 8 :: tag.extractLsb' 0 8 :: params) := by
  obtain ⟨-, hq, hp⟩ := h
  unfold headControl
  cases hc : s.inputs.control with
  | nil => simp [hc] at hq
  | cons a l =>
    rw [hc] at hq
    simp only [List.head?_cons, Option.some.injEq] at hq
    subst hq
    simp only [hp]

theorem tag_bytes (tag : BitVec 16) : (tag.extractLsb' 8 8 ++ tag.extractLsb' 0 8 : BitVec 16) = tag := by
  apply BitVec.eq_of_toNat_eq
  simp only [BitVec.toNat_append, BitVec.extractLsb'_toNat, Nat.shiftRight_zero]
  have h := tag.isLt
  rw [Nat.shiftLeft_eq, Nat.shiftRight_eq_div_pow, ← Nat.shiftLeft_eq, ← Nat.shiftLeft_add_eq_or_of_lt (by omega),
    Nat.shiftLeft_eq]
  omega

theorem parseRequest_cons (op : Byte) (tag : BitVec 16) (params : List Byte) :
    parseRequest (op :: tag.extractLsb' 8 8 :: tag.extractLsb' 0 8 :: params)
      = some { op := op, tag := tag, params := params } := by
  simp only [parseRequest, tag_bytes]

/-- A command of the Control Unit at a request: answered when the row is its own, untouched otherwise. -/
theorem request_of_asks {s : State} {e : InputEntry} {op : Byte} {tag : BitVec 16} {params : List Byte}
    (h : Asks s e op tag params) (mine : Request → Bool) (handle : Request → Route → State → Reply) :
    request mine handle s =
      if mine { op := op, tag := tag, params := params } then
        answerRequest s { op := op, tag := tag, params := params } e.route
          (handle { op := op, tag := tag, params := params } e.route (takeControl e s))
      else s := by
  unfold request
  simp only [headControl_of_asks h, parseRequest_cons]

/-- A command of another row leaves the request where it stands. -/
theorem request_of_other {s : State} {e : InputEntry} {op : Byte} {tag : BitVec 16} {params : List Byte}
    (h : Asks s e op tag params) (mine : Request → Bool) (handle : Request → Route → State → Reply)
    (hm : mine { op := op, tag := tag, params := params } = false) : request mine handle s = s := by
  rw [request_of_asks h, hm]; rfl

/-- Time and transitions leave the request at the head as it is. -/
theorem asks_elapse {s : State} {e : InputEntry} {op : Byte} {tag : BitVec 16} {params : List Byte}
    (h : Asks s e op tag params) (dt : Elapsed) : Asks (s.elapse dt) e op tag params := h

/-! ## The stages -/

/-- A request whose parameters are in order, from a permitted sender, with no SAVE in flight, comes to its effect. -/
theorem stages_of_free {α : Type} (read : Bool) (held : α → State → Bool) (a : α) (effect : α → State → Reply) (r : Route)
    (s : State) (hp : permitted r s = true) (hs : s.ctl.save = none) :
    stages read held (some a) effect r s = effect a s := by
  simp [stages, hp, hs]

/-- A read whose parameters are in order comes to its effect. -/
theorem stages_read {α : Type} (a : α) (effect : α → State → Reply) (r : Route) (s : State) :
    stages true neverHeld (some a) effect r s = effect a s := by
  simp [stages, neverHeld]

/-- A request that no SAVE holds back, from a permitted sender, comes to its effect. -/
theorem stages_neverHeld {α : Type} (read : Bool) (a : α) (effect : α → State → Reply) (r : Route) (s : State)
    (hp : permitted r s = true) : stages read neverHeld (some a) effect r s = effect a s := by
  simp [stages, neverHeld, hp]

/-- A wrong length or an invalid choice is BAD_REQUEST (R178, R180). -/
theorem stages_bad {α : Type} (read : Bool) (held : α → State → Bool) (effect : α → State → Reply) (r : Route) (s : State) :
    stages read held none effect r s = refuse .badRequest s := rfl

/-- A sender without permission is answered NOT_PERMITTED (R181). -/
theorem stages_notPermitted {α : Type} (held : α → State → Bool) (a : α) (effect : α → State → Reply) (r : Route)
    (s : State) (hp : permitted r s = false) : stages false held (some a) effect r s = notPermitted s := by
  simp [stages, hp]

/-- A SAVE in flight is answered BUSY to what it holds back (R186). -/
theorem stages_busy {α : Type} (held : α → State → Bool) (a : α) (effect : α → State → Reply) (r : Route) (s : State)
    (hp : permitted r s = true) (hh : held a s = true) (hs : s.ctl.save.isSome = true) :
    stages false held (some a) effect r s = busyReply s := by
  simp [stages, hp, hh, hs]

/-! ## Answers -/

/-- A reply that leaves entries, records and links as they were is answered from the state it leaves. -/
theorem answerRequest_of_local {before : State} {e : InputEntry} {op : Byte} {tag : BitVec 16} {params : List Byte}
    {reply : Reply} (hd : reply.state.dir.entries = before.dir.entries) (hp : reply.state.sup.ports = before.sup.ports)
    (hl : ∀ p, (reply.state.starPort p).link = (before.starPort p).link) :
    answerRequest before { op := op, tag := tag, params := params } e.route reply
      = answered e op tag reply.status reply.results reply.state := by
  simp only [answerRequest, answered, settle_eq_self hd hp hl]

/-- What a request leaves differs from its effect by the arbiter's share and the answer. -/
theorem arbiterOnly_answerRequest (before : State) (q : Request) (r : Route) (reply : Reply) :
    ArbiterOnly reply.state (answerRequest before q r reply) :=
  (arbiterOnly_settle before reply.state).trans (onlySends_sendControl _ _ _).arbiter

/-! ## The 1 s tick -/

/-- Which block takes a 1 s tick: the one with more ticks to take, and the Presence Monitor of equals (R208). -/
theorem oneSecondTick_cases (s : State) :
    (s.chassis.ticks.printDue ≤ s.chassis.ticks.presenceDue ∧ oneSecondTick s = presenceSecond s)
    ∨ (s.chassis.ticks.presenceDue < s.chassis.ticks.printDue ∧ oneSecondTick s = printSecond s) := by
  unfold oneSecondTick
  split
  · exact .inr ⟨‹_›, rfl⟩
  · exact .inl ⟨by omega, rfl⟩

/-! ## The store image -/

/-- An image whose check word was overwritten is invalid, whatever its content (R204). -/
theorem StoreImage.judge_of_checkWord_none {i : StoreImage} (h : i.checkWord = none) : i.judge = .invalid := by
  simp [StoreImage.judge, h]

@[simp] theorem StoreImage.judge_invalidated (i : StoreImage) : i.invalidated.judge = .invalid :=
  StoreImage.judge_of_checkWord_none rfl

@[simp] theorem StoreImage.judge_filled (c : StoredConfig) (i : StoreImage) : (i.invalidated.filled c).judge = .invalid :=
  StoreImage.judge_of_checkWord_none rfl

/-- A verified write leaves an image that the next start-up loads (R202, R204). -/
@[simp] theorem StoreImage.judge_written (c : StoredConfig) : (StoreImage.written c).judge = .valid c := by
  have h : (StoreImage.written c).checkWord = some (StoreImage.written c).agreeing := rfl
  have e : (StoreImage.written c).erased = false := rfl
  have m : (StoreImage.written c).formatMark = true := rfl
  have d : (StoreImage.written c).content = some c := rfl
  simp [StoreImage.judge, h, e, m, d]

@[simp] theorem StoreImage.judge_blank : StoreImage.blank.judge = .blank := rfl

@[simp] theorem StoreImage.judge_halfErased : StoreImage.halfErased.judge = .invalid :=
  StoreImage.judge_of_checkWord_none rfl

end Sys2Proof.Machine
end

