-- ==== Sys2Proof/Tests/Slice0.lean ====
section
/-!
SUPPORT. Tests of the model on the manual's own figures, the smoke tests of WellFormed, and for every statement that has
premises a state and operands that meet them.
-/

open Sys2Proof Sys2Proof.Machine

namespace Sys2Proof.Tests

set_option Elab.async false

/-! ## Small states -/

/-- What a command leaves. -/
def after (o : Host.Outcome State Fault Refusal) : State :=
  match o with
  | .next u => u
  | .fault _ => State.reset
  | .refused _ => State.reset

/-- A learned entry, ACTIVE. -/
def entry (c : DeskCode) (p : Place) : Entry :=
  { code := c, place := p, origin := .learned, state := .active, admin := false, printerQueue := none, costCentre := 3,
    printClass := 1, presenceLimit := 80, presenceRemaining := 80, broadcastElapsed := 40, strikes := 0, periodMoves := 0,
    periodFaults := 0 }

/-- A FIXED entry with the admin attribute. -/
def admin (c : DeskCode) (p : Place) : Entry := { entry c p with origin := .fixed, admin := true, printerQueue := some 0 }

/-- Desk 52 on T1, the administrator at desk 12 on T0, and the printer of queue 1 at desk 200 on T2. -/
def office : State :=
  ((State.reset.addEntry (entry 52 (.trunk 1))).addEntry (admin 12 (.trunk 0))).addEntry
    { entry 200 (.trunk 2) with origin := .fixed, printerQueue := some 0 }

/-- The same office, commissioned. -/
def live : State :=
  { office with
    ctl := { office.ctl with commissioned := true },
    sup := { office.sup with ports := office.sup.ports.map (fun r => { r with state := .active }) } }

/-- A message from desk `c` on T0 at the head of the control input queue. -/
def asked (c : DeskCode) (payload : List Byte) (s : State) : State :=
  { s with
    bufs := modAt s.bufs 0 (fun _ => { Buf.free with refs := 1, kind := 3, payload := payload }),
    inputs := { s.inputs with control := [{ buf := 0, route := .segment 0 c }] } }

/-- The entry that `asked` makes. -/
def from_ (c : DeskCode) : InputEntry := { buf := 0, route := .segment 0 c }

/-- A print message from desk `c` on T1 at the head of the print input queue. -/
def printed (c : DeskCode) (payload : List Byte) (s : State) : State :=
  { s with
    bufs := modAt s.bufs 0 (fun _ => { Buf.free with refs := 1, kind := 2, payload := payload }),
    inputs := { s.inputs with print := [{ buf := 0, route := .segment 1 c }] } }

/-- The entry that `printed` makes. -/
def sent (c : DeskCode) : InputEntry := { buf := 0, route := .segment 1 c }

/-- A ticket of desk 52. -/
def ticket (n : Nat) (f : Fin 16) : Ticket :=
  { number := n, requester := 52, cls := 1, costCentre := 3, form := f, label := [], waitAge := 0, bytesFed := 0 }

/-- Queue 1 with its printer at desk 200, online with credit 2, in a given state. -/
def printing (p : PrinterState) (waiting : List Ticket) : State :=
  live.modPrinter 0 (fun r => { r with
    code := some 200, enable := true, online := true, credit := 2, state := p, waiting := waiting, idleRemaining := 1,
    nextTicket := 7 })

/-- One reference on the trunk transmit queue, buffer 5. -/
def queued : State :=
  { live with
    bufs := modAt live.bufs 5 (fun _ => { Buf.free with refs := 1, kind := 1, trunkAddr := some { dst := 18, src := 240 } }),
    trunk := { live.trunk with queue := [5] } }

/-- The transmitter's attempt of that frame, driving every segment. -/
def sending : State := { queued with trunk := { queued.trunk with holder := .transmitter } }.mapSegs (fun g => { g with driven := true })

/-- A burst in progress on T1 from tick 62000, with T1 as holder. -/
def burst : State :=
  ({ live with chassis := { live.chassis with now := 62000 }, trunk := { live.trunk with holder := .segment 1 } }).modSeg 1
    (fun g => { g with carrier := true, phase := .burst, riseAt := 62000, current := { g.current with rise := 62000, cls := .inProgress } })

/-- Line bits of a list of bytes. -/
def bits (l : List Byte) : List Bool := l.flatMap byteBits

/-- The same burst with the lead-in and the first two header bytes of a broadcast of desk 52 decoded. -/
def heading : State := burst.modSeg 1 (fun g => { g with decoder := Decoder.initial.feed (bits [0xA5, 0xC3, 0, 52]) })

/-- The rest of that header: kind 1, length 0, header check 202. -/
def headerRest : List Bool := bits [1, 0, 0, 202]

/-- S2 with its link up, two references queued, the head being sent, and a frame in reception. -/
def loaded : State :=
  { live with bufs := (modAt (modAt live.bufs 5 (fun _ => { Buf.free with refs := 1 })) 6 (fun _ => { Buf.free with refs := 1 })) }.modStar 2
    (fun x => { x with lineUp := true, link := true, queue := [5, 6], tx := .sending [1], rx := .receiving, store := [1], count := 1 })

/-! ## WellFormed -/

theorem test_wf_desk_zero : WellFormed (.aging 0) = false := by decide
theorem test_wf_desk_bridge : WellFormed (.presenceQuery 240) = false := by decide
theorem test_wf_desk_absent : WellFormed (.becomesAbsent 255) = false := by decide
theorem test_wf_desk_quarantine : WellFormed (.quarantineEnd 0) = false := by decide
theorem test_wf_desk_edges : WellFormed (.aging 1) = true ∧ WellFormed (.aging 239) = true := by decide
theorem test_wf_header_cells : WellFormed (.headerEvent 0 0 (List.replicate 30001 true)) = false := by decide +kernel
theorem test_wf_fall_cells : WellFormed (.burstFall 0 0 0 (List.replicate 30001 true)) = false := by decide +kernel
theorem test_wf_most_cells : WellFormed (.headerEvent 0 0 (List.replicate 30000 true)) = true := by decide +kernel
theorem test_wf_tick_reaches_a_block :
    let tick := fun (b : Bool) => Instr.oneMillisecondTick
      { senses := 0, edges := #v[0, 0, 0, 0], reach := { timeBase := false, channels := b, presence := false, supervision := false } }
    WellFormed (tick false) = false ∧ WellFormed (tick true) = true := by decide

/-! ## The decoder of words: no row of the table has bits -/

theorem test_no_word_spells_a_command : decodeTableWord 32 0xA5C3 = none := by decide
theorem test_withFetchWord_places_nothing : (State.reset.withFetchWord 16 1).pending = [] := by decide +kernel

/-! ## The manual's worked figures -/

/-- Chapter 12, worked figures of the header check. -/
theorem test_header_check : headerCheck [37, 12, 1, 0, 64] = 141 ∧ headerCheck [240, 200, 3, 1, 44] = 23
    ∧ headerPasses [37, 12, 1, 0, 64, 141] = true := by decide

/-- Section 1.5, first burst: L 1200, E 590 is GARBLE with cause CODE. -/
theorem test_classify_first : classify false 150 1200 590 true = (.garble, some .code) := by decide

/-- Section 1.5, second and third burst, and a burst of 149 ticks. -/
theorem test_classify_rest : classify false 150 1200 900 true = (.good, none) ∧ classify false 150 500 480 false = (.check, none)
    ∧ classify false 150 149 75 true = (.runt, none) ∧ classify true 150 100 50 true = (.garble, some .collision) := by decide

/-- The wrap of Section 1.5: from 100 to 600 is 500 ticks, and across the wrap 61000 to 62000 is 1000. -/
theorem test_capture_wraps : (600#16 - 100#16).toNat = 500 ∧ (BitVec.ofNat 16 (65536 + 100) - 65436#16).toNat = 200 := by decide

/-- Table 6-4: the fold of T2. -/
theorem test_worked_fold :
    let r := { PortRec.initial with state := .active, score := 200, nRunt := 3, nGarble := 10, nCheck := 5,
                                    current := { Settings.default with isolate := 300 } }
    utilisation 2200000 19 = 55 ∧ decayed 200 = 175 ∧ r.tally = 56 ∧ r.running = 256 ∧ addition (some 55) r = 41
      ∧ (r.scored (some 55)).score = 216 ∧ (r.scored (some 55)).warning = true := by decide

/-- Section 6: from S = 9 the decay is 1, from 16 it is 2, from 0 none. -/
theorem test_decay_low_end : decayed 9 = 8 ∧ decayed 16 = 14 ∧ decayed 0 = 0 ∧ decayed 216 = 189 := by decide

/-- Table 6-7: the lift of a jabber isolates T3 with hold length 2. -/
theorem test_jabber_isolates :
    let s := (burst.modPort 1 (fun r => { r with score := 40, current := { r.current with baseHold := 2 } }))
    let r := (after (exec (.jabberCut 1 9) s)).port 1
    (r.state, r.score, r.k, r.holdLength, r.holdRemaining) = (.isolated, 256, 1, 2, 2) := by decide +kernel

/-- Table 6-7, fold 4: 153 is not below 96, so the probation ends in isolation with hold 4. -/
theorem test_failed_probation :
    let s := live.modPort 3 (fun r => { r with state := .probation, score := 153, k := 1, probationRemaining := 1,
                                               current := { r.current with baseHold := 2 } })
    let r := (verdict 3 s).port 3
    (r.state, r.k, r.holdRemaining) = (.isolated, 2, 4) := by decide +kernel

/-- Table 6-7, fold 10: 70 is below 96, so the port is readmitted. -/
theorem test_readmission :
    let s := live.modPort 3 (fun r => { r with state := .probation, score := 70, k := 2, probationRemaining := 1 })
    ((verdict 3 s).port 3).state = .active ∧ ((verdict 3 s).port 3).readmissions = 1
      ∧ (flagOf (verdict 3 s) .readmitted 3).isSome = true := by decide +kernel

/-- Table 1-6: the header of desk 52's broadcast, 40 ms after its last, is early, earns a strike and truncates. -/
theorem test_early_broadcast_truncates :
    let u := after (exec (.headerEvent 1 0 headerRest) heading)
    u.trunk.truncate = true ∧ u.trunk.holder = .segment 1 ∧ (findEntry u 52).map Entry.strikes = some 1
      ∧ (u.seg 1).counters.truncated = 1 := by decide +kernel

/-- Table 1-6: a rise on T2 in PROBATION claims nothing. -/
theorem test_probation_claims_nothing :
    (after (exec (.burstRise 2 4) (live.modPort 2 (fun r => { r with state := .probation })))).trunk.holder = .none := by
  decide +kernel

/-- Table 1-7: a rise during an attempt is a collision; 76 µs, 304 ticks, are then required. -/
theorem test_collision_backs_off :
    let u := after (exec (.burstRise 3 4) sending)
    u.trunk.attempts = 1 ∧ u.trunk.counters.txCollisions = 1 ∧ u.trunk.queue = [5] ∧ requiredQuiet 1 = 304
      ∧ requiredQuiet 2 = 560 ∧ requiredQuiet 3 = 816 := by decide +kernel

/-- Table 1-7: the fourth failed attempt abandons the frame. -/
theorem test_fourth_collision_abandons :
    let u := after (exec (.burstRise 3 4) { sending with trunk := { sending.trunk with attempts := 3 } })
    u.trunk.queue = [] ∧ u.trunk.counters.txAbandon = 1 ∧ (u.buf 5).refs = 0 := by decide +kernel

/-- Table 2-3: completion, then LINK DOWN: FLUSHED counts what was left and the reception is abandoned. -/
theorem test_link_loss :
    let u := after (exec (.linkDown 2) (after (exec (.sendCompletion 2) loaded)))
    let x := u.starPort 2
    x.link = false ∧ x.queue = [] ∧ x.rx = .idle ∧ x.counters.txFrames = 1 ∧ x.counters.linkLoss = 1
      ∧ x.counters.flushed = 1 ∧ (u.port 6).nLink = 1 ∧ (flagOf u .linkDown 2).isSome = true := by decide +kernel

/-- Table 2-3: a frame of 13 bytes with a matching check is GOOD with an empty payload. -/
theorem test_least_frame_is_good :
    let f := starFrame { dst := 0x00A1B2C3, src := 0x00C3B2A1 } 1 []
    f.length = 13 ∧ classifyStar f 13 = .good ∧ classifyStar (f.take 12) 12 = .runt
      ∧ classifyStar (f.set 0 9) 13 = .check := by decide +kernel

/-- The frame check of R210 over the nine characters 1 to 9 (the customary figure of this CRC, 0x29B1). -/
theorem test_crc : crc16 [0x31, 0x32, 0x33, 0x34, 0x35, 0x36, 0x37, 0x38, 0x39] = 0x29B1 := by decide +kernel

/-- Table 10-2: of a backlog of eleven records eight join and three are dropped. -/
theorem test_backlog :
    let f : AlertKind → Nat → AlertFlag := fun k i => { kind := k, inst := i, detail := none }
    let s := { office with alerts := { office.alerts with
      config := { office.alerts.config with dest := .code 5 },
      flags := [f .warning 1, f .warning 6, f .terminator 2, f .linkDown 0, f .linkDown 3, f .linkDown 5, f .codeConflict 0,
                f .poolEmpty 0, f .printerOffline 4, f .jobAbandoned 2, f .storeFault 0] } }
    let a := (raiseBacklog s).alerts
    a.queued = 8 ∧ a.dropped = 3 ∧ a.displaced = 0
      ∧ a.queue.map AlertRecord.kind = [.storeFault, .warning, .warning, .terminator, .linkDown, .linkDown, .linkDown, .codeConflict] := by
  decide +kernel

/-- R171: with carry into the high half, and at the top. -/
theorem test_bytes_count :
    ({ CostSet.zero with low := 65530 }.addBytes 10) = { CostSet.zero with low := 4, high := 1 }
      ∧ ({ CostSet.zero with low := 65530, high := 65535 }.addBytes 10) = { CostSet.zero with low := 65535, high := 65535, saturated := true } := by
  decide

/-- R131: an isolate threshold of 1 becomes 2, and the warning threshold lies below it. -/
theorem test_thresholds_clamp :
    let v := { Settings.default with isolate := 1, warn := 900, jabberLimit := 65535 }.clamped
    (v.isolate, v.warn, v.jabberLimit) = (2, 1, 60000) := by decide

/-- Table 12-3 and R145: an OPEN, a DATA of no bytes, a message of no known operation. -/
theorem test_print_messages :
    parsePrint [1, 2, 0, 2, 65, 66] = .openJob 1 0 [65, 66] ∧ parsePrint [2, 1, 5] = .malformed 1 5
      ∧ parsePrint [9, 1, 5] = .malformed 0 0 ∧ parsePrint [1, 7, 0, 0] = .malformed 0 0 := by decide

/-- R147: 255 is followed by 1, and a number in use is passed over. -/
theorem test_ticket_numbers :
    nextNumber { Printer.initial with nextTicket := 255, waiting := [ticket 255 0, ticket 1 0] } = 2 := by decide

/-- R71 and Table 4-3: the first star station learned gets code 160, the lowest of the default proxy range. -/
theorem test_first_proxy_code : proxyCode State.reset = some 160 := by decide +kernel

/-- R181: without admin attribute on a commissioned bridge a request is not permitted. -/
theorem test_not_permitted :
    let u := after (exec .queuePurge (asked 52 [19, 0, 9, 1] live))
    u.ctl.notPermitted = 1 ∧ u.ctl.taken = 1 ∧ u.trunk.queue.length = 1 := by decide +kernel

/-- R182 and Table 12-5: STATUS_READ is answered with operation plus 128, the tag and status 0, in a fresh buffer. -/
theorem test_status_is_answered :
    let u := after (exec .statusRead (asked 52 [1, 0xAB, 0xCD] live))
    (u.trunk.queue.map (fun b => (u.buf b).payload.take 4)) = [[129, 0xAB, 0xCD, 0]] := by decide +kernel

/-- R200 to R202: the power-on of a part with a blank store gives the state after reset. -/
theorem test_power_on_is_reset : after (exec .powerOn State.reset) = State.reset := by decide +kernel

/-- R144, R153: an OPEN for an idle, reachable printer with the form loaded is granted at once. -/
theorem test_open_is_granted :
    let u := after (exec .printOpen (printed 52 [1, 1, 0, 0] (printing .idle [])))
    (u.printer 0).state = .granted (ticket 7 0) ∧ (u.printer 0).nextTicket = 8 := by decide +kernel

/-- R148, R149: a DATA becomes a FEED and takes credit; the granted ticket's bytes are charged to centre 3. -/
theorem test_data_is_fed :
    let u := after (exec .printData (printed 52 [2, 1, 7, 65, 66, 67] (printing (.granted (ticket 7 0)) [])))
    (u.printer 0).credit = 1 ∧ u.print.feeds = 1 ∧ (u.acct.live[3]).low = 3 ∧ u.trunk.queue = [0]
      ∧ (u.buf 0).payload = [0x12, 1, 7, 65, 66, 67] := by decide +kernel

/-- R79, R161: a proxy entry that loses its code, with no other to be had, loses its grant, and the next ticket is granted
in the same event. -/
theorem test_lost_code_passes_the_grant :
    let s0 := printing (.granted { ticket 6 0 with requester := 60 }) [ticket 7 0]
    let s := { (s0.modStar 2 (fun x => { x with link := true })).addEntry (entry 60 (.star 0x11 (some 2))) with
               office := { s0.office with proxyLow := 12, proxyHigh := 12 } }
    let u := settle s (learnTrunk 3 60 s).2
    (u.printer 0).state = .granted (ticket 7 0) ∧ (flagOf u .poolEmpty 0).isSome = true
      ∧ (findEntry u 60).map Entry.place = some (.trunk 3) ∧ (u.acct.live[3]).abandoned = 1 := by decide +kernel

/-- R10, R12: 17 quiet milliseconds set the long-quiet mark. -/
theorem test_long_quiet :
    ((after (exec (.longQuiet 0) (live.modSeg 0 (fun g => { g with quietCount := 16, longQuiet := false })))).seg 0).longQuiet = true := by
  decide +kernel

/-! ## The premises of the statements are met -/

theorem witness_HeldPartTakesNothing :
    (standStill .held State.reset).isRunning = false ∧ (standStill .unpowered State.reset).isRunning = false := by decide +kernel

theorem witness_RiseOpensARecord :
    burst.isRunning = true ∧ relayClosed burst 2 = true ∧ (burst.seg 2).carrier = false ∧ (burst.seg 2).phase = .quiet
      ∧ (burst.trunk.holder ≠ .none ∨ segConnected burst 2 = false)
      ∧ (burst.trunk.holder = .transmitter → (burst.seg 2).driven = false)
      ∧ live.isRunning = true ∧ relayClosed live 1 = true ∧ (live.seg 1).carrier = false ∧ (live.seg 1).phase = .quiet
      ∧ live.trunk.holder = .none ∧ segConnected live 1 = true := by decide +kernel

theorem witness_RiseClaimsTheRepeater :
    live.isRunning = true ∧ relayClosed live 1 = true ∧ (live.seg 1).carrier = false ∧ (live.seg 1).phase = .quiet
      ∧ segConnected live 1 = true ∧ live.trunk.holder = .none ∧ NothingDriven live := by
  unfold NothingDriven; decide +kernel

theorem witness_CollisionEndsTheAttempt :
    let s := { sending with trunk := { sending.trunk with attempts := 3 } }
    (sending.isRunning = true ∧ relayClosed sending 3 = true ∧ (sending.seg 3).carrier = false ∧ (sending.seg 3).phase = .quiet
      ∧ sending.trunk.holder = .transmitter ∧ (sending.seg 3).driven = true ∧ sending.trunk.queue = [5] ∧ sending.trunk.attempts < 3)
    ∧ s.isRunning = true ∧ relayClosed s 3 = true ∧ (s.seg 3).carrier = false ∧ (s.seg 3).phase = .quiet
      ∧ s.trunk.holder = .transmitter ∧ (s.seg 3).driven = true ∧ s.trunk.queue = [5] ∧ 3 ≤ s.trunk.attempts := by decide +kernel

/-- The same attempt with T3 as the one connected segment, which then leaves service. -/
theorem witness_CollisionEndsTheAttempt_down :
    let held := fun (r : PortRec) => { r with state := SupState.held }
    let s := ((sending.modPort 0 held).modPort 1 held).modPort 2 held
    s.isRunning = true ∧ relayClosed s 3 = true ∧ (s.seg 3).carrier = false ∧ (s.seg 3).phase = .quiet
      ∧ s.trunk.holder = .transmitter ∧ (s.seg 3).driven = true ∧ s.trunk.queue = [5]
      ∧ (∀ w, segConnected s w = decide (w = 3)) ∧ SupState.off.inService = false
      ∧ (setPortState 3 .off s).trunk.counters.trunkDown = 1 := by decide +kernel

/-- T3 as the one connected segment with no attempt running, and with a burst of its own repeated. -/
theorem witness_CollisionEndsTheAttempt_down_idle :
    let held := fun (r : PortRec) => { r with state := SupState.held }
    let s := ((queued.modPort 0 held).modPort 1 held).modPort 2 held
    let r := { s with trunk := { s.trunk with holder := .segment 3 } }
    ((∀ w, segConnected s w = decide (w = 3)) ∧ s.trunk.holder = .none ∧ s.trunk.queue = [5])
      ∧ (∀ w, segConnected r w = decide (w = 3)) ∧ SupState.held.inService = false
      ∧ (setPortState 3 .held s).trunk.queue = [] ∧ ((setPortState 3 .held s).buf 5).refs = 0 := by decide +kernel

/-- An early broadcast whose strike reaches the babble limit of a commissioned bridge. -/
theorem witness_HeaderDecision_babble :
    let e := { entry 52 (.trunk 1) with strikes := heading.office.babbleLimit - 1 }
    let s := heading.modEntry 52 (fun _ => e)
    let u := after (exec (.headerEvent 1 0 headerRest) s)
    s.isRunning = true ∧ (s.seg 1).phase = .burst ∧ s.trunk.holder = .segment 1 ∧ (s.seg 1).decoder.header = none
      ∧ ((s.seg 1).decoder.feed headerRest).header = some true ∧ findEntry s 52 = some e ∧ e.inUse = true
      ∧ e.broadcastElapsed < s.office.minSpacing ∧ s.ctl.commissioned = true ∧ s.office.babbleLimit ≤ min (e.strikes + 1) 31
      ∧ (findEntry u 52).map Entry.state = some (.suspended (.timed .babble 60))
      ∧ u.dir.counters.babbleSuspensions = 1 := by decide +kernel

theorem witness_HeaderDecision :
    heading.isRunning = true ∧ (heading.seg 1).phase = .burst ∧ heading.trunk.holder = .segment 1
      ∧ (heading.seg 1).decoder.header = none ∧ ((heading.seg 1).decoder.feed headerRest).header = some true
      ∧ findEntry heading (byteAt ((heading.seg 1).decoder.feed headerRest).store 1) = some (entry 52 (.trunk 1))
      ∧ (entry 52 (.trunk 1)).inUse = true ∧ byteAt ((heading.seg 1).decoder.feed headerRest).store 0 = 0#8
      ∧ (entry 52 (.trunk 1)).broadcastElapsed < heading.office.minSpacing := by decide +kernel

theorem witness_HeaderDecision_accepted :
    let s := heading.modEntry 52 (fun e => { e with broadcastElapsed := 200 })
    s.isRunning = true ∧ (s.seg 1).phase = .burst ∧ s.trunk.holder = .segment 1 ∧ (s.seg 1).decoder.header = none
      ∧ ((s.seg 1).decoder.feed headerRest).header = some true
      ∧ findEntry s 52 = some { entry 52 (.trunk 1) with broadcastElapsed := 200 } ∧ s.office.minSpacing ≤ 200 := by decide +kernel

theorem witness_HeaderDecision_suspended :
    let s := heading.modEntry 52 (fun e => { e with state := .suspended .admin })
    s.isRunning = true ∧ (s.seg 1).phase = .burst ∧ s.trunk.holder = .segment 1 ∧ (s.seg 1).decoder.header = none
      ∧ ((s.seg 1).decoder.feed headerRest).header = some true
      ∧ findEntry s 52 = some { entry 52 (.trunk 1) with state := .suspended .admin } := by decide +kernel

theorem witness_HeaderDecision_other :
    let s := burst.modSeg 1 (fun g => { g with decoder := Decoder.initial.feed (bits [0xA5, 0xC3, 9, 52]) })
    let d := (s.seg 1).decoder.feed (bits [1, 0, 0, 193])
    s.isRunning = true ∧ (s.seg 1).phase = .burst ∧ s.trunk.holder = .segment 1 ∧ (s.seg 1).decoder.header = none
      ∧ d.header = some true ∧ findEntry s (byteAt d.store 1) = some (entry 52 (.trunk 1)) ∧ byteAt d.store 0 ≠ 0#8 := by decide +kernel

/-- A header that fails by one bit of its check, a source that no entry holds, and the broadcast of an ABSENT source. -/
theorem witness_HeaderDecision_alone :
    let d := (heading.seg 1).decoder.feed (bits [1, 0, 0, 203])
    let s := burst.modSeg 1 (fun g => { g with decoder := Decoder.initial.feed (bits [0xA5, 0xC3, 0, 53]) })
    let d' := (s.seg 1).decoder.feed (bits [1, 0, 0, headerCheck [0, 53, 1, 0, 0]])
    let a := heading.modEntry 52 (fun e => { e with state := .absent })
    d.header = some false
      ∧ (s.isRunning = true ∧ (s.seg 1).phase = .burst ∧ s.trunk.holder = .segment 1 ∧ (s.seg 1).decoder.header = none
        ∧ d'.header = some true ∧ findEntry s (byteAt d'.store 1) = none)
      ∧ a.isRunning = true ∧ (a.seg 1).phase = .burst ∧ a.trunk.holder = .segment 1 ∧ (a.seg 1).decoder.header = none
      ∧ (findEntry a 52).map Entry.state = some .absent := by decide +kernel

theorem witness_FallClassifiesTheBurst :
    burst.isRunning = true ∧ (burst.seg 1).phase = .burst
      ∧ burst.chassis.now + 9999 < (burst.seg 1).riseAt + (burst.seg 1).jabberAtRise
      ∧ ((burst.seg 1).decoder.header ≠ none ∨ ((burst.seg 1).decoder.feed [true]).header = none) := by decide +kernel

/-- A whole frame of desk 52 on T1, decoded up to the end of its header, and the rest of its bits. -/
def arriving (f : List Byte) : State := burst.modSeg 1 (fun g => { g with decoder := Decoder.initial.feed (bits (f.take 8)) })

/-- A burst of each class: too short, too few transitions, no frame in it, a frame whose check fails, a good frame, and the
same frame in PROBATION. -/
theorem witness_FallClassifiesTheBurst_classes :
    let f := trunkFrame { dst := 12, src := 52 } 1 [7]
    let s := arriving f
    let p := s.modPort 1 (fun r => { r with state := .probation })
    let rest := bits (f.drop 8)
    let cls := fun dt n cells x => ((after (exec (.burstFall 1 dt n cells) x)).seg 1).current.cls
    (cls 100 50 [] burst, cls 2000 10 [] burst, cls 2000 1200 [] burst, cls 2000 1200 (rest.set 0 true) s, cls 2000 1200 rest s,
        cls 2000 1200 rest p) = (.runt, .garble, .check, .check, .good, .good)
      ∧ ((burst.seg 1).decoder.feed []).header = none
      ∧ (s.isRunning = true ∧ (s.seg 1).phase = .burst ∧ s.chassis.now + 2000 < (s.seg 1).riseAt + (s.seg 1).jabberAtRise
        ∧ (s.seg 1).decoder.header = some true ∧ findEntry s (byteAt ((s.seg 1).decoder.feed rest).store 1) = some (entry 52 (.trunk 1))
        ∧ ((s.seg 1).decoder.feed rest).verdict.isSome = true ∧ segConnected s 1 = true)
      ∧ p.isRunning = true ∧ (p.seg 1).phase = .burst ∧ segConnected p 1 = false := by decide +kernel

/-- R18: a CHECK burst whose header passed is charged to its source. -/
theorem test_check_is_attributed :
    let f := trunkFrame { dst := 12, src := 52 } 1 [7]
    let u := after (exec (.burstFall 1 2000 1200 ((bits (f.drop 8)).set 0 true)) (arriving f))
    (findEntry u 52).map Entry.periodFaults = some 1 ∧ ((u.port 1).attributed, (u.port 1).nCheck) = (1, 1) := by decide +kernel

theorem witness_JabberIsCut : burst.isRunning = true ∧ (burst.seg 1).phase = .burst
    ∧ ((burst.port 1).state = .active ∨ (burst.port 1).state = .probation) ∧ (burst.port 1).exempt = false := by decide +kernel

theorem witness_JabberIsCut_exempt :
    let s := burst.modPort 1 (fun r => { r with exempt := true })
    s.isRunning = true ∧ (s.seg 1).phase = .burst ∧ (s.port 1).exempt = true := by decide +kernel

theorem witness_SegmentComesToRest :
    let a := live.modSeg 0 (fun g => { g with phase := .continuation })
    let b := live.modSeg 0 (fun g => { g with phase := .closing })
    let c := live.modSeg 0 (fun g => { g with quietCount := 16 })
    (a.isRunning = true ∧ (a.seg 0).phase = .continuation) ∧ (b.isRunning = true ∧ (b.seg 0).phase = .closing)
      ∧ c.isRunning = true ∧ relayClosed c 0 = true ∧ (c.seg 0).carrier = false ∧ (c.seg 0).quietCount = 16 := by decide +kernel

theorem witness_TerminatorEdgeActs :
    let s := { (live.modSeg 0 (fun g => { g with differing := true })) with
      segPlans := modAt live.segPlans 0 (fun p => { p with loss := .isolate }) }
    s.isRunning = true ∧ (s.seg 0).differing = true ∧ (!(s.seg 0).unterminated) = true ∧ (s.segPlans[(0 : SegNo).val]).loss = .isolate
      ∧ (s.port (portOfSeg 0)).state = .active ∧ (s.port (portOfSeg 0)).exempt = false := by decide +kernel

theorem witness_TransmitterSends :
    let s := { queued with chassis := { queued.chassis with now := 1000 } }
    (queued.isRunning = true ∧ queued.trunk.queue = [5] ∧ queued.trunk.holder = .none ∧ NothingDriven queued
      ∧ (∃ v, segConnected queued v = true)
      ∧ ∀ v, segConnected queued v = true → (queued.seg v).carrier = false ∧ (queued.seg v).phase = .quiet
          ∧ (queued.seg v).quietSince + 48 + 256 * queued.trunk.attempts ≤ queued.chassis.now + 48)
    ∧ (segConnected queued 0 = true ∧ queued.chassis.now + 47 < (queued.seg 0).quietSince + 48 + 256 * queued.trunk.attempts)
    ∧ (sending.isRunning = true ∧ sending.trunk.queue = [5] ∧ sending.trunk.holder = .transmitter) ∧ s.isRunning = true := by
  unfold NothingDriven; decide +kernel

theorem witness_LinkEvents :
    live.isRunning = true ∧ (loaded.isRunning = true ∧ (loaded.starPort 2).link = true ∧ (loaded.port (portOfStar 2)).state = .active)
      ∧ (loaded.modPort 6 (fun r => { r with state := .off })).isRunning = true := by decide +kernel

/-- A link lost on a port that is not connected, and a grant whose printer or requester the event makes unreachable. -/
theorem witness_LinkEvents_lost :
    let p := loaded.modPort 6 (fun r => { r with state := .probation })
    let g := printing (.granted (ticket 7 0)) [ticket 8 0]
    let cut := fun q => g.modPort q (fun r => { r with state := .held })
    (p.isRunning = true ∧ (p.starPort 2).link = true ∧ (p.port (portOfStar 2)).state = .probation)
      ∧ ((g.printer 0).state = .granted (ticket 7 0) ∧ printerReachable g 0 = true ∧ reachable g 52 = true)
      ∧ (printerReachable (cut 1) 0 = true ∧ reachable (cut 1) 52 = false) ∧ printerReachable (cut 2) 0 = false
      ∧ reachableStations g ≠ reachableStations (cut 2) ∧ (printing .idle []).isRunning = true := by decide +kernel

/-- The outcomes of selection: no candidate, a head whose form is loaded, a young head passed over, a head at the form-hold
limit, a head that nothing fits, and a printer that is not eligible. -/
theorem witness_LinkEvents_selection :
    let old := { ticket 7 2 with waitAge := 120 }
    let s := printing .idle
    (∀ l ∈ [[], [ticket 7 0], [ticket 7 2, ticket 8 0], [old, ticket 8 0], [ticket 7 2]],
        eligible (s l) 0 = true ∧ candidates (s l) 0 = l)
      ∧ ((s []).printer 0).loadedForm = 0 ∧ ((s []).printer 0).formHold = 120
      ∧ eligible (printing (.formWait 2) [ticket 7 2]) 0 = true ∧ eligible live 0 = false := by decide +kernel

/-- R159, R160: with the printer cut off no BREAK goes out and its credit is gone; with the requester cut off BREAK does. -/
theorem test_lost_grants :
    let g := printing (.granted (ticket 7 0)) []
    let cut := fun q => settle g (g.modPort q (fun r => { r with state := .held }))
    let sent := fun (u : State) => u.trunk.queue.map (fun b => ((u.buf b).payload, (u.buf b).trunkAddr.map TrunkAddr.dst))
    sent (cut 2) = [([0x10, 6, 1, 7, 0], some 52)] ∧ ((cut 2).printer 0).credit = 0
      ∧ sent (cut 1) = [([0x14, 1, 7], some 200), ([0x10, 6, 1, 7, 0], some 52)]
      ∧ ((cut 1).printer 0).state = .idle ∧ ((cut 1).acct.live[3]).abandoned = 1 := by decide +kernel

theorem witness_StarFrameIsClassified :
    (live.isRunning = true ∧ (live.port (portOfStar 2)).state.listens = true ∧ (live.starPort 2).rx = .idle)
      ∧ loaded.isRunning = true ∧ (loaded.starPort 2).rx = .receiving := by decide +kernel

/-- A frame of each class on S2: too short, of a wrong length from a known station and from an unknown one, good, and the
same in PROBATION. -/
theorem witness_StarFrameIsClassified_classes :
    let f := starFrame { dst := 77, src := 0x00A1B2C3 } 1 [9]
    let s := (loaded.addEntry (entry 160 (.star 0x00A1B2C3 (some 2)))).modStar 2 (fun x => { x with store := f.take 4, count := 4 })
    let p := s.modPort 6 (fun r => { r with state := .probation })
    let k := fun bytes x => let u := after (exec (.frameEnd 2 bytes) x); let c := (u.starPort 2).counters; (c.rxRunt, c.rxCheck, c.rxGood)
    (k [] s, k (f.drop 5) s, k (f.drop 4) s, k (f.drop 4) p) = ((1, 0, 0), (0, 1, 0), (0, 0, 1), (0, 0, 1))
      ∧ k ((f.drop 4) ++ [0]) s = (0, 1, 0)
      ∧ (s.isRunning = true ∧ (s.starPort 2).rx = .receiving ∧ starConnected s 2 = true)
      ∧ (indexEntry s (starRxOf f).src).isSome = true ∧ indexEntry s (be32 0 0xA1 0xB2 0xC4) = none
      ∧ p.isRunning = true ∧ starConnected p 2 = false := by decide +kernel

/-- R44, R144: a frame that learning makes a duplicate holds the last buffer to the end of its event, so the BREAK and the
ABANDONED of its sender's grant find none and are lost, and the buffer is free after the event. -/
theorem test_last_buffer_is_held :
    let f := starFrame { dst := 77, src := 0x00A1B2C3 } 1 [9]
    let e := { entry 160 (.star 0x00A1B2C3 (some 3)) with periodMoves := live.office.moveLimit }
    let g := (printing (.granted { ticket 7 0 with requester := 160 }) []).addEntry e
    let up := (g.modStar 3 (fun x => { x with link := true })).modStar 2 (fun x => { x with link := true, rx := .receiving })
    let s := { up with bufs := Vector.ofFn (fun b : BufId => if b = 9 then Buf.free else { Buf.free with refs := 1 }) }
    let u := after (exec (.frameEnd 2 f) s)
    (u.print.endingLost, u.print.answerLost, (u.drops[6]).sourceSuspended, freeBuffers u) = (1, 1, 1, 1)
      ∧ (findEntry u 160).map Entry.isSuspended = some true ∧ (u.printer 0).grant = none := by decide +kernel

theorem witness_StarPortSends :
    let s := loaded.modStar 2 (fun x => { x with tx := .idle })
    (s.isRunning = true ∧ (s.starPort 2).queue = [5, 6] ∧ starConnected s 2 = true ∧ (s.starPort 2).tx = .idle)
      ∧ loaded.isRunning = true ∧ (loaded.starPort 2).queue = [5, 6] ∧ (loaded.starPort 2).tx = .sending [1] := by decide +kernel

theorem witness_FaultEventMayIsolate :
    let s := live.modPort 0 (fun r => { r with score := 248 })
    let r := (s.port 0).count .link
    r.state = .active ∧ r.exempt = false ∧ r.current.isolate ≤ r.running := by decide +kernel

theorem witness_FoldScoresEveryPort :
    let s := { (live.modSeg 1 (fun g => { g with busy := 4000000 })) with sup := { live.sup with
      timer := 0, ports := modAt live.sup.ports 1 (fun r => { r with nGarble := 10, current := { r.current with loadThreshold := 100 } }) } }
    s.isRunning = true ∧ s.sup.timer = 0 ∧ (s.port 1).current.loadThreshold = 100
      ∧ (((after (exec .fold s)).port 1).lastU, ((after (exec .fold s)).port 1).score) = (some 100, 30) := by decide +kernel

theorem witness_FoldReachesItsVerdict :
    let a := live.modPort 3 (fun r => { r with state := .isolated, holdRemaining := 2 })
    let b := live.modPort 3 (fun r => { r with state := .isolated, holdRemaining := 1 })
    let c := { (b.modSeg 3 (fun g => { g with unterminated := true })) with segPlans := modAt b.segPlans 3 (fun p => { p with loss := .isolate }) }
    let d := live.modPort 3 (fun r => { r with state := .probation, probationRemaining := 2 })
    (live.port 3).state = .active ∧ ((a.port 3).state = .isolated ∧ 2 ≤ (a.port 3).holdRemaining)
      ∧ ((b.port 3).state = .isolated ∧ (b.port 3).holdRemaining = 1 ∧ (b.seg 3).unterminated = false)
      ∧ ((c.port 3).state = .isolated ∧ (c.port 3).holdRemaining = 1 ∧ (3 : PortNo) = portOfSeg 3
        ∧ (c.seg 3).unterminated = true ∧ (c.segPlans[(3 : SegNo).val]).loss = .isolate ∧ (c.port 3).exempt = false)
      ∧ (d.port 3).state = .probation ∧ 2 ≤ (d.port 3).probationRemaining := by decide +kernel

/-- A probation in its last fold, below and at the warning threshold. -/
theorem witness_FoldReachesItsVerdict_last :
    let s := fun n => live.modPort 3 (fun r => { r with state := .probation, probationRemaining := 1, score := n })
    ((s 95).port 3).probationRemaining = 1 ∧ ((s 95).port 3).score < ((s 95).port 3).current.warn
      ∧ ((s 96).port 3).exempt = false ∧ ((s 96).port 3).current.warn ≤ ((s 96).port 3).score := by decide +kernel

/-- The other stages: a score that meets the warning threshold, a clean count one short of its limit, and a culprit with
half of the attributed faults. -/
theorem witness_FoldReachesItsVerdict_stages :
    let w := live.modPort 1 (fun r => { r with score := 255 })
    let c := live.modPort 1 (fun r => { r with clean := r.current.cleanLimit - 1, k := 3 })
    let e := { entry 52 (.trunk 1) with periodFaults := live.office.faultLimit }
    let x := (live.modEntry 52 (fun _ => e)).modPort 1 (fun r => { r with attributed := 2 * live.office.faultLimit })
    ((w.port 1).warning = false ∧ (w.port 1).current.warn ≤ ((foldPort 1 w).port 1).score)
      ∧ (addition (foldUtil 1 c) (c.port 1) = 0 ∧ (c.port 1).current.cleanLimit ≤ (c.port 1).clean + 1
        ∧ ((foldPort 1 c).port 1).k = 0)
      ∧ (addition (foldUtil 1 live) (live.port 1) = 0 ∧ (live.port 1).clean + 1 < (live.port 1).current.cleanLimit)
      ∧ (x.dir.entries.map Entry.code).Nodup ∧ findEntry x 52 = some e ∧ x.ctl.commissioned = true
      ∧ (x.port 1).state = .active ∧ e.homedOn 1 = true ∧ x.office.faultLimit = e.periodFaults
      ∧ (x.port 1).attributed = 2 * e.periodFaults ∧ e.state ≠ .suspended .admin := by decide +kernel

theorem witness_PresenceIsQueried :
    let e := { entry 52 (.trunk 1) with presenceRemaining := 11 }
    let s := live.modEntry 52 (fun _ => e)
    s.isRunning = true ∧ findEntry s 52 = some e ∧ e.state = .active ∧ homeConnected s e = true ∧ 2 ≤ e.presenceRemaining
      ∧ e.presenceRemaining ≤ max 5 (e.presenceLimit / 8) + 1 := by decide +kernel

/-- The queue toward the entry's home with room and full, on the trunk and on a star port. -/
theorem witness_PresenceIsQueried_homes :
    let e := { entry 70 (.star 0x00A1B2C3 (some 2)) with presenceRemaining := 11 }
    let s := (live.addEntry e).modStar 2 (fun x => { x with link := true })
    let full := List.replicate 16 (5 : BufId)
    let f := ({ s with trunk := { s.trunk with queue := full } }).modStar 2 (fun x => { x with queue := full })
    (s.isRunning = true ∧ findEntry s 70 = some e ∧ e.state = .active ∧ homeConnected s e = true ∧ freeBuf s = some 0)
      ∧ (f.trunk.queue.length = 16 ∧ (f.starPort 2).queue.length = 16 ∧ homeConnected f e = true ∧ freeBuf f = some 0)
      ∧ homeConnected f (entry 52 (.trunk 1)) = true ∧ (after (exec (.presenceQuery 70) s)).dir.counters.querySent = 1 := by
  decide +kernel

theorem witness_CountdownEnds :
    let e := { entry 52 (.trunk 1) with presenceRemaining := 1 }
    let a := { admin 12 (.trunk 0) with presenceRemaining := 1, state := .queried }
    let s := (live.modEntry 52 (fun _ => e)).modEntry 12 (fun _ => a)
    s.isRunning = true
      ∧ (findEntry s 52 = some e ∧ e.inUse = true ∧ homeConnected s e = true ∧ e.presenceRemaining ≤ 1 ∧ e.origin = .learned)
      ∧ findEntry s 12 = some a ∧ a.inUse = true ∧ homeConnected s a = true ∧ a.presenceRemaining ≤ 1 ∧ a.origin = .fixed := by
  decide +kernel

theorem witness_QuarantineEnds :
    let e := { entry 52 (.trunk 1) with state := .suspended (.timed .babble 1) }
    let s := live.modEntry 52 (fun _ => e)
    s.isRunning = true ∧ findEntry s 52 = some e ∧ e.state = .suspended (.timed .babble 1) := by decide +kernel

/-- Nothing due, a tick due to both blocks, and one due to the Print Arbiter alone. -/
theorem witness_ticks :
    let k := fun n m => { live with chassis := { live.chassis with ticks := { ms := 999, presenceDue := n, printDue := m } } }
    (live.isRunning = true ∧ live.chassis.ticks.presenceDue = 0 ∧ live.chassis.ticks.printDue = 0)
      ∧ ((k 1 1).isRunning = true ∧ (k 1 1).chassis.ticks.printDue ≤ (k 1 1).chassis.ticks.presenceDue)
      ∧ (k 0 1).isRunning = true ∧ (k 0 1).chassis.ticks.presenceDue < (k 0 1).chassis.ticks.printDue := by decide +kernel

/-- R208: the thousandth 1 ms tick gives the two blocks their 1 s tick. -/
theorem test_second_falls_at_the_thousandth :
    let tick : MsTick := { senses := 0, edges := #v[0, 0, 0, 0], reach := { timeBase := true, channels := false, presence := false, supervision := false } }
    let s := { live with chassis := { live.chassis with ticks := { ms := 999, presenceDue := 0, printDue := 0 } } }
    (after (exec (.oneMillisecondTick tick) s)).chassis.ticks = { ms := 0, presenceDue := 1, printDue := 1 } := by decide +kernel

theorem witness_PrintTimersRun :
    let s := printing (.granted (ticket 7 0)) [ticket 8 0]
    let t := { ticket 8 2 with waitAge := 119 }
    let u := printing .idle [t]
    (s.isRunning = true ∧ (s.printer 0).state = .granted (ticket 7 0) ∧ (s.printer 0).online = true
      ∧ (s.printer 0).idleRemaining ≤ 1 ∧ ∀ x ∈ (s.printer 0).waiting, x.number ≠ (ticket 7 0).number)
    ∧ u.isRunning = true ∧ eligible u 0 = true ∧ candidates u 0 = [t] ∧ t.waitAge + 1 = (u.printer 0).formHold
      ∧ t.waitAge < 65535 ∧ t.form ≠ (u.printer 0).loadedForm := by decide +kernel

theorem witness_AlertIsSent :
    let r : AlertRecord := { kind := .storeFault, inst := 0, level := 3, detail := none }
    let s := { live with alerts := { live.alerts with queue := [r] } }
    let full := { s with bufs := s.bufs.map (fun b => { b with refs := 1 }) }
    (s.isRunning = true ∧ s.alerts.queue = [r] ∧ 0 < freeBuffers s)
      ∧ full.isRunning = true ∧ full.alerts.queue = [r] ∧ freeBuffers full = 0 := by decide +kernel

/-- Each form of destination: a desk with no entry, of a TRUNK entry and of a STAR entry with and without a home; a station
ID in the index, special, at the edges of the trunk range, and outside it. -/
theorem witness_AlertIsSent_destinations :
    let x := live.addEntry (entry 70 (.star 0x00A1B2C3 (some 2)))
    let n := live.addEntry { entry 70 (.star 0x00A1B2C3 none) with origin := .fixed }
    let base := live.office.base
    let at_ := fun (y : StationId) => ((y - base).toNat, ((y - base).truncate 8 : BitVec 8).toNat)
    freeBuf live = some 0 ∧ (findEntry live 71 = none ∧ (findEntry live 12).map Entry.place = some (.trunk 0))
      ∧ ((findEntry x 70).map Entry.place = some (.star 0x00A1B2C3 (some 2)) ∧ (findEntry n 70).map Entry.place = some (.star 0x00A1B2C3 none))
      ∧ (indexEntry x 0x00A1B2C3).isSome = true ∧ indexEntry live 0x00A1B2C3 = none
      ∧ (at_ base, at_ (base + 1#32), at_ (base + 239#32), at_ (base + 241#32)) = ((0, 0), (1, 1), (239, 239), (241, 241))
      ∧ ¬ (0x00A1B2C3#32 - base).toNat < 256 ∧ trunkDown live = false ∧ starConnected live 2 = false := by decide +kernel

/-- R193, R196: a destination taken from the trunk range is left unsent once another `base` has moved it out of the range;
any other ID there is flooded. -/
theorem test_moved_destination_is_unsent :
    let x := live.office.base + 5#32
    let r : AlertRecord := { kind := .storeFault, inst := 0, level := 3, detail := none }
    let up := live.modStar 2 (fun y => { y with link := true })
    let s := fun base d => { up with
      office := { up.office with base := base },
      alerts := { up.alerts with queue := [r], config := { up.alerts.config with dest := d } } }
    let counts := fun (u : State) => (u.alerts.sent, u.alerts.unrouted, u.trunk.queue.length, (u.starPort 2).queue.length)
    let old := live.office.base
    (AlertDest.id x).taken old = .trunkId x ∧ (AlertDest.id x).taken 0x10000000 = .id x
      ∧ counts (after (exec .alertSend (s old (.trunkId x)))) = (1, 0, 1, 0)
      ∧ counts (after (exec .alertSend (s 0x10000000 (.trunkId x)))) = (0, 1, 0, 0)
      ∧ counts (after (exec .alertSend (s 0x10000000 (.id x)))) = (1, 0, 0, 1) := by decide +kernel

theorem witness_FlagRaisesOneRecord :
    let s := { live with alerts := { live.alerts with config := { live.alerts.config with dest := .code 12 } } }
    flagOf s .warning 11 = none ∧ s.alerts.config.enabled .warning = true ∧ s.ctl.commissioned = true
      ∧ s.alerts.config.dest ≠ .none ∧ s.alerts.queue.length < 8 ∧ office.ctl.commissioned = false
      ∧ (flagOf (setFlag .warning 11 none s) .warning 11).isSome = true := by decide +kernel

/-- A full queue whose last record is of a lower level, and of the same level. -/
theorem witness_FlagRaisesOneRecord_full :
    let l := fun n => ({ kind := .terminator, inst := 2, level := n, detail := none } : AlertRecord)
    let s := fun n => { live with alerts := { live.alerts with
      config := { live.alerts.config with dest := .code 12 }, queue := List.replicate 7 (l 3) ++ [l n] } }
    flagOf (s 0) .warning 11 = none ∧ 8 ≤ (s 0).alerts.queue.length ∧ (s 0).alerts.queue.getLast? = some (l 0)
      ∧ (l 0).level < (s 0).alerts.config.level .warning ∧ (s 3).alerts.queue.getLast? = some (l 3)
      ∧ (s 3).alerts.config.level .warning ≤ (l 3).level := by decide +kernel

theorem witness_OpenIsTested :
    let s := printed 52 [1, 1, 0, 0] (printing .idle [])
    let t := printed 52 [1, 6, 0, 0] (printing .idle [])
    (s.isRunning = true ∧ headPrint s = some (sent 52, .openJob 0 0 []) ∧ (s.printer 0).code.isSome = true
      ∧ (s.printer 0).enable = true ∧ senderOf s (sent 52).route = some (entry 52 (.trunk 1))
      ∧ (entry 52 (.trunk 1)).isSuspended = false ∧ ticketsHeld s 52 < 2 ∧ ticketCount s < 32
      ∧ 1 ≤ (s.printer 0).nextTicket ∧ (s.printer 0).nextTicket ≤ 255)
    ∧ t.isRunning = true ∧ headPrint t = some (sent 52, .openJob 5 0 []) ∧ (t.printer 5).code = none := by decide +kernel

theorem witness_DataBecomesAFeed :
    let s := printed 52 [2, 1, 7, 65] (printing (.granted (ticket 7 0)) [])
    let w := { entry 200 (.trunk 2) with origin := .fixed, printerQueue := some 0 }
    s.isRunning = true ∧ headPrint s = some (sent 52, .data 0 7 [65]) ∧ (s.printer 0).state = .granted (ticket 7 0)
      ∧ (ticket 7 0).number = (7#8).toNat ∧ senderOf s (sent 52).route = some (entry 52 (.trunk 1))
      ∧ (entry 52 (.trunk 1)).code = (ticket 7 0).requester ∧ printerEntry s 0 = some w ∧ 0 < (s.printer 0).credit
      ∧ (s.printer 0).online = true ∧ roomToward (entryDest w) s = true
      ∧ (ticket 7 0).bytesFed.toNat + [65#8].length ≤ 4294967295
      ∧ 1 ≤ (s.buf (sent 52).buf).refs ∧ w.place = .trunk 2 ∧ trunkDown s = false := by decide +kernel

/-- The same with the printer's station on S2. -/
theorem witness_DataBecomesAFeed_star :
    let w := { entry 200 (.star 0x00A1B2C3 (some 2)) with origin := .fixed, printerQueue := some 0 }
    let s := ((printed 52 [2, 1, 7, 65] (printing (.granted (ticket 7 0)) [])).modEntry 200 (fun _ => w)).modStar 2
      (fun x => { x with link := true })
    s.isRunning = true ∧ headPrint s = some (sent 52, .data 0 7 [65]) ∧ (s.printer 0).state = .granted (ticket 7 0)
      ∧ senderOf s (sent 52).route = some (entry 52 (.trunk 1)) ∧ printerEntry s 0 = some w ∧ 0 < (s.printer 0).credit
      ∧ (s.printer 0).online = true ∧ roomToward (entryDest w) s = true
      ∧ 1 ≤ (s.buf (sent 52).buf).refs ∧ w.place = .star 0x00A1B2C3 (some 2) ∧ starConnected s 2 = true := by decide +kernel

theorem witness_CloseCompletesTheJob :
    let s := printed 52 [3, 1, 7] (printing (.granted (ticket 7 0)) [ticket 8 0])
    s.isRunning = true ∧ headPrint s = some (sent 52, .close 0 7) ∧ (s.printer 0).state = .granted (ticket 7 0)
      ∧ senderOf s (sent 52).route = some (entry 52 (.trunk 1)) ∧ (entry 52 (.trunk 1)).code = (ticket 7 0).requester
      ∧ ∀ y ∈ (s.printer 0).waiting, y.number ≠ (ticket 7 0).number := by decide +kernel

/-- A WAITING ticket, a number that no ticket holds, and another station's ticket, named by CLOSE, CANCEL and DATA; and a
grant with no credit, an offline printer and a full queue toward it. -/
theorem witness_CloseCompletesTheJob_refused :
    let base := printing (.granted (ticket 7 0)) [ticket 8 0]
    let s := fun c (m : List Byte) => printed c m base
    let w := { entry 200 (.trunk 2) with origin := .fixed, printerQueue := some 0 }
    (headPrint (s 52 [3, 1, 8]) = some (sent 52, .close 0 8) ∧ headPrint (s 52 [4, 1, 9]) = some (sent 52, .cancel 0 9)
      ∧ headPrint (s 12 [2, 1, 7, 65]) = some (sent 12, .data 0 7 [65]))
      ∧ (findTicket (s 52 [3, 1, 8]) 0 8 = some (ticket 8 0) ∧ (base.printer 0).grant ≠ some (ticket 8 0)
        ∧ ((base.printer 0).tickets.map Ticket.number).Nodup)
      ∧ (findTicket base 0 9 = none ∧ findTicket base 0 7 = some (ticket 7 0))
      ∧ (senderOf base (sent 52).route).map Entry.code = some (ticket 7 0).requester
      ∧ (senderOf base (sent 12).route).map Entry.code ≠ some (ticket 7 0).requester
      ∧ printerEntry base 0 = some w
      ∧ ((base.modPrinter 0 (fun p => { p with credit := 0 })).printer 0).credit = 0
      ∧ roomToward (entryDest w) { base with trunk := { base.trunk with queue := List.replicate 16 3 } } = false
      ∧ roomToward (entryDest w) { base with trunk := { base.trunk with queue := List.replicate 15 3 } } = true := by decide +kernel

theorem witness_CancelRemovesTheTicket :
    let s := printed 52 [4, 1, 7] (printing (.granted (ticket 7 0)) [ticket 8 0])
    let w := printed 52 [4, 1, 8] (printing (.granted (ticket 7 0)) [ticket 8 0])
    (s.isRunning = true ∧ headPrint s = some (sent 52, .cancel 0 7) ∧ findTicket s 0 7 = some (ticket 7 0)
      ∧ senderOf s (sent 52).route = some (entry 52 (.trunk 1)) ∧ ((s.printer 0).tickets.map Ticket.number).Nodup
      ∧ (s.printer 0).grant = some (ticket 7 0))
    ∧ w.isRunning = true ∧ headPrint w = some (sent 52, .cancel 0 8) ∧ findTicket w 0 8 = some (ticket 8 0)
      ∧ ((w.printer 0).tickets.map Ticket.number).Nodup ∧ (w.printer 0).grant ≠ some (ticket 8 0) := by decide +kernel

theorem witness_StatusIsRecorded :
    let s := printed 200 [5, 0, 15, 15] (printing .idle [])
    let w := printed 52 [5, 1, 0, 255] (printing .idle [])
    (s.isRunning = true ∧ headPrint s = some (sent 200, .status false 15 15) ∧ printerOf s (sent 200).route = some 0)
      ∧ w.isRunning = true ∧ headPrint w = some (sent 52, .status true 0 15) ∧ printerOf w (sent 52).route = none := by decide +kernel

theorem witness_MalformedIsRefused :
    let s := printed 52 [2, 1, 7] live
    let p := printed 52 [2, 1, 7] (printing .idle [])
    let m := { live with bufs := live.bufs.map (fun b => { b with refs := 1 }) }
    (s.isRunning = true ∧ headPrint s = some (sent 52, .malformed 1 7) ∧ (∀ p, eligible s p = false)
      ∧ freeBuf s = some 1 ∧ 1 ≤ (s.buf (sent 52).buf).refs ∧ (sent 52).route = .segment 1 52 ∧ trunkDown s = false
      ∧ s.trunk.queue.length < 16)
    ∧ (p.isRunning = true ∧ headPrint p = some (sent 52, .malformed 1 7) ∧ eligible p 0 = true)
    ∧ freeBuf (printed 52 [2, 1, 7] m) = none := by decide +kernel

/-- The same message from a station on S2. -/
theorem witness_MalformedIsRefused_star :
    let r : InputEntry := { buf := 0, route := .star 2 0x00A1B2C3 }
    let s := (printed 52 [2, 1, 7] live).modStar 2 (fun x => { x with link := true })
    let s := { s with inputs := { s.inputs with print := [r] } }
    s.isRunning = true ∧ headPrint s = some (r, .malformed 1 7) ∧ freeBuf s = some 1 ∧ 1 ≤ (s.buf r.buf).refs
      ∧ starConnected s 2 = true ∧ (s.starPort 2).queue.length < 16 := by decide +kernel

theorem witness_ReadsAreAnsweredToAll :
    let s := fun (l : List Byte) => asked 52 l live
    let star := (asked 52 (6 :: 0 :: 9 :: u32 0x00A1B2C3) live).addEntry (entry 160 (.star 0x00A1B2C3 none))
    Asks (s [1, 0, 9]) (from_ 52) 1 9 [] ∧ Asks (s [2, 0, 9, 3]) (from_ 52) 2 9 [BitVec.ofNat 8 (3 : SegNo).val]
      ∧ (Asks (s [3, 0, 9, 11]) (from_ 52) 3 9 [BitVec.ofNat 8 ((7 : StarNo).val + 4)] ∧ ((s [3, 0, 9, 11]).starPort 7).rx ≠ .receiving)
      ∧ Asks (s [4, 0, 9, 12]) (from_ 52) 4 9 [12]
      ∧ (Asks (s [5, 0, 9, 239, 255]) (from_ 52) 5 9 [239, 255] ∧ isDesk 239 = true)
      ∧ (Asks star (from_ 52) 6 9 (u32 0x00A1B2C3) ∧ indexEntry star 0x00A1B2C3 = some (entry 160 (.star 0x00A1B2C3 none)))
      ∧ Asks (s [7, 0, 9, 6]) (from_ 52) 7 9 [queueByte 5] ∧ Asks (s [8, 0, 9, 15, 1]) (from_ 52) 8 9 [15, 1] := by
  unfold Asks; decide +kernel

/-- A star port in reception, the two groups of ports, and the numbers next to those that name something. -/
theorem witness_ReadsAreAnsweredToAll_edges :
    let s := fun (l : List Byte) => asked 52 l live
    let r := (s [3, 0, 9, 4]).modStar 0 (fun x => { x with rx := .receiving })
    (Asks r (from_ 52) 3 9 [BitVec.ofNat 8 ((0 : StarNo).val + 4)] ∧ (r.starPort 0).rx = .receiving)
      ∧ Asks (s [4, 0, 9, 3]) (from_ 52) 4 9 [BitVec.ofNat 8 (3 : SegNo).val]
      ∧ Asks (s [4, 0, 9, 4]) (from_ 52) 4 9 [BitVec.ofNat 8 ((0 : StarNo).val + 4)]
      ∧ Asks (s [2, 0, 9, 12]) (from_ 52) 2 9 [12] ∧ Asks (s [2, 0, 9, 4]) (from_ 52) 2 9 [4]
      ∧ Asks (s [3, 0, 9, 12]) (from_ 52) 3 9 [12] ∧ Asks (s [3, 0, 9, 3]) (from_ 52) 3 9 [3]
      ∧ Asks (s [4, 0, 9, 13]) (from_ 52) 4 9 [13] ∧ (Asks (s [5, 0, 9, 240, 1]) (from_ 52) 5 9 [240, 1] ∧ isDesk 240 = false)
      ∧ (Asks (s (6 :: 0 :: 9 :: u32 1)) (from_ 52) 6 9 (u32 1) ∧ indexEntry (s (6 :: 0 :: 9 :: u32 1)) 1 = none)
      ∧ Asks (s [7, 0, 9, 7]) (from_ 52) 7 9 [7] ∧ Asks (s [8, 0, 9, 16, 1]) (from_ 52) 8 9 [16, 1] := by
  unfold Asks; decide +kernel

/-- The parameters of an ENTRY_FIX of code 239 for star station 0x00A1B2C3. -/
def fixParams : List Byte := [239, 1, 0, 0xA1, 0xB2, 0xC3, 1, 2, 15, 3, 0, 30]

theorem witness_EntryFixCreates :
    let s := asked 12 ([9, 0, 9] ++ fixParams) live
    let f : FixReq := { code := 239, star := true, identity := 0x00A1B2C3, admin := true, queue := 2, costCentre := 15, printClass := 3, limit := 30 }
    let p : FixPlan := { code := 239, place := .star 0x00A1B2C3 none, admin := true, queue := some 1, costCentre := 15, printClass := 3, limit := 30 }
    let x := s.addEntry (entry 160 (.star 0x00A1B2C3 (some 2)))
    (Asks s (from_ 12) 9 9 fixParams ∧ Free s (from_ 12) ∧ parseFix fixParams = some f ∧ f.plan = some p
      ∧ fixRefusal s p = none ∧ findEntry s 239 = none ∧ elsewhere s p = none)
    ∧ Asks x (from_ 12) 9 9 fixParams ∧ fixRefusal x p = none ∧ findEntry x 239 = none
      ∧ elsewhere x p = some (entry 160 (.star 0x00A1B2C3 (some 2))) ∧ CodesApart x := by
  unfold Asks Free
  exact ⟨by decide +kernel, by decide +kernel, by decide +kernel, by decide +kernel, by decide +kernel,
    ⟨by decide +kernel, nofun, nofun⟩⟩

/-- The parameters of an ENTRY_FIX of code `c` for a TRUNK station on T1, and what they ask. -/
def fixTrunk (c : DeskCode) : List Byte := [c, 0, 0, 0, 0, 1, 0, 0, 3, 1, 0, 30]

/-- The plan of that request. -/
def trunkPlanOf (c : DeskCode) : FixPlan :=
  { code := c, place := .trunk 1, admin := false, queue := none, costCentre := 3, printClass := 1, limit := 30 }

/-- A LEARNED entry to convert, a FIXED one to update, one of another identity of either origin, and the refusals: a code
that no entry has, a special ID, and the only admin entry without its attribute. -/
theorem witness_EntryFixCreates_kept :
    let s := fun c => asked 12 ([9, 0, 9] ++ fixTrunk c) live
    let u := fun o => (s 70).addEntry { entry 70 (.star 0x00A1B2C3 (some 2)) with origin := o }
    let bad : FixPlan := { trunkPlanOf 70 with place := .star broadcastId none }
    (∀ c ∈ [(52 : DeskCode), 200, 12, 70, 240], Asks (s c) (from_ 12) 9 9 (fixTrunk c)
        ∧ ((parseFix (fixTrunk c)).bind FixReq.plan) = if c = 240 then none else some (trunkPlanOf c))
    ∧ (findEntry (s 52) 52 = some (entry 52 (.trunk 1)) ∧ elsewhere (s 52) (trunkPlanOf 52) = none
      ∧ fixRefusal (s 52) (trunkPlanOf 52) = none)
    ∧ ((findEntry (s 200) 200).map Entry.origin = some .fixed ∧ fixRefusal (s 200) (trunkPlanOf 200) = none)
    ∧ (∀ o ∈ [Origin.learned, Origin.fixed], (findEntry (u o) 70).map Entry.origin = some o
        ∧ fixRefusal (u o) (trunkPlanOf 70) = none ∧ elsewhere (u o) (trunkPlanOf 70) = none ∧ (70 : DeskCode) ∉ (u o).dir.pool)
    ∧ (proxyCode (u .learned) = some 160 ∧ findEntry (u .learned) 160 = none)
    ∧ fixRefusal (s 70) bad = some .outOfRange
    ∧ ((s 12).ctl.commissioned = true ∧ onlyAdmin (s 12) 12 = true ∧ fixRefusal (s 12) (trunkPlanOf 12) = some .conflict) := by
  simp only [Asks]; decide +kernel

/-- The same with both plans accepted on a bridge not commissioned. -/
theorem witness_EntryFixCreates_commissions :
    let o := asked 12 ([9, 0, 9] ++ fixParams) { office with ctl := { office.ctl with officeMark := true, trunkMark := true } }
    Asks o (from_ 12) 9 9 fixParams ∧ Free o (from_ 12) ∧ o.ctl.officeMark = true ∧ o.ctl.trunkMark = true
      ∧ o.ctl.commissioned = false := by
  unfold Asks Free; decide +kernel

theorem witness_EntryReleasedSuspendedResumed :
    let s := fun (op : Byte) => asked 12 [op, 0, 9, 52] live
    (Asks (s 10) (from_ 12) 10 9 [52] ∧ permitted (from_ 12).route (s 10) = true ∧ isDesk 52 = true ∧ findEntry (s 10) 52 = some (entry 52 (.trunk 1))
      ∧ isPrinterCode (s 10) 52 = false ∧ onlyAdmin (s 10) 52 = false)
    ∧ Asks (s 11) (from_ 12) 11 9 [52] ∧ Asks (s 12) (from_ 12) 12 9 [52] := by
  unfold Asks; decide +kernel

theorem witness_LearnedEntriesCleared :
    let s := asked 12 [13, 0, 9] live
    Asks s (from_ 12) 13 9 [] ∧ permitted (from_ 12).route s = true ∧ (s.dir.entries.map Entry.code).Nodup := by
  unfold Asks; decide +kernel

/-- Sixteen bytes of settings, each beyond its range. -/
def wildSettings : List Byte := List.replicate 16 255

theorem witness_SettingsAreStaged :
    let s := asked 12 ([14, 0, 9, 11] ++ wildSettings) live
    Asks s (from_ 12) 14 9 (BitVec.ofNat 8 (11 : PortNo).val :: wildSettings) ∧ Free s (from_ 12)
      ∧ (settingsOf wildSettings).isSome = true := by
  unfold Asks Free; decide +kernel

theorem witness_PortIsForced :
    let s := fun (a : Byte) => asked 12 [15, 0, 9, 11, a] live
    let t := fun (a : Byte) x => (s a).modPort 11 (fun r => { r with state := x })
    (Asks (s 0) (from_ 12) 15 9 [BitVec.ofNat 8 (11 : PortNo).val, 0] ∧ permitted (from_ 12).route (s 0) = true ∧ ((s 0).port 11).state = .active)
    ∧ (Asks (t 1 .held) (from_ 12) 15 9 [BitVec.ofNat 8 (11 : PortNo).val, 1] ∧ ((t 1 .held).port 11).state = .held)
    ∧ (∀ x ∈ [SupState.off, .held], Asks (t 0 x) (from_ 12) 15 9 [BitVec.ofNat 8 (11 : PortNo).val, 0] ∧ ((t 0 x).port 11).state = x)
    ∧ (∀ x ∈ [SupState.off, .active], Asks (t 1 x) (from_ 12) 15 9 [BitVec.ofNat 8 (11 : PortNo).val, 1] ∧ ((t 1 x).port 11).state = x)
    ∧ Asks (s 2) (from_ 12) 15 9 [BitVec.ofNat 8 (11 : PortNo).val, 2] ∧ Asks (s 3) (from_ 12) 15 9 [BitVec.ofNat 8 (11 : PortNo).val, 3]
    ∧ Asks (s 4) (from_ 12) 15 9 [BitVec.ofNat 8 (11 : PortNo).val, 4] := by
  simp only [Asks]; decide +kernel

/-- ISOLATE of the segment that holds the repeater, in the middle of its burst, and of a star port that sends. -/
theorem witness_PortIsForced_sending :
    let s := asked 12 [15, 0, 9, 1, 0] burst
    let p := asked 12 [15, 0, 9, 6, 0] loaded
    (Asks s (from_ 12) 15 9 [BitVec.ofNat 8 (1 : PortNo).val, 0] ∧ (s.port 1).state = .active ∧ (1 : PortNo) = portOfSeg 1
      ∧ relayClosed s 1 = true ∧ (s.seg 1).phase = .burst ∧ segConnected s 1 = true ∧ s.trunk.holder = .segment 1)
    ∧ Asks p (from_ 12) 15 9 [BitVec.ofNat 8 (6 : PortNo).val, 0] ∧ (p.port 6).state = .active ∧ (6 : PortNo) = portOfStar 2
      ∧ starConnected p 2 = true ∧ (p.starPort 2).rx = .receiving := by
  unfold Asks; decide +kernel

/-- A port number beyond the last, and a request of another row at the head. -/
theorem witness_PortIsForced_others :
    let s := asked 12 [15, 0, 9, 12, 0] burst
    let r := asked 12 [1, 0, 9] burst
    (Asks s (from_ 12) 15 9 [12, 0] ∧ permitted (from_ 12).route s = true)
      ∧ Asks r (from_ 12) 1 9 [] ∧ permitted (from_ 12).route r = true := by
  unfold Asks; decide +kernel

/-- R11: transitions count in the burst although the ISOLATE that reports them is not permitted, names a port already HELD,
names no port, or is not the request at the head. -/
theorem test_refused_requests_count_edges :
    let n := fun s => ((after (exec (.segmentForceIsolate { ticks := 40, edges := #v[0, 30, 0, 0] }) s)).seg 1).current.edges
    let held := (asked 12 [15, 0, 9, 3, 0] burst).modPort 3 (fun r => { r with state := .held })
    (n (asked 52 [15, 0, 9, 1, 0] burst), n held, n (asked 12 [15, 0, 9, 12, 0] burst), n (asked 12 [1, 0, 9] burst), n burst)
      = (30, 30, 30, 30, 30) := by decide +kernel

/-- R2, Table 1-3: a burst abandoned by ISOLATE keeps its rise and has the transitions counted so far. -/
theorem test_abandoned_counts_its_edges :
    let u := after (exec (.segmentForceIsolate { ticks := 40, edges := #v[0, 30, 0, 0] }) (asked 12 [15, 0, 9, 1, 0] burst))
    ((u.seg 1).current.cls, (u.seg 1).current.edges, (u.seg 1).current.rise) = (.abandoned, 30, 62000#16) := by decide +kernel

theorem witness_PortIsEnabled :
    let s := asked 12 [16, 0, 9, 0, 0] live
    let u := writeEnable 11 false (asked 12 [16, 0, 9, 11, 1] live)
    (Asks s (from_ 12) 16 9 [BitVec.ofNat 8 (0 : PortNo).val, 0] ∧ Free s (from_ 12) ∧ portEnabled s 0 = true)
      ∧ Asks u (from_ 12) 16 9 [BitVec.ofNat 8 (11 : PortNo).val, 1] ∧ Free u (from_ 12) ∧ portEnabled u 11 = false := by
  unfold Asks Free; decide +kernel

theorem witness_PrinterIsSet :
    let s := asked 12 [17, 0, 9, 1, 200, 5, 0, 10, 1] live
    let p : PrinterReq := { queue := 1, code := 200, idleLimit := 5, formHold := 10, enable := true }
    Asks s (from_ 12) 17 9 [1, 200, 5, 0, 10, 1] ∧ Free s (from_ 12) ∧ parsePrinterSet [1, 200, 5, 0, 10, 1] = some p
      ∧ p.queue = queueByte 0 ∧ p.code.toNat ≤ 239 ∧ (findEntry s p.code).map Entry.origin = some .fixed
      ∧ (findEntry s p.code).map Entry.printerQueue = some (some 0) ∧ (s.printer 0).tickets = [] := by
  unfold Asks Free; decide +kernel

/-- The refusals: queues 0 and 7, code 240, a code in the pool and a LEARNED entry's, an entry without the queue, a changed
code on a queue with a ticket; and a grant whose limit changes. -/
theorem witness_PrinterIsSet_refused :
    let g := printing (.granted (ticket 7 0)) []
    let s := fun (l : List Byte) => asked 12 ([17, 0, 9] ++ l) g
    (∀ l ∈ [([0, 200, 5, 0, 10, 1] : List Byte), [7, 200, 5, 0, 10, 1], [1, 240, 5, 0, 10, 1], [1, 99, 5, 0, 10, 1],
        [1, 52, 5, 0, 10, 1], [2, 200, 5, 0, 10, 1], [1, 0, 5, 0, 10, 0], [1, 200, 5, 0, 10, 1]],
      Asks (s l) (from_ 12) 17 9 l ∧ Free (s l) (from_ 12) ∧ (parsePrinterSet l).isSome = true)
      ∧ findEntry g 99 = none ∧ (findEntry g 52).map Entry.origin = some .learned
      ∧ (findEntry g 200).map Entry.origin = some .fixed ∧ (findEntry g 200).map Entry.printerQueue = some (some 0)
      ∧ (g.printer 0).tickets ≠ [] ∧ (g.printer 0).code = some 200
      ∧ (g.printer 0).state = .granted (ticket 7 0) ∧ (g.printer 0).enable = true := by
  simp only [Asks, Free]; decide +kernel

theorem witness_QueueIsServed :
    let base := printing (.granted (ticket 7 0)) [ticket 8 0]
    let s := asked 12 [18, 0, 9, 1, 15] base
    let u := asked 12 [19, 0, 9, 1] base
    let v := asked 12 [20, 0, 9, 1, 8] base
    (permitted (from_ 12).route s = true ∧ (s.printer 0).code.isSome = true ∧ Asks s (from_ 12) 18 9 [queueByte 0, BitVec.ofNat 8 (15 : Fin 16).val])
    ∧ (permitted (from_ 12).route u = true ∧ Asks u (from_ 12) 19 9 [queueByte 0])
    ∧ permitted (from_ 12).route v = true ∧ Asks v (from_ 12) 20 9 [queueByte 0, 8] ∧ findTicket v 0 8 = some (ticket 8 0)
      ∧ ((v.printer 0).tickets.map Ticket.number).Nodup := by
  unfold Asks; decide +kernel

/-- A form above 15, a printer in FORM_WAIT, and a number that no ticket holds. -/
theorem witness_QueueIsServed_edges :
    let base := printing (.formWait 2) [ticket 7 2]
    let s := asked 12 [18, 0, 9, 1, 255] base
    let v := asked 12 [20, 0, 9, 1, 9] base
    (Asks s (from_ 12) 18 9 [queueByte 0, 255] ∧ permitted (from_ 12).route s = true ∧ (s.printer 0).state = .formWait 2
      ∧ ((after (exec .formLoaded s)).printer 0).loadedForm = 15)
    ∧ Asks v (from_ 12) 20 9 [queueByte 0, 9] ∧ findTicket v 0 9 = none := by
  unfold Asks; decide +kernel

theorem witness_BytesCountSaturates :
    CostSet.wf { CostSet.zero with low := 65535, high := 65535 }
      ∧ ({ CostSet.zero with low := 65535, high := 65535 } : CostSet).bytes = 4294967295
      ∧ CostSet.wf { CostSet.zero with low := 65535, high := 65535, saturated := true } := by
  unfold CostSet.wf; decide

/-- The parameters of an ALERT_SET: every kind on, every level 3, destination desk 239. -/
def alertParams : List Byte := List.replicate 13 1 ++ List.replicate 13 3 ++ [1, 0, 0, 0, 239]

/-- A station ID in the trunk range and one outside it as the destination. -/
theorem witness_AlertsAreSetAndCleared_ids :
    let params := fun (hi lo : Byte) => List.replicate 13 1 ++ List.replicate 13 3 ++ [2, 0x7F, 0, hi, lo]
    let dest := fun hi lo => (parseAlertSet (params hi lo)).map AlertConfig.dest
    (dest 0 239, dest 1 0) = (some (.id 0x7F0000EF), some (.id 0x7F000100))
      ∧ destBad live (.id 0x7F0000EF) = false ∧ destBad live (.id 0x7F000100) = false
      ∧ live.office.base = 0x7F000000 := by decide +kernel

theorem witness_AlertsAreSetAndCleared :
    let s := asked 12 ([22, 0, 9] ++ alertParams) live
    let c : AlertConfig := { enables := Vector.replicate 13 true, levels := Vector.replicate 13 3, dest := .code 239 }
    let u := asked 12 [23, 0, 9, 2, 1, 255, 10, 6] live
    (Asks s (from_ 12) 22 9 alertParams ∧ permitted (from_ 12).route s = true ∧ s.ctl.save = none
      ∧ parseAlertSet alertParams = some c ∧ destBad s c.dest = false)
    ∧ Asks u (from_ 12) 23 9 [2, 1, 255, 10, 6] ∧ permitted (from_ 12).route u = true
      ∧ parseAlertClear [2, 1, 255, 10, 6] = some [(.warning, 255), (.formChange, 6)] ∧ AlertKind.formChange.hasInstance 6 = true := by
  unfold Asks; decide +kernel

/-- The parameters of an OFFICE_PLAN: the defaults with S7 off. -/
def officeParams : List Byte :=
  [0x7F, 0, 0, 0, 160, 239, 19, 1, 1, 2, 88, 0, 200, 8, 0, 60, 3, 2, 1, 1, 1, 1, 1, 1, 1, 0]

/-- The parameters of a TRUNK_PLAN: T3 off, every action REPORT. -/
def trunkParams : List Byte :=
  [1, 1, 1, 0, 1, 1, 1, 1, 1, 1, 1, 1, 2, 3, 4, 8, 0, 96, 1, 0, 0, 150, 0x27, 0x10, 10, 5, 40, 60]

theorem witness_PlansAreAccepted :
    let s := asked 12 ([24, 0, 9] ++ officeParams) live
    let p : OfficePlan := { OfficePlan.default with enables := #v[true, true, true, true, true, true, true, false] }
    let u := asked 12 ([25, 0, 9] ++ trunkParams) office
    let v : TrunkReq := { plans := #v[SegPlan.default, SegPlan.default, SegPlan.default, { SegPlan.default with enable := false }], settings := Settings.default }
    (Asks s (from_ 12) 24 9 officeParams ∧ Free s (from_ 12) ∧ parseOffice officeParams = some p ∧ officeRefusal p s = none)
    ∧ Asks u (from_ 12) 25 9 trunkParams ∧ Free u (from_ 12) ∧ parseTrunk trunkParams = some v ∧ hasAdmin u = true := by
  unfold Asks Free; decide +kernel

/-- Either plan with the other accepted on a bridge not commissioned, where S0 and T0 are off and the plan turns them on. -/
theorem witness_PlansAreAccepted_commissions :
    let off := writeEnable 4 false (writeEnable 0 false office)
    let s := asked 12 ([24, 0, 9] ++ officeParams) { off with ctl := { off.ctl with trunkMark := true } }
    let u := asked 12 ([25, 0, 9] ++ trunkParams) { off with ctl := { off.ctl with officeMark := true } }
    (Asks s (from_ 12) 24 9 officeParams ∧ Free s (from_ 12) ∧ s.ctl.trunkMark = true ∧ hasAdmin s = true
      ∧ s.ctl.commissioned = false ∧ s.office.enables[(0 : StarNo).val] = false
      ∧ (parseOffice officeParams).map (officeRefusal · s) = some none)
    ∧ Asks u (from_ 12) 25 9 trunkParams ∧ Free u (from_ 12) ∧ u.ctl.officeMark = true ∧ hasAdmin u = true
      ∧ u.ctl.commissioned = false ∧ (u.segPlans[(0 : SegNo).val]).enable = false := by
  unfold Asks Free; decide +kernel

/-- An OFFICE_PLAN whose base is no multiple of 256 is refused. -/
theorem witness_PlansAreAccepted_refused :
    let l := officeParams.set 3 1
    let s := asked 12 ([24, 0, 9] ++ l) live
    Asks s (from_ 12) 24 9 l ∧ Free s (from_ 12) ∧ (parseOffice l).map (officeRefusal · s) = some (some .outOfRange) := by
  unfold Asks Free; decide +kernel

/-- Parameters of the form of each of `changeRows`, in its order; the entry released is FIXED. -/
def changeParams : List (List Byte) :=
  [fixParams, [200], [52], [52], [], 11 :: wildSettings, [11, 0], [11, 1], [11, 2], [11, 3], [11, 4], [255, 0],
   [1, 200, 5, 0, 10, 1], [1, 15], [1], [1, 8], [0], alertParams, [1, 1, 255], officeParams, trunkParams, [], [0], [1], []]

/-- What a request brings that may open a relay. -/
def brought : Elapsed := { ticks := 8, edges := #v[3, 0, 0, 9] }

/-- The rows with their parameters, asked by desk 52, which has no admin entry. -/
theorem witness_RequestsAreTurnedAway :
    (changeRows brought 8).length = changeParams.length
    ∧ live.ctl.commissioned = true ∧ senderOf live (from_ 52).route = some (entry 52 (.trunk 1))
    ∧ ∀ x ∈ (changeRows brought 8).zip changeParams, x.1.form x.2 = true
        ∧ Asks (asked 52 (x.1.op :: 0 :: 9 :: x.2) live) (from_ 52) x.1.op 9 x.2 := by
  simp only [Asks]; decide +kernel

/-- The rows that a SAVE in flight holds back, asked by the administrator. -/
theorem witness_RequestsAreTurnedAway_busy :
    let busy := fun (payload : List Byte) =>
      let u := asked 12 payload live
      { u with ctl := { u.ctl with save := some { tag := 1, route := .segment 0 12, copy := currentConfig live } } }
    ((changeRows brought 8).zip changeParams).countP (fun x => x.1.heldBack live x.2) = 11
    ∧ ∀ x ∈ (changeRows brought 8).zip changeParams,
        permitted (from_ 12).route (busy (x.1.op :: 0 :: 9 :: x.2)) = true
        ∧ x.1.heldBack (busy (x.1.op :: 0 :: 9 :: x.2)) x.2 = x.1.heldBack live x.2
        ∧ Asks (busy (x.1.op :: 0 :: 9 :: x.2)) (from_ 12) x.1.op 9 x.2 := by
  simp only [Asks]; decide +kernel

theorem witness_SaveWritesTheStore :
    let s := asked 12 [26, 0, 9] live
    let u := { live with ctl := { live.ctl with save := some { tag := 9, route := .segment 0 12, copy := currentConfig live } } }
    (Asks s (from_ 12) 26 9 [] ∧ Free s (from_ 12)) ∧ u.isRunning = true ∧ u.ctl.save.isSome = true := by
  unfold Asks Free; decide +kernel

theorem witness_RestartsTakeTheirReset :
    let s := { (asked 12 [27, 0, 9, 0] live) with chassis := { live.chassis with store := StoreImage.written (currentConfig live) } }
    let u := asked 12 [27, 0, 9, 1] live
    (Free s (from_ 12) ∧ Asks s (from_ 12) 27 9 [0] ∧ s.chassis.store.judge = .valid (currentConfig live))
      ∧ Free u (from_ 12) ∧ Asks u (from_ 12) 27 9 [1] := by
  unfold Asks Free
  exact ⟨⟨by decide +kernel, by decide +kernel, StoreImage.judge_written _⟩, by decide +kernel⟩

theorem witness_SnapshotCausesUnknown :
    let s := asked 12 [21, 0, 9, 0] live
    let u := asked 12 [28, 0, 9] live
    let v := asked 52 [29, 0, 9] live
    let w := asked 52 [1, 0] live
    (Asks s (from_ 12) 21 9 [if true then 0#8 else 1#8] ∧ permitted (from_ 12).route s = true)
      ∧ (Asks u (from_ 12) 28 9 [] ∧ permitted (from_ 12).route u = true) ∧ Asks v (from_ 52) 29 9 []
      ∧ w.isRunning = true ∧ w.inputs.control.head? = some (from_ 52) ∧ (w.buf (from_ 52).buf).payload.length < 3 := by
  unfold Asks; decide +kernel

theorem witness_SupplyAndPanelReset :
    let h := after (exec .panelResetAsserted live)
    let d := after (exec .powerOn (after (exec (.supplyLoss false) h)))
    live.chassis.panelAsserted = false ∧ live.isRunning = true ∧ h.chassis.panelAsserted = true
      ∧ (h.chassis.run = .held ∧ h.chassis.powerOnDue = false) ∧ d.chassis.run = .held ∧ d.chassis.powerOnDue = true := by decide +kernel

theorem witness_StartUpLoadsTheStore :
    let s := { live with chassis := { live.chassis with store := StoreImage.written (currentConfig live) } }
    let i := { live with chassis := { live.chassis with store := StoreImage.blank.invalidated } }
    live.chassis.store.judge = .blank ∧ i.chassis.store.judge = .invalid ∧ s.chassis.store.judge = .valid (currentConfig live)
      ∧ (currentConfig live).commissioned = true ∧ ∃ f ∈ (currentConfig live).fixed, f.admin = true :=
  ⟨by decide +kernel, by decide +kernel, StoreImage.judge_written _, by decide +kernel⟩

theorem witness_TrunkFrameMayBeDropped :
    let s := live.modEntry 52 (fun e => { e with state := .suspended .admin })
    let full := { live with bufs := live.bufs.map (fun b => { b with refs := 1 }) }
    let x := live.addEntry { entry 70 (.star 0x00A1B2C3 none) with origin := .fixed }
    freeBuffers full = 0 ∧ 0 < freeBuffers s ∧ isDesk 0 = false ∧ isDesk 240 = false ∧ isDesk 52 = true
      ∧ findEntry s 52 = some { entry 52 (.trunk 1) with state := .suspended .admin }
      ∧ (findEntry x 70).map Entry.isTrunk = some false ∧ (findEntry x 70).map Entry.origin = some .fixed := by decide +kernel

/-- A CONTROL frame to the bridge from a SUSPENDED station, and under a truncated mark from a known one. -/
theorem witness_TrunkFrameMayBeDropped_control :
    let s := live.modEntry 52 (fun e => { e with state := .suspended .admin })
    let f : TrunkRx := { dst := 240, src := 52, kind := 3, payload := [1, 0, 9] }
    (takeBuf f.kind f.payload s).map (fun b =>
      ((learnTrunk 1 52 b.2).1, (findEntry (learnTrunk 1 52 b.2).2 52).map Entry.isSuspended)) = some (true, some true)
    ∧ (f.dst = 240#8 ∧ f.kind = 3#8) ∧ (findEntry s f.src).isSome = true ∧ 0 < freeBuffers s := by decide +kernel

/-- A source learned: none held, at home, moved within the limit and beyond it, a FIXED one moved, a proxy displaced with a
code to be had and without. -/
theorem witness_TrunkFrameMayBeDropped_learning :
    let f : TrunkRx := { dst := 12, src := 52, kind := 1, payload := [] }
    let m := live.modEntry 52 (fun e => { e with periodMoves := live.office.moveLimit })
    let p := live.addEntry (entry 70 (.star 0x00A1B2C3 (some 2)))
    let n := { p with office := { p.office with proxyLow := 70, proxyHigh := 70 } }
    (takeBuf f.kind f.payload live).map (fun b =>
      ((learnTrunk 1 52 b.2).1, (findEntry (learnTrunk 1 52 b.2).2 52).map Entry.isSuspended)) = some (true, some false)
    ∧ findEntry live 53 = none ∧ findEntry live 52 = some (entry 52 (.trunk 1))
    ∧ gain 255 (entry 52 (.trunk 1)).periodMoves ≤ live.office.moveLimit
    ∧ ((findEntry m 52).map Entry.periodMoves = some m.office.moveLimit ∧ (findEntry m 52).map Entry.isSuspended = some false)
    ∧ (findEntry live 12).map Entry.origin = some .fixed
    ∧ (findEntry p 70 = some (entry 70 (.star 0x00A1B2C3 (some 2))) ∧ (70 : DeskCode) ∉ p.dir.pool
      ∧ proxyCode p = some 160 ∧ findEntry p 160 = none)
    ∧ proxyCode n = none := by decide +kernel

/-- A destination placed: a broadcast with and without the plan's leave, a STAR entry with a connected home, with a home
that is not connected, SUSPENDED and without a home, and codes around the bridge's. -/
theorem witness_TrunkFrameMayBeDropped_placing :
    let s := live.modStar 2 (fun x => { x with link := true })
    let e := fun h st => { entry 70 (.star 0x00A1B2C3 h) with state := st }
    live.office.trunkToStar = true ∧ starConnected s 2 = true ∧ starConnected live 2 = false
      ∧ (s.starPort 2).queue.length < 16 ∧ findEntry (s.addEntry (e (some 2) .active)) 70 = some (e (some 2) .active)
      ∧ (e (some 2) (.suspended .admin)).isSuspended = true ∧ findEntry (s.addEntry (e none .active)) 70 = some (e none .active)
      ∧ findEntry s 12 = some (admin 12 (.trunk 0)) ∧ findEntry s 240 = none ∧ findEntry s 241 = none := by decide +kernel

theorem witness_StarStationIsLearned :
    let s := { live with office := { live.office with proxyLow := 200, proxyHigh := 200 } }
    indexEntry live 0x00A1B2C3 = none
      ∧ live.dir.pool.find? (fun c => decide (live.office.proxyLow.toNat ≤ c.toNat) && decide (c.toNat ≤ live.office.proxyHigh.toNat)) = some 160
      ∧ findEntry live 160 = none ∧ indexEntry s 0x00A1B2C3 = none ∧ ∀ c ∈ s.dir.pool, inProxyRange s.office c = false := by decide +kernel

/-- A station whose entry is SUSPENDED, at home, without a home, and on another port, within the move limit and beyond. -/
theorem witness_StarStationIsLearned_known :
    let e := fun h st m => { entry 160 (.star 0x00A1B2C3 h) with state := st, periodMoves := m }
    let s := fun h st m => live.addEntry (e h st m)
    (∀ x ∈ [(some (2 : StarNo), EntryState.suspended .admin, 0), (some 2, .active, 0), (none, .active, 0), (some 3, .active, 1),
        (some 3, .active, live.office.moveLimit)],
      indexEntry (s x.1 x.2.1 x.2.2) 0x00A1B2C3 = some (e x.1 x.2.1 x.2.2)
        ∧ ((s x.1 x.2.1 x.2.2).dir.entries.map Entry.code).Nodup)
    ∧ gain 255 1 ≤ live.office.moveLimit ∧ live.office.moveLimit < gain 255 live.office.moveLimit := by decide +kernel

/-- Sources and destinations of a star frame: the special IDs, the part's own two, the edges of the trunk range. -/
theorem witness_StarStationIsLearned_addresses :
    let base := live.office.base
    isPartId live live.chassis.unitNumber = true ∧ isPartId live (base + 240#32) = true ∧ isPartId live 0xFFFFFFFF#32 = false
      ∧ (base - base).toNat < 256 ∧ (base + 255#32 - base).toNat < 256 ∧ ¬ (base + 256#32 - base).toNat < 256
      ∧ ¬ (0x00A1B2C3#32 - base).toNat < 256 ∧ isPartId live (base + 239#32) = false
      ∧ (base + 239#32 - base).truncate 8 = 239#8 ∧ (base + 241#32 - base).truncate 8 = 241#8 := by decide +kernel

/-- A broadcast source early by one and on time, a destination homed on the ingress port, and one on another port. -/
theorem witness_StarStationIsLearned_placing :
    let e := fun h n => { entry 160 (.star 0x00A1B2C3 h) with broadcastElapsed := n }
    let s := fun h n => (live.addEntry (e h n)).modStar 3 (fun x => { x with link := true })
    (∀ n ∈ [live.office.minSpacing - 1, live.office.minSpacing], indexEntry (s (some 2) n) 0x00A1B2C3 = some (e (some 2) n)
        ∧ (e (some 2) n).inUse = true)
    ∧ (e (some 2) 0).homedOn (portOfStar 2) = true ∧ (e (some 3) 0).homedOn (portOfStar 2) = false
      ∧ starConnected (s (some 3) 0) 3 = true ∧ ((s (some 3) 0).starPort 3).queue.length < 16 ∧ trunkDown (s none 0) = false
      ∧ (e none 0).place = .star 0x00A1B2C3 none ∧ (e none 0).homedOn (portOfStar 2) = false
      ∧ (live.office.starToTrunk = true ∧ live.trunk.queue.length < 16) := by decide +kernel

/-- An early broadcast whose strike reaches the babble limit, a buffer to be had, and none. -/
theorem witness_StarStationIsLearned_babble :
    let e := { entry 160 (.star 0x00A1B2C3 (some 2)) with broadcastElapsed := 0, strikes := live.office.babbleLimit - 1 }
    let s := live.addEntry e
    let f : StarRx := { dst := 0xFFFFFFFF, src := 0x00A1B2C3, kind := 1, payload := [] }
    indexEntry s f.src = some e ∧ e.inUse = true ∧ e.broadcastElapsed < s.office.minSpacing ∧ findEntry s e.code = some e
      ∧ s.ctl.commissioned = true ∧ s.office.babbleLimit ≤ min (e.strikes + 1) 31
      ∧ (findEntry (admitStar 2 f 7 s) 160).map Entry.isSuspended = some true
      ∧ (takeBuf f.kind f.payload s).map Prod.fst = some 0
      ∧ freeBuffers { s with bufs := s.bufs.map (fun b => { b with refs := 1 }) } = 0 := by decide +kernel

theorem witness_frames : (List.replicate 500 (7 : Byte)).length ≤ 500 ∧ (List.replicate 1500 (7 : Byte)).length ≤ 1500 := by decide +kernel

/-- The state of the invariants' witnesses: a frame queued, and its completion next. -/
def next : State := sending.withPending [.transmitCompletion 48]

theorem witness_step : step next = .next (after (step next)) ∧ (after (step next)).trunk.counters.txFrames = 1 :=
  ⟨rfl, by decide +kernel⟩

theorem witness_BufferCountsKept : BufferCounts next ∧ AddressedAsQueued next := by
  unfold BufferCounts AddressedAsQueued; decide +kernel

theorem witness_CodesKeptApart : CodesApart next := ⟨by decide +kernel, nofun, nofun⟩

theorem witness_ModeStatesKept : ModeStates next ∧ next.ctl.commissioned = true := by
  have h : ∀ q, (next.port q).state = .active := by decide +kernel
  have c : next.ctl.commissioned = true := by decide +kernel
  exact ⟨fun q => by rw [h q]; exact c, c⟩

theorem witness_CapacityKept : WithinCapacity next := by unfold WithinCapacity; decide +kernel

theorem witness_CutOffStaysSilent : SilentWhenCutOff next := by unfold SilentWhenCutOff; decide +kernel

theorem witness_AdminEntryKept : AdminKept next ∧ next.ctl.commissioned = true := by unfold AdminKept; decide +kernel

end Sys2Proof.Tests
end

