-- ==== Sys2Proof/Proofs/Ports.lean ====
section
/-!
A port's number as a segment or a star port, and what a port does when it takes a supervision state, once for a segment and
once for a star port (R1, R2, R3, R22, R27, R33, R40).
-/

namespace Sys2Proof.Machine

/-! ## Port numbers (Table 0-2) -/

@[simp] theorem splitPort_portOfSeg (t : SegNo) : splitPort (portOfSeg t) = .inl t := by
  simp [splitPort, portOfSeg]

@[simp] theorem splitPort_portOfStar (p : StarNo) : splitPort (portOfStar p) = .inr p := by
  simp [splitPort, portOfStar]

/-- Every port is a segment or a star port. -/
theorem port_cases (q : PortNo) : (∃ t, q = portOfSeg t) ∨ ∃ p, q = portOfStar p := by
  by_cases h : q.val < 4
  · exact .inl ⟨⟨q.val, h⟩, rfl⟩
  · exact .inr ⟨⟨q.val - 4, by omega⟩, Fin.ext (by simp [portOfStar]; omega)⟩

theorem portOfSeg_inj {t v : SegNo} : portOfSeg t = portOfSeg v ↔ t = v := by
  simp [portOfSeg, Fin.ext_iff]

theorem portOfStar_inj {p v : StarNo} : portOfStar p = portOfStar v ↔ p = v := by
  simp [portOfStar, Fin.ext_iff]

theorem portOfStar_ne_portOfSeg (p : StarNo) (t : SegNo) : portOfStar p ≠ portOfSeg t := by
  simp only [portOfSeg, portOfStar, ne_eq, Fin.ext_iff]
  omega

/-! ## What the channel of a port makes of a new state -/

/-- What a segment's channel makes of a change of its port's state: its relay opens, closes or stays (R1, R2, R3). -/
def Segment.relayMoved (old new : SupState) (now : Nat) (g : Segment) : Segment :=
  if old.listens && !new.listens then g.relayOpened now
  else if !old.listens && new.listens then g.relayClosed now
  else g

/-- What a star port makes of a change of its state: its receiver is blocked, listens or stays as it is (R33). -/
def StarPort.receiverMoved (old new : SupState) (x : StarPort) : StarPort :=
  if old.listens && !new.listens then x.abandonRx
  else if !old.listens && new.listens then x.beginListening
  else x

/-- A change of nothing on a segment. -/
theorem State.modSeg_id (s : State) (t : SegNo) : s.modSeg t (fun g => g) = s := by
  simp [State.modSeg, modAt_id]

/-- A change of nothing on a star port. -/
theorem State.modStar_id (s : State) (p : StarNo) : s.modStar p (fun x => x) = s := by
  simp [State.modStar, modAt_id]

/-- One of two changes of a segment, or none. -/
theorem State.modSeg_ite (a b : Prop) [Decidable a] [Decidable b] (s : State) (t : SegNo) (f g : Segment → Segment) :
    (if a then s.modSeg t f else if b then s.modSeg t g else s)
      = s.modSeg t (fun x => if a then f x else if b then g x else x) := by
  by_cases ha : a
  · simp only [if_pos ha]
  · by_cases hb : b
    · simp only [if_neg ha, if_pos hb]
    · simp only [if_neg ha, if_neg hb, State.modSeg_id]

/-- One of two changes of a star port, or none. -/
theorem State.modStar_ite (a b : Prop) [Decidable a] [Decidable b] (s : State) (p : StarNo) (f g : StarPort → StarPort) :
    (if a then s.modStar p f else if b then s.modStar p g else s)
      = s.modStar p (fun x => if a then f x else if b then g x else x) := by
  by_cases ha : a
  · simp only [if_pos ha]
  · by_cases hb : b
    · simp only [if_neg ha, if_pos hb]
    · simp only [if_neg ha, if_neg hb, State.modStar_id]

/-- A segment's port takes a state: its relay moves, and a segment that left service leaves the connected set. -/
theorem setPortState_portOfSeg (t : SegNo) (new : SupState) (s : State) :
    setPortState (portOfSeg t) new s =
      let moved := (s.modPort (portOfSeg t) (fun r => { r with state := new })).modSeg t
        (Segment.relayMoved (s.port (portOfSeg t)).state new s.chassis.now)
      if segConnected s t && !new.inService then segLeaves t moved else moved := by
  simp only [setPortState, splitPort_portOfSeg, State.modSeg_ite]
  rfl

/-- A star port takes a state: its receiver is blocked or listens, and a port that was connected and left service is
flushed. -/
theorem setPortState_portOfStar (p : StarNo) (new : SupState) (s : State) :
    setPortState (portOfStar p) new s =
      let moved := (s.modPort (portOfStar p) (fun r => { r with state := new })).modStar p
        (StarPort.receiverMoved (s.port (portOfStar p)).state new)
      if starConnected s p && !new.inService then flushStar p moved else moved := by
  simp only [setPortState, splitPort_portOfStar, State.modStar_ite]
  rfl

/-- A receiver that is blocked or listens keeps the port's queue, transmitter, link and line. -/
theorem StarPort.receiverMoved_eq (old new : SupState) (x : StarPort) :
    x.receiverMoved old new = { x with
      rx := (x.receiverMoved old new).rx, store := (x.receiverMoved old new).store,
      count := (x.receiverMoved old new).count } := by
  unfold StarPort.receiverMoved
  split
  · rfl
  · split <;> rfl

end Sys2Proof.Machine
end

