-- ==== Sys2Proof/Proofs/QueueRules.lean ====
section
/-!
The conditions on the queues that every step keeps: no queue holds more than its places (R25, R38, R48, R49, R195), and
what is cut off has nothing to send (R27, R40). They depend on the same few fields, so one walk through the operations of
the model shows that each of them keeps each condition; the steps where a queue, a link or a state of service changes are
the only ones with work to do.
-/

namespace Sys2Proof.Machine

/-! ## The conditions, and what they depend on -/

/-- The conditions on the queues: their places, and the silence of the trunk and of each star port that is cut off. -/
inductive QueueRule where
  | capacity
  | trunkSilence
  | starSilence (p : StarNo)

/-- A state meets a condition on the queues. -/
def QueueRule.Holds : QueueRule → State → Prop
  | .capacity, s => WithinCapacity s
  | .trunkSilence, s => trunkDown s = true → s.trunk.queue = []
  | .starSilence p, s => starConnected s p = false → (s.starPort p).queue = [] ∧ (s.starPort p).tx = .idle

/-- The fields on which the conditions depend. -/
def State.queueFields (s : State) : List BufId × Vector StarPort 8 × Vector PortRec 12 × Inputs × List AlertRecord :=
  (s.trunk.queue, s.star, s.sup.ports, s.inputs, s.alerts.queue)

/-- The trunk is down exactly while no segment is in service. -/
theorem trunkDown_eq_true {s : State} : trunkDown s = true ↔ ∀ t, segConnected s t = false := by
  simp [trunkDown]

section
variable {r : QueueRule} {s : State}

/-- A condition on the queues is kept where no queue grows, and where each transmit queue either is empty (a star port's with
its transmitter idle) or stands, with what was connected to it still connected. -/
theorem QueueRule.Holds.shrunk {t : State} (h : r.Holds s)
    (trunk : t.trunk.queue = [] ∨ t.trunk.queue = s.trunk.queue ∧ (trunkDown t = true → trunkDown s = true))
    (star : ∀ p, ((t.starPort p).queue = [] ∧ (t.starPort p).tx = .idle)
      ∨ ((t.starPort p).queue = (s.starPort p).queue ∧ (t.starPort p).tx = (s.starPort p).tx
        ∧ (starConnected s p = true → starConnected t p = true)))
    (control : t.inputs.control.length ≤ s.inputs.control.length) (print : t.inputs.print.length ≤ s.inputs.print.length)
    (alerts : t.alerts.queue.length ≤ s.alerts.queue.length) : r.Holds t := by
  cases r with
  | capacity =>
    obtain ⟨ht, hs, hc, hp, ha⟩ := h
    refine ⟨?_, fun p => ?_, by omega, by omega, by omega⟩
    · rcases trunk with e | ⟨e, -⟩ <;> simp [e, ht]
    · rcases star p with ⟨e, -⟩ | ⟨e, -⟩ <;> simp [e, hs p]
  | trunkSilence =>
    intro down
    rcases trunk with e | ⟨e, k⟩
    · exact e
    · exact e ▸ h (k down)
  | starSilence p =>
    intro cut
    rcases star p with e | ⟨e1, e2, k⟩
    · exact e
    · rw [e1, e2]
      exact h (Bool.eq_false_iff.2 fun on => by simp [k on] at cut)

/-- A state with more in service has the trunk down no sooner. -/
theorem trunkDown_mono {t : State} (service : ∀ v, segConnected s v = true → segConnected t v = true)
    (h : trunkDown t = true) : trunkDown s = true :=
  trunkDown_eq_true.2 fun v => Bool.eq_false_iff.2 fun on => by simpa [service v on] using trunkDown_eq_true.1 h v

/-- A condition on the queues depends on the queues, the transmitters, the links and the states of service alone, and a link
that comes up or a port that enters service takes nothing from it. -/
theorem QueueRule.Holds.congr {t : State} (h : r.Holds s) (trunk : t.trunk.queue = s.trunk.queue)
    (star : ∀ p, (t.starPort p).queue = (s.starPort p).queue ∧ (t.starPort p).tx = (s.starPort p).tx
      ∧ ((s.starPort p).link = true → (t.starPort p).link = true))
    (service : ∀ q, (s.port q).state.inService = true → (t.port q).state.inService = true)
    (control : t.inputs.control.length ≤ s.inputs.control.length) (print : t.inputs.print.length ≤ s.inputs.print.length)
    (alerts : t.alerts.queue.length ≤ s.alerts.queue.length) : r.Holds t := by
  refine h.shrunk (.inr ⟨trunk, trunkDown_mono fun _ => service _⟩) (fun p => .inr ?_) control print alerts
  obtain ⟨queue, tx, link⟩ := star p
  refine ⟨queue, tx, fun on => ?_⟩
  simp only [starConnected, Bool.and_eq_true] at on ⊢
  exact ⟨service _ on.1, link on.2⟩

/-- A change of other fields keeps a condition on the queues. -/
theorem QueueRule.Holds.same {t : State} (h : r.Holds s) (same : t.queueFields = s.queueFields) : r.Holds t := by
  simp only [State.queueFields, Prod.mk.injEq] at same
  obtain ⟨trunk, star, ports, inputs, alerts⟩ := same
  exact h.congr trunk (fun p => by simp [State.starPort, star]) (fun q => by simp [State.port, ports]) (by rw [inputs])
    (by rw [inputs]) (by rw [alerts])

/-- A list of steps that keep a condition keeps it. -/
theorem QueueRule.Holds.after_foldl {α : Type} {f : State → α → State} {l : List α}
    (h : r.Holds s) (hf : ∀ s a, r.Holds s → r.Holds (f s a)) : r.Holds (l.foldl f s) := by
  induction l generalizing s with
  | nil => exact h
  | cons a l ih => exact ih (hf s a h)

/-! ## Updates of other fields -/

theorem QueueRule.Holds.after_modSeg {t : SegNo} {f : Segment → Segment} (h : r.Holds s) : r.Holds (s.modSeg t f) := h.same rfl

theorem QueueRule.Holds.after_modEntry {c : DeskCode} {f : Entry → Entry} (h : r.Holds s) : r.Holds (s.modEntry c f) := h.same rfl

theorem QueueRule.Holds.after_dropEntry {c : DeskCode} (h : r.Holds s) : r.Holds (s.dropEntry c) := h.same rfl

theorem QueueRule.Holds.after_addEntry {e : Entry} (h : r.Holds s) : r.Holds (s.addEntry e) := h.same rfl

theorem QueueRule.Holds.after_toPool {c : DeskCode} (h : r.Holds s) : r.Holds (s.toPool c) := h.same rfl

theorem QueueRule.Holds.after_modPrinter {q : QueueNo} {f : Printer → Printer} (h : r.Holds s) : r.Holds (s.modPrinter q f) := h.same rfl

theorem QueueRule.Holds.after_modLive {cc : Fin 16} {f : CostSet → CostSet} (h : r.Holds s) : r.Holds (s.modLive cc f) := h.same rfl

theorem QueueRule.Holds.after_modPresence {f : PresenceCounters → PresenceCounters} (h : r.Holds s) : r.Holds (s.modPresence f) := h.same rfl

theorem QueueRule.Holds.after_modTrunkCounters {f : TrunkCounters → TrunkCounters} (h : r.Holds s) : r.Holds (s.modTrunkCounters f) := h.same rfl

theorem QueueRule.Holds.after_advance {dt : Nat} (h : r.Holds s) : r.Holds (s.advance dt) := h.same rfl

/-- A star port changed in other fields than its queue and its transmitter, and its link not taken down. -/
theorem QueueRule.Holds.after_modStar {p : StarNo} {f : StarPort → StarPort} (h : r.Holds s)
    (hf : ∀ x, (f x).queue = x.queue ∧ (f x).tx = x.tx ∧ (x.link = true → (f x).link = true)) : r.Holds (s.modStar p f) :=
  h.congr rfl (fun v => by rw [State.starPort_modStar]; split; exacts [hf _, ⟨rfl, rfl, id⟩]) (fun _ => id) le_rfl le_rfl le_rfl

/-- A port's record changed without leaving service. -/
theorem QueueRule.Holds.after_modPort {q : PortNo} {f : PortRec → PortRec} (h : r.Holds s)
    (hf : (s.port q).state.inService = true → (f (s.port q)).state.inService = true) :
    r.Holds (s.modPort q f) :=
  h.congr rfl (fun _ => ⟨rfl, rfl, id⟩)
    (fun v => by rw [State.port_modPort]; split; (next e => exact e ▸ hf); exact id) le_rfl le_rfl le_rfl

/-! ## The alert queue (R195) -/

theorem length_insertAfterLast {α : Type} (p : α → Bool) (x : α) (l : List α) :
    (insertAfterLast p x l).length = l.length + 1 := by
  induction l with
  | nil => rfl
  | cons y l ih => simp only [insertAfterLast]; split <;> simp [ih]

/-- A record offered to the alert queue leaves it within its eight places. -/
theorem length_offerRecord (a : AlertRecord) (h : s.alerts.queue.length ≤ 8) :
    (offerRecord a s).alerts.queue.length ≤ 8 := by
  by_cases room : s.alerts.queue.length < Config.alertQueueSize
  · simp only [offerRecord, if_pos room, length_insertAfterLast]
    exact room
  · simp only [offerRecord, if_neg room]
    cases s.alerts.queue.getLast? with
    | none => exact h
    | some l =>
      by_cases lower : l.level < a.level
      · simp only [if_pos lower, length_insertAfterLast, List.length_dropLast]
        omega
      · simpa only [if_neg lower] using h

/-- The Alert Unit changed, with its queue still within its places. -/
theorem QueueRule.Holds.after_alerts {a : Alerts} (h : r.Holds s) (ha : s.alerts.queue.length ≤ 8 → a.queue.length ≤ 8) :
    r.Holds { s with alerts := a } := by
  cases r with
  | capacity =>
    obtain ⟨ht, hs, hc, hp, hq⟩ := h
    exact ⟨ht, hs, hc, hp, ha hq⟩
  | trunkSilence => exact h
  | starSilence p => exact h

theorem QueueRule.Holds.after_offerRecord {a : AlertRecord} (h : r.Holds s) : r.Holds (offerRecord a s) := by
  have hl := length_offerRecord a (s := s)
  obtain ⟨b, e, -⟩ := offerRecord_eq a s
  rw [e] at hl ⊢
  exact h.after_alerts hl

theorem QueueRule.Holds.after_raiseRecord {f : AlertFlag} (h : r.Holds s) : r.Holds (raiseRecord f s) := by
  unfold raiseRecord
  split
  · exact h.after_offerRecord
  · exact h

theorem QueueRule.Holds.after_setFlag {k : AlertKind} {i : Nat} {d : Option Byte} (h : r.Holds s) :
    r.Holds (setFlag k i d s) := by
  unfold setFlag
  split
  · split
    · exact h.same rfl
    · exact h
  · exact QueueRule.Holds.after_raiseRecord (h.same rfl)

theorem QueueRule.Holds.after_raiseBacklog (h : r.Holds s) : r.Holds (raiseBacklog s) := by
  unfold raiseBacklog
  split
  · exact h
  · exact h.after_foldl fun _ _ h => h.after_offerRecord

/-! ## The transmit queues (R25, R27, R38, R40) -/

theorem QueueRule.Holds.after_dropRef {b : BufId} (h : r.Holds s) : r.Holds (dropRef b s) := h.same rfl

theorem QueueRule.Holds.after_endHold {b : Option BufId} (h : r.Holds s) : r.Holds (endHold b s) := by
  cases b with
  | none => exact h
  | some b => exact h.after_dropRef

theorem QueueRule.Holds.after_dropRefs {bs : List BufId} (h : r.Holds s) : r.Holds (dropRefs bs s) :=
  h.after_foldl fun _ _ h => h.after_dropRef

/-- The trunk transmit queue changed: to no more than it held, or to at most 16 references while the trunk is not down. -/
theorem QueueRule.Holds.after_trunk {t : Trunk} (h : r.Holds s) (hl : s.trunk.queue.length ≤ 16 → t.queue.length ≤ 16)
    (hd : trunkDown s = true → s.trunk.queue = [] → t.queue = []) : r.Holds { s with trunk := t } := by
  cases r with
  | capacity => exact ⟨hl h.1, h.2⟩
  | trunkSilence => exact fun k => hd k (h k)
  | starSilence p => exact h

/-- An offer to the trunk transmit queue is refused while the trunk is down and at 16 references. -/
theorem QueueRule.Holds.after_offerTrunk {b : BufId} (h : r.Holds s) : r.Holds (offerTrunk b s) := by
  unfold offerTrunk
  split
  · exact h.same rfl
  · next hd =>
    split
    · exact h.same rfl
    · next hl =>
      refine QueueRule.Holds.same (h.after_trunk (t := { s.trunk with queue := s.trunk.queue ++ [b] }) (fun _ => ?_)
        fun k => absurd k hd) rfl
      simp only [Config.trunkQueueSize] at hl
      simp only [List.length_append, List.length_singleton]
      omega

/-- One star port changed, its link kept, to a queue within its places that is empty, with an idle transmitter, where the
port is not connected. -/
theorem QueueRule.Holds.after_modStar_queue {p : StarNo} {f : StarPort → StarPort} (h : r.Holds s)
    (hk : (f (s.starPort p)).link = (s.starPort p).link)
    (hl : (s.starPort p).queue.length ≤ 16 → (f (s.starPort p)).queue.length ≤ 16)
    (hd : starConnected s p = false → (s.starPort p).queue = [] → (s.starPort p).tx = .idle →
      (f (s.starPort p)).queue = [] ∧ (f (s.starPort p)).tx = .idle) : r.Holds (s.modStar p f) := by
  cases r with
  | capacity =>
    obtain ⟨ht, hs, hi⟩ := h
    refine ⟨ht, fun v => ?_, hi⟩
    rw [State.starPort_modStar]
    split
    · next e => exact e ▸ hl (hs p)
    · exact hs v
  | trunkSilence => exact h
  | starSilence v =>
    intro hv
    have hc : starConnected (s.modStar p f) v = starConnected s v := starConnected_congr (s := s) (u := s.modStar p f) rfl v (by
      rw [State.starPort_modStar]
      split
      · next e => exact e ▸ hk
      · rfl)
    rw [hc] at hv
    rw [State.starPort_modStar]
    split
    · next e =>
      subst e
      exact hd hv (h hv).1 (h hv).2
    · exact h hv

/-- An offer to a star transmit queue is refused while the port is not connected and at 16 references. -/
theorem QueueRule.Holds.after_offerStar {p : StarNo} {b : BufId} (h : r.Holds s) : r.Holds (offerStar p b s) := by
  unfold offerStar
  split
  · exact h.after_modStar fun _ => ⟨rfl, rfl, id⟩
  · next hd =>
    split
    · exact h.after_modStar fun _ => ⟨rfl, rfl, id⟩
    · next hl =>
      refine QueueRule.Holds.same (h.after_modStar_queue (p := p) (f := fun x => { x with queue := x.queue ++ [b] }) rfl
        (fun _ => ?_) fun k => absurd k (by simpa using hd)) rfl
      simp only [Config.starQueueSize] at hl
      simp only [List.length_append, List.length_singleton]
      omega

theorem QueueRule.Holds.after_offerStars {ps : List StarNo} {b : BufId} (h : r.Holds s) : r.Holds (offerStars ps b s) :=
  h.after_foldl fun _ _ h => h.after_offerStar

theorem QueueRule.Holds.after_deliver {b : BufId} {d : Dest} (h : r.Holds s) : r.Holds (deliver b d s) := by
  cases d with
  | trunk c => exact QueueRule.Holds.after_offerTrunk (h.same rfl)
  | star p x => exact QueueRule.Holds.after_offerStar (h.same rfl)
  | flood x => exact QueueRule.Holds.after_offerStars (h.same rfl)
  | nowhere => exact h

theorem QueueRule.Holds.after_takeBuf {kind : Byte} {payload : List Byte} {s1 : State} {b : BufId} (h : r.Holds s)
    (hb : takeBuf kind payload s = some (b, s1)) : r.Holds s1 := by
  unfold takeBuf at hb
  split at hb
  · cases hb
  · cases hb; exact h.same rfl

theorem QueueRule.Holds.after_sendBuilt {kind : Byte} {payload : List Byte} {d : Dest} {s1 : State} (h : r.Holds s)
    (hb : sendBuilt kind payload d s = some s1) : r.Holds s1 := by
  unfold sendBuilt at hb
  split at hb
  · cases hb
  · next hs => cases hb; exact (h.after_takeBuf hs).after_deliver.after_dropRef

theorem QueueRule.Holds.after_popTrunk (h : r.Holds s) : r.Holds (popTrunk s) := by
  unfold popTrunk
  split
  · exact h
  · next b rest hq =>
    refine QueueRule.Holds.after_dropRef (h.after_trunk (fun hl => ?_) fun _ he => ?_)
    · simp only [hq, List.length_cons] at hl
      exact Nat.le_of_succ_le hl
    · simp [hq] at he

/-- The flush of the trunk changes the trunk and the buffers alone. -/
theorem flushTrunk_eq (s : State) :
    flushTrunk s = { s with trunk := (flushTrunk s).trunk, bufs := (flushTrunk s).bufs } := by
  have e := dropRefs_eq s.trunk.queue { s with trunk := { s.trunk with queue := [], attempts := 0 } }
  simp only [flushTrunk]
  split
  · rw [e]
    split <;> rfl
  · rfl

theorem flushTrunk_of_up (h : trunkDown s = false) : flushTrunk s = s := by simp [flushTrunk, h]

/-- Segments that leave service do the trunk's silence no harm, since the flush follows (R27). -/
theorem QueueRule.Holds.after_flushTrunk {t : State} (h : r.Holds s) (trunk : t.trunk.queue = s.trunk.queue)
    (star : ∀ p, (t.starPort p).queue = (s.starPort p).queue ∧ (t.starPort p).tx = (s.starPort p).tx
      ∧ (starConnected s p = true → starConnected t p = true))
    (inputs : t.inputs = s.inputs) (alerts : t.alerts.queue = s.alerts.queue) : r.Holds (flushTrunk t) := by
  cases down : trunkDown t with
  | false =>
    rw [flushTrunk_of_up down]
    exact h.shrunk (.inr ⟨trunk, fun k => by simp [down] at k⟩) (fun p => .inr (star p)) (by rw [inputs]) (by rw [inputs])
      (by rw [alerts])
  | true =>
    have empty := (trunk_flushTrunk down).1
    rw [flushTrunk_eq] at empty ⊢
    exact h.shrunk (.inl empty) (fun p => .inr (star p)) (by rw [← inputs]) (by rw [← inputs]) (by rw [← alerts])

/-- A segment leaves the connected set (R2, R22, R27). -/
theorem QueueRule.Holds.after_segLeaves {t : State} {v : SegNo} (h : r.Holds s) (trunk : t.trunk.queue = s.trunk.queue)
    (star : t.star = s.star) (connected : ∀ p, starConnected t p = starConnected s p)
    (inputs : t.inputs = s.inputs) (alerts : t.alerts.queue = s.alerts.queue) : r.Holds (segLeaves v t) := by
  have same : ∀ p, (t.starPort p).queue = (s.starPort p).queue ∧ (t.starPort p).tx = (s.starPort p).tx
      ∧ (starConnected s p = true → starConnected t p = true) := fun p => by simp [State.starPort, star, connected]
  unfold segLeaves
  simp only
  split
  · exact h.after_flushTrunk trunk same inputs alerts
  · exact h.after_flushTrunk trunk same inputs alerts

/-- A star port that loses its link or its service is flushed and does the silence no harm; one that keeps what it had stands
(R40). -/
theorem QueueRule.Holds.after_flushIf {t : State} {p : StarNo} {flush : Bool} (h : r.Holds s)
    (trunk : t.trunk.queue = s.trunk.queue) (down : trunkDown t = true → trunkDown s = true)
    (star : ∀ v, (t.starPort v).queue = (s.starPort v).queue ∧ (t.starPort v).tx = (s.starPort v).tx)
    (other : ∀ v, v ≠ p → starConnected s v = true → starConnected t v = true)
    (own : flush = false → starConnected s p = true → starConnected t p = true)
    (inputs : t.inputs = s.inputs) (alerts : t.alerts.queue = s.alerts.queue) :
    r.Holds (if flush then flushStar p t else t) := by
  cases flush with
  | false =>
    refine h.shrunk (.inr ⟨trunk, down⟩) (fun v => .inr ⟨(star v).1, (star v).2, ?_⟩) (by simp [inputs]) (by simp [inputs])
      (by simp [alerts])
    by_cases e : v = p
    · exact e ▸ own rfl
    · exact other v e
  | true =>
    refine QueueRule.Holds.after_dropRefs (h.shrunk (.inr ⟨trunk, down⟩) (fun v => ?_) (by rw [← inputs]; rfl)
      (by rw [← inputs]; rfl) (by rw [← alerts]; rfl))
    by_cases e : v = p
    · left
      rw [e, State.starPort_modStar_self]
      exact ⟨rfl, rfl⟩
    · right
      have port : ∀ f, (t.modStar p f).starPort v = t.starPort v := fun f => State.starPort_modStar_ne t f e
      rw [port]
      refine ⟨(star v).1, (star v).2, fun k => ?_⟩
      refine (starConnected_congr (s := t) (u := t.modStar p _) rfl v ?_).trans (other v e k)
      rw [port]

/-! ## A port takes a supervision state (R2, R27, R33, R40, R109) -/

/-- Other ports' records stand where one takes a state. -/
theorem inService_modPort_ne {q v : PortNo} {f : PortRec → PortRec} (hv : v ≠ q) :
    ((s.modPort q f).port v).state.inService = (s.port v).state.inService := by rw [State.port_modPort_ne _ _ hv]

/-- A port takes a state: what it cuts off is flushed. -/
theorem QueueRule.Holds.after_setPortState {q : PortNo} {new : SupState} (h : r.Holds s) : r.Holds (setPortState q new s) := by
  obtain ⟨t, rfl⟩ | ⟨p, rfl⟩ := port_cases q
  · rw [setPortState_portOfSeg]
    simp only
    split
    · refine h.after_segLeaves rfl rfl (fun p => ?_) rfl rfl
      simp only [starConnected, State.modSeg_port, inService_modPort_ne (portOfStar_ne_portOfSeg p t)]
      rfl
    · next stays =>
      refine QueueRule.Holds.same (h.after_modPort (q := portOfSeg t) (f := fun r => { r with state := new }) fun on => ?_) rfl
      simpa [segConnected, on] using stays
  · rw [setPortState_portOfStar]
    refine h.after_flushIf rfl (trunkDown_mono fun t on => ?_) (fun v => ?_) (fun v hv on => ?_) (fun stays on => ?_) rfl rfl
    · simpa only [segConnected, State.modStar_port, inService_modPort_ne (portOfStar_ne_portOfSeg p t).symm] using on
    · rw [State.starPort_modStar]
      split
      · rw [StarPort.receiverMoved_eq]; exact ⟨rfl, rfl⟩
      · exact ⟨rfl, rfl⟩
    · simpa only [starConnected, State.modStar_port, State.starPort_modStar_ne _ _ hv, State.modPort_starPort,
        inService_modPort_ne (mt portOfStar_inj.1 hv)] using on
    · simp only [starConnected, State.modStar_port, State.port_modPort_self, State.starPort_modStar_self, Bool.and_eq_true]
      rw [StarPort.receiverMoved_eq]
      simp [starConnected] at on stays
      exact ⟨stays on.1 on.2, on.2⟩

end

end Sys2Proof.Machine
end

