-- ==== Sys2Proof/Proofs/QueueWalk.lean ====
section
/-!
Every operation of the blocks keeps each condition on the queues: one lemma for each, from the offers and flushes up to the
requests, in the order of the model's files.
-/

namespace Sys2Proof.Machine

section
variable {r : QueueRule} {s : State}

/-! ## The Print Arbiter (Chapter 7) -/

theorem QueueRule.Holds.after_sendAnswer {d : Dest} {a : PrintAnswer} {q n : Byte} (h : r.Holds s) :
    r.Holds (sendAnswer d a q n s) := by
  unfold sendAnswer
  split
  · next hb => exact h.after_sendBuilt hb
  · exact h.same rfl

theorem QueueRule.Holds.after_answerRequester {a : PrintAnswer} {q : QueueNo} {t : Ticket} (h : r.Holds s) :
    r.Holds (answerRequester a q t s) := h.after_sendAnswer

theorem QueueRule.Holds.after_sendEnding {q : QueueNo} {payload : List Byte} (h : r.Holds s) :
    r.Holds (sendEnding q payload s) := by
  unfold sendEnding
  split
  · exact h
  · split
    · split
      · next hb => exact h.after_sendBuilt hb
      · exact h.same rfl
    · exact h

theorem QueueRule.Holds.after_endGrant {how : Ending} {q : QueueNo} {t : Ticket} (h : r.Holds s) :
    r.Holds (endGrant how q t s) := by
  cases how with
  | completion => exact h.after_sendEnding.after_modPrinter.after_modLive
  | abandonment flagged =>
    simp only [endGrant]
    split
    · exact h.after_sendEnding.after_modPrinter.after_modLive.after_setFlag
    · exact h.after_sendEnding.after_modPrinter.after_modLive

theorem QueueRule.Holds.after_abandonAndTell {q : QueueNo} {t : Ticket} (h : r.Holds s) : r.Holds (abandonAndTell q t s) :=
  h.after_endGrant.after_answerRequester

theorem QueueRule.Holds.after_grantTicket {told : Bool} {q : QueueNo} {t : Ticket} (h : r.Holds s) :
    r.Holds (grantTicket told q t s) := by
  simp only [grantTicket]
  split
  · exact h.same rfl
  · exact h.after_modPrinter.after_answerRequester

theorem QueueRule.Holds.after_awaitForm {q : QueueNo} {f : Fin 16} (h : r.Holds s) : r.Holds (awaitForm q f s) := by
  unfold awaitForm
  split
  · exact h
  · exact h.after_modPrinter.after_setFlag

theorem QueueRule.Holds.after_select {o : Option (QueueNo × Nat)} {q : QueueNo} (h : r.Holds s) : r.Holds (select o q s) := by
  unfold select
  split
  · split
    · exact h.after_grantTicket
    · exact h.after_awaitForm
    · exact h.same rfl
  · exact h

theorem QueueRule.Holds.after_selectFor {o : Option (QueueNo × Nat)} (h : r.Holds s) : r.Holds (selectFor o s) :=
  h.after_foldl fun _ _ h => h.after_select

theorem QueueRule.Holds.after_selectAll (h : r.Holds s) : r.Holds (selectAll s) := h.after_selectFor

theorem QueueRule.Holds.after_clearLostCredit {before : State} {q : QueueNo} (h : r.Holds s) :
    r.Holds (clearLostCredit before q s) := by
  unfold clearLostCredit
  split
  · exact h.same rfl
  · exact h

theorem QueueRule.Holds.after_endLostGrant {q : QueueNo} (h : r.Holds s) : r.Holds (endLostGrant q s) := by
  unfold endLostGrant
  split
  · exact h
  · split
    · exact h
    · exact h.after_abandonAndTell

theorem QueueRule.Holds.after_settle {before : State} (h : r.Holds s) : r.Holds (settle before s) := by
  unfold settle
  split
  · exact h
  · exact QueueRule.Holds.after_selectAll (QueueRule.Holds.after_foldl
      (h.after_foldl fun _ _ h => h.after_clearLostCredit) fun _ _ h => h.after_endLostGrant)

theorem QueueRule.Holds.after_cancelWaiting {m : TellMode} {q : QueueNo} {t : Ticket} (h : r.Holds s) :
    r.Holds (cancelWaiting m q t s) := by
  cases m with
  | tell => exact h.after_modPrinter.after_answerRequester
  | silent => exact h.same rfl

theorem QueueRule.Holds.after_abandonGrant {m : TellMode} {q : QueueNo} {t : Ticket} (h : r.Holds s) :
    r.Holds (abandonGrant m q t s) := by
  cases m with
  | tell => exact h.after_abandonAndTell
  | silent => exact QueueRule.Holds.after_endGrant (how := .abandonment true) h

theorem QueueRule.Holds.after_removeTicketsAt {m : TellMode} {p : Ticket → Bool} {q : QueueNo} (h : r.Holds s) :
    r.Holds (removeTicketsAt m p q s) := by
  have waiting : r.Holds (((s.printer q).waiting.filter p).foldl (fun s t => cancelWaiting m q t s) s) :=
    h.after_foldl fun _ _ h => h.after_cancelWaiting
  simp only [removeTicketsAt]
  split
  · split
    · exact waiting.after_abandonGrant
    · exact waiting
  · exact waiting

theorem QueueRule.Holds.after_removeTicketsOf {m : TellMode} {c : DeskCode} (h : r.Holds s) :
    r.Holds (removeTicketsOf m c s) := h.after_foldl fun _ _ h => h.after_removeTicketsAt

theorem QueueRule.Holds.after_removeQueueTickets {q : QueueNo} (h : r.Holds s) : r.Holds (removeQueueTickets q s) := by
  unfold removeQueueTickets restState
  split
  · exact h.after_removeTicketsAt
  · exact h.after_removeTicketsAt.after_modPrinter

theorem QueueRule.Holds.after_renameRequester {old new : DeskCode} (h : r.Holds s) : r.Holds (renameRequester old new s) :=
  (h.same rfl)

/-! ## The Station Directory and the Presence Monitor (Chapters 4 and 5) -/

theorem QueueRule.Holds.after_suspendTimed {why : TimedReason} {c : DeskCode} (h : r.Holds s) :
    r.Holds (suspendTimed why c s) := by
  unfold suspendTimed
  split
  · exact h
  · split
    · exact QueueRule.Holds.after_setFlag (h.same rfl)
    · exact h

theorem QueueRule.Holds.after_removeKeepingCode {m : TellMode} {c : DeskCode} (h : r.Holds s) :
    r.Holds (removeKeepingCode m c s) := h.after_removeTicketsOf.after_dropEntry

theorem QueueRule.Holds.after_removeEntry {m : TellMode} {c : DeskCode} (h : r.Holds s) : r.Holds (removeEntry m c s) :=
  h.after_removeKeepingCode.after_toPool

theorem QueueRule.Holds.after_displaceProxy {c : DeskCode} (h : r.Holds s) : r.Holds (displaceProxy c s) := by
  unfold displaceProxy
  split
  · unfold renumber
    split
    · exact h
    · exact h.same rfl
  · exact h.after_setFlag.after_removeKeepingCode

theorem QueueRule.Holds.after_moveEntry {c : DeskCode} {home : SegNo ⊕ StarNo} (h : r.Holds s) :
    r.Holds (moveEntry c home s) := by
  unfold moveEntry
  simp only
  split
  · exact h.same rfl
  · split
    · exact h.after_modEntry.after_suspendTimed
    · exact h.same rfl

theorem QueueRule.Holds.after_learnTrunk {t : SegNo} {c : DeskCode} (h : r.Holds s) : r.Holds (learnTrunk t c s).2 := by
  unfold learnTrunk
  split
  · exact h.same rfl
  · split
    · split
      · exact h
      · split
        · exact h.same rfl
        · split
          · exact h.after_moveEntry
          · exact h.after_suspendTimed
    · exact h.after_setFlag.after_displaceProxy.after_addEntry
    · exact h.after_setFlag

theorem QueueRule.Holds.after_learnStar {p : StarNo} {x : StationId} (h : r.Holds s) : r.Holds (learnStar p x s) := by
  unfold learnStar
  split
  · split
    · exact h
    · split
      · split
        · exact h.same rfl
        · exact h.after_moveEntry
      · exact h.same rfl
      · exact h
  · split
    · exact h.same rfl
    · exact h.after_setFlag

theorem QueueRule.Holds.after_presenceQuery {c : DeskCode} (h : r.Holds s) : r.Holds (presenceQuery c s) := by
  unfold presenceQuery
  split
  · exact h
  · split
    · simp only
      split
      · next hb => exact (h.after_modEntry.after_sendBuilt hb).after_modPresence
      · exact h.same rfl
    · exact h

theorem QueueRule.Holds.after_aging {c : DeskCode} (h : r.Holds s) : r.Holds (aging c s) := by
  unfold aging
  split
  · exact h
  · split
    · exact h.after_removeEntry.after_modPresence
    · exact h

theorem QueueRule.Holds.after_becomesAbsent {c : DeskCode} (h : r.Holds s) : r.Holds (becomesAbsent c s) := by
  unfold becomesAbsent
  split
  · exact h
  · split
    · exact h.after_modEntry.after_removeTicketsOf.after_modPresence
    · exact h

theorem QueueRule.Holds.after_quarantineEnd {c : DeskCode} (h : r.Holds s) : r.Holds (quarantineEnd c s) := by
  unfold quarantineEnd
  split
  · exact h
  · split
    · exact h.same rfl
    · exact h

theorem QueueRule.Holds.after_strike {c : DeskCode} (h : r.Holds s) : r.Holds (strike c s) := by
  unfold strike
  simp only
  split
  · exact h.same rfl
  · split
    · exact h.after_modEntry.after_modPresence.after_suspendTimed.after_modPresence
    · exact h.same rfl

theorem QueueRule.Holds.after_applyWindow {e : Entry} (h : r.Holds s) : r.Holds (applyWindow e s).2 := by
  unfold applyWindow
  split
  · exact h.after_strike
  · exact h.same rfl

theorem QueueRule.Holds.after_oneSecondTick (h : r.Holds s) : r.Holds (oneSecondTick s) := by
  unfold oneSecondTick presenceSecond printSecond
  split
  · split
    · exact QueueRule.Holds.after_selectAll (QueueRule.Holds.after_foldl (h.same rfl) fun _ _ h => h.after_modPrinter)
    · exact h
  · split
    · exact h.same rfl
    · exact h

theorem QueueRule.Holds.after_idleExpiry {q : QueueNo} (h : r.Holds s) : r.Holds (idleExpiry q s) := by
  unfold idleExpiry
  split
  · exact h
  · split
    · exact h.after_modPrinter.after_abandonAndTell.after_selectAll
    · exact h

theorem QueueRule.Holds.after_formHoldReached {q : QueueNo} (h : r.Holds s) : r.Holds (formHoldReached q s) := by
  unfold formHoldReached
  split
  · exact h
  · exact h.after_modPrinter.after_selectAll

theorem QueueRule.Holds.after_oneMillisecondTick {tick : MsTick} (h : r.Holds s) : r.Holds (oneMillisecondTick tick s) := by
  refine h.same ?_
  simp only [State.queueFields, oneMillisecondTick, Prod.mk.injEq]
  refine ⟨?_, rfl, ?_, rfl, rfl⟩ <;> split <;> rfl

theorem QueueRule.Holds.after_longQuiet {t : SegNo} (h : r.Holds s) : r.Holds (longQuiet t s) := by
  unfold longQuiet
  split
  · exact h.same rfl
  · exact h

/-! ## The Supervision Unit (Chapter 6) -/

theorem QueueRule.Holds.after_isolatePort {q : PortNo} (h : r.Holds s) : r.Holds (isolatePort q s) :=
  (h.after_modPort id).after_setPortState.after_setFlag

/-- Counting a fault leaves the port's state. -/
@[simp] theorem PortRec.count_state (k : FaultKind) (x : PortRec) : (x.count k).state = x.state := by cases k <;> rfl

theorem QueueRule.Holds.after_faultEvent {k : FaultKind} {q : PortNo} (h : r.Holds s) : r.Holds (faultEvent k q s) := by
  have counted : r.Holds (s.modPort q (PortRec.count k)) := h.after_modPort (by simp)
  simp only [faultEvent]
  split
  · exact counted.after_isolatePort
  · exact counted

theorem QueueRule.Holds.after_goodEvent {q : PortNo} (h : r.Holds s) : r.Holds (goodEvent q s) := h.after_modPort id

theorem QueueRule.Holds.after_jabberEvent {q : PortNo} (h : r.Holds s) : r.Holds (jabberEvent q s) := by
  simp only [jabberEvent]
  split
  · exact (h.after_modPort id).after_isolatePort
  · exact h.after_modPort id

theorem QueueRule.Holds.after_chargeFault {q : PortNo} {c : DeskCode} (h : r.Holds s) : r.Holds (chargeFault q c s) :=
  h.after_modEntry.after_modPort id

theorem QueueRule.Holds.after_readmitPort {q : PortNo} (h : r.Holds s) : r.Holds (readmitPort q s) :=
  (h.after_modPort id).after_setPortState.after_setFlag

theorem QueueRule.Holds.after_verdict {q : PortNo} (h : r.Holds s) : r.Holds (verdict q s) := by
  simp only [verdict]
  split
  · split
    · exact h.after_isolatePort
    · exact h
  · split
    · split
      · exact (h.after_modPort id).after_readmitPort
      · exact (h.after_modPort id).after_isolatePort
    · exact h.after_modPort id
  · split
    · split
      · exact h.after_modPort id
      · exact QueueRule.Holds.after_setPortState (QueueRule.Holds.after_modPort (h.after_modPort id) id)
    · exact h.after_modPort id
  · exact h
  · exact h
  · exact h

theorem QueueRule.Holds.after_suspendCulprit {c : DeskCode} (h : r.Holds s) : r.Holds (suspendCulprit c s) := by
  unfold suspendCulprit
  split
  · exact h
  · split
    · exact QueueRule.Holds.same (s := suspendTimed .check _ s) h.after_suspendTimed rfl
    · exact h

theorem QueueRule.Holds.after_culpritStage {q : PortNo} {st : SupState} (h : r.Holds s) : r.Holds (culpritStage q st s) := by
  unfold culpritStage
  split
  · exact h.after_foldl fun _ _ h => h.after_suspendCulprit
  · exact h

@[simp] theorem PortRec.adopt_state (x : PortRec) : x.adopt.state = x.state := by
  unfold PortRec.adopt
  split <;> rfl

@[simp] theorem PortRec.warn_state (x : PortRec) : x.warn.state = x.state := by
  unfold PortRec.warn
  split
  · rfl
  · split <;> rfl

@[simp] theorem cleanStage_state (was : Bool) (a : Nat) (x : PortRec) : (cleanStage was a x).state = x.state := by
  unfold cleanStage
  split
  · split
    · split <;> rfl
    · rfl
  · rfl

theorem QueueRule.Holds.after_clearStage {q : PortNo} (h : r.Holds s) : r.Holds (clearStage q s) := by
  have cleared : r.Holds (s.modPort q fun x => x.clearCounts.adopt) := h.after_modPort (by simp [PortRec.clearCounts])
  simp only [clearStage]
  split
  · exact cleared.same rfl
  · exact cleared.same rfl

theorem QueueRule.Holds.after_foldPort {q : PortNo} (h : r.Holds s) : r.Holds (foldPort q s) := by
  have scored : r.Holds (s.modPort q (PortRec.scored (foldUtil q s))) := h.after_modPort (by simp [PortRec.scored])
  simp only [foldPort]
  refine QueueRule.Holds.after_clearStage (QueueRule.Holds.after_culpritStage (QueueRule.Holds.after_modPort
    (QueueRule.Holds.after_verdict ?_) (by simp)))
  split
  · exact scored.after_setFlag
  · exact scored

theorem QueueRule.Holds.after_foldAll (h : r.Holds s) : r.Holds (foldAll s) := by
  have folded : r.Holds ((List.finRange 12).foldl (fun s q => foldPort q s) s) := h.after_foldl fun _ _ h => h.after_foldPort
  unfold foldAll
  generalize (List.finRange 12).foldl (fun s q => foldPort q s) s = x at folded ⊢
  exact folded.same rfl

theorem QueueRule.Holds.after_readmitByOrder {q : PortNo} (h : r.Holds s) : r.Holds (readmitByOrder q s) :=
  (h.after_modPort id).after_setPortState

theorem QueueRule.Holds.after_holdByOrder {q : PortNo} (h : r.Holds s) : r.Holds (holdByOrder q s) :=
  (h.after_modPort id).after_setPortState

theorem QueueRule.Holds.after_actOnEnable {q : PortNo} {old new : Bool} (h : r.Holds s) :
    r.Holds (actOnEnable q old new s) := by
  cases old <;> cases new
  · exact h
  · exact (h.after_modPort id).after_setPortState
  · exact (h.after_modPort id).after_setPortState
  · exact h

theorem QueueRule.Holds.after_writeEnable {q : PortNo} {on : Bool} (h : r.Holds s) : r.Holds (writeEnable q on s) := by
  unfold writeEnable
  split <;> exact h.same rfl

/-- Commissioning turns OPEN ports ACTIVE, so none leaves service. -/
theorem QueueRule.Holds.after_commission (h : r.Holds s) : r.Holds (commission s) := by
  unfold commission
  split
  · refine QueueRule.Holds.after_raiseBacklog (h.congr rfl (fun _ => ⟨rfl, rfl, id⟩) (fun q on => ?_) le_rfl le_rfl le_rfl)
    simp only [State.port, Vector.getElem_map] at on ⊢
    split
    · rfl
    · exact on
  · exact h

/-! ## Bridging (Chapter 3) -/

/-- An entry joins the control input queue while it holds fewer than four (R48). -/
theorem QueueRule.Holds.after_offerControl {b : BufId} {route : Route} (h : r.Holds s) : r.Holds (offerControl b route s) := by
  unfold offerControl
  split
  · next room =>
    cases r with
    | capacity =>
      obtain ⟨ht, hs, -, hp, ha⟩ := h
      refine ⟨ht, hs, ?_, hp, ha⟩
      simp only [addRef, State.modBuf_inputs, List.length_append, List.length_singleton]
      exact room
    | trunkSilence => exact h
    | starSilence p => exact h
  · exact h.shrunk (.inr ⟨rfl, id⟩) (fun _ => .inr ⟨rfl, rfl, id⟩) le_rfl le_rfl le_rfl

/-- An entry joins the print input queue while it holds fewer than eight (R49). -/
theorem QueueRule.Holds.after_offerPrint {b : BufId} {route : Route} (h : r.Holds s) : r.Holds (offerPrint b route s) := by
  unfold offerPrint
  split
  · next room =>
    cases r with
    | capacity =>
      obtain ⟨ht, hs, hc, -, ha⟩ := h
      refine ⟨ht, hs, hc, ?_, ha⟩
      simp only [addRef, State.modBuf_inputs, List.length_append, List.length_singleton]
      exact room
    | trunkSilence => exact h
    | starSilence p => exact h
  · exact h.shrunk (.inr ⟨rfl, id⟩) (fun _ => .inr ⟨rfl, rfl, id⟩) le_rfl le_rfl le_rfl

theorem QueueRule.Holds.after_dispatch {b : BufId} {kind : Byte} {route : Route} {q : PortNo} (h : r.Holds s) :
    r.Holds (dispatch b kind route q s) := by
  unfold dispatch
  split
  · exact h.after_offerControl
  · split
    · exact h.after_offerPrint
    · split
      · exact h
      · exact h.same rfl

theorem QueueRule.Holds.after_floodStars {x : Option StarNo} {b : BufId} (h : r.Holds s) : r.Holds (floodStars x b s) :=
  h.after_offerStars

theorem QueueRule.Holds.after_placeTrunk {t : SegNo} {f : TrunkRx} {b : BufId} (h : r.Holds s) :
    r.Holds (placeTrunk t f b s) := by
  simp only [placeTrunk]
  split
  · split
    · exact QueueRule.Holds.after_floodStars (h.same rfl)
    · exact h
  · split
    · exact h.after_dispatch
    · split
      · split
        · split
          · exact QueueRule.Holds.after_offerStar (h.same rfl)
          · exact h.same rfl
        · exact h
      · split
        · exact h.same rfl
        · exact h

theorem QueueRule.Holds.after_decideTrunk {t : SegNo} {tr : Bool} {f : TrunkRx} {b : BufId} (h : r.Holds s) :
    r.Holds (decideTrunk t tr f b s) := by
  simp only [decideTrunk]
  split
  · exact h.same rfl
  · split
    · split
      · exact h.after_dispatch
      · exact h
    · have learned : r.Holds (learnTrunk t f.src s).2 := h.after_learnTrunk
      split
      · next e => rw [e] at learned; exact learned.same rfl
      · next e =>
        rw [e] at learned
        split
        · split
          · exact learned.after_dispatch
          · exact learned.same rfl
        · exact learned.after_placeTrunk

theorem QueueRule.Holds.after_bridgeTrunk {t : SegNo} {tr : Bool} {f : TrunkRx} (h : r.Holds s) :
    r.Holds (bridgeTrunk t tr f s).2 := by
  unfold bridgeTrunk
  split
  · exact h.same rfl
  · next hb => exact (h.after_takeBuf hb).after_decideTrunk

theorem QueueRule.Holds.after_offerTrunkCopy {q : PortNo} {dst : DeskCode} {f : StarRx} {b : BufId} (h : r.Holds s) :
    r.Holds (offerTrunkCopy q dst f b s) := by
  unfold offerTrunkCopy
  split
  · exact h.same rfl
  · split
    · exact h.same rfl
    · exact QueueRule.Holds.after_offerTrunk (h.same rfl)

theorem QueueRule.Holds.after_placeIndexed {p : StarNo} {f : StarRx} {b : BufId} {e : Entry} (h : r.Holds s) :
    r.Holds (placeIndexed p f b e s) := by
  simp only [placeIndexed]
  split
  · exact h.same rfl
  · split
    · exact QueueRule.Holds.after_offerStar (h.same rfl)
    · exact h.same rfl

theorem QueueRule.Holds.after_placeStar {p : StarNo} {f : StarRx} {b : BufId} (h : r.Holds s) :
    r.Holds (placeStar p f b s) := by
  have flooded : r.Holds (floodStars (some p) b (setStarAddr b f.dst f.src s)) := QueueRule.Holds.after_floodStars (h.same rfl)
  simp only [placeStar]
  split
  · exact h.same rfl
  · split
    · exact h.after_dispatch
    · split
      · split
        · exact flooded.after_offerTrunkCopy
        · exact flooded
      · split
        · split
          · exact h.after_offerTrunkCopy
          · exact h.same rfl
        · split
          · exact h.after_placeIndexed
          · exact flooded

theorem QueueRule.Holds.after_admitStar {p : StarNo} {f : StarRx} {b : BufId} (h : r.Holds s) :
    r.Holds (admitStar p f b s) := by
  simp only [admitStar]
  split
  · exact h.after_placeStar
  · next e _ =>
    split
    · split
      · exact h.after_dispatch
      · exact h.same rfl
    · have windowed : r.Holds (applyWindow e s).2 := h.after_applyWindow
      split
      · split
        · next w => rw [w] at windowed; exact windowed.same rfl
        · next w => rw [w] at windowed; exact windowed.after_placeStar
      · exact h.after_placeStar

theorem QueueRule.Holds.after_bridgeStar {p : StarNo} {f : StarRx} (h : r.Holds s) : r.Holds (bridgeStar p f s).2 := by
  unfold bridgeStar
  split
  · exact h.same rfl
  · next hb =>
    have taken := h.after_takeBuf hb
    simp only [decideStar]
    split
    · exact taken.same rfl
    · split
      · exact taken.same rfl
      · exact taken.after_learnStar.after_admitStar

end

end Sys2Proof.Machine
end

