-- ==== Sys2Proof/Proofs/QueueSteps.lean ====
section
/-!
Every command keeps each condition on the queues, and so does every step: the trunk and star events, the requests, the
resets, and the step that takes the front command.
-/

namespace Sys2Proof.Machine

section
variable {r : QueueRule} {s : State}

/-! ## The events of the trunk (Chapter 1) -/

theorem QueueRule.Holds.after_carrierFalls {t : SegNo} {ph : LinePhase} (h : r.Holds s) : r.Holds (carrierFalls t ph s) := by
  unfold carrierFalls
  split
  · exact h.after_modSeg
  · exact h

theorem QueueRule.Holds.after_txCollision (h : r.Holds s) : r.Holds (txCollision s) := by
  have released : r.Holds (releaseRepeater s) := h.same rfl
  simp only [txCollision]
  split
  · exact released.after_modTrunkCounters.after_modTrunkCounters.after_popTrunk
  · exact released.same rfl

theorem QueueRule.Holds.after_burstRise {t : SegNo} {dt : Nat} (h : r.Holds s) : r.Holds (burstRise t dt s) := by
  have opened : ∀ f, r.Holds ((s.advance dt).modSeg t f) := fun f => h.same rfl
  simp only [burstRise, setCarrier, takeRise]
  split
  · refine QueueRule.Holds.after_modSeg ?_
    split
    · split
      · exact h.same rfl
      · exact opened _
    · split
      · exact (opened _).after_txCollision
      · exact opened _
    · exact opened _
  · exact opened _

theorem QueueRule.Holds.after_truncateBurst {t : SegNo} (h : r.Holds s) : r.Holds (truncateBurst t s) := h.same rfl

theorem QueueRule.Holds.after_headerDecision {t : SegNo} {dst src : DeskCode} (h : r.Holds s) :
    r.Holds (headerDecision t dst src s) := by
  unfold headerDecision
  split
  · exact h
  · next e _ =>
    split
    · exact h.after_truncateBurst
    · have windowed : r.Holds (applyWindow e s).2 := h.after_applyWindow
      split
      · split
        · next w => rw [w] at windowed; exact windowed.after_truncateBurst
        · next w => rw [w] at windowed; exact windowed
      · exact h

theorem QueueRule.Holds.after_feedDecoder {t : SegNo} {cells : List Bool} (h : r.Holds s) :
    r.Holds (feedDecoder t cells s) := by
  simp only [feedDecoder, headerEvent]
  split
  · split
    · exact h.after_modSeg.after_headerDecision
    · exact h.after_modSeg
  · exact h.after_modSeg

theorem QueueRule.Holds.after_releaseIfHolder {t : SegNo} (h : r.Holds s) : r.Holds (releaseIfHolder t s) := by
  unfold releaseIfHolder
  split
  · exact h.same rfl
  · exact h

theorem QueueRule.Holds.after_attributeBurst {t : SegNo} {d : Decoder} (h : r.Holds s) : r.Holds (attributeBurst t d s) := by
  unfold attributeBurst
  split
  · split
    · exact h.after_chargeFault
    · exact h
  · exact h

theorem QueueRule.Holds.after_handOn {t : SegNo} {c : BurstClass} {d : Decoder} {tr : Bool} (h : r.Holds s) :
    r.Holds (handOn t c d tr s).2 := by
  cases c with
  | runt => exact h.after_faultEvent
  | garble => exact h.after_faultEvent
  | check => exact h.after_faultEvent.after_attributeBurst
  | good =>
    simp only [handOn]
    split
    · split
      · exact h.after_goodEvent.after_bridgeTrunk
      · exact h.after_goodEvent
    · exact h.after_goodEvent
  | none => exact h
  | inProgress => exact h
  | jabber => exact h
  | abandoned => exact h

theorem QueueRule.Holds.after_cutBurst {t : SegNo} {edges : Nat} (h : r.Holds s) : r.Holds (cutBurst t edges s) :=
  h.after_modSeg.after_releaseIfHolder.after_jabberEvent

theorem QueueRule.Holds.after_burstFall {t : SegNo} {dt edges : Nat} {cells : List Bool} (h : r.Holds s) :
    r.Holds (burstFall t dt edges cells s).2 := by
  have fed : r.Holds (feedDecoder t cells (s.advance dt)) := h.after_advance.after_feedDecoder
  simp only [burstFall]
  split
  · split
    · simp only
      split
      · exact fed.after_cutBurst.after_modSeg
      · exact fed.after_cutBurst
    · exact fed.after_modSeg.after_releaseIfHolder.after_handOn
  · exact h.after_advance

theorem QueueRule.Holds.after_jabberCut {t : SegNo} {edges : Nat} (h : r.Holds s) : r.Holds (jabberCut t edges s) := by
  unfold jabberCut
  split
  · exact QueueRule.Holds.after_cutBurst (h.same rfl)
  · exact h

theorem QueueRule.Holds.after_terminatorEdge {t : SegNo} (h : r.Holds s) : r.Holds (terminatorEdge t s) := by
  simp only [terminatorEdge]
  split
  · exact h
  · split
    · exact h.after_modSeg
    · split
      · split
        · exact h.after_modSeg
        · exact h.after_modSeg.after_setFlag
        · unfold terminatorTrigger
          split
          · exact h.after_modSeg.after_setFlag.after_isolatePort
          · exact h.after_modSeg.after_setFlag
      · split
        · exact h.after_modSeg
        · exact h.after_modSeg.after_setFlag

theorem QueueRule.Holds.after_transmitClaim (h : r.Holds s) : r.Holds (transmitClaim s) := by
  unfold transmitClaim
  split
  · exact h.same rfl
  · exact h

theorem QueueRule.Holds.after_transmitCompletion (h : r.Holds s) : r.Holds (transmitCompletion s) := by
  have released : r.Holds (releaseRepeater s) := h.same rfl
  unfold transmitCompletion
  split
  · exact released.after_popTrunk.after_modTrunkCounters
  · exact h

/-! ## Alerts (Chapter 10) -/

theorem QueueRule.Holds.after_alertSend (h : r.Holds s) : r.Holds (alertSend s) := by
  simp only [alertSend]
  split
  · exact h
  · split
    · exact h
    · next hb =>
      have sent := h.after_sendBuilt hb
      have popped : r.Holds (popAlert _) := sent.after_alerts fun hl => (List.tail_sublist _).length_le.trans hl
      split
      · exact popped.same rfl
      · exact popped.same rfl

theorem QueueRule.Holds.after_applyAlertConfig {c : AlertConfig} (h : r.Holds s) : r.Holds (applyAlertConfig c s) :=
  h.after_alerts fun hl => (List.length_filter_le _ _).trans hl

/-! ## The events of the star ports (Chapter 2) -/

theorem QueueRule.Holds.after_linkLossEvent {p : StarNo} (h : r.Holds s) : r.Holds (linkLossEvent p s) := by
  unfold linkLossEvent
  split
  · exact h
  · exact (h.after_modStar (by exact fun _ => ⟨rfl, rfl, id⟩)).after_setFlag.after_faultEvent

/-- A lost link cuts the port off, which is flushed if it was connected (R32, R40). -/
theorem QueueRule.Holds.after_linkDown {p : StarNo} (h : r.Holds s) : r.Holds (linkDown p s) := by
  simp only [linkDown]
  split
  · refine QueueRule.Holds.after_linkLossEvent (h.after_flushIf rfl id (fun v => ?_) (fun v hv on => ?_)
      (fun off on => by simp [off] at on) rfl rfl)
    · rw [State.starPort_modStar]
      split <;> exact ⟨rfl, rfl⟩
    · simpa only [starConnected, State.modStar_port, State.starPort_modStar_ne _ _ hv] using on
  · exact h

theorem QueueRule.Holds.after_frameStart {p : StarNo} (h : r.Holds s) : r.Holds (frameStart p s) := by
  unfold frameStart
  split
  · exact h.after_modStar fun _ => ⟨rfl, rfl, id⟩
  · exact h

theorem QueueRule.Holds.after_attributeFrame {p : StarNo} {store : List Byte} (h : r.Holds s) :
    r.Holds (attributeFrame p store s) := by
  unfold attributeFrame
  split
  · exact h.after_chargeFault
  · exact h

theorem QueueRule.Holds.after_handOnFrame {p : StarNo} {c : StarClass} {store : List Byte} (h : r.Holds s) :
    r.Holds (handOnFrame p c store s).2 := by
  cases c with
  | runt => exact (h.after_modStar (by exact fun _ => ⟨rfl, rfl, id⟩)).after_faultEvent
  | check => exact (h.after_modStar (by exact fun _ => ⟨rfl, rfl, id⟩)).after_faultEvent.after_attributeFrame
  | good =>
    simp only [handOnFrame]
    split
    · exact (h.after_modStar (by exact fun _ => ⟨rfl, rfl, id⟩)).after_goodEvent.after_bridgeStar
    · exact (h.after_modStar (by exact fun _ => ⟨rfl, rfl, id⟩)).after_goodEvent

theorem QueueRule.Holds.after_frameEnd {p : StarNo} {bytes : List Byte} (h : r.Holds s) :
    r.Holds (frameEnd p bytes s).2 := by
  simp only [frameEnd]
  split
  · exact h
  · exact h.after_modStar fun _ => ⟨rfl, rfl, id⟩
  · exact (h.after_modStar (by exact fun _ => ⟨rfl, rfl, id⟩)).after_handOnFrame

/-- Only a connected port begins to send (R39). -/
theorem QueueRule.Holds.after_sendStart {p : StarNo} (h : r.Holds s) : r.Holds (sendStart p s) := by
  simp only [sendStart]
  split
  · exact h
  · split
    · next start =>
      rw [Bool.and_eq_true] at start
      exact h.after_modStar_queue rfl id fun off => by simp [start.1] at off
    · exact h

theorem QueueRule.Holds.after_sendCompletion {p : StarNo} (h : r.Holds s) : r.Holds (sendCompletion p s) := by
  unfold sendCompletion
  split
  · next hq =>
    refine QueueRule.Holds.after_dropRef (h.after_modStar_queue rfl (fun hl => ?_) fun _ he => by simp [hq] at he)
    rw [hq, List.length_cons] at hl
    exact Nat.le_of_succ_le hl
  · exact h
  · exact h

/-! ## Requests (Chapter 9) -/

theorem QueueRule.Holds.after_sendControl {route : Route} {payload : List Byte} (h : r.Holds s) :
    r.Holds (sendControl route payload s) := by
  unfold sendControl
  split
  · next hb => exact h.after_sendBuilt hb
  · exact h.same rfl

/-- Taking a request shortens the control input queue. -/
theorem QueueRule.Holds.after_takeControl {e : InputEntry} (h : r.Holds s) : r.Holds (takeControl e s) :=
  h.congr rfl (fun _ => ⟨rfl, rfl, id⟩) (fun _ => id) (List.tail_sublist _).length_le le_rfl le_rfl

theorem QueueRule.Holds.after_answerRequest {before : State} {q : Request} {route : Route} {reply : Reply}
    (h : r.Holds reply.state) : r.Holds (answerRequest before q route reply) := h.after_settle.after_sendControl

/-- A command of the Control Unit keeps a condition that its handling keeps. -/
theorem QueueRule.Holds.after_request {mine : Request → Bool} {handle : Request → Route → State → Reply} (h : r.Holds s)
    (hh : ∀ q route x, r.Holds x → r.Holds (handle q route x).state) : r.Holds (request mine handle s) := by
  unfold request
  split
  · exact h
  · split
    · exact h
    · split
      · exact (hh _ _ _ h.after_takeControl).after_answerRequest
      · exact h

/-- The stages of a request keep a condition that its effect keeps. -/
theorem QueueRule.Holds.after_stages {α : Type} {read : Bool} {held : α → State → Bool} {params : Option α}
    {effect : α → State → Reply} {route : Route} (h : r.Holds s) (he : ∀ a, r.Holds (effect a s).state) :
    r.Holds (stages read held params effect route s).state := by
  unfold stages
  split
  · exact h
  · split
    · exact h.same rfl
    · split
      · exact h.same rfl
      · exact he _

theorem QueueRule.Holds.after_done (h : r.Holds s) : r.Holds (done s).state := h

theorem QueueRule.Holds.after_doneWith {results : List Chunk} (h : r.Holds s) : r.Holds (doneWith results s).state := h

/-- A request whose parameters are judged by its stages keeps a condition that its effect keeps. -/
theorem QueueRule.Holds.after_staged {α : Type} {mine : Request → Bool} {read : Bool} {held : α → State → Bool}
    {parse : Request → Option α} {effect : α → State → Reply} (h : r.Holds s)
    (he : ∀ a x, r.Holds x → r.Holds (effect a x).state) :
    r.Holds (request mine (fun q route => stages read held (parse q) effect route) s) :=
  h.after_request fun _ _ x hx => hx.after_stages fun a => he a x hx

/-- A request for a port keeps a condition that its effect on the port keeps. -/
theorem QueueRule.Holds.after_withPort {b : Byte} {f : PortNo → Reply} (h : r.Holds s) (hf : ∀ q, r.Holds (f q).state) :
    r.Holds (withPort b s f).state := by
  unfold withPort
  split
  · exact hf _
  · exact h

theorem QueueRule.Holds.after_withQueue {b : Byte} {f : QueueNo → Reply} (h : r.Holds s) (hf : ∀ q, r.Holds (f q).state) :
    r.Holds (withQueue b s f).state := by
  unfold withQueue
  split
  · exact hf _
  · exact h

theorem QueueRule.Holds.after_withConfigured {b : Byte} {f : QueueNo → Reply} (h : r.Holds s)
    (hf : ∀ q, r.Holds (f q).state) : r.Holds (withConfigured b s f).state :=
  h.after_withQueue fun q => by
    split
    · exact hf q
    · exact h

theorem QueueRule.Holds.after_withEntry {c : Byte} {f : Entry → Reply} (h : r.Holds s) (hf : ∀ e, r.Holds (f e).state) :
    r.Holds (withEntry c s f).state := by
  unfold withEntry
  split
  · split
    · exact hf _
    · exact h
  · exact h

theorem QueueRule.Holds.after_makeFixed {f : FixPlan} (h : r.Holds s) : r.Holds (makeFixed f s) := by
  unfold makeFixed
  split
  · exact h.after_addEntry
  · split
    · exact h.after_modEntry
    · split
      · exact h.after_modEntry
      · exact h.after_displaceProxy.after_setFlag.after_addEntry

theorem QueueRule.Holds.after_moveStation {f : FixPlan} {old : Entry} (h : r.Holds s) : r.Holds (moveStation f old s) :=
  h.after_renameRequester.after_dropEntry.after_toPool.after_makeFixed.after_modEntry.after_renameRequester

theorem QueueRule.Holds.after_fixEntry {q : FixReq} (h : r.Holds s) : r.Holds (fixEntry q s).state := by
  unfold fixEntry
  split
  · exact h
  · split
    · exact h
    · refine QueueRule.Holds.after_commission ?_
      split
      · exact h.after_moveStation
      · exact h.after_makeFixed

theorem QueueRule.Holds.after_releaseEntry {c : Byte} (h : r.Holds s) : r.Holds (releaseEntry c s).state := by
  refine h.after_withEntry fun _ => ?_
  split
  · exact h
  · split
    · exact h
    · exact h.after_removeEntry

theorem QueueRule.Holds.after_forceIsolate {b : Byte} (h : r.Holds s) : r.Holds (forceIsolate b s).state := by
  refine h.after_withPort fun q => ?_
  split
  · exact h
  · exact h
  all_goals exact QueueRule.Holds.after_holdByOrder h

theorem QueueRule.Holds.after_forceReadmit {b : Byte} (h : r.Holds s) : r.Holds (forceReadmit b s).state := by
  refine h.after_withPort fun q => ?_
  split
  · exact h
  · exact QueueRule.Holds.after_readmitByOrder h
  · exact QueueRule.Holds.after_readmitByOrder h
  · exact QueueRule.Holds.after_readmitByOrder h
  · exact h
  · exact h

theorem QueueRule.Holds.after_setEnable {x : Byte × Bool} (h : r.Holds s) : r.Holds (setEnable x s).state :=
  h.after_withPort fun _ => h.after_writeEnable.after_actOnEnable

theorem QueueRule.Holds.after_acceptOffice {p : OfficePlan} (h : r.Holds s) : r.Holds (acceptOffice p s).state := by
  unfold acceptOffice
  split
  · exact h
  · exact QueueRule.Holds.after_commission (QueueRule.Holds.after_foldl (h.same rfl) fun _ _ h => h.after_actOnEnable)

theorem QueueRule.Holds.after_acceptTrunk {p : TrunkReq} (h : r.Holds s) : r.Holds (acceptTrunk p s).state :=
  QueueRule.Holds.after_commission (QueueRule.Holds.after_foldl
    (QueueRule.Holds.after_foldl (h.same rfl) fun _ _ h => h.after_modPort id) fun _ _ h => h.after_actOnEnable)

theorem QueueRule.Holds.after_enableQueue {q : QueueNo} {old new : Bool} (h : r.Holds s) :
    r.Holds (enableQueue q old new s) := by
  cases old <;> cases new
  · exact h.after_modPrinter
  · exact QueueRule.Holds.after_modPrinter h.after_modPrinter
  · exact QueueRule.Holds.after_removeQueueTickets h.after_modPrinter
  · exact h.after_modPrinter

theorem QueueRule.Holds.after_setPrinter {p : PrinterReq} (h : r.Holds s) : r.Holds (setPrinter p s).state := by
  refine h.after_withQueue fun q => ?_
  split
  · exact h
  · exact h.after_modPrinter.after_enableQueue.after_selectAll.after_done

theorem QueueRule.Holds.after_cancelTicket {x : Byte × Byte} (h : r.Holds s) : r.Holds (cancelTicket x s).state := by
  refine h.after_withQueue fun q => ?_
  split
  · exact h
  · refine QueueRule.Holds.after_done (QueueRule.Holds.after_selectAll ?_)
    split
    · exact h.after_abandonAndTell
    · exact h.after_cancelWaiting

theorem QueueRule.Holds.after_setAlerts {c : AlertConfig} (h : r.Holds s) : r.Holds (setAlerts c s).state := by
  unfold setAlerts
  split
  · exact h
  · exact QueueRule.Holds.after_applyAlertConfig h

theorem QueueRule.Holds.after_clearAlerts {items : List (AlertKind × Byte)} (h : r.Holds s) :
    r.Holds (clearAlerts items s).state := by
  unfold clearAlerts
  split
  · exact h
  · exact h.same rfl

theorem QueueRule.Holds.after_takeSave (h : r.Holds s) : r.Holds (takeSave s) := by
  unfold takeSave
  split
  · exact h
  · next e payload _ =>
    split
    · exact h
    · next q _ =>
      split
      · have staged : r.Holds (stages false alwaysHeld (noParams q.params)
            (fun _ s => done (startSave q.tag e.route s)) e.route (takeControl e s)).state :=
          h.after_takeControl.after_stages fun _ => QueueRule.Holds.same (s := takeControl e s) h.after_takeControl rfl
        simp only
        split
        · exact staged
        · exact staged.after_answerRequest
      · exact h

theorem QueueRule.Holds.after_completeSave {verified : Bool} (h : r.Holds s) : r.Holds (completeSave verified s) := by
  unfold completeSave
  split
  · exact h
  · simp only
    split
    · exact QueueRule.Holds.after_sendControl (h.same rfl)
    · exact QueueRule.Holds.after_sendControl (QueueRule.Holds.after_setFlag (h.same rfl))

theorem QueueRule.Holds.after_readSegment {edges : Nat} {b : Byte} (h : r.Holds s) : r.Holds (readSegment edges b s).state := by
  unfold readSegment
  split
  · exact h
  · split
    · exact h.after_modSeg
    · exact h

theorem QueueRule.Holds.after_readPort {bytes : List Byte} {b : Byte} (h : r.Holds s) : r.Holds (readPort bytes b s).state := by
  unfold readPort
  split
  · exact h
  · split
    · exact h
    · simp only [noteBytes]
      split
      · exact h.after_modStar fun _ => ⟨rfl, rfl, id⟩
      · exact h

theorem QueueRule.Holds.after_unknownOperation (h : r.Holds s) : r.Holds (unknownOperation s) := by
  unfold unknownOperation
  split
  · exact h
  · next e _ _ =>
    split
    · exact QueueRule.Holds.same (s := takeControl e s) h.after_takeControl rfl
    · split
      · exact h
      · exact QueueRule.Holds.after_answerRequest h.after_takeControl

/-! ## Print messages (Section 7.4) -/

theorem QueueRule.Holds.after_handleOpen {q : QueueNo} {form : Fin 16} {label : List Byte} {route : Route} (h : r.Holds s) :
    r.Holds (handleOpen q form label route s) := by
  unfold handleOpen
  split
  · exact QueueRule.Holds.after_sendAnswer (QueueRule.Holds.after_selectFor (h.same rfl))
  · exact h
  · exact QueueRule.Holds.after_selectAll (QueueRule.Holds.after_sendAnswer (h.same rfl))

theorem QueueRule.Holds.after_handleData {q : QueueNo} {n : Byte} {bytes : List Byte} {b : BufId} {route : Route}
    (h : r.Holds s) : r.Holds (handleData q n bytes b route s) := by
  unfold handleData
  split
  · exact h.after_sendAnswer
  · exact h.after_sendAnswer
  · next t d _ =>
    refine QueueRule.Holds.same (s := deliver b d (s.modBuf b fun x =>
      { x with payload := feedPayload (queueByte q) n bytes })) (QueueRule.Holds.after_deliver (h.same rfl)) rfl

theorem QueueRule.Holds.after_handleClose {q : QueueNo} {n : Byte} {route : Route} (h : r.Holds s) :
    r.Holds (handleClose q n route s) := by
  unfold handleClose
  split
  · exact h.after_sendAnswer
  · split
    · exact h.after_endGrant.after_sendAnswer
    · exact QueueRule.Holds.after_sendAnswer (h.same rfl)

theorem QueueRule.Holds.after_handleCancel {q : QueueNo} {n : Byte} {route : Route} (h : r.Holds s) :
    r.Holds (handleCancel q n route s) := by
  unfold handleCancel
  split
  · exact h.after_sendAnswer
  · split
    · exact h.after_endGrant.after_sendAnswer
    · exact QueueRule.Holds.after_sendAnswer (h.same rfl)

theorem QueueRule.Holds.after_handleStatus {online : Bool} {f : Fin 16} {credit : Nat} {route : Route} (h : r.Holds s) :
    r.Holds (handleStatus online f credit route s) := by
  unfold handleStatus
  split
  · exact h.after_sendAnswer
  · simp only
    split
    · exact h.after_modPrinter
    · exact h.after_modPrinter.after_setFlag

/-- Taking a print message shortens the print input queue. -/
theorem QueueRule.Holds.after_takePrint {e : InputEntry} {f : State → State} (h : r.Holds s)
    (hf : ∀ x, r.Holds x → r.Holds (f x)) : r.Holds (takePrint e f s) :=
  QueueRule.Holds.after_dropRef (hf _ (h.congr rfl (fun _ => ⟨rfl, rfl, id⟩) (fun _ => id) le_rfl (List.tail_sublist _).length_le le_rfl))

/-! ## Resets (Section 11.1) -/

/-- A reset leaves every queue empty and every transmitter idle. -/
theorem QueueRule.holds_of_empty (trunk : s.trunk.queue = []) (star : ∀ p, (s.starPort p).queue = [] ∧ (s.starPort p).tx = .idle)
    (control : s.inputs.control = []) (print : s.inputs.print = []) (alerts : s.alerts.queue = []) : r.Holds s := by
  cases r with
  | capacity => exact ⟨by simp [trunk], fun p => by simp [star], by simp [control], by simp [print], by simp [alerts]⟩
  | trunkSilence => exact fun _ => trunk
  | starSilence p => exact fun _ => star p

theorem QueueRule.holds_loadConfig (c : StoredConfig) (f : Bool) (s : State) : r.Holds (loadConfig c f s) := by
  refine r.holds_of_empty rfl (fun p => ?_) rfl rfl rfl
  simp only [loadConfig, State.starPort, Vector.getElem_ofFn, loadStar]
  split <;> exact ⟨rfl, rfl⟩

theorem QueueRule.holds_startUp (s : State) : r.Holds (startUp s) := by
  unfold startUp
  split <;> exact r.holds_loadConfig _ _ _

theorem QueueRule.holds_standStill (m : RunState) (s : State) : r.Holds (standStill m s) := by
  refine r.holds_of_empty rfl (fun p => ?_) rfl rfl rfl
  simp only [standStill, State.starPort, Vector.getElem_ofFn]
  exact ⟨rfl, rfl⟩

theorem QueueRule.Holds.after_takeRestart {factory : Bool} {mine : Request → Bool} (h : r.Holds s) :
    r.Holds (takeRestart factory mine s) := by
  unfold takeRestart
  split
  · exact h
  · next e payload _ =>
    split
    · exact h
    · next q _ =>
      split
      · simp only
        split
        · split <;> exact r.holds_startUp _
        · exact QueueRule.Holds.after_answerRequest (h.after_takeControl.after_stages fun _ => h.after_takeControl)
      · exact h

end

end Sys2Proof.Machine
end

