-- ==== Sys2Proof/Proofs/QueuesKept.lean ====
section
/-!
The two obligations about the queues: every command keeps each condition, so every step does.
-/

namespace Sys2Proof.Machine

/-- A condition on the queues holds in the state that a command answers. -/
def QueueRule.Ends (r : QueueRule) (o : Host.Outcome State Fault Refusal) : Prop := ∀ u, o = .next u → r.Holds u

section
variable {r : QueueRule} {s : State}

theorem QueueRule.ends_next (h : r.Holds s) : r.Ends (.next s) := by
  rintro u ⟨⟩
  exact h

/-! ## How a command is taken -/

theorem QueueRule.ends_event {f : State → State} (h : r.Holds s) (hf : ∀ x, r.Holds x → r.Holds (f x)) :
    r.Ends (event f s) := by
  refine r.ends_next ?_
  split
  · exact (hf s h).after_settle
  · exact h

theorem QueueRule.ends_lineEvent {m f : State → State} (h : r.Holds s) (hm : ∀ x, r.Holds x → r.Holds (m x))
    (hf : ∀ x, r.Holds x → r.Holds (f x)) : r.Ends (lineEvent m f s) := by
  refine r.ends_next ?_
  split
  · exact (hf _ (hm s h)).after_settle
  · exact hm s h

theorem QueueRule.ends_bridgingEvent {m : State → State} {f : State → Option BufId × State} (h : r.Holds s)
    (hm : ∀ x, r.Holds x → r.Holds (m x)) (hf : ∀ x, r.Holds x → r.Holds (f x).2) : r.Ends (bridgingEvent m f s) := by
  refine r.ends_next ?_
  split
  · exact (hf _ (hm s h)).after_settle.after_endHold
  · exact hm s h

theorem QueueRule.ends_requestEvent {f : State → State} (h : r.Holds s) (hf : ∀ x, r.Holds x → r.Holds (f x)) :
    r.Ends (requestEvent f s) := by
  refine r.ends_next ?_
  split
  · exact hf s h
  · exact h

/-- A request judged by its stages. -/
theorem QueueRule.ends_staged {α : Type} {mine : Request → Bool} {read : Bool} {held : α → State → Bool}
    {parse : Request → Option α} {effect : α → State → Reply} (h : r.Holds s)
    (he : ∀ a x, r.Holds x → r.Holds (effect a x).state) :
    r.Ends (requestEvent (request mine (fun q route => stages read held (parse q) effect route)) s) :=
  r.ends_requestEvent h fun _ hx => hx.after_staged he

/-- A print message taken from the head of its queue, handled and followed by selection. -/
theorem QueueRule.Holds.after_print {e : InputEntry} {f : State → State} (h : r.Holds s)
    (hf : ∀ x, r.Holds x → r.Holds (f x)) : r.Holds (takePrint e (fun x => selectAll (f x)) s) :=
  h.after_takePrint fun x hx => (hf x hx).after_selectAll

/-! ## The commands -/

/-- Every print message keeps a condition on the queues. -/
theorem QueueRule.ends_print (h : r.Holds s) :
    r.Ends (execPrintOpen s) ∧ r.Ends (execPrintData s) ∧ r.Ends (execPrintClose s) ∧ r.Ends (execPrintCancel s)
      ∧ r.Ends (execPrintStatus s) ∧ r.Ends (execPrintMalformed s) := by
  refine ⟨r.ends_event h fun x hx => ?_, r.ends_event h fun x hx => ?_, r.ends_event h fun x hx => ?_,
    r.ends_event h fun x hx => ?_, r.ends_event h fun x hx => ?_, r.ends_event h fun x hx => ?_⟩
  · split
    · exact hx.after_takePrint fun _ => QueueRule.Holds.after_handleOpen
    · exact hx
  · split
    · exact hx.after_print fun _ => QueueRule.Holds.after_handleData
    · exact hx
  · split
    · exact hx.after_print fun _ => QueueRule.Holds.after_handleClose
    · exact hx
  · split
    · exact hx.after_print fun _ => QueueRule.Holds.after_handleCancel
    · exact hx
  · split
    · exact hx.after_print fun _ => QueueRule.Holds.after_handleStatus
    · exact hx
  · split
    · exact hx.after_print fun _ => QueueRule.Holds.after_sendAnswer
    · exact hx

/-- The events of the supply and of the panel line leave every queue empty, or as it was. -/
theorem QueueRule.ends_supply (h : r.Holds s) :
    r.Ends (execPowerOn s) ∧ r.Ends (execPanelResetAsserted s) ∧ r.Ends (execPanelRestart s)
      ∧ ∀ b, r.Ends (execSupplyLoss b s) := by
  refine ⟨r.ends_next ?_, r.ends_next ?_, r.ends_next ?_, fun b => r.ends_next ?_⟩
  · split
    · exact QueueRule.Holds.same (s := standStill .held s) (r.holds_standStill _ _) rfl
    · exact r.holds_startUp _
  · split
    · exact h.same rfl
    · exact r.holds_standStill _ _
  · split
    · split
      · exact r.holds_startUp _
      · exact r.holds_startUp _
    · exact h.same rfl
    · exact h.same rfl
  · split
    · exact QueueRule.Holds.same (s := standStill .unpowered s) (r.holds_standStill _ _) rfl
    · exact r.holds_standStill _ _

/-- Every command keeps a condition on the queues. -/
theorem QueueRule.ends_exec (c : Instr) (h : r.Holds s) : r.Ends (exec c s) := by
  unfold exec
  cases c with
  | burstRise t dt =>
    refine r.ends_next ?_
    split
    · exact h.after_burstRise.after_settle
    · exact h.after_modSeg
  | headerEvent t dt cells =>
    simp only [execHeaderEvent]
    refine r.ends_event h fun x hx => ?_
    split
    · exact hx.after_advance.after_feedDecoder
    · exact hx.after_advance
  | burstFall t dt edges cells =>
    exact r.ends_bridgingEvent h (fun _ => QueueRule.Holds.after_carrierFalls) fun _ => QueueRule.Holds.after_burstFall
  | jabberCut t edges => exact r.ends_event h fun _ => QueueRule.Holds.after_jabberCut
  | continuationFall t dt =>
    simp only [execContinuationFall]
    refine r.ends_lineEvent h (fun _ => QueueRule.Holds.after_carrierFalls) fun x hx => ?_
    split
    · exact hx.after_advance.after_modSeg
    · exact hx.after_advance
  | longQuiet t => exact r.ends_event h fun _ => QueueRule.Holds.after_longQuiet
  | terminatorEdge t => exact r.ends_event h fun _ => QueueRule.Holds.after_terminatorEdge
  | transmitClaim dt => exact r.ends_event h fun _ hx => hx.after_advance.after_transmitClaim
  | transmitCompletion dt => exact r.ends_event h fun _ hx => hx.after_advance.after_transmitCompletion
  | linkUp p =>
    exact r.ends_lineEvent h (fun _ hx => hx.after_modStar fun _ => ⟨rfl, rfl, id⟩) fun _ hx =>
      hx.after_modStar (f := fun x => { x with link := true }) fun _ => ⟨rfl, rfl, fun _ => rfl⟩
  | linkDown p => exact r.ends_lineEvent h (fun _ hx => hx.after_modStar fun _ => ⟨rfl, rfl, id⟩) fun _ => QueueRule.Holds.after_linkDown
  | frameStart p => exact r.ends_lineEvent h (fun _ hx => hx.after_modStar fun _ => ⟨rfl, rfl, id⟩) fun _ => QueueRule.Holds.after_frameStart
  | frameEnd p bytes => exact r.ends_bridgingEvent h (fun _ hx => hx.after_modStar fun _ => ⟨rfl, rfl, id⟩) fun _ => QueueRule.Holds.after_frameEnd
  | sendStart p => exact r.ends_event h fun _ => QueueRule.Holds.after_sendStart
  | sendCompletion p => exact r.ends_event h fun _ => QueueRule.Holds.after_sendCompletion
  | fold =>
    simp only [execFold]
    refine r.ends_event h fun x hx => ?_
    split
    · exact hx.after_foldAll
    · exact hx
  | presenceQuery c => exact r.ends_event h fun _ => QueueRule.Holds.after_presenceQuery
  | aging c => exact r.ends_event h fun _ => QueueRule.Holds.after_aging
  | becomesAbsent c => exact r.ends_event h fun _ => QueueRule.Holds.after_becomesAbsent
  | quarantineEnd c => exact r.ends_event h fun _ => QueueRule.Holds.after_quarantineEnd
  | idleExpiry q => exact r.ends_event h fun _ => QueueRule.Holds.after_idleExpiry
  | formHoldReached q => exact r.ends_event h fun _ => QueueRule.Holds.after_formHoldReached
  | alertSend => exact r.ends_event h fun _ => QueueRule.Holds.after_alertSend
  | printOpen => exact (r.ends_print h).1
  | printData => exact (r.ends_print h).2.1
  | printClose => exact (r.ends_print h).2.2.1
  | printCancel => exact (r.ends_print h).2.2.2.1
  | printStatus => exact (r.ends_print h).2.2.2.2.1
  | printMalformed => exact (r.ends_print h).2.2.2.2.2
  | statusRead => exact r.ends_staged h fun _ _ hx => hx
  | segmentRead dt edges =>
    exact r.ends_requestEvent h fun _ hx => hx.after_advance.after_staged fun _ _ => QueueRule.Holds.after_readSegment
  | portRead bytes => exact r.ends_staged h fun _ _ => QueueRule.Holds.after_readPort
  | countersRead =>
    refine r.ends_staged h fun b x hx => ?_
    unfold readCounters
    split
    · split <;> exact hx
    · split <;> exact hx
  | directoryRead =>
    refine r.ends_staged h fun b x hx => ?_
    unfold readDirectory
    split <;> exact hx
  | directoryFind =>
    refine r.ends_staged h fun b x hx => ?_
    unfold findStation
    split <;> exact hx
  | queueRead =>
    refine r.ends_staged h fun b x hx => ?_
    unfold readQueue
    split <;> exact hx
  | accountRead =>
    refine r.ends_staged h fun b x hx => ?_
    unfold readAccount
    split <;> exact hx
  | entryFix => exact r.ends_staged h fun _ _ => QueueRule.Holds.after_fixEntry
  | entryRelease => exact r.ends_staged h fun _ _ => QueueRule.Holds.after_releaseEntry
  | entrySuspend => exact r.ends_staged h fun _ _ hx => hx.after_withEntry fun _ => QueueRule.Holds.after_modEntry hx
  | entryResume =>
    refine r.ends_staged h fun _ _ hx => hx.after_withEntry fun _ => ?_
    simp only [done]
    split
    · exact hx
    · exact hx.after_modEntry
  | clearLearned =>
    exact r.ends_staged h fun _ _ hx =>
      QueueRule.Holds.after_doneWith (hx.after_foldl fun _ _ h => h.after_removeEntry)
  | segmentSet => exact r.ends_staged h fun _ _ hx => hx.after_withPort fun _ => QueueRule.Holds.after_modPort hx id
  | segmentForceIsolate dt =>
    exact r.ends_requestEvent h fun x hx => QueueRule.Holds.after_staged (s := x.elapse dt) (hx.same rfl) fun _ _ =>
      QueueRule.Holds.after_forceIsolate
  | segmentForceReadmit dt =>
    exact r.ends_requestEvent h fun _ hx => hx.after_advance.after_staged fun _ _ => QueueRule.Holds.after_forceReadmit
  | segmentForceExemptOn => exact r.ends_staged h fun _ _ hx => hx.after_withPort fun _ => QueueRule.Holds.after_modPort hx id
  | segmentForceExemptOff => exact r.ends_staged h fun _ _ hx => hx.after_withPort fun _ => QueueRule.Holds.after_modPort hx id
  | segmentForceClear => exact r.ends_staged h fun _ _ hx => hx.after_withPort fun _ => QueueRule.Holds.after_modPort hx id
  | portEnable dt =>
    exact r.ends_requestEvent h fun x hx => QueueRule.Holds.after_staged (s := x.elapse dt) (hx.same rfl) fun _ _ =>
      QueueRule.Holds.after_setEnable
  | printerSet => exact r.ends_staged h fun _ _ => QueueRule.Holds.after_setPrinter
  | formLoaded =>
    exact r.ends_staged h fun _ _ hx => hx.after_withConfigured fun _ => hx.after_modPrinter.after_selectAll.after_done
  | queuePurge =>
    exact r.ends_staged h fun _ _ hx => hx.after_withConfigured fun _ =>
      hx.after_removeQueueTickets.after_selectAll.after_doneWith
  | ticketCancel => exact r.ends_staged h fun _ _ => QueueRule.Holds.after_cancelTicket
  | accountSnapshot => exact r.ends_staged h fun _ _ hx => hx.same rfl
  | alertSet => exact r.ends_staged h fun _ _ => QueueRule.Holds.after_setAlerts
  | alertClear => exact r.ends_staged h fun _ _ => QueueRule.Holds.after_clearAlerts
  | officePlan => exact r.ends_staged h fun _ _ => QueueRule.Holds.after_acceptOffice
  | trunkPlan dt =>
    exact r.ends_requestEvent h fun x hx => QueueRule.Holds.after_staged (s := x.elapse dt) (hx.same rfl) fun _ _ =>
      QueueRule.Holds.after_acceptTrunk
  | save => exact r.ends_requestEvent h fun _ => QueueRule.Holds.after_takeSave
  | saveCompletion v => exact r.ends_event h fun _ => QueueRule.Holds.after_completeSave
  | restartKeep => exact r.ends_requestEvent h fun _ => QueueRule.Holds.after_takeRestart
  | restartFactory => exact r.ends_requestEvent h fun _ => QueueRule.Holds.after_takeRestart
  | clearCauses => exact r.ends_staged h fun _ _ hx => hx.same rfl
  | unknownOperation => exact r.ends_requestEvent h fun _ => QueueRule.Holds.after_unknownOperation
  | powerOn => exact (r.ends_supply h).1
  | panelResetAsserted => exact (r.ends_supply h).2.1
  | panelRestart => exact (r.ends_supply h).2.2.1
  | oneSecondTick => exact r.ends_event h fun _ => QueueRule.Holds.after_oneSecondTick
  | oneMillisecondTick tick => exact r.ends_event h fun _ => QueueRule.Holds.after_oneMillisecondTick
  | closingCarrierFall t dt =>
    refine r.ends_lineEvent h (fun _ => QueueRule.Holds.after_carrierFalls) fun x hx => ?_
    unfold closingFall
    split
    · exact hx.after_advance.after_modSeg
    · exact hx.after_advance
  | supplyLoss b => exact (r.ends_supply h).2.2.2 b

/-- Every step keeps a condition on the queues. -/
theorem QueueRule.Holds.after_step {u : State} (h : r.Holds s) (hs : step s = .next u) : r.Holds u := by
  unfold step at hs
  split at hs
  · exact r.ends_next h u hs
  · next rest _ => exact r.ends_exec _ (QueueRule.Holds.same (t := s.withPending rest) h rfl) u hs

end

/-- Settles O58: the capacity condition walked through every command. -/
theorem capacityKept : Obligations.CapacityKept := fun _ _ h hs => QueueRule.Holds.after_step (r := .capacity) h hs

/-- Settles O59: the silence of the trunk and of each star port walked through every command. -/
theorem cutOffStaysSilent : Obligations.CutOffStaysSilent := fun _ _ ⟨trunk, star⟩ hs =>
  ⟨QueueRule.Holds.after_step (r := .trunkSilence) trunk hs,
    fun p => QueueRule.Holds.after_step (r := .starSilence p) (star p) hs⟩

end Sys2Proof.Machine
end

