-- ==== Sys2Proof/Proofs/Rise.lean ====
section
/-!
The rise of a burst (R10, R20, R26): what the repeater's and the transmitter's operations leave of each segment, and the
obligations about a rise and about a trunk that goes down (R27).
-/

namespace Sys2Proof.Machine

/-! ## The repeater and the buffers -/

/-- Every segment is let go at a release of the repeater. -/
@[simp] theorem releaseRepeater_seg (s : State) (v : SegNo) :
    (releaseRepeater s).seg v = (s.seg v).stopDriving s.chassis.now := State.seg_mapSegs s _ v

@[simp] theorem Segment.stopDriving_driven (now : Nat) (g : Segment) : (g.stopDriving now).driven = false := by
  unfold Segment.stopDriving
  split
  · rfl
  · next h => simpa using h

/-- A segment let go keeps all but its drive and the time of its quiet. -/
theorem Segment.stopDriving_eq (now : Nat) (g : Segment) :
    g.stopDriving now = { g with driven := false, quietSince := (g.stopDriving now).quietSince } := by
  unfold Segment.stopDriving
  split
  · rfl
  · next h => simp only [Bool.not_eq_true] at h; simp only [← h]

/-- The repeater of an idle trunk drives nothing after a release. -/
theorem nothingDriven_releaseRepeater (s : State) : NothingDriven (releaseRepeater s) := fun v => by simp

/-- The head of the queue leaves: the queue is its rest, the count starts again, and its reference is released. -/
theorem popTrunk_cons {s : State} {b : BufId} {rest : List BufId} (h : s.trunk.queue = b :: rest) :
    popTrunk s = { s with
      trunk := { s.trunk with queue := rest, attempts := 0 },
      bufs := (dropRef b { s with trunk := { s.trunk with queue := rest } }).bufs } := by
  unfold popTrunk
  rw [h]
  rfl

/-- What released references leave in the buffers depends on the buffers and the transmit queues. -/
theorem bufs_dropRefs_congr {s u : State} (hb : u.bufs = s.bufs) (hq : u.trunk.queue = s.trunk.queue) (hs : u.star = s.star)
    (bs : List BufId) : (dropRefs bs u).bufs = (dropRefs bs s).bufs := by
  induction bs generalizing s u with
  | nil => exact hb
  | cons b bs ih =>
    refine ih ?_ hq hs
    simp only [dropRef, State.modBuf, onTrunkQueue, onStarQueue, State.starPort, hb, hq, hs]

/-! ## The rise -/

/-- A rise changes the clock, the trunk and the buffers alone. -/
theorem burstRise_eq (t : SegNo) (dt : Nat) (s : State) :
    burstRise t dt s = { s.advance dt with trunk := (burstRise t dt s).trunk, bufs := (burstRise t dt s).bufs } := by
  have collision : ∀ x, txCollision x = { x with trunk := (txCollision x).trunk, bufs := (txCollision x).bufs } := by
    intro x
    simp only [txCollision]
    split
    · unfold popTrunk
      split <;> rfl
    · rfl
  simp only [burstRise, takeRise]
  split
  · split
    · split <;> rfl
    · split
      · rw [collision]; rfl
      · rfl
    · rfl
  · rfl

/-- BURST_RISE leaves nothing for the Print Arbiter. -/
theorem exec_burstRise {t : SegNo} {dt : Nat} {s : State} (h : s.isRunning = true) :
    exec (.burstRise t dt) s = .next (burstRise t dt s) := by
  have settled : settle s (burstRise t dt s) = burstRise t dt s := by
    rw [burstRise_eq]
    exact settle_eq_self rfl rfl fun _ => rfl
  simp [exec, execBurstRise, h, settled]

/-- A rise that is heard is taken by the channel, and leaves carrier on the cable. -/
theorem burstRise_of_heard {t : SegNo} {dt : Nat} {s : State} (hr : relayClosed s t = true) (hc : (s.seg t).carrier = false)
    (hp : (s.seg t).phase = .quiet) : burstRise t dt s = setCarrier t true (takeRise t (s.advance dt)) := by
  simp [burstRise, hr, hc, hp]

/-- The channel's share of a rise. -/
def rising (t : SegNo) (dt : Nat) (s : State) : State :=
  (s.advance dt).modSeg t (Segment.openCapture (s.chassis.now + dt) (s.port (portOfSeg t)).current)

/-- What a rise that is heard comes to, by the holder of the repeater (R20, R21, R26). -/
theorem takeRise_eq (t : SegNo) (dt : Nat) (s : State) :
    takeRise t (s.advance dt) = match s.trunk.holder with
      | .none => if segConnected s t then claimRepeater t (rising t dt s) else rising t dt s
      | .transmitter => if (s.seg t).driven then txCollision (rising t dt s) else rising t dt s
      | .segment _ => rising t dt s := rfl

/-- The claim drives every other connected segment that is not in jabber continuation (R20). -/
theorem claimRepeater_seg (t v : SegNo) (s : State) :
    (claimRepeater t s).seg v =
      if v ≠ t ∧ segConnected s v = true ∧ (s.seg v).phase ≠ .continuation then (s.seg v).startDriving else s.seg v := by
  simp only [claimRepeater, State.seg, Vector.getElem_mapFinIdx, ne_eq, Fin.ext_iff]

/-- A collision lets every segment go (R26). -/
theorem txCollision_seg (s : State) (v : SegNo) : (txCollision s).seg v = (s.seg v).stopDriving s.chassis.now := by
  simp only [txCollision]
  split
  · unfold popTrunk
    split <;> exact releaseRepeater_seg s v
  · exact releaseRepeater_seg s v

/-- The burst that a rise opens stands whatever the repeater and the transmitter make of the rise. -/
theorem takeRise_seg_self (t : SegNo) (dt : Nat) (s : State) :
    (takeRise t (s.advance dt)).seg t =
      { (s.seg t).openCapture (s.chassis.now + dt) (s.port (portOfSeg t)).current with
        driven := ((takeRise t (s.advance dt)).seg t).driven,
        quietSince := ((takeRise t (s.advance dt)).seg t).quietSince } := by
  have opened : (rising t dt s).seg t = (s.seg t).openCapture (s.chassis.now + dt) (s.port (portOfSeg t)).current :=
    State.seg_modSeg_self _ _ _
  rw [takeRise_eq]
  split
  · split
    · rw [claimRepeater_seg, if_neg (by simp), opened]
    · rw [opened]
  · split
    · rw [txCollision_seg, opened, Segment.stopDriving_eq]
    · rw [opened]
  · rw [opened]

/-- Settles O3, by the holder of the repeater at the rise. -/
theorem riseOpensARecord : Obligations.RiseOpensARecord := by
  intro t dt s run relay carrier phase
  have exec_eq : exec (.burstRise t dt) s = .next (setCarrier t true (takeRise t (s.advance dt))) := by
    rw [exec_burstRise run, burstRise_of_heard relay carrier phase]
  simp only
  rw [exec_eq]
  refine ⟨⟨_, rfl, ?_⟩, fun idle apart => ?_⟩
  · simp only [setCarrier, State.seg_modSeg_self]
    rw [takeRise_seg_self]
    exact ⟨rfl, rfl, rfl, rfl⟩
  · have alone : takeRise t (s.advance dt) = rising t dt s := by
      rw [takeRise_eq]
      split
      · next none =>
        rw [if_neg]
        simpa [none] using idle
      · next tx => simp [apart tx]
      · rfl
    rw [alone]
    simp only [setCarrier, rising, State.modSeg, modAt_modAt]
    rfl

/-- Settles O4. -/
theorem riseClaimsTheRepeater : Obligations.RiseClaimsTheRepeater := by
  intro t dt s run relay carrier phase connected idle still
  have taken : takeRise t (s.advance dt) = claimRepeater t (rising t dt s) := by
    rw [takeRise_eq, idle]
    exact if_pos connected
  rw [exec_burstRise run, burstRise_of_heard relay carrier phase, taken]
  have other : ∀ v, v ≠ t → (setCarrier t true (claimRepeater t (rising t dt s))).seg v =
      if segConnected s v = true ∧ (s.seg v).phase ≠ .continuation then (s.seg v).startDriving else s.seg v := by
    intro v hv
    have stands : (rising t dt s).seg v = s.seg v := State.seg_modSeg_ne _ _ hv
    rw [setCarrier, State.seg_modSeg_ne _ _ hv, claimRepeater_seg, stands]
    exact if_congr (by rw [and_iff_right hv]; rfl) rfl rfl
  have own : (setCarrier t true (claimRepeater t (rising t dt s))).seg t =
      { (s.seg t).openCapture (s.chassis.now + dt) (s.port (portOfSeg t)).current with carrier := true } := by
    rw [setCarrier, State.seg_modSeg_self, claimRepeater_seg, if_neg (by simp), rising, State.seg_modSeg_self]
    rfl
  refine ⟨_, rfl, rfl, fun v => ?_, fun v hv => ?_, by rw [own]; rfl, by rw [own]; rfl⟩
  · by_cases hv : v = t
    · subst hv
      rw [own]
      simpa [Segment.openCapture] using still v
    · rw [other v hv]
      split
      · next h => simp [hv, h, Segment.startDriving]
      · next h =>
        rw [still v]
        simp only [not_and, ne_eq, not_not] at h
        by_cases hc : segConnected s v = true
        · simp [h hc]
        · simp [hc]
  · rw [other v hv]
    split <;> rfl

/-! ## Collision, and the trunk going down -/

/-- A collision, by the number of failed attempts before it (R26). -/
theorem txCollision_cases {s : State} {b : BufId} {rest : List BufId} (hq : s.trunk.queue = b :: rest) :
    let k := { s.trunk.counters with txCollisions := bump s.trunk.counters.txCollisions }
    let free := { s.trunk with
      segs := s.trunk.segs.map (Segment.stopDriving s.chassis.now), holder := .none, truncate := false, onWire := [] }
    (s.trunk.attempts < 3 → txCollision s = { s with
        trunk := { free with counters := k, attempts := s.trunk.attempts + 1 } })
    ∧ (3 ≤ s.trunk.attempts → txCollision s = { s with
        trunk := { free with counters := { k with txAbandon := bump k.txAbandon }, attempts := 0, queue := rest },
        bufs := (dropRef b { s with trunk := { s.trunk with queue := rest } }).bufs }) := by
  refine ⟨fun few => ?_, fun many => ?_⟩
  · simp only [txCollision, if_neg (show ¬ 4 ≤ s.trunk.attempts + 1 by omega)]
    rfl
  · simp only [txCollision, if_pos (show 4 ≤ s.trunk.attempts + 1 by omega)]
    exact popTrunk_cons hq

/-- Foreign carrier on a segment that the transmitter drives (R26). -/
theorem collision_ends_attempt (t : SegNo) (dt : Nat) (b : BufId) (rest : List BufId) (s : State) (run : s.isRunning = true)
    (relay : relayClosed s t = true) (carrier : (s.seg t).carrier = false) (phase : (s.seg t).phase = .quiet)
    (holder : s.trunk.holder = .transmitter) (driven : (s.seg t).driven = true) (queue : s.trunk.queue = b :: rest) :
    ∃ u, exec (.burstRise t dt) s = .next u
      ∧ u.trunk.holder = .none ∧ NothingDriven u ∧ u.trunk.truncate = false
      ∧ u.trunk.counters.txCollisions = bump s.trunk.counters.txCollisions
      ∧ u.trunk.counters.txFrames = s.trunk.counters.txFrames
      ∧ (s.trunk.attempts < 3 → u.trunk.attempts = s.trunk.attempts + 1 ∧ u.trunk.queue = b :: rest
          ∧ u.trunk.counters.txAbandon = s.trunk.counters.txAbandon ∧ u.bufs = s.bufs)
      ∧ (3 ≤ s.trunk.attempts → u.trunk.attempts = 0 ∧ u.trunk.queue = rest
          ∧ u.trunk.counters.txAbandon = bump s.trunk.counters.txAbandon
          ∧ u.bufs = (dropRef b { s with trunk := { s.trunk with queue := rest } }).bufs)
      ∧ u = { (s.advance dt) with trunk := u.trunk, bufs := u.bufs } := by
  have taken : burstRise t dt s = setCarrier t true (txCollision (rising t dt s)) := by
    rw [burstRise_of_heard relay carrier phase, takeRise_eq, holder]
    simp [driven]
  obtain ⟨few, many⟩ := txCollision_cases (s := rising t dt s) queue
  have still : NothingDriven (burstRise t dt s) := fun v => by
    rw [taken, setCarrier, State.seg_modSeg]
    split <;> simp [txCollision_seg]
  refine ⟨_, exec_burstRise run, ?_, still, ?_, ?_, ?_, fun n => ?_, fun n => ?_, burstRise_eq t dt s⟩
  all_goals rw [taken]
  iterate 4
    rcases Nat.lt_or_ge s.trunk.attempts 3 with n | n
    · rw [few n]; rfl
    · rw [many n]; rfl
  · rw [few n]; exact ⟨rfl, queue, rfl, rfl⟩
  · rw [many n]; exact ⟨rfl, rfl, rfl, rfl⟩

/-- The flush of a trunk that is down, which ends an attempt of the transmitter (R27). -/
theorem flushTrunk_of_down {s : State} (h : trunkDown s = true) :
    flushTrunk s =
      let flushed := { s with
        bufs := (dropRefs s.trunk.queue { s with trunk := { s.trunk with queue := [] } }).bufs,
        trunk := { s.trunk with queue := [], attempts := 0, counters := { s.trunk.counters with
          trunkDown := bumpBy s.trunk.queue.length s.trunk.counters.trunkDown } } }
      if s.trunk.holder = .transmitter then releaseRepeater flushed else flushed := by
  have e := dropRefs_eq s.trunk.queue { s with trunk := { s.trunk with queue := [], attempts := 0 } }
  have hb := bufs_dropRefs_congr (s := { s with trunk := { s.trunk with queue := [] } })
    (u := { s with trunk := { s.trunk with queue := [], attempts := 0 } }) rfl rfl rfl s.trunk.queue
  simp only [flushTrunk, h, if_true]
  rw [e, hb]
  rfl

/-- The last connected segment leaves service: the trunk goes down (R2, R22, R27). -/
theorem trunk_goes_down (v : SegNo) (new : SupState) (s : State) (only : ∀ w, segConnected s w = decide (w = v))
    (out : new.inService = false) :
    let d := setPortState (portOfSeg v) new s
    d.trunk.queue = [] ∧ d.trunk.attempts = 0
      ∧ (s.trunk.holder = .none → d.trunk.holder = .none)
      ∧ (s.trunk.holder = .transmitter ∨ s.trunk.holder = .segment v →
          d.trunk.holder = .none ∧ NothingDriven d ∧ d.trunk.onWire = [] ∧ d.trunk.truncate = false)
      ∧ d.trunk.counters = { s.trunk.counters with
          trunkDown := BitVec.ofNat 32 (min (s.trunk.counters.trunkDown.toNat + s.trunk.queue.length) 4294967295) }
      ∧ d.bufs = (dropRefs s.trunk.queue { s with trunk := { s.trunk with queue := [] } }).bufs := by
  simp only
  rw [setPortState_portOfSeg]
  simp only [only, decide_true, out, Bool.not_false, Bool.and_self, if_true]
  generalize hm : (s.modPort (portOfSeg v) (fun r => { r with state := new })).modSeg v
    (Segment.relayMoved (s.port (portOfSeg v)).state new s.chassis.now) = m
  have down : trunkDown m = true := trunkDown_eq_true.2 fun w => by
    subst hm
    simp only [segConnected, State.modSeg_port, State.port_modPort, portOfSeg_inj]
    split
    · exact out
    · next h => simpa [segConnected, h] using only w
  have trunk : m.trunk = { s.trunk with segs := m.trunk.segs } := by subst hm; rfl
  have bufs : ∀ x : State, x.trunk.queue = s.trunk.queue → x.bufs = s.bufs → x.star = s.star →
      (dropRefs x.trunk.queue { x with trunk := { x.trunk with queue := [] } }).bufs
        = (dropRefs s.trunk.queue { s with trunk := { s.trunk with queue := [] } }).bufs := fun x hq hb hs => by
    rw [hq]
    exact bufs_dropRefs_congr (s := { s with trunk := { s.trunk with queue := [] } })
      (u := { x with trunk := { x.trunk with queue := [] } }) hb rfl hs _
  have stands : m.bufs = s.bufs ∧ m.star = s.star := by subst hm; exact ⟨rfl, rfl⟩
  obtain ⟨hb, hs⟩ := stands
  have queue : m.trunk.queue = s.trunk.queue := by rw [trunk]
  have counters : m.trunk.counters = s.trunk.counters := by rw [trunk]
  have holder : m.trunk.holder = s.trunk.holder := by rw [trunk]
  unfold segLeaves
  simp only
  by_cases own : m.trunk.holder = .segment v
  · rw [if_pos own, flushTrunk_of_down (s := releaseRepeater m) down]
    refine ⟨rfl, rfl, fun _ => rfl, fun _ => ⟨rfl, nothingDriven_releaseRepeater m, rfl, rfl⟩, ?_, ?_⟩
    · simp only [if_neg (show (releaseRepeater m).trunk.holder ≠ .transmitter by simp [releaseRepeater])]
      rw [show (releaseRepeater m).trunk.counters = m.trunk.counters from rfl, counters,
        show (releaseRepeater m).trunk.queue = m.trunk.queue from rfl, queue]
      rfl
    · exact bufs (releaseRepeater m) queue hb hs
  · rw [if_neg own]
    have flushed := flushTrunk_of_down (s := m.modSeg v (Segment.stopDriving m.chassis.now)) down
    have freed := bufs (m.modSeg v (Segment.stopDriving m.chassis.now)) queue hb hs
    by_cases tx : m.trunk.holder = .transmitter
    · simp only [if_pos (show (m.modSeg v (Segment.stopDriving m.chassis.now)).trunk.holder = .transmitter from tx)] at flushed
      rw [flushed]
      refine ⟨rfl, rfl, fun _ => rfl, fun _ => ⟨rfl, nothingDriven_releaseRepeater _, rfl, rfl⟩, ?_, freed⟩
      simp only [State.modSeg_trunk_queue, State.modSeg_trunk_counters, queue, counters]
      rfl
    · simp only [if_neg (show (m.modSeg v (Segment.stopDriving m.chassis.now)).trunk.holder ≠ .transmitter from tx)] at flushed
      rw [flushed]
      refine ⟨rfl, rfl, fun idle => holder.trans idle, fun held => ?_, ?_, freed⟩
      · rw [← holder] at held
        exact absurd held (by simp [tx, own])
      · simp only [State.modSeg_trunk_queue, State.modSeg_trunk_counters, queue, counters]
        rfl

/-- Settles O5: the collision of an attempt, and the trunk that goes down. -/
theorem collisionEndsTheAttempt : Obligations.CollisionEndsTheAttempt := ⟨collision_ends_attempt, trunk_goes_down⟩

end Sys2Proof.Machine
end

