-- ==== Sys2Proof/Proofs/Quiet.lean ====
section
/-!
How the channels come to rest, the transmitter's claim and completion, and the 1 ms tick (R3, R12, R15, R24, R26, R208):
events that leave the Print Arbiter nothing to do.
-/

namespace Sys2Proof.Machine

/-! ## The ways to rest -/

/-- The busy time is settled apart from everything but the phase. -/
theorem Segment.settleBusy_eq (now : Nat) (g : Segment) :
    g.settleBusy now = { g with
      busy := if g.inCarrier then min (g.busy + (now - g.busyFrom)) 4294967295 else g.busy,
      busyFrom := if g.inCarrier then now else g.busyFrom } := by
  unfold Segment.settleBusy
  split <;> rfl

/-- Two changes of one segment are one change. -/
theorem State.modSeg_modSeg (s : State) (t : SegNo) (f g : Segment → Segment) :
    (s.modSeg t f).modSeg t g = s.modSeg t (fun x => g (f x)) := by
  simp only [State.modSeg, modAt_modAt]

/-- A change of one segment is told by what it makes of that segment as it stands. -/
theorem State.modSeg_congr {s : State} {t : SegNo} {f g : Segment → Segment} (h : f (s.seg t) = g (s.seg t)) :
    s.modSeg t f = s.modSeg t g := by
  simp only [State.modSeg, modAt]
  congr 3

/-- A fall of carrier that the channel takes as the end of its phase. -/
theorem carrierFalls_of_phase {s : State} {t : SegNo} {p : LinePhase} (h : (s.seg t).phase = p) :
    carrierFalls t p s = s.modSeg t (fun g => { g with carrier := false }) := by
  rw [carrierFalls, if_pos (Or.inl h)]
  rfl

theorem closingFall_of_phase {s : State} {t : SegNo} (h : (s.seg t).phase = .closing) :
    closingFall t s = s.modSeg t (fun g => { g with phase := .quiet, quietSince := s.chassis.now }) := if_pos h

/-- Settles O9: the three ways to rest are local to the segment. -/
theorem segmentComesToRest : Obligations.SegmentComesToRest := by
  intro t dt s run
  refine ⟨fun phase => ?_, fun phase => ?_, fun relay carrier count => ?_⟩
  · have ended : exec (.continuationFall t dt) s
        = .next (endContinuation t ((s.modSeg t (fun g => { g with carrier := false })).advance dt)) := by
      show execContinuationFall t dt s = _
      rw [execContinuationFall, lineEvent_of_running run, carrierFalls_of_phase phase, if_pos (by simpa using phase)]
      exact congrArg _ (settle_eq_self rfl rfl fun _ => rfl)
    rw [ended]
    exact congrArg _ ((State.modSeg_modSeg (s.advance dt) t _ _).trans (State.modSeg_congr (by
      simp only [Segment.settleBusy_eq]
      rfl)))
  · have ended : exec (.closingCarrierFall t dt) s
        = .next (((s.modSeg t (fun g => { g with carrier := false })).advance dt).modSeg t
            (fun g => { g with phase := .quiet, quietSince := s.chassis.now + dt })) := by
      have closing : (((s.modSeg t (fun g => { g with carrier := false })).advance dt).seg t).phase = .closing :=
        (congrArg Segment.phase (State.seg_modSeg_self s t _)).trans phase
      show execClosingCarrierFall t dt s = _
      rw [execClosingCarrierFall, lineEvent_of_running run, carrierFalls_of_phase phase, closingFall_of_phase closing]
      exact congrArg _ (settle_eq_self rfl rfl fun _ => rfl)
    rw [ended]
    exact congrArg _ (State.modSeg_modSeg (s.advance dt) t _ _)
  · have marked : longQuiet t s = s.modSeg t (fun g => { g with quietCount := 17, longQuiet := true }) := by
      simp [longQuiet, relay, Segment.noCarrier, carrier, count]
    show execLongQuiet t s = _
    rw [execLongQuiet, event_of_running run, marked]
    exact congrArg _ (settle_eq_self rfl rfl fun _ => rfl)

/-! ## The transmitter -/

/-- The claim as a condition (R24). -/
theorem mayClaim_iff (s : State) : mayClaim s = true ↔
    s.trunk.holder = .none ∧ trunkDown s = false ∧ s.trunk.queue ≠ []
      ∧ ∀ v, segConnected s v = true → (s.seg v).isQuiet = true
        ∧ (s.seg v).quietSince + 48 + 256 * s.trunk.attempts ≤ s.chassis.now := by
  simp only [mayClaim, requiredQuiet, Bool.and_eq_true, decide_eq_true_eq, Bool.not_eq_true', List.isEmpty_eq_false_iff,
    List.all_eq_true, List.mem_finRange, forall_const, Bool.or_eq_true, and_assoc, Config.gapTicks, Config.backoffTicks,
    ← Nat.add_assoc, or_iff_not_imp_left, Bool.not_eq_false]

theorem trunkDown_eq_false_iff (s : State) : trunkDown s = false ↔ ∃ v, segConnected s v = true := by
  rw [← Bool.not_eq_true, trunkDown_eq_true]
  simp

/-- An idle repeater with a frame queued and every connected segment quiet for the required time is claimed (R24). -/
theorem transmit_claimed {dt : Nat} {b : BufId} {rest : List BufId} {s : State} (run : s.isRunning = true)
    (queue : s.trunk.queue = b :: rest) (idle : s.trunk.holder = .none) (still : NothingDriven s)
    (some_connected : ∃ v, segConnected s v = true)
    (quiet : ∀ v, segConnected s v = true → (s.seg v).carrier = false ∧ (s.seg v).phase = .quiet
      ∧ (s.seg v).quietSince + 48 + 256 * s.trunk.attempts ≤ s.chassis.now + dt) :
    ∃ u, exec (.transmitClaim dt) s = .next u
      ∧ u = { (s.advance dt) with trunk :=
          { s.trunk with segs := u.trunk.segs, holder := .transmitter, onWire := bufTrunkFrame (s.buf b) } }
      ∧ ∀ v, u.seg v = { s.seg v with driven := segConnected s v } := by
  have may : mayClaim (s.advance dt) = true := by
    refine (mayClaim_iff _).2 ⟨idle, (trunkDown_eq_false_iff _).2 some_connected, ?_, fun v hv => ?_⟩
    · show s.trunk.queue ≠ []
      simp [queue]
    · obtain ⟨carrier, phase, time⟩ := quiet v hv
      have driven := still v
      refine ⟨?_, time⟩
      show (s.seg v).isQuiet = true
      simp [Segment.isQuiet, Segment.noCarrier, carrier, phase, driven]
  refine ⟨transmitClaim (s.advance dt), ?_, ?_, fun v => ?_⟩
  · show execTransmitClaim dt s = _
    rw [execTransmitClaim, event_of_running run, transmitClaim, if_pos may]
    exact congrArg _ (settle_eq_self rfl rfl fun _ => rfl)
  · rw [transmitClaim, if_pos may]
    simp only [show (s.advance dt).trunk = s.trunk from rfl, queue]
    rfl
  · have driven := still v
    rw [transmitClaim, if_pos may]
    simp only [State.seg, Vector.getElem_mapFinIdx]
    show (if segConnected s v = true then { s.seg v with driven := true } else s.seg v) = _
    split
    · next h => rw [h]; rfl
    · next h =>
      rw [Bool.not_eq_true] at h
      rw [h, ← driven]
      rfl

/-- One connected segment that has not been quiet for the required time holds the claim back (R24). -/
theorem transmit_held_back {dt : Nat} {s : State} (run : s.isRunning = true) {v : SegNo} (connected : segConnected s v = true)
    (busy : (s.seg v).carrier = true ∨ (s.seg v).phase ≠ .quiet
      ∨ s.chassis.now + dt < (s.seg v).quietSince + 48 + 256 * s.trunk.attempts) :
    exec (.transmitClaim dt) s = .next (s.advance dt) := by
  have may : mayClaim (s.advance dt) ≠ true := fun h => by
    obtain ⟨-, -, -, all⟩ := (mayClaim_iff _).1 h
    obtain ⟨quiet, time⟩ := all v connected
    have quiet : (s.seg v).isQuiet = true := quiet
    simp only [Segment.isQuiet, Segment.noCarrier, Bool.and_eq_true, Bool.not_eq_true', decide_eq_true_eq] at quiet
    obtain ⟨⟨carrier, phase⟩, -⟩ := quiet
    rcases busy with h | h | h
    · simp [carrier] at h
    · exact h phase
    · exact absurd time (Nat.not_le.2 h)
  show execTransmitClaim dt s = _
  rw [execTransmitClaim, event_of_running run, transmitClaim, if_neg may]
  exact congrArg _ (settle_eq_self rfl rfl fun _ => rfl)

/-- An attempt that completes takes the head frame off and lets the repeater go (R26). -/
theorem transmit_completes {dt : Nat} {b : BufId} {rest : List BufId} {s : State} (run : s.isRunning = true)
    (queue : s.trunk.queue = b :: rest) (holder : s.trunk.holder = .transmitter) :
    ∃ u, exec (.transmitCompletion dt) s = .next u
      ∧ u = { (s.advance dt) with
              bufs := (dropRef b { s with trunk := { s.trunk with queue := rest } }).bufs,
              trunk := { s.trunk with
                segs := u.trunk.segs, holder := .none, truncate := false, onWire := [], queue := rest, attempts := 0,
                counters := { s.trunk.counters with txFrames := bump s.trunk.counters.txFrames } } }
      ∧ ∀ v, u.seg v = { s.seg v with driven := false, quietSince := (u.seg v).quietSince } := by
  have done : transmitCompletion (s.advance dt)
      = (popTrunk (releaseRepeater (s.advance dt))).modTrunkCounters (fun c => { c with txFrames := bump c.txFrames }) :=
    if_pos (show (s.advance dt).trunk.holder = .transmitter from holder)
  rw [popTrunk_cons (s := releaseRepeater (s.advance dt)) queue] at done
  refine ⟨transmitCompletion (s.advance dt), ?_, ?_, fun v => ?_⟩
  · show execTransmitCompletion dt s = _
    rw [execTransmitCompletion, event_of_running run, done]
    exact congrArg _ (settle_eq_self rfl rfl fun _ => rfl)
  · rw [done]; rfl
  · have own : (transmitCompletion (s.advance dt)).seg v = (s.seg v).stopDriving (s.chassis.now + dt) := by
      rw [done]
      exact releaseRepeater_seg (s.advance dt) v
    rw [own, Segment.stopDriving_eq]

/-- Settles O11. -/
theorem transmitterSends : Obligations.TransmitterSends := fun _ _ _ _ run queue =>
  ⟨fun idle still connected quiet => transmit_claimed run queue idle still connected quiet,
    fun _ connected busy => transmit_held_back run connected busy,
    fun holder => transmit_completes run queue holder⟩

/-! ## The 1 ms tick -/

/-- An event that changes nothing in the entries by which a station is reachable leaves nothing for the arbiter to do. -/
theorem settle_of_entries {s u : State} (f : Entry → Entry)
    (hf : ∀ e, (f e).code = e.code ∧ (f e).place = e.place ∧ (f e).inUse = e.inUse)
    (hd : u.dir.entries = s.dir.entries.map f) (h : u.sup.ports = s.sup.ports)
    (hl : ∀ p, (u.starPort p).link = (s.starPort p).link) : settle s u = u := by
  have same : ∀ e, entryReachable u (f e) = entryReachable s e := fun e => by
    obtain ⟨-, hplace, huse⟩ := hf e
    rw [entryReachable, huse, homeConnected_congr h hl, entryReachable]
    simp only [homeConnected, hplace]
  have key : ∀ e, ((f e).code, (f e).starId?) = (e.code, e.starId?) := fun e => by
    obtain ⟨hcode, hplace, -⟩ := hf e
    simp only [Entry.starId?, hcode, hplace]
  have stations : reachableStations s = reachableStations u := by
    simp only [reachableStations, hd, List.filter_map, List.map_map, Function.comp_def, same, key]
  rw [settle, if_pos stations]

/-- The Time Base counts 1000 ms to a second (R208). -/
theorem SecondTicks.count_eq (c : SecondTicks) : c.count =
    if c.ms < 999 then { c with ms := c.ms + 1 }
    else { ms := 0, presenceDue := c.presenceDue + 1, printDue := c.printDue + 1 } := by
  unfold SecondTicks.count
  by_cases h : c.ms < 999
  · rw [if_neg (show ¬ Config.msPerSecond ≤ c.ms + 1 by show ¬ 1000 ≤ c.ms + 1; omega), if_pos h]
  · rw [if_pos (show Config.msPerSecond ≤ c.ms + 1 by show 1000 ≤ c.ms + 1; omega), if_neg h]

/-- The segments after a 1 ms tick, whichever blocks it reaches. -/
theorem oneMillisecondTick_segs (tick : MsTick) (s : State) :
    (oneMillisecondTick tick s).trunk.segs = Vector.ofFn (fun t : SegNo =>
      { s.seg t with
        differing := if tick.reach.channels = false then (s.seg t).differing
          else tick.senses.getLsbD t.val != (s.seg t).unterminated,
        quietCount := if tick.reach.channels = true ∧ relayClosed s t = true ∧ (s.seg t).carrier = false
            ∧ (s.seg t).quietCount < 16
          then (s.seg t).quietCount + 1 else (s.seg t).quietCount,
        current := if (s.seg t).phase = .burst
          then { (s.seg t).current with edges := min ((s.seg t).current.edges + tick.edges[t.val]) 65535 }
          else (s.seg t).current }) := by
  refine Vector.ext fun i hi => ?_
  rw [Vector.getElem_ofFn]
  cases hc : tick.reach.channels
  · simp only [oneMillisecondTick, hc, Bool.false_eq_true, if_false, noteAllEdges, Vector.getElem_mapFinIdx,
      Segment.noteEdges_eq, false_and, if_true]
    rfl
  · simp only [oneMillisecondTick, hc, if_true, channelsMs, noteAllEdges, Vector.getElem_mapFinIdx,
      Segment.noteEdges_eq, Segment.plainMs, Segment.noCarrier, Bool.true_eq_false, if_false, true_and,
      Bool.and_eq_true, Bool.not_eq_true', decide_eq_true_eq, and_assoc]
    rfl

/-- Settles O22. -/
theorem millisecondTickCounts : Obligations.MillisecondTickCounts := by
  intro tick s run
  have whole : oneMillisecondTick tick s = { s with
      chassis := (oneMillisecondTick tick s).chassis, dir := (oneMillisecondTick tick s).dir,
      sup := (oneMillisecondTick tick s).sup,
      trunk := { s.trunk with segs := (oneMillisecondTick tick s).trunk.segs } } := by
    cases hc : tick.reach.channels <;> simp only [oneMillisecondTick, hc] <;> rfl
  have settled : settle s (oneMillisecondTick tick s) = oneMillisecondTick tick s := by
    refine settle_of_entries (fun e => if tick.reach.presence then
      { e with broadcastElapsed := gain 65535 e.broadcastElapsed } else e) ?_ ?_ ?_ ?_
    · intro e
      split <;> exact ⟨rfl, rfl, rfl⟩
    · cases hp : tick.reach.presence <;> simp [oneMillisecondTick, hp, Directory.nextMs]
    · cases hs : tick.reach.supervision <;> simp [oneMillisecondTick, hs]
    · exact fun _ => rfl
  have exec_eq : exec (.oneMillisecondTick tick) s = .next (oneMillisecondTick tick s) := by
    show event _ s = _
    rw [event_of_running run, settled]
  simp only
  rw [exec_eq, whole, oneMillisecondTick_segs]
  congr 2
  · cases ht : tick.reach.timeBase
    · simp [oneMillisecondTick, ht]
    · simp [oneMillisecondTick, ht, Chassis.nextMs, SecondTicks.count_eq, Config.ticksPerMs]
  · cases hp : tick.reach.presence <;> simp [oneMillisecondTick, hp, Directory.nextMs, gain]
  · cases hs : tick.reach.supervision <;> simp [oneMillisecondTick, hs]

end Sys2Proof.Machine
end

