-- ==== Sys2Proof/Proofs/PortMoves.lean ====
section
/-!
What setting a flag leaves of every flag (R192), and what a port that takes a state leaves of the supervision records, the
flags and the segments (R2, R27, R128): the rules by which the proofs about ports go.
-/

namespace Sys2Proof.Machine

/-! ## Flags -/

theorem AlertFlag.is_eq_true {f : AlertFlag} {k : AlertKind} {i : Nat} : f.is k i = true ↔ f.kind = k ∧ f.inst = i := by
  simp [AlertFlag.is]

/-- Flags are looked up in the flag list alone. -/
theorem flagOf_congr {s u : State} (h : u.alerts.flags = s.alerts.flags) (k : AlertKind) (i : Nat) :
    flagOf u k i = flagOf s k i := by
  rw [flagOf, h, flagOf]

/-- A flag that was clear is found after it was put into the list. -/
theorem find?_insertFlag_self {f : AlertFlag} {l : List AlertFlag} {p : AlertFlag → Bool} (hf : p f = true)
    (clear : l.find? p = none) : (insertFlag f l).find? p = some f := by
  induction l with
  | nil => simp [insertFlag, hf]
  | cons x xs ih =>
    obtain ⟨hx, hxs⟩ := List.forall_mem_cons.1 (List.find?_eq_none.1 clear)
    simp only [insertFlag]
    split
    · simp [hf]
    · rw [List.find?_cons_of_neg hx]
      exact ih (List.find?_eq_none.2 hxs)

/-- Every other flag is found as before. -/
theorem find?_insertFlag_ne {f : AlertFlag} {l : List AlertFlag} {p : AlertFlag → Bool} (hf : p f = false) :
    (insertFlag f l).find? p = l.find? p := by
  induction l with
  | nil => simp [insertFlag, hf]
  | cons x xs ih =>
    simp only [insertFlag]
    split
    · rw [List.find?_cons_of_neg (by simpa using hf)]
    · simp only [List.find?_cons, ih]

/-- A flag set from clear joins the list (R192). -/
theorem flags_setFlag_of_clear {k : AlertKind} {i : Nat} {s : State} (clear : flagOf s k i = none) (d : Option Byte) :
    (setFlag k i d s).alerts.flags = insertFlag { kind := k, inst := i, detail := d } s.alerts.flags := by
  simp only [setFlag, clear]
  obtain ⟨a, e, -, hf⟩ := raiseRecord_eq { kind := k, inst := i, detail := d }
    { s with alerts := { s.alerts with flags := insertFlag { kind := k, inst := i, detail := d } s.alerts.flags } }
  rw [e]
  exact hf

/-- A flag already set has its detail replaced, or keeps it (R192). -/
theorem flags_setFlag_of_set {k : AlertKind} {i : Nat} {s : State} {f : AlertFlag} (set : flagOf s k i = some f)
    (d : Option Byte) : (setFlag k i d s).alerts.flags =
      s.alerts.flags.map (fun g => if g.is k i && k.replacesDetail then { g with detail := d } else g) := by
  simp only [setFlag, set]
  cases hk : k.replacesDetail <;> simp

/-- Setting one flag leaves every other as it stands. -/
theorem flagOf_setFlag_ne {k k' : AlertKind} {i i' : Nat} (h : k' ≠ k ∨ i' ≠ i) (d : Option Byte) (s : State) :
    flagOf (setFlag k' i' d s) k i = flagOf s k i := by
  have apart : ∀ g : AlertFlag, g.is k' i' = true → g.is k i = false := fun g hg => by
    rw [← Bool.not_eq_true, AlertFlag.is_eq_true]
    rw [AlertFlag.is_eq_true] at hg
    obtain ⟨rfl, rfl⟩ := hg
    rintro ⟨hk, hi⟩
    exact h.elim (· hk) (· hi)
  unfold flagOf
  cases set : flagOf s k' i' with
  | none =>
    rw [flags_setFlag_of_clear set]
    exact find?_insertFlag_ne (apart _ (AlertFlag.is_eq_true.2 ⟨rfl, rfl⟩))
  | some f =>
    rw [flags_setFlag_of_set set]
    generalize s.alerts.flags = l
    induction l with
    | nil => rfl
    | cons g gs ih =>
      rw [List.map_cons, List.find?_cons, List.find?_cons, ih]
      by_cases hg : g.is k' i' = true
      · cases hk : k'.replacesDetail
        · simp
        · have hn := apart g hg
          simp only [AlertFlag.is] at hn hg
          simp [hg, hn, AlertFlag.is]
      · simp [hg]

/-- A flag that was clear stands with its detail after it was set (R192). -/
theorem flagOf_setFlag_of_clear {k : AlertKind} {i : Nat} {s : State} (clear : flagOf s k i = none) (d : Option Byte) :
    flagOf (setFlag k i d s) k i = some { kind := k, inst := i, detail := d } := by
  rw [flagOf, flags_setFlag_of_clear clear]
  exact find?_insertFlag_self (AlertFlag.is_eq_true.2 ⟨rfl, rfl⟩) clear

/-- A flag that was set stands after it was set again, with its detail replaced for the three kinds of R192. -/
theorem flagOf_setFlag_of_set {k : AlertKind} {i : Nat} {s : State} {f : AlertFlag} (set : flagOf s k i = some f)
    (d : Option Byte) :
    flagOf (setFlag k i d s) k i = some (if k.replacesDetail then { f with detail := d } else f) := by
  have fis : f.is k i = true := List.find?_some (p := fun f : AlertFlag => f.is k i) set
  rw [flagOf, flags_setFlag_of_set set]
  unfold flagOf at set
  generalize s.alerts.flags = l at set
  have same : ∀ g : AlertFlag, (if g.is k i && k.replacesDetail then { g with detail := d } else g).is k i = g.is k i :=
    fun g => by split <;> rfl
  rw [List.find?_map, Function.comp_def]
  simp only [same, set, Option.map_some, fis, Bool.true_and]

/-- A flag just set stands. -/
theorem flagOf_setFlag_self (k : AlertKind) (i : Nat) (d : Option Byte) (s : State) :
    ∃ f, flagOf (setFlag k i d s) k i = some f ∧ (flagOf s k i = none → f.detail = d) := by
  cases set : flagOf s k i with
  | none => exact ⟨_, flagOf_setFlag_of_clear set d, fun _ => rfl⟩
  | some f => exact ⟨_, flagOf_setFlag_of_set set d, fun h => absurd h (by simp)⟩

/-! ## The flags that the Print Arbiter sets -/

/-- A flag that the Print Arbiter never sets. -/
def AlertKind.apartFromPrint (k : AlertKind) : Prop := k ≠ .jobAbandoned ∧ k ≠ .formChange

section
variable {k : AlertKind} (hk : k.apartFromPrint) (i : Nat)

theorem flagOf_of_onlySends {s u : State} (h : OnlySends s u) : flagOf u k i = flagOf s k i :=
  flagOf_congr (by rw [h.alerts]) k i

include hk

theorem flagOf_abandonAndTell (q : QueueNo) (t : Ticket) (s : State) : flagOf (abandonAndTell q t s) k i = flagOf s k i := by
  rw [abandonAndTell, flagOf_of_onlySends i (onlySends_answerRequester _ q t _)]
  simp only [endGrant, if_true]
  rw [flagOf_setFlag_ne (.inl hk.1.symm)]
  have sent : flagOf (sendEnding q (breakPayload (queueByte q) t.byte) s) k i = flagOf s k i :=
    flagOf_of_onlySends i (onlySends_sendEnding q _ s)
  exact sent

theorem flagOf_endLostGrant (q : QueueNo) (s : State) : flagOf (endLostGrant q s) k i = flagOf s k i := by
  unfold endLostGrant
  split
  · rfl
  · split
    · rfl
    · exact flagOf_abandonAndTell hk i _ _ _

theorem flagOf_select (o : Option (QueueNo × Nat)) (q : QueueNo) (s : State) :
    flagOf (select o q s) k i = flagOf s k i := by
  unfold select
  split
  · split
    · unfold grantTicket
      simp only
      split
      · rfl
      · exact (flagOf_of_onlySends i (onlySends_answerRequester _ q _ (State.modPrinter s q _))).trans rfl
    · unfold awaitForm
      split
      · rfl
      · exact flagOf_setFlag_ne (.inl hk.2.symm) _ _
    · rfl
  · rfl

omit hk in
theorem flagOf_clearLostCredit (before : State) (q : QueueNo) (s : State) :
    flagOf (clearLostCredit before q s) k i = flagOf s k i := by
  unfold clearLostCredit
  split <;> rfl

omit hk in
/-- A run of steps that each leave a flag leaves it. -/
theorem flagOf_foldl {α : Type} (f : State → α → State) (hf : ∀ s a, flagOf (f s a) k i = flagOf s k i) (l : List α)
    (s : State) : flagOf (l.foldl f s) k i = flagOf s k i := by
  induction l generalizing s with
  | nil => rfl
  | cons a l ih => rw [List.foldl_cons, ih, hf]

/-- The arbiter's share of an event leaves every flag but its own two kinds. -/
theorem flagOf_settle (before s : State) : flagOf (settle before s) k i = flagOf s k i := by
  unfold settle
  split
  · rfl
  · rw [selectAll, selectFor, flagOf_foldl i _ (fun s q => flagOf_select hk i none q s),
      flagOf_foldl i _ (fun s q => flagOf_endLostGrant hk i q s),
      flagOf_foldl i _ (fun s q => flagOf_clearLostCredit i before q s)]

end

/-! ## Segments that are let go -/

/-- A segment with at most its drive, and with it the time of its quiet, changed. -/
def Segment.DriveOnly (g h : Segment) : Prop := h = { g with driven := h.driven, quietSince := h.quietSince }

theorem Segment.DriveOnly.refl (g : Segment) : g.DriveOnly g := rfl

theorem Segment.DriveOnly.trans {a b c : Segment} (h : a.DriveOnly b) (k : b.DriveOnly c) : a.DriveOnly c := by
  unfold Segment.DriveOnly at *
  rw [h] at k
  exact k

section
variable {g h : Segment} (d : g.DriveOnly h)
include d

theorem Segment.DriveOnly.eq : h = { g with driven := h.driven, quietSince := h.quietSince } := d

theorem Segment.DriveOnly.current : h.current = g.current := by rw [d.eq]
theorem Segment.DriveOnly.previous : h.previous = g.previous := by rw [d.eq]
theorem Segment.DriveOnly.counters : h.counters = g.counters := by rw [d.eq]
theorem Segment.DriveOnly.phase : h.phase = g.phase := by rw [d.eq]
theorem Segment.DriveOnly.carrier : h.carrier = g.carrier := by rw [d.eq]
theorem Segment.DriveOnly.lastFall : h.lastFall = g.lastFall := by rw [d.eq]
theorem Segment.DriveOnly.quietCount : h.quietCount = g.quietCount := by rw [d.eq]
theorem Segment.DriveOnly.unterminated : h.unterminated = g.unterminated := by rw [d.eq]
theorem Segment.DriveOnly.differing : h.differing = g.differing := by rw [d.eq]

end

theorem Segment.driveOnly_stopDriving (now : Nat) (g : Segment) : g.DriveOnly (g.stopDriving now) := by
  unfold Segment.DriveOnly
  rw [Segment.stopDriving_driven]
  exact Segment.stopDriving_eq now g

theorem Segment.driveOnly_releaseRepeater (s : State) (v : SegNo) : (s.seg v).DriveOnly ((releaseRepeater s).seg v) := by
  rw [releaseRepeater_seg]
  exact Segment.driveOnly_stopDriving _ _

theorem Segment.driveOnly_releaseIfHolder (t : SegNo) (s : State) (v : SegNo) :
    (s.seg v).DriveOnly ((releaseIfHolder t s).seg v) := by
  unfold releaseIfHolder
  split
  · exact Segment.driveOnly_releaseRepeater s v
  · exact .refl _

theorem Segment.driveOnly_flushTrunk (s : State) (v : SegNo) : (s.seg v).DriveOnly ((flushTrunk s).seg v) := by
  cases h : trunkDown s with
  | false => rw [flushTrunk_of_up h]; exact .refl _
  | true =>
    rw [flushTrunk_of_down h]
    simp only
    split
    · exact Segment.driveOnly_releaseRepeater _ v
    · exact .refl _

theorem Segment.driveOnly_segLeaves (t : SegNo) (s : State) (v : SegNo) : (s.seg v).DriveOnly ((segLeaves t s).seg v) := by
  refine .trans ?_ (Segment.driveOnly_flushTrunk _ v)
  split
  · exact Segment.driveOnly_releaseRepeater s v
  · rw [State.seg_modSeg]
    split
    · exact Segment.driveOnly_stopDriving _ _
    · exact .refl _

/-- A segment that leaves the connected set changes the trunk and the buffers alone. -/
theorem segLeaves_eq (t : SegNo) (s : State) :
    segLeaves t s = { s with trunk := (segLeaves t s).trunk, bufs := (segLeaves t s).bufs } := by
  have flush : ∀ x : State, flushTrunk x = { x with trunk := (flushTrunk x).trunk, bufs := (flushTrunk x).bufs } := fun x => by
    cases h : trunkDown x with
    | false => rw [flushTrunk_of_up h]
    | true =>
      rw [flushTrunk_of_down h]
      simp only
      split <;> rfl
  unfold segLeaves
  simp only
  split
  · rw [flush]; rfl
  · rw [flush]; rfl

/-! ## A port takes a state -/

/-- A port that takes a state changes its own supervision record, and in it the state alone. -/
theorem sup_setPortState (q : PortNo) (new : SupState) (s : State) :
    (setPortState q new s).sup = (s.modPort q (fun r => { r with state := new })).sup := by
  rcases port_cases q with ⟨t, rfl⟩ | ⟨p, rfl⟩
  · rw [setPortState_portOfSeg]
    simp only
    split
    · rw [segLeaves_eq]; rfl
    · rfl
  · rw [setPortState_portOfStar]
    simp only
    split
    · rw [flushStar, dropRefs_eq]; rfl
    · rfl

theorem port_setPortState (q r : PortNo) (new : SupState) (s : State) :
    (setPortState q new s).port r = if r = q then { s.port r with state := new } else s.port r := by
  simp only [State.port, sup_setPortState]
  exact State.port_modPort s q r _

/-- A port that takes a state sets no flag and raises no record. -/
theorem alerts_setPortState (q : PortNo) (new : SupState) (s : State) : (setPortState q new s).alerts = s.alerts := by
  rcases port_cases q with ⟨t, rfl⟩ | ⟨p, rfl⟩
  · rw [setPortState_portOfSeg]
    simp only
    split
    · rw [segLeaves_eq]; rfl
    · rfl
  · rw [setPortState_portOfStar]
    simp only
    split
    · rw [flushStar, dropRefs_eq]; rfl
    · rfl

/-- A segment after its port took a state: its relay moved, and it may have been let go. -/
theorem seg_setPortState_self (t : SegNo) (new : SupState) (s : State) :
    ((s.seg t).relayMoved (s.port (portOfSeg t)).state new s.chassis.now).DriveOnly
      ((setPortState (portOfSeg t) new s).seg t) := by
  rw [setPortState_portOfSeg]
  simp only
  split
  · refine .trans ?_ (Segment.driveOnly_segLeaves t _ t)
    rw [State.seg_modSeg_self]
    exact .refl _
  · rw [State.seg_modSeg_self]
    exact .refl _

/-- A segment after another port took a state: it may have been let go. -/
theorem seg_setPortState_ne {q : PortNo} {v : SegNo} (h : q ≠ portOfSeg v) (new : SupState) (s : State) :
    (s.seg v).DriveOnly ((setPortState q new s).seg v) := by
  rcases port_cases q with ⟨t, rfl⟩ | ⟨p, rfl⟩
  · rw [setPortState_portOfSeg]
    have hv : v ≠ t := fun e => h (by rw [e])
    simp only
    split
    · refine .trans ?_ (Segment.driveOnly_segLeaves t _ v)
      rw [State.seg_modSeg_ne _ _ hv]
      exact .refl _
    · rw [State.seg_modSeg_ne _ _ hv]
      exact .refl _
  · rw [setPortState_portOfStar]
    simp only
    split
    · rw [flushStar, dropRefs_eq]; exact .refl _
    · exact .refl _

/-! ## Isolation -/

/-- The record of a port that is isolated (R128). -/
def PortRec.afterIsolation (r : PortRec) : PortRec :=
  let k := min (r.k + 1) 6
  { r with
    state := .isolated, k := k, holdLength := r.current.baseHold * 2 ^ (k - 1),
    holdRemaining := r.current.baseHold * 2 ^ (k - 1), probationRemaining := 0, clean := 0, isolations := bump r.isolations }

theorem port_isolatePort (q r : PortNo) (s : State) :
    (isolatePort q s).port r = if r = q then (s.port r).afterIsolation else s.port r := by
  rw [isolatePort, (arbiterOnly_setFlag _ _ _ _).port, port_setPortState, State.port_modPort]
  split <;> rfl

theorem seg_isolatePort_self (t : SegNo) (s : State) :
    ((s.seg t).relayMoved (s.port (portOfSeg t)).state .isolated s.chassis.now).DriveOnly
      ((isolatePort (portOfSeg t) s).seg t) := by
  rw [isolatePort, (arbiterOnly_setFlag _ _ _ _).seg]
  refine .trans ?_ (seg_setPortState_self t .isolated _)
  rw [State.port_modPort_self]
  exact .refl _

theorem seg_isolatePort_ne {t v : SegNo} (h : v ≠ t) (s : State) :
    (s.seg v).DriveOnly ((isolatePort (portOfSeg t) s).seg v) := by
  rw [isolatePort, (arbiterOnly_setFlag _ _ _ _).seg]
  exact seg_setPortState_ne (fun e => h (portOfSeg_inj.1 e).symm) .isolated _

/-- Isolation sets PORT_ISOLATED alone. -/
theorem flagOf_isolatePort {k : AlertKind} (hk : k ≠ .portIsolated) (i : Nat) (q : PortNo) (s : State) :
    flagOf (isolatePort q s) k i = flagOf s k i := by
  rw [isolatePort, flagOf_setFlag_ne (.inl hk.symm)]
  exact flagOf_congr (by rw [alerts_setPortState]; rfl) k i

theorem PortRec.triggerable_iff (r : PortRec) :
    r.triggerable = true ↔ (r.state = .active ∨ r.state = .probation) ∧ r.exempt = false := by
  simp [PortRec.triggerable]

end Sys2Proof.Machine
end

