-- ==== Sys2Proof/Proofs/Triggers.lean ====
section
/-!
The two events of a segment that may isolate it at once: the jabber cut (R15, R113) and the terminator edge (R4, R5, R118).
-/

namespace Sys2Proof.Machine

/-- A segment whose relay opens: a burst in progress is abandoned, and what came to an end before stands (R2). -/
theorem Segment.relayMoved_isolated {old : SupState} (h : old.listens = true) (now : Nat) (g : Segment) :
    g.relayMoved old .isolated now = g.relayOpened now := by
  rw [Segment.relayMoved, h]
  rfl

theorem Segment.relayOpened_counters (now : Nat) (g : Segment) : (g.relayOpened now).counters = g.counters := by
  simp only [Segment.relayOpened, Segment.settleBusy_eq]

theorem Segment.relayOpened_unterminated (now : Nat) (g : Segment) : (g.relayOpened now).unterminated = g.unterminated := by
  simp only [Segment.relayOpened, Segment.settleBusy_eq]

theorem Segment.relayOpened_differing (now : Nat) (g : Segment) : (g.relayOpened now).differing = g.differing := by
  simp only [Segment.relayOpened, Segment.settleBusy_eq]

theorem Segment.relayOpened_current {g : Segment} (h : g.phase ≠ .burst) (now : Nat) :
    (g.relayOpened now).current = g.current := by
  simp only [Segment.relayOpened, if_neg h]

/-- A port whose state lets a trigger isolate it hears. -/
theorem SupState.listens_of_trigger {x : SupState} (h : x = .active ∨ x = .probation) : x.listens = true := by
  rcases h with rfl | rfl <;> rfl

@[simp] theorem releaseIfHolder_port (t : SegNo) (s : State) (q : PortNo) : (releaseIfHolder t s).port q = s.port q := by
  unfold releaseIfHolder
  split <;> rfl

theorem channelOnly_releaseIfHolder (t : SegNo) (s : State) : ChannelOnly s (releaseIfHolder t s) := by
  unfold releaseIfHolder
  split
  · exact channelOnly_releaseRepeater s
  · exact .refl s

/-! ## The jabber cut -/

/-- The record of a JABBER event: the score is lifted to the isolate threshold (R113). -/
def PortRec.lifted (r : PortRec) : PortRec := { r with score := max r.score r.current.isolate }

/-- The segment whose burst is cut at its jabber limit (R15). -/
def Segment.cut (edges : Nat) (g : Segment) : Segment :=
  let g1 := g.addEdges edges
  { g1 with
    phase := .continuation, collided := false, decoder := Decoder.initial, counters := g.counters.count .jabber,
    current := { g1.current with
      fall := g.current.rise + BitVec.ofNat 16 g.jabberAtRise, len := BitVec.ofNat 16 g.jabberAtRise,
      cls := .jabber, cause := none } }

/-- The clock at a jabber cut stands at the limit of the burst, or past it. -/
def State.atJabber (t : SegNo) (s : State) : State :=
  { s with chassis := { s.chassis with now := max s.chassis.now ((s.seg t).riseAt + (s.seg t).jabberAtRise) } }

/-- The cut of a burst before the Supervision Unit takes its event (R15, R22). -/
def burstCut (t : SegNo) (edges : Nat) (s : State) : State :=
  releaseIfHolder t ((s.atJabber t).modSeg t (Segment.cut edges))

theorem jabberCut_of_burst {t : SegNo} {edges : Nat} {s : State} (h : (s.seg t).phase = .burst) :
    jabberCut t edges s = jabberEvent (portOfSeg t) (burstCut t edges s) := if_pos h

/-- The JABBER event, by whether a trigger may isolate the port (R113). -/
theorem jabberEvent_eq (q : PortNo) (s : State) :
    jabberEvent q s = if ((s.port q).state = .active ∨ (s.port q).state = .probation) ∧ (s.port q).exempt = false
      then isolatePort q (s.modPort q PortRec.lifted) else s.modPort q PortRec.lifted := by
  unfold jabberEvent
  refine if_congr ?_ rfl rfl
  rw [PortRec.triggerable_iff, State.port_modPort_self]

/-- The segment stands cut, whatever becomes of the repeater. -/
theorem driveOnly_burstCut (t : SegNo) (edges : Nat) (s : State) :
    ((s.seg t).cut edges).DriveOnly ((burstCut t edges s).seg t) := by
  have h := Segment.driveOnly_releaseIfHolder t ((s.atJabber t).modSeg t (Segment.cut edges)) t
  rw [State.seg_modSeg_self] at h
  exact h

theorem channelOnly_burstCut (t : SegNo) (edges : Nat) (s : State) : ChannelOnly (s.atJabber t) (burstCut t edges s) :=
  (channelOnly_modSeg t _ _).trans (channelOnly_releaseIfHolder t _)

/-- The supervision records after the event: the score is lifted, and a port that a trigger may isolate is. -/
theorem port_jabberEvent (q r : PortNo) (s : State) :
    (jabberEvent q s).port r = if r = q then
        (if ((s.port q).state = .active ∨ (s.port q).state = .probation) ∧ (s.port q).exempt = false
          then (s.port q).lifted.afterIsolation else (s.port q).lifted)
      else s.port r := by
  rw [jabberEvent_eq]
  by_cases hr : r = q
  · subst hr
    simp only [if_true]
    split
    · rw [port_isolatePort, if_pos rfl, State.port_modPort_self]
    · rw [State.port_modPort_self]
  · simp only [if_neg hr]
    split
    · rw [port_isolatePort, if_neg hr, State.port_modPort_ne _ _ hr]
    · rw [State.port_modPort_ne _ _ hr]

/-- The segment after the event: its relay opens where the port is isolated. -/
theorem seg_jabberEvent (t : SegNo) (s : State) :
    (if ((s.port (portOfSeg t)).state = .active ∨ (s.port (portOfSeg t)).state = .probation)
        ∧ (s.port (portOfSeg t)).exempt = false
      then (s.seg t).relayOpened s.chassis.now else s.seg t).DriveOnly ((jabberEvent (portOfSeg t) s).seg t) := by
  rw [jabberEvent_eq]
  split
  · next h =>
    have opened := seg_isolatePort_self t (s.modPort (portOfSeg t) PortRec.lifted)
    rw [State.port_modPort_self, Segment.relayMoved_isolated (old := (s.port (portOfSeg t)).lifted.state) (SupState.listens_of_trigger h.1)] at opened
    exact opened
  · exact .refl _

/-- Settles O8. -/
theorem jabberIsCut : Obligations.JabberIsCut := by
  intro t edges s run phase
  have ran : exec (.jabberCut t edges) s = .next (settle s (jabberEvent (portOfSeg t) (burstCut t edges s))) := by
    show event _ s = _
    rw [event_of_running run, jabberCut_of_burst phase]
  have share := arbiterOnly_settle s (jabberEvent (portOfSeg t) (burstCut t edges s))
  have cut := driveOnly_burstCut t edges s
  have record : (burstCut t edges s).port = s.port := funext fun q => releaseIfHolder_port t _ q
  have port := fun r => port_jabberEvent (portOfSeg t) r (burstCut t edges s)
  have seg := seg_jabberEvent t (burstCut t edges s)
  have frame : ChannelOnly (s.atJabber t) (settle s (jabberEvent (portOfSeg t) (burstCut t edges s))) :=
    ((channelOnly_burstCut t edges s).trans (channelOnly_jabberEvent _ _)).trans share.channel
  simp only [← share.port, record] at port
  rw [← share.seg, record] at seg
  simp only
  have clock : (settle s (jabberEvent (portOfSeg t) (burstCut t edges s))).chassis = (s.atJabber t).chassis :=
    ((channelOnly_iff _ _).1 frame).2.1
  have current : ((settle s (jabberEvent (portOfSeg t) (burstCut t edges s))).seg t).current = ((s.seg t).cut edges).current := by
    rw [seg.current]
    split
    · rw [Segment.relayOpened_current (by rw [cut.phase]; show LinePhase.continuation ≠ .burst; decide), cut.current]
    · exact cut.current
  have counters : ((settle s (jabberEvent (portOfSeg t) (burstCut t edges s))).seg t).counters
      = (s.seg t).counters.count .jabber := by
    rw [seg.counters]
    split
    · rw [Segment.relayOpened_counters, cut.counters]; rfl
    · rw [cut.counters]; rfl
  refine ⟨_, ran, ?_, ?_, ?_, ?_, ?_, fun v => ?_, fun v => ?_, fun q hq => ?_, ?_⟩
  · rw [current]; rfl
  · rw [current]; rfl
  · rw [current]; rfl
  · rw [counters]; rfl
  · rw [port, if_pos rfl]
    split <;> rfl
  · rw [port, if_pos rfl, if_pos v, seg.phase, if_pos v]
    exact ⟨rfl, rfl⟩
  · rw [port, if_pos rfl, if_neg v, seg.phase, if_neg v, cut.phase]
    exact ⟨rfl, rfl⟩
  · rw [port, if_neg hq]
  · rw [clock]
    have same : s.atJabber t = s.advance ((s.atJabber t).chassis.now - s.chassis.now) := by
      simp only [State.atJabber, State.advance]
      congr 2
      omega
    rw [← same]
    exact frame

/-! ## The terminator edge -/

/-- The recorded level of a segment's terminator turns over (R4). -/
def terminatorTurned (t : SegNo) (s : State) : State :=
  s.modSeg t (fun g => { g with unterminated := !(s.seg t).unterminated, differing := false })

/-- An edge that its segment's plan ignores (R5). -/
def edgeIgnored (t : SegNo) (s : State) : Prop :=
  ((!(s.seg t).unterminated) = true ∧ s.segPlans[t.val].loss = .ignore)
    ∨ ((!(s.seg t).unterminated) = false ∧ s.segPlans[t.val].ret = .ignore)

/-- The TERMINATOR flag with the detail of an edge. -/
def terminatorFlagged (t : SegNo) (s : State) : State :=
  setFlag .terminator t.val (some (if (!(s.seg t).unterminated) = true then 1#8 else 2#8)) (terminatorTurned t s)

/-- An edge in OFF, or one that is ignored, turns the level over and does nothing else (R5). -/
theorem terminatorEdge_ignored {t : SegNo} {s : State} (d : (s.seg t).differing = true)
    (h : (s.port (portOfSeg t)).state = .off ∨ edgeIgnored t s) : terminatorEdge t s = terminatorTurned t s := by
  simp only [terminatorEdge, d, Bool.not_true, Bool.false_eq_true, if_false]
  split
  · rfl
  · next on =>
    rcases h.resolve_left on with ⟨l, e⟩ | ⟨l, e⟩
    · rw [if_pos l, e]
      rfl
    · rw [if_neg (by simp [l]), e]
      rfl

/-- Any other edge sets TERMINATOR, and under ISOLATE a LOSS is a trigger (R5, R118). -/
theorem terminatorEdge_acts {t : SegNo} {s : State} (d : (s.seg t).differing = true)
    (on : (s.port (portOfSeg t)).state ≠ .off) (h : ¬ edgeIgnored t s) :
    terminatorEdge t s =
      if (!(s.seg t).unterminated) = true ∧ s.segPlans[t.val].loss = .isolate
      then terminatorTrigger (portOfSeg t) (terminatorFlagged t s) else terminatorFlagged t s := by
  simp only [terminatorEdge, d, Bool.not_true, Bool.false_eq_true, if_false, if_neg on, terminatorFlagged]
  by_cases l : (!(s.seg t).unterminated) = true
  · rw [if_pos l, if_pos l]
    cases hp : s.segPlans[t.val].loss with
    | ignore => exact absurd (Or.inl ⟨l, hp⟩) h
    | report => exact (if_neg (fun k => absurd k.2 (by decide))).symm
    | isolate => exact (if_pos ⟨l, rfl⟩).symm
  · rw [if_neg l, if_neg l, if_neg (fun k => l k.1)]
    cases hp : s.segPlans[t.val].ret with
    | ignore => exact absurd (Or.inr ⟨by simpa using l, hp⟩) h
    | report => rfl

/-- What the relay of a segment does leaves its terminator's level. -/
theorem seg_terminatorTrigger (t : SegNo) (s : State) :
    ((terminatorTrigger (portOfSeg t) s).seg t).unterminated = (s.seg t).unterminated
      ∧ ((terminatorTrigger (portOfSeg t) s).seg t).differing = (s.seg t).differing := by
  unfold terminatorTrigger
  split
  · next h =>
    have moved := seg_isolatePort_self t s
    rw [Segment.relayMoved_isolated (SupState.listens_of_trigger ((PortRec.triggerable_iff _).1 h).1)] at moved
    exact ⟨moved.unterminated.trans (Segment.relayOpened_unterminated _ _),
      moved.differing.trans (Segment.relayOpened_differing _ _)⟩
  · exact ⟨rfl, rfl⟩

/-- A trigger leaves every other port, and every flag but PORT_ISOLATED. -/
theorem port_terminatorTrigger (q r : PortNo) (s : State) :
    (terminatorTrigger q s).port r = if r = q ∧ (s.port q).triggerable = true then (s.port r).afterIsolation else s.port r := by
  unfold terminatorTrigger
  by_cases h : (s.port q).triggerable = true
  · rw [if_pos h, port_isolatePort]
    simp only [h, and_true]
  · rw [if_neg h, if_neg (fun k => h k.2)]

theorem flagOf_terminatorTrigger {k : AlertKind} (hk : k ≠ .portIsolated) (i : Nat) (q : PortNo) (s : State) :
    flagOf (terminatorTrigger q s) k i = flagOf s k i := by
  unfold terminatorTrigger
  split
  · exact flagOf_isolatePort hk i q s
  · rfl

/-- The level turned over, wherever the edge leads. -/
theorem seg_terminatorEdge {t : SegNo} {s : State} (d : (s.seg t).differing = true) :
    ((terminatorEdge t s).seg t).unterminated = (!(s.seg t).unterminated)
      ∧ ((terminatorEdge t s).seg t).differing = false := by
  have turned : (terminatorTurned t s).seg t = { s.seg t with unterminated := !(s.seg t).unterminated, differing := false } :=
    State.seg_modSeg_self _ _ _
  have flagged : (terminatorFlagged t s).seg t = (terminatorTurned t s).seg t := (arbiterOnly_setFlag _ _ _ _).seg t
  by_cases h : (s.port (portOfSeg t)).state = .off ∨ edgeIgnored t s
  · rw [terminatorEdge_ignored d h, turned]
    exact ⟨rfl, rfl⟩
  · obtain ⟨on, acts⟩ := not_or.1 h
    rw [terminatorEdge_acts d on acts]
    split
    · obtain ⟨hu, hd⟩ := seg_terminatorTrigger t (terminatorFlagged t s)
      rw [hu, hd, flagged, turned]
      exact ⟨rfl, rfl⟩
    · rw [flagged, turned]
      exact ⟨rfl, rfl⟩

theorem port_terminatorFlagged (t : SegNo) (s : State) (q : PortNo) : (terminatorFlagged t s).port q = s.port q :=
  (arbiterOnly_setFlag _ _ _ _).port q

theorem channelOnly_terminatorFlagged (t : SegNo) (s : State) : ChannelOnly s (terminatorFlagged t s) :=
  (channelOnly_modSeg t _ s).trans (channelOnly_setFlag _ _ _ _)

theorem channelOnly_terminatorEdge {t : SegNo} {s : State} (d : (s.seg t).differing = true) :
    ChannelOnly s (terminatorEdge t s) := by
  by_cases h : (s.port (portOfSeg t)).state = .off ∨ edgeIgnored t s
  · rw [terminatorEdge_ignored d h]
    exact channelOnly_modSeg t _ s
  · obtain ⟨on, acts⟩ := not_or.1 h
    rw [terminatorEdge_acts d on acts]
    split
    · exact (channelOnly_terminatorFlagged t s).trans (channelOnly_terminatorTrigger _ _)
    · exact channelOnly_terminatorFlagged t s

/-- Settles O10. -/
theorem terminatorEdgeActs : Obligations.TerminatorEdgeActs := by
  intro t s run d
  have ran : exec (.terminatorEdge t) s = .next (settle s (terminatorEdge t s)) := event_of_running run
  have share := arbiterOnly_settle s (terminatorEdge t s)
  obtain ⟨level, sampled⟩ := seg_terminatorEdge d
  have apart : AlertKind.terminator.apartFromPrint := ⟨by decide, by decide⟩
  simp only
  refine ⟨_, ran, ?_, ?_, fun still => ?_, fun on acts => ?_, fun lost plan state exempt => ?_, fun quiet => ?_,
    fun q hq => ?_, (channelOnly_terminatorEdge d).trans share.channel⟩
  · rw [share.seg, level]
  · rw [share.seg, sampled]
  · rw [terminatorEdge_ignored d still]
    exact settle_eq_self rfl rfl fun _ => rfl
  · rw [flagOf_settle apart, terminatorEdge_acts d on acts]
    have flagged := flagOf_setFlag_self .terminator t.val (some (if (!(s.seg t).unterminated) = true then 1#8 else 2#8))
      (terminatorTurned t s)
    split
    · rw [flagOf_terminatorTrigger (by decide)]
      exact flagged
    · exact flagged
  · have on : (s.port (portOfSeg t)).state ≠ .off := by rcases state with e | e <;> rw [e] <;> decide
    have acts : ¬ edgeIgnored t s := by simp [edgeIgnored, lost, plan]
    rw [share.port, terminatorEdge_acts d on acts, if_pos ⟨lost, plan⟩, port_terminatorTrigger, port_terminatorFlagged,
      if_pos ⟨rfl, (PortRec.triggerable_iff _).2 ⟨state, exempt⟩⟩]
    rfl
  · rw [share.sup]
    by_cases h : (s.port (portOfSeg t)).state = .off ∨ edgeIgnored t s
    · rw [terminatorEdge_ignored d h]; rfl
    · obtain ⟨on, acts⟩ := not_or.1 h
      rw [terminatorEdge_acts d on acts, if_neg (by rintro ⟨l, p⟩; rcases quiet with e | e; exacts [by simp [l] at e, e p])]
      exact (arbiterOnly_setFlag _ _ _ _).sup
  · rw [share.port]
    by_cases h : (s.port (portOfSeg t)).state = .off ∨ edgeIgnored t s
    · rw [terminatorEdge_ignored d h]; rfl
    · obtain ⟨on, acts⟩ := not_or.1 h
      rw [terminatorEdge_acts d on acts]
      split
      · rw [port_terminatorTrigger, if_neg (fun k => hq k.1), port_terminatorFlagged]
      · exact port_terminatorFlagged t s q

end Sys2Proof.Machine
end

