-- ==== Sys2Proof/Proofs/Headers.lean ====
section
/-!
The header event (R7, R23, R103, R104): the entry under a code after it was changed, the strike, the truncation, and the
decision of the repeater's holder.
-/

namespace Sys2Proof.Machine

/-! ## The entry under a code -/

theorem findEntry_code {s : State} {c : DeskCode} {e : Entry} (h : findEntry s c = some e) : e.code = c := by
  simpa using List.find?_some (p := fun x : Entry => x.code == c) h

/-- The entry under a code, after it was changed, is the change of what it was. -/
theorem findEntry_modEntry_self (s : State) (c : DeskCode) (f : Entry → Entry) (hf : ∀ e, (f e).code = e.code) :
    findEntry (s.modEntry c f) c = (findEntry s c).map f := by
  have code : ∀ e : Entry, (if e.code = c then f e else e).code = e.code := fun e => by
    split
    · exact hf e
    · rfl
  simp only [findEntry, State.modEntry, List.find?_map, Function.comp_def, code]
  refine Option.map_congr fun e he => if_pos ?_
  simpa using List.find?_some (p := fun x : Entry => x.code == c) he

/-! ## The strike (R103, R104) -/

/-- An entry that earned a strike. -/
def Entry.struck (e : Entry) : Entry := { e with strikes := gain 31 e.strikes }

/-- A strike before it is judged. -/
def struck (c : DeskCode) (s : State) : State :=
  (s.modEntry c Entry.struck).modPresence (fun p => { p with strikes := bump p.strikes })

/-- An entry that is suspended for BABBLE. -/
def Entry.babbling (quarantine : Nat) (e : Entry) : Entry := { e with state := .suspended (.timed .babble quarantine) }

/-- A strike that suspends the entry for BABBLE. -/
def babbled (c : DeskCode) (s : State) : State :=
  (setFlag .quarantine 0 (some c) ((struck c s).modEntry c (Entry.babbling s.office.quarantine))).modPresence
    (fun p => { p with babbleSuspensions := bump p.babbleSuspensions })

theorem babbled_dir (c : DeskCode) (s : State) : (babbled c s).dir =
    { ((struck c s).modEntry c (Entry.babbling s.office.quarantine)).dir with
      counters := { (struck c s).dir.counters with babbleSuspensions := bump s.dir.counters.babbleSuspensions } } := by
  rw [babbled, State.modPresence, (arbiterOnly_setFlag _ _ _ _).dir]
  rfl

theorem findEntry_struck {c : DeskCode} {s : State} {e : Entry} (h : findEntry s c = some e) :
    findEntry (struck c s) c = some e.struck := by
  show findEntry (s.modEntry c Entry.struck) c = _
  rw [findEntry_modEntry_self s c Entry.struck fun _ => rfl, h]
  rfl

/-- A strike of an entry in use, by whether it reaches the babble limit of a commissioned bridge. -/
theorem strike_eq {c : DeskCode} {s : State} {e : Entry} (h : findEntry s c = some e) (use : e.inUse = true) :
    strike c s = if s.ctl.commissioned = true ∧ s.office.babbleLimit ≤ min (e.strikes + 1) 31
      then babbled c s else struck c s := by
  have found := findEntry_struck h
  have takes : e.struck.takesTimed = true := by
    unfold Entry.inUse at use
    show e.takesTimed = true
    unfold Entry.takesTimed
    cases hs : e.state <;> simp_all
  have suspended : suspendTimed .babble c (struck c s) =
      setFlag .quarantine 0 (some c) ((struck c s).modEntry c (Entry.babbling s.office.quarantine)) := by
    simp only [suspendTimed, found, takes, if_true]
    rfl
  show (match findEntry (struck c s) c with
    | none => struck c s
    | some x => if s.ctl.commissioned && decide (s.office.babbleLimit ≤ x.strikes) && x.takesTimed then
        (suspendTimed .babble c (struck c s)).modPresence (fun p => { p with babbleSuspensions := bump p.babbleSuspensions })
      else struck c s) = _
  simp only [found, takes, suspended, Bool.and_true, Bool.and_eq_true, decide_eq_true_eq]
  rfl

/-- A strike changes the directory and, where it suspends, the flags. -/
theorem strike_frame {c : DeskCode} {s : State} {e : Entry} (h : findEntry s c = some e) (use : e.inUse = true) :
    strike c s = { s with dir := (strike c s).dir, alerts := (strike c s).alerts } ∧ (strike c s).dir.pool = s.dir.pool := by
  rw [strike_eq h use]
  split
  · obtain ⟨a, ha, -⟩ := setFlag_eq .quarantine 0 (some c)
      ((struck c s).modEntry c (Entry.babbling s.office.quarantine))
    rw [babbled, ha]
    exact ⟨rfl, rfl⟩
  · exact ⟨rfl, rfl⟩

/-- The entry, the counters and the flag after a strike. -/
theorem strike_result {c : DeskCode} {s : State} {e : Entry} (h : findEntry s c = some e) (use : e.inUse = true) :
    let babble := s.ctl.commissioned = true ∧ s.office.babbleLimit ≤ min (e.strikes + 1) 31
    findEntry (strike c s) c = some { e with
        strikes := min (e.strikes + 1) 31,
        state := if babble then .suspended (.timed .babble s.office.quarantine) else e.state }
      ∧ (strike c s).dir.counters = { s.dir.counters with
          strikes := bump s.dir.counters.strikes,
          babbleSuspensions := if babble then bump s.dir.counters.babbleSuspensions else s.dir.counters.babbleSuspensions }
      ∧ (babble → (flagOf (strike c s) .quarantine 0).map AlertFlag.detail = some (some c)) := by
  simp only
  rw [strike_eq h use]
  split
  · next hb =>
    refine ⟨?_, ?_, fun _ => ?_⟩
    · rw [findEntry_congr (s := (struck c s).modEntry c (Entry.babbling s.office.quarantine)) (by rw [babbled_dir]),
        findEntry_modEntry_self _ c (Entry.babbling s.office.quarantine) fun _ => rfl, findEntry_struck h]
      rfl
    · rw [babbled_dir]
      rfl
    · show (flagOf (setFlag .quarantine 0 (some c) ((struck c s).modEntry c (Entry.babbling s.office.quarantine)))
        .quarantine 0).map AlertFlag.detail = _
      generalize (struck c s).modEntry c (Entry.babbling s.office.quarantine) = x
      cases set : flagOf x .quarantine 0 with
      | none => rw [flagOf_setFlag_of_clear set]; rfl
      | some f => rw [flagOf_setFlag_of_set set]; rfl
  · next hb =>
    exact ⟨findEntry_struck h, rfl, fun k => absurd k hb⟩

/-! ## The truncation (R23) -/

/-- A truncation changes the trunk alone, and in it neither the holder nor the queue. -/
theorem truncateBurst_eq (t : SegNo) (s : State) :
    truncateBurst t s = { s with trunk := { s.trunk with segs := (truncateBurst t s).trunk.segs, truncate := true } } := rfl

theorem truncateBurst_seg (t v : SegNo) (s : State) :
    (truncateBurst t s).seg v =
      if v = t then
        { (s.seg v).stopDriving s.chassis.now with
          current := { (s.seg v).current with truncated := true },
          counters := { (s.seg v).counters with truncated := bump (s.seg v).counters.truncated } }
      else (s.seg v).stopDriving s.chassis.now := by
  have stopped : ∀ w, (stopAllDriving s).seg w = (s.seg w).stopDriving s.chassis.now := fun w => State.seg_mapSegs s _ w
  show ((stopAllDriving s).modSeg t _).seg v = _
  rw [State.seg_modSeg, stopped]
  have e := Segment.driveOnly_stopDriving s.chassis.now (s.seg v)
  split
  · rw [e.current, e.counters]
  · rfl

/-- What a truncation leaves, the arbiter's share included. -/
theorem truncation_stands {t : SegNo} {s u : State} (share : ArbiterOnly (truncateBurst t s) u) :
    u.trunk.truncate = true ∧ NothingDriven u ∧ (u.seg t).current.truncated = true
      ∧ (u.seg t).counters.truncated = bump (s.seg t).counters.truncated := by
  have trunk := ((arbiterOnly_iff _ _).1 share).2.2.2.2.2.2.2.2.2.2.1
  refine ⟨by rw [trunk]; rfl, fun v => ?_, ?_, ?_⟩
  · rw [share.seg, truncateBurst_seg]
    split <;> exact Segment.stopDriving_driven _ _
  · rw [share.seg, truncateBurst_seg, if_pos rfl]
  · rw [share.seg, truncateBurst_seg, if_pos rfl]

theorem trafficOnly_truncateBurst (t : SegNo) (s : State) : TrafficOnly s (truncateBurst t s) := rfl

/-! ## The decision -/

/-- The decision, by the entry of the source (R23). -/
theorem headerDecision_of_none {t : SegNo} {dst src : DeskCode} {s : State} (h : findEntry s src = none) :
    headerDecision t dst src s = s := by
  simp only [headerDecision, h]

theorem headerDecision_of_suspended {t : SegNo} {dst src : DeskCode} {s : State} {e : Entry} (h : findEntry s src = some e)
    (susp : e.isSuspended = true) : headerDecision t dst src s = truncateBurst t s := by
  simp only [headerDecision, h, susp, if_true]

theorem Entry.not_suspended_of_inUse {e : Entry} (h : e.inUse = true) : e.isSuspended = false := by
  unfold Entry.inUse at h
  unfold Entry.isSuspended
  cases hs : e.state <;> simp_all

theorem headerDecision_of_broadcast {t : SegNo} {dst src : DeskCode} {s : State} {e : Entry} (h : findEntry s src = some e)
    (use : e.inUse = true) (all : dst = 0#8) :
    headerDecision t dst src s = if e.broadcastElapsed < s.office.minSpacing then truncateBurst t (strike e.code s)
      else s.modEntry e.code (Entry.accepted s.office.forgiveness) := by
  simp only [headerDecision, h, Entry.not_suspended_of_inUse use, use, all, applyWindow, isEarly, decide_true, Bool.and_self,
    if_true, Bool.false_eq_true, if_false]
  by_cases early : e.broadcastElapsed < s.office.minSpacing
  · simp only [early, decide_true, if_true]
  · simp only [early, decide_false, Bool.false_eq_true, if_false]

theorem headerDecision_of_other {t : SegNo} {dst src : DeskCode} {s : State} {e : Entry} (h : findEntry s src = some e)
    (susp : e.isSuspended = false) (other : dst ≠ 0#8 ∨ e.state = .absent) : headerDecision t dst src s = s := by
  have no : (decide (dst = 0#8) && e.inUse) = false := by
    rcases other with hd | ha
    · simp [hd]
    · simp [Entry.inUse, ha]
  simp only [headerDecision, h, susp, no, Bool.false_eq_true, if_false]

/-- The decision changes the trunk, the entries, the counters of the Presence Monitor and the flags. -/
theorem headerDecision_frame (t : SegNo) (dst src : DeskCode) (s : State) :
    headerDecision t dst src s = { s with
        trunk := (headerDecision t dst src s).trunk, dir := (headerDecision t dst src s).dir,
        alerts := (headerDecision t dst src s).alerts }
      ∧ (headerDecision t dst src s).dir.pool = s.dir.pool := by
  cases found : findEntry s src with
  | none => rw [headerDecision_of_none found]; exact ⟨rfl, rfl⟩
  | some e =>
    have byCode : findEntry s e.code = some e := by rw [findEntry_code found]; exact found
    cases susp : e.isSuspended with
    | true => rw [headerDecision_of_suspended found susp]; exact ⟨rfl, rfl⟩
    | false =>
      by_cases broadcast : e.inUse = true ∧ dst = 0#8
      · rw [headerDecision_of_broadcast found broadcast.1 broadcast.2]
        split
        · obtain ⟨frame, pool⟩ := strike_frame byCode broadcast.1
          refine ⟨?_, pool⟩
          rw [truncateBurst_eq, frame]
        · exact ⟨rfl, rfl⟩
      · have other : dst ≠ 0#8 ∨ e.state = .absent := by
          by_cases hd : dst = 0#8
          · refine .inr ?_
            unfold Entry.isSuspended at susp
            unfold Entry.inUse at broadcast
            cases hs : e.state <;> simp_all
          · exact .inl hd
        rw [headerDecision_of_other found susp other]
        exact ⟨rfl, rfl⟩

theorem trafficOnly_headerDecision (t : SegNo) (dst src : DeskCode) (s : State) :
    TrafficOnly s (headerDecision t dst src s) := by
  unfold headerDecision
  split
  · exact .refl s
  · next e _ =>
    split
    · exact trafficOnly_truncateBurst t s
    · split
      · have window := trafficOnly_applyWindow e s
        split
        · next h => rw [h] at window; exact window.trans (trafficOnly_truncateBurst t _)
        · next h => rw [h] at window; exact window
      · exact .refl s

/-- The state in which the decision is taken: the holder's decoder has taken the bits. -/
def heard (t : SegNo) (dt : Nat) (cells : List Bool) (s : State) : State :=
  (s.advance dt).modSeg t (fun g => { g with decoder := g.decoder.feed cells })

/-- A header event of the holder comes to a decision where the header passes, and changes the decoder alone where not. -/
theorem feedDecoder_of_holder {t : SegNo} {dt : Nat} {cells : List Bool} {s : State} (holder : s.trunk.holder = .segment t)
    (header : (s.seg t).decoder.header = none) :
    feedDecoder t cells (s.advance dt) =
      if ((s.seg t).decoder.feed cells).header = some true then
        headerDecision t (byteAt ((s.seg t).decoder.feed cells).store 0) (byteAt ((s.seg t).decoder.feed cells).store 1)
          (heard t dt cells s)
      else heard t dt cells s := by
  have fed : ((heard t dt cells s).seg t).decoder = (s.seg t).decoder.feed cells :=
    congrArg Segment.decoder (State.seg_modSeg_self _ _ _)
  show (if (s.seg t).decoder.header = none ∧ ((s.seg t).decoder.feed cells).header ≠ none
    then headerEvent t (heard t dt cells s) else heard t dt cells s) = _
  by_cases pass : ((s.seg t).decoder.feed cells).header = some true
  · rw [if_pos ⟨header, by simp [pass]⟩, if_pos pass, headerEvent, fed, if_pos ⟨pass, holder⟩]
  · rw [if_neg pass]
    split
    · rw [headerEvent, fed, if_neg (fun k => pass k.1)]
    · rfl

end Sys2Proof.Machine

namespace Sys2Proof
open Machine

/-- Settles O6, by the entry of the source and the time since its last broadcast. -/
theorem headerDecision : Obligations.HeaderDecision := by
  intro t dt cells s run phase holder header
  have ran : exec (.headerEvent t dt cells) s = .next (settle s (feedDecoder t cells (s.advance dt))) := by
    have event_eq : exec (.headerEvent t dt cells) s = execHeaderEvent t dt cells s := rfl
    rw [event_eq, execHeaderEvent, event_of_running run, if_pos phase]
  have unheard : settle s (heard t dt cells s) = heard t dt cells s := settle_eq_self rfl rfl fun _ => rfl
  rw [feedDecoder_of_holder holder header] at ran
  refine ⟨fun quiet => ?_, fun e pass found => ?_⟩
  · rw [ran]
    split
    · next pass =>
      have absent : findEntry (heard t dt cells s) (byteAt ((s.seg t).decoder.feed cells).store 1) = none :=
        quiet.resolve_left (· pass)
      rw [headerDecision_of_none absent]
      exact congrArg _ unheard
    · exact congrArg _ unheard
  · rw [if_pos pass] at ran
    have code := findEntry_code found
    have foundThere : findEntry (heard t dt cells s) (byteAt ((s.seg t).decoder.feed cells).store 1) = some e := found
    have foundByCode : findEntry (heard t dt cells s) e.code = some e := by rw [code]; exact found
    have counters : ∀ v, ((heard t dt cells s).seg v).counters = (s.seg v).counters := fun v => by
      rw [heard, State.seg_modSeg]
      split <;> rfl
    rw [ran]
    obtain ⟨frame, pool⟩ := headerDecision_frame t (byteAt ((s.seg t).decoder.feed cells).store 0)
      (byteAt ((s.seg t).decoder.feed cells).store 1) (heard t dt cells s)
    have traffic := trafficOnly_headerDecision t (byteAt ((s.seg t).decoder.feed cells).store 0)
      (byteAt ((s.seg t).decoder.feed cells).store 1) (heard t dt cells s)
    generalize hd : Machine.headerDecision t (byteAt ((s.seg t).decoder.feed cells).store 0)
      (byteAt ((s.seg t).decoder.feed cells).store 1) (heard t dt cells s) = x
    rw [hd] at frame pool traffic
    have share := arbiterOnly_settle s x
    refine ⟨_, rfl, fun susp => ?_, fun use all early => ?_, fun use all late => ?_, fun susp other => ?_, ?_, ?_, ?_, ?_, ?_⟩
    · rw [headerDecision_of_suspended foundThere susp] at hd
      subst hd
      obtain ⟨truncate, still, marked, counted⟩ := truncation_stands share
      refine ⟨truncate, still, marked, counted.trans (by rw [counters]), share.dir, ?_⟩
      rw [((arbiterOnly_iff _ _).1 share).2.2.2.2.2.2.2.2.2.2.1]
      exact holder
    · rw [headerDecision_of_broadcast foundThere use all, if_pos (show e.broadcastElapsed < (heard t dt cells s).office.minSpacing from early)] at hd
      subst hd
      obtain ⟨struckFrame, -⟩ := strike_frame foundByCode use
      obtain ⟨entry, counts, flag⟩ := strike_result foundByCode use
      obtain ⟨truncate, still, marked, counted⟩ := truncation_stands share
      refine ⟨truncate, still, marked, ?_, ?_, ?_, fun babble => ?_⟩
      · rw [counted, struckFrame]
        exact congrArg _ (congrArg SegCounters.truncated (counters t))
      · exact (findEntry_congr (congrArg Directory.entries share.dir) _).trans entry
      · rw [share.dir]
        exact counts
      · rw [flagOf_settle ⟨by decide, by decide⟩]
        exact flag babble
    · rw [headerDecision_of_broadcast foundThere use all,
        if_neg (show ¬ e.broadcastElapsed < (heard t dt cells s).office.minSpacing from Nat.not_lt.2 late)] at hd
      subst hd
      refine ⟨?_, ?_⟩
      · rw [((arbiterOnly_iff _ _).1 share).2.2.2.2.2.2.2.2.2.2.1]
        rfl
      · rw [findEntry_congr (congrArg Directory.entries share.dir),
          findEntry_modEntry_self _ _ (Entry.accepted _) fun _ => rfl, foundByCode]
        rfl
    · rw [headerDecision_of_other foundThere susp other] at hd
      subst hd
      exact unheard
    · exact (show TrafficOnly s (heard t dt cells s) from rfl).trans (traffic.trans share.traffic)
    · rw [share.sup, frame]; rfl
    · rw [share.inputs, frame]; rfl
    · rw [share.drops, frame]; rfl
    · rw [share.dir, pool]; rfl

end Sys2Proof
end

