-- ==== Sys2Proof/Proofs/Bridged.lean ====
section
/-!
What bridging a trunk frame leaves of the channels: the supervision records stand, and of the trunk only its queue and its
counters change. And what handing on a burst that has ended leaves of every segment, of the other ports and of a repeater
that has been released.
-/

namespace Sys2Proof.Machine

/-! ## Traffic leaves the channels -/

/-- The supervision records stand, and the trunk but for its transmit queue and its counters. -/
def ChannelsStand (s u : State) : Prop :=
  u.sup = s.sup ∧ u.trunk = { s.trunk with queue := u.trunk.queue, counters := u.trunk.counters }

theorem ChannelsStand.refl (s : State) : ChannelsStand s s := ⟨rfl, rfl⟩

theorem ChannelsStand.trans {s t u : State} (h : ChannelsStand s t) (k : ChannelsStand t u) : ChannelsStand s u := by
  obtain ⟨h1, h2⟩ := h
  obtain ⟨k1, k2⟩ := k
  rw [h2] at k2
  exact ⟨k1.trans h1, k2⟩

/-- A change elsewhere in the state. -/
theorem ChannelsStand.of_eq {s u : State} (hs : u.sup = s.sup) (ht : u.trunk = s.trunk) : ChannelsStand s u :=
  ⟨hs, by rw [ht]⟩

theorem ArbiterOnly.channelsStand {s u : State} (h : ArbiterOnly s u) : ChannelsStand s u :=
  ⟨h.sup, ((arbiterOnly_iff s u).1 h).2.2.2.2.2.2.2.2.2.2.1⟩

theorem OnlySends.channelsStand {s u : State} (h : OnlySends s u) : ChannelsStand s u := h.arbiter.channelsStand

theorem channelsStand_setFlag (k : AlertKind) (i : Nat) (d : Option Byte) (s : State) : ChannelsStand s (setFlag k i d s) :=
  (arbiterOnly_setFlag k i d s).channelsStand

theorem channelsStand_modEntry (c : DeskCode) (f : Entry → Entry) (s : State) : ChannelsStand s (s.modEntry c f) :=
  .of_eq rfl rfl

theorem channelsStand_addEntry (e : Entry) (s : State) : ChannelsStand s (s.addEntry e) := .of_eq rfl rfl

theorem channelsStand_dropEntry (c : DeskCode) (s : State) : ChannelsStand s (s.dropEntry c) := .of_eq rfl rfl

theorem channelsStand_modDrops (q : PortNo) (f : Drops → Drops) (s : State) : ChannelsStand s (s.modDrops q f) :=
  .of_eq rfl rfl

theorem channelsStand_suspendTimed (r : TimedReason) (c : DeskCode) (s : State) : ChannelsStand s (suspendTimed r c s) := by
  unfold suspendTimed
  split
  · exact .refl s
  · split
    · exact (channelsStand_modEntry c _ s).trans (channelsStand_setFlag _ _ _ _)
    · exact .refl s

theorem channelsStand_removeKeepingCode (m : TellMode) (c : DeskCode) (s : State) :
    ChannelsStand s (removeKeepingCode m c s) :=
  (arbiterOnly_removeTicketsOf m c s).channelsStand.trans (channelsStand_dropEntry c _)

theorem channelsStand_displaceProxy (c : DeskCode) (s : State) : ChannelsStand s (displaceProxy c s) := by
  unfold displaceProxy
  split
  · unfold renumber
    split
    · exact .refl s
    · exact .of_eq rfl rfl
  · exact (channelsStand_setFlag _ _ _ s).trans (channelsStand_removeKeepingCode _ _ _)

theorem channelsStand_moveEntry (c : DeskCode) (h : SegNo ⊕ StarNo) (s : State) : ChannelsStand s (moveEntry c h s) := by
  unfold moveEntry
  simp only
  split
  · exact channelsStand_modEntry _ _ _
  · split
    · exact (channelsStand_modEntry c _ s).trans (channelsStand_suspendTimed _ _ _)
    · exact (channelsStand_modEntry c _ s).trans (channelsStand_modEntry _ _ _)

/-- Learning from a trunk frame leaves the channels. -/
theorem channelsStand_learnTrunk (t : SegNo) (c : DeskCode) (s : State) : ChannelsStand s (learnTrunk t c s).2 := by
  unfold learnTrunk
  split
  · exact channelsStand_addEntry _ _
  · split
    · split
      · exact .refl s
      · split
        · exact channelsStand_modEntry _ _ _
        · split
          · exact channelsStand_moveEntry _ _ _
          · exact channelsStand_suspendTimed _ _ _
    · exact ((channelsStand_setFlag _ _ _ s).trans (channelsStand_displaceProxy _ _)).trans (channelsStand_addEntry _ _)
    · exact channelsStand_setFlag _ _ _ s

theorem channelsStand_dispatch (b : BufId) (kind : Byte) (r : Route) (q : PortNo) (s : State) :
    ChannelsStand s (dispatch b kind r q s) := by
  unfold dispatch offerControl offerPrint
  split
  · split <;> exact .of_eq rfl rfl
  · split
    · split <;> exact .of_eq rfl rfl
    · split
      · exact .refl s
      · exact channelsStand_modDrops _ _ _

theorem channelsStand_placeTrunk (t : SegNo) (f : TrunkRx) (b : BufId) (s : State) : ChannelsStand s (placeTrunk t f b s) := by
  unfold placeTrunk
  simp only
  split
  · split
    · exact (onlySends_setStarAddr _ _ _ s).channelsStand.trans (onlySends_offerStars _ b _).channelsStand
    · exact .refl s
  · split
    · exact channelsStand_dispatch _ _ _ _ _
    · split
      · split
        · split
          · exact (onlySends_setStarAddr _ _ _ s).channelsStand.trans (onlySends_offerStar _ _ _).channelsStand
          · exact channelsStand_modDrops _ _ _
        · exact .refl s
      · split
        · exact channelsStand_modDrops _ _ _
        · exact .refl s

theorem channelsStand_decideTrunk (t : SegNo) (tr : Bool) (f : TrunkRx) (b : BufId) (s : State) :
    ChannelsStand s (decideTrunk t tr f b s) := by
  unfold decideTrunk
  simp only
  split
  · exact channelsStand_modDrops _ _ _
  · split
    · split
      · exact channelsStand_dispatch _ _ _ _ _
      · exact .refl s
    · have learned := channelsStand_learnTrunk t f.src s
      split
      · next h => rw [h] at learned; exact learned.trans (channelsStand_modDrops _ _ _)
      · next h =>
        rw [h] at learned
        split
        · split
          · exact learned.trans (channelsStand_dispatch _ _ _ _ _)
          · exact learned.trans (channelsStand_modDrops _ _ _)
        · exact learned.trans (channelsStand_placeTrunk _ _ _ _)

/-- The bridging event of a good trunk frame leaves the channels. -/
theorem channelsStand_bridgeTrunk (t : SegNo) (tr : Bool) (f : TrunkRx) (s : State) :
    ChannelsStand s (bridgeTrunk t tr f s).2 := by
  unfold bridgeTrunk
  split
  · exact channelsStand_modDrops _ _ _
  · next h => exact (onlySends_takeBuf h).channelsStand.trans (channelsStand_decideTrunk _ _ _ _ _)

/-! ## A released repeater stays released -/

/-- The repeater is released: it has no holder, drives nothing and has no truncate mark (R22). -/
def RepeaterReleased (s : State) : Prop := s.trunk.holder = .none ∧ NothingDriven s ∧ s.trunk.truncate = false

theorem repeaterReleased_releaseRepeater (s : State) : RepeaterReleased (releaseRepeater s) :=
  ⟨rfl, nothingDriven_releaseRepeater s, rfl⟩

theorem RepeaterReleased.flushTrunk {s : State} (h : RepeaterReleased s) : RepeaterReleased (flushTrunk s) := by
  obtain ⟨idle, still, truncate⟩ := h
  cases down : trunkDown s with
  | false => rw [flushTrunk_of_up down]; exact ⟨idle, still, truncate⟩
  | true =>
    rw [flushTrunk_of_down down]
    simp only [idle, if_neg (show Holder.none ≠ .transmitter by decide)]
    exact ⟨rfl, still, truncate⟩

theorem RepeaterReleased.segLeaves {s : State} (h : RepeaterReleased s) (t : SegNo) : RepeaterReleased (segLeaves t s) := by
  obtain ⟨idle, still, truncate⟩ := h
  unfold Machine.segLeaves
  simp only
  split
  · exact (repeaterReleased_releaseRepeater s).flushTrunk
  · refine RepeaterReleased.flushTrunk ⟨idle, fun v => ?_, truncate⟩
    rw [State.seg_modSeg]
    split
    · exact Segment.stopDriving_driven _ _
    · exact still v

theorem Segment.relayMoved_driven (old new : SupState) (now : Nat) (g : Segment) :
    (g.relayMoved old new now).driven = g.driven := by
  unfold Segment.relayMoved
  split
  · simp only [Segment.relayOpened, Segment.settleBusy_eq]
  · split <;> rfl

theorem RepeaterReleased.setPortState {s : State} (h : RepeaterReleased s) (t : SegNo) (new : SupState) :
    RepeaterReleased (setPortState (portOfSeg t) new s) := by
  have moved : RepeaterReleased ((s.modPort (portOfSeg t) (fun r => { r with state := new })).modSeg t
      (Segment.relayMoved (s.port (portOfSeg t)).state new s.chassis.now)) := by
    obtain ⟨idle, still, truncate⟩ := h
    refine ⟨idle, fun v => ?_, truncate⟩
    rw [State.seg_modSeg]
    split
    · rw [Segment.relayMoved_driven]; exact still v
    · exact still v
  rw [setPortState_portOfSeg]
  simp only
  split
  · exact moved.segLeaves t
  · exact moved

theorem RepeaterReleased.of_channelsStand {s u : State} (h : RepeaterReleased s) (k : ChannelsStand s u) :
    RepeaterReleased u := by
  obtain ⟨idle, still, truncate⟩ := h
  obtain ⟨-, trunk⟩ := k
  refine ⟨by rw [trunk]; exact idle, fun v => ?_, by rw [trunk]; exact truncate⟩
  rw [State.seg, trunk]
  exact still v

/-! ## What handing on a burst leaves -/

/-- Every segment stands but for its drive, every other port's record stands, and a released repeater stays released. -/
def BurstStands (t : SegNo) (s u : State) : Prop :=
  (∀ v, (s.seg v).DriveOnly (u.seg v)) ∧ (∀ q, q ≠ portOfSeg t → u.port q = s.port q)
    ∧ (RepeaterReleased s → RepeaterReleased u)

theorem BurstStands.trans {t : SegNo} {s x u : State} (h : BurstStands t s x) (k : BurstStands t x u) :
    BurstStands t s u := by
  obtain ⟨hs, hp, hr⟩ := h
  obtain ⟨ks, kp, kr⟩ := k
  exact ⟨fun v => (hs v).trans (ks v), fun q hq => (kp q hq).trans (hp q hq), fun r => kr (hr r)⟩

theorem ChannelsStand.burstStands {s u : State} (h : ChannelsStand s u) (t : SegNo) : BurstStands t s u := by
  refine ⟨fun v => ?_, fun q _ => by rw [State.port, h.1, State.port], fun r => r.of_channelsStand h⟩
  rw [State.seg, State.seg, h.2]
  exact .refl _

theorem burstStands_modPort (t : SegNo) (f : PortRec → PortRec) (s : State) :
    BurstStands t s (s.modPort (portOfSeg t) f) :=
  ⟨fun _ => .refl _, fun _ hq => State.port_modPort_ne _ _ hq, fun r => r⟩

/-- A segment whose burst is over: its channel is quiet, with no mark and no bits of the burst left. -/
def Segment.BurstOver (g : Segment) : Prop := g.phase = .quiet ∧ g.collided = false ∧ g.decoder = Decoder.initial

/-- The opening of the relay finds nothing to end on a segment whose burst is over (R2). -/
theorem Segment.BurstOver.relayOpened {g : Segment} (h : g.BurstOver) (now : Nat) : g.relayOpened now = g := by
  obtain ⟨phase, collided, decoder⟩ := h
  have quiet : g.inCarrier = false := by rw [Segment.inCarrier, phase]; rfl
  cases g
  simp only at phase collided decoder
  subst phase collided decoder
  simp only [Segment.relayOpened, Segment.settleBusy, quiet]
  rfl

theorem RepeaterReleased.isolatePort {s : State} (h : RepeaterReleased s) (t : SegNo) :
    RepeaterReleased (isolatePort (portOfSeg t) s) := by
  rw [Machine.isolatePort]
  exact RepeaterReleased.of_channelsStand (RepeaterReleased.setPortState (s := State.modPort s _ _) h t .isolated)
    (channelsStand_setFlag _ _ _ _)

/-- The isolation of a segment that heard a burst which is over. -/
theorem burstStands_isolatePort {t : SegNo} {s : State} (hears : (s.port (portOfSeg t)).state.listens = true)
    (ended : (s.seg t).BurstOver) : BurstStands t s (isolatePort (portOfSeg t) s) := by
  refine ⟨fun v => ?_, fun q hq => by rw [port_isolatePort, if_neg hq], fun r => r.isolatePort t⟩
  by_cases hv : v = t
  · subst hv
    have moved := seg_isolatePort_self v s
    rw [Segment.relayMoved_isolated hears, ended.relayOpened] at moved
    exact moved
  · exact seg_isolatePort_ne hv _

/-- A fault event of a segment whose burst is over. -/
theorem burstStands_faultEvent (k : FaultKind) {t : SegNo} {s : State} (ended : (s.seg t).BurstOver) :
    BurstStands t s (faultEvent k (portOfSeg t) s) := by
  have counted := burstStands_modPort t (PortRec.count k) s
  unfold faultEvent
  simp only
  split
  · next h =>
    have trigger := (PortRec.triggerable_iff _).1 (Bool.and_eq_true_iff.1 h).1
    exact counted.trans (burstStands_isolatePort (SupState.listens_of_trigger trigger.1) ended)
  · exact counted

/-- Whatever the class of a burst, handing it on leaves what `BurstStands` names. -/
theorem burstStands_handOn {t : SegNo} (c : BurstClass) (d : Decoder) (truncated : Bool) {s : State}
    (ended : (s.seg t).BurstOver) : BurstStands t s (handOn t c d truncated s).2 := by
  have refl : BurstStands t s s := (ChannelsStand.refl s).burstStands t
  cases c with
  | runt => exact burstStands_faultEvent .runt ended
  | garble => exact burstStands_faultEvent .garble ended
  | check =>
    refine (burstStands_faultEvent .check ended).trans ?_
    simp only [handOn, attributeBurst]
    split
    · split
      · exact ((channelsStand_modEntry _ _ _).burstStands t).trans (burstStands_modPort t _ _)
      · exact (ChannelsStand.refl _).burstStands t
    · exact (ChannelsStand.refl _).burstStands t
  | good =>
    have counted : BurstStands t s (goodEvent (portOfSeg t) s) := burstStands_modPort t _ s
    simp only [handOn]
    split
    · split
      · exact counted.trans ((channelsStand_bridgeTrunk _ _ _ _).burstStands t)
      · exact counted
    · exact counted
  | none => exact refl
  | inProgress => exact refl
  | jabber => exact refl
  | abandoned => exact refl

/-- Handing on a burst is traffic. -/
theorem trafficOnly_handOn (t : SegNo) (c : BurstClass) (d : Decoder) (truncated : Bool) (s : State) :
    TrafficOnly s (handOn t c d truncated s).2 := by
  cases c with
  | runt => exact (channelOnly_faultEvent .runt _ s).traffic
  | garble => exact (channelOnly_faultEvent .garble _ s).traffic
  | check =>
    refine (channelOnly_faultEvent .check (portOfSeg t) s).traffic.trans ?_
    simp only [handOn, attributeBurst]
    split
    · split
      · exact trafficOnly_chargeFault _ _ _
      · exact .refl _
    · exact .refl _
  | good =>
    have counted : TrafficOnly s (goodEvent (portOfSeg t) s) := (channelOnly_goodEvent _ s).traffic
    simp only [handOn]
    split
    · split
      · exact counted.trans (trafficOnly_bridgeTrunk _ _ _ _)
      · exact counted
    · exact counted
  | none => exact .refl s
  | inProgress => exact .refl s
  | jabber => exact .refl s
  | abandoned => exact .refl s

end Sys2Proof.Machine
end

