-- ==== Sys2Proof/Proofs/Falls.lean ====
section
/-!
The fall of a burst (R13, R14, R17, R18, R22): the class and the record with which it closes, and the obligation about it.
-/

namespace Sys2Proof.Machine

/-! ## The class -/

/-- The first test of Table 1-4 that holds for a burst that ends by its fall. -/
theorem classify_fst (collided : Bool) (limit len edges : Nat) (decoded : Bool) :
    (classify collided limit len edges decoded).1 =
      if collided then .garble
      else if len < limit then .runt
      else if edges < len / 2 ∨ 2 * (len / 2) + 2 < edges then .garble
      else if decoded then .good else .check := by
  unfold classify
  split
  · rfl
  · split
    · rfl
    · split
      · rfl
      · split <;> rfl

/-- The cause is that of a GARBLE, and tells a collision from a bad code. -/
theorem classify_snd (collided : Bool) (limit len edges : Nat) (decoded : Bool) :
    (classify collided limit len edges decoded).2 =
      if (classify collided limit len edges decoded).1 = .garble
      then some (if collided then .collision else .code) else none := by
  cases collided
  · simp only [classify, Bool.false_eq_true, if_false]
    split
    · rfl
    · split
      · rfl
      · split <;> rfl
  · rfl

/-- Each class counts in its own counter. -/
theorem SegCounters.count_classify (k : SegCounters) (collided : Bool) (limit len edges : Nat) (decoded : Bool) :
    let c := (classify collided limit len edges decoded).1
    k.count c = { k with
      runt := if c = .runt then bump k.runt else k.runt,
      garble := if c = .garble then bump k.garble else k.garble,
      check := if c = .check then bump k.check else k.check,
      good := if c = .good then bump k.good else k.good } := by
  simp only [classify_fst]
  split
  · rfl
  · split
    · rfl
    · split
      · rfl
      · split <;> rfl

/-! ## The fall -/

/-- The class of a burst that falls at `now`, with the transitions and the bits that its fall reports. -/
def Segment.fallClass (now edges : Nat) (cells : List Bool) (g : Segment) : BurstClass × Option GarbleCause :=
  classify g.collided g.runtAtRise (g.burstLen now) (min (g.current.edges + edges) 65535)
    (g.decoder.feed cells).verdict.isSome

/-- A segment after the fall of its burst, before the result is handed on. -/
def Segment.fallen (now edges : Nat) (cells : List Bool) (g : Segment) : Segment :=
  (Segment.addEdges edges { g with carrier := false, decoder := g.decoder.feed cells }).closeCapture now
    (g.fallClass now edges cells)

/-- The state after the fall, before the repeater is released and the result handed on. -/
def fallen (t : SegNo) (dt edges : Nat) (cells : List Bool) (s : State) : State :=
  (s.advance dt).modSeg t (Segment.fallen (s.chassis.now + dt) edges cells)

/-- Bits that do not complete the header go to the decoder alone (R7). -/
theorem feedDecoder_of_no_event {t : SegNo} {cells : List Bool} {s : State}
    (h : (s.seg t).decoder.header ≠ none ∨ ((s.seg t).decoder.feed cells).header = none) :
    feedDecoder t cells s = s.modSeg t (fun g => { g with decoder := g.decoder.feed cells }) := by
  unfold feedDecoder
  exact if_neg fun k => h.elim (· k.1) (k.2 ·)

/-- A burst that falls before its jabber limit ends there (R14, R15). -/
theorem burstFall_before_limit {t : SegNo} {dt edges : Nat} {cells : List Bool} {s : State}
    (phase : (s.seg t).phase = .burst) (early : s.chassis.now + dt < (s.seg t).riseAt + (s.seg t).jabberAtRise) :
    burstFall t dt edges cells s = endBurst t edges (feedDecoder t cells (s.advance dt)) := by
  unfold burstFall
  simp only
  rw [if_pos phase]
  exact if_neg (Nat.not_le.2 early)

/-- The segment whose carrier has fallen, with the last bits in its decoder. -/
def Segment.lastBits (cells : List Bool) (g : Segment) : Segment :=
  { g with carrier := false, decoder := g.decoder.feed cells }

/-- The end of a burst whose last bits are in: it is closed, the repeater released and the result handed on (R13 to R17). -/
theorem endBurst_lastBits (t : SegNo) (dt edges : Nat) (cells : List Bool) (s : State) :
    endBurst t edges ((s.advance dt).modSeg t (Segment.lastBits cells)) =
      handOn t ((s.seg t).fallClass (s.chassis.now + dt) edges cells).1 ((s.seg t).decoder.feed cells)
        (s.seg t).current.truncated (releaseIfHolder t (fallen t dt edges cells s)) := by
  have seg : ((s.advance dt).modSeg t (Segment.lastBits cells)).seg t = (s.seg t).lastBits cells :=
    State.seg_modSeg_self _ _ _
  unfold endBurst
  simp only
  rw [seg]
  exact congrArg (fun x => handOn t _ _ _ (releaseIfHolder t x)) (State.modSeg_modSeg (s.advance dt) t _ _)

/-- The fall of a burst before its jabber limit, with bits that do not complete the header. -/
theorem burstFall_of_burst {t : SegNo} {dt edges : Nat} {cells : List Bool} {s : State} (phase : (s.seg t).phase = .burst)
    (early : s.chassis.now + dt < (s.seg t).riseAt + (s.seg t).jabberAtRise)
    (quiet : (s.seg t).decoder.header ≠ none ∨ ((s.seg t).decoder.feed cells).header = none) :
    burstFall t dt edges cells (carrierFalls t .burst s) =
      handOn t ((s.seg t).fallClass (s.chassis.now + dt) edges cells).1 ((s.seg t).decoder.feed cells)
        (s.seg t).current.truncated (releaseIfHolder t (fallen t dt edges cells s)) := by
  rw [carrierFalls_of_phase phase]
  generalize hx : s.modSeg t (fun g => { g with carrier := false }) = x
  have low : x.seg t = { s.seg t with carrier := false } := by rw [← hx]; exact State.seg_modSeg_self _ _ _
  have now : x.chassis = s.chassis := by rw [← hx]; rfl
  have fed : feedDecoder t cells (x.advance dt) = (s.advance dt).modSeg t (Segment.lastBits cells) := by
    have lowThen : (x.advance dt).seg t = { s.seg t with carrier := false } := low
    rw [feedDecoder_of_no_event (by rw [lowThen]; exact quiet), ← hx]
    exact State.modSeg_modSeg (s.advance dt) t _ _
  rw [burstFall_before_limit (by rw [low]; exact phase) (by rw [low, now]; exact early), fed, endBurst_lastBits]

/-- The busy time of a segment is settled whatever its carrier. -/
theorem Segment.fallen_eq (now edges : Nat) (cells : List Bool) (g : Segment) :
    let c := g.fallClass now edges cells
    let fall := BitVec.ofNat 16 (now - 4)
    g.fallen now edges cells = { g.settleBusy now with
      carrier := false, phase := .quiet, lastFall := fall, quietCount := 0, quietSince := now, collided := false,
      decoder := Decoder.initial, counters := g.counters.count c.1,
      current := { g.current with
        fall := fall, len := fall - g.current.rise, edges := min (g.current.edges + edges) 65535, cls := c.1,
        cause := c.2 } } := by
  simp only [Segment.fallen, Segment.closeCapture, Segment.addEdges, Segment.settleBusy_eq]
  rfl

/-- The class of the burst that has fallen, as Table 1-4 tests it. -/
theorem Segment.fallClass_fst (now edges : Nat) (cells : List Bool) (g : Segment) :
    let len := (BitVec.ofNat 16 (now - 4) - g.current.rise).toNat
    let n := min (g.current.edges + edges) 65535
    (g.fallClass now edges cells).1 =
      if g.collided then .garble
      else if len < g.runtAtRise then .runt
      else if n < len / 2 ∨ 2 * (len / 2) + 2 < n then .garble
      else if (g.decoder.feed cells).verdict = none then .check
      else .good := by
  have decoded : (if (g.decoder.feed cells).verdict.isSome = true then BurstClass.good else .check)
      = if (g.decoder.feed cells).verdict = none then .check else .good := by
    cases (g.decoder.feed cells).verdict <;> rfl
  simp only
  rw [Segment.fallClass, classify_fst, decoded]
  rfl

/-- The state after the fall, with the counters and the cause told by the class. -/
theorem fallen_eq (t : SegNo) (dt edges : Nat) (cells : List Bool) (s : State) :
    let c := ((s.seg t).fallClass (s.chassis.now + dt) edges cells).1
    let fall := BitVec.ofNat 16 (s.chassis.now + dt - 4)
    fallen t dt edges cells s = (s.advance dt).modSeg t (fun x => { x.settleBusy (s.chassis.now + dt) with
      carrier := false, phase := .quiet, lastFall := fall, quietCount := 0, quietSince := s.chassis.now + dt,
      collided := false, decoder := Decoder.initial,
      current := { (s.seg t).current with
        fall := fall, len := fall - (s.seg t).current.rise, edges := min ((s.seg t).current.edges + edges) 65535, cls := c,
        cause := if c = .garble then some (if (s.seg t).collided then .collision else .code) else none },
      counters := { x.counters with
        runt := if c = .runt then bump x.counters.runt else x.counters.runt,
        garble := if c = .garble then bump x.counters.garble else x.counters.garble,
        check := if c = .check then bump x.counters.check else x.counters.check,
        good := if c = .good then bump x.counters.good else x.counters.good } }) := by
  refine State.modSeg_congr (s := s.advance dt) ?_
  have cause := classify_snd (s.seg t).collided (s.seg t).runtAtRise ((s.seg t).burstLen (s.chassis.now + dt))
    (min ((s.seg t).current.edges + edges) 65535) ((s.seg t).decoder.feed cells).verdict.isSome
  have count := SegCounters.count_classify (s.seg t).counters (s.seg t).collided (s.seg t).runtAtRise
    ((s.seg t).burstLen (s.chassis.now + dt)) (min ((s.seg t).current.edges + edges) 65535)
    ((s.seg t).decoder.feed cells).verdict.isSome
  have whole := Segment.fallen_eq (s.chassis.now + dt) edges cells (s.seg t)
  simp only at whole count
  rw [show (s.seg t).counters.count ((s.seg t).fallClass (s.chassis.now + dt) edges cells).1 = _ from count,
    show ((s.seg t).fallClass (s.chassis.now + dt) edges cells).2 = _ from cause] at whole
  exact whole

/-! ## Handing on -/

/-- An event that changes no state of a port, no entry and no link leaves nothing for the arbiter to do. -/
theorem settle_of_states {s u : State} (hd : u.dir.entries = s.dir.entries) (h : ∀ q, (u.port q).state = (s.port q).state)
    (hl : ∀ p, (u.starPort p).link = (s.starPort p).link) : settle s u = u := by
  have homes : homeConnected u = homeConnected s := by
    funext e
    simp only [homeConnected, segConnected, starConnected, h, hl]
  have stations : reachableStations s = reachableStations u := by
    simp only [reachableStations, hd]
    congr 2
    funext e
    rw [entryReachable, entryReachable, homes]
  rw [settle, if_pos stations]

/-- A CHECK burst whose header passed is attributed to the entry of its source (R18). -/
theorem attributeBurst_of_entry {t : SegNo} {d : Decoder} {s : State} {e : Entry} (pass : d.header = some true)
    (found : findEntry s (byteAt d.store 1) = some e) : attributeBurst t d s = chargeFault (portOfSeg t) e.code s := by
  simp only [attributeBurst, pass, if_true, found]

theorem attributeBurst_of_none {t : SegNo} {d : Decoder} {s : State}
    (h : d.header ≠ some true ∨ findEntry s (byteAt d.store 1) = none) : attributeBurst t d s = s := by
  unfold attributeBurst
  split
  · next pass => rw [h.resolve_left (· pass)]
  · rfl

theorem handOn_check (t : SegNo) (d : Decoder) (truncated : Bool) (s : State) :
    handOn t .check d truncated s = (none, attributeBurst t d (faultEvent .check (portOfSeg t) s)) := rfl

/-- A GOOD burst counts and, on a connected segment, its frame is bridged (R17, R18). -/
theorem handOn_good {t : SegNo} {d : Decoder} {truncated : Bool} {s : State} {f : TrunkRx} (decoded : d.verdict = some f) :
    handOn t .good d truncated s =
      if segConnected s t = true then bridgeTrunk t truncated f (goodEvent (portOfSeg t) s)
      else (none, goodEvent (portOfSeg t) s) := by
  have connected : segConnected (goodEvent (portOfSeg t) s) t = segConnected s t := by
    rw [segConnected, goodEvent, State.port_modPort_self]
    rfl
  simp only [handOn, decoded, connected]

/-- The share of the arbiter and the release of a buffer leave what `BurstStands` names. -/
theorem burstStands_end (t : SegNo) (b : Option BufId) (before s : State) :
    BurstStands t s (endHold b (settle before s)) :=
  ((arbiterOnly_settle before s).channelsStand.burstStands t).trans ((onlySends_endHold b _).channelsStand.burstStands t)

/-! ## The obligation -/

/-- The state that a fall leaves before the result is handed on: the burst closed and the repeater released. -/
def fallClosed (t : SegNo) (dt edges : Nat) (cells : List Bool) (s : State) : State :=
  releaseIfHolder t (fallen t dt edges cells s)

/-- A fall before the jabber limit, with bits that do not complete the header, as a command of a running part. -/
theorem exec_burstFall {t : SegNo} {dt edges : Nat} {cells : List Bool} {s : State} (run : s.isRunning = true)
    (phase : (s.seg t).phase = .burst) (early : s.chassis.now + dt < (s.seg t).riseAt + (s.seg t).jabberAtRise)
    (quiet : (s.seg t).decoder.header ≠ none ∨ ((s.seg t).decoder.feed cells).header = none) :
    let handed := handOn t ((s.seg t).fallClass (s.chassis.now + dt) edges cells).1 ((s.seg t).decoder.feed cells)
      (s.seg t).current.truncated (fallClosed t dt edges cells s)
    exec (.burstFall t dt edges cells) s = .next (endHold handed.1 (settle s handed.2)) := by
  have event_eq : exec (.burstFall t dt edges cells) s = execBurstFall t dt edges cells s := rfl
  rw [event_eq, execBurstFall, bridgingEvent_of_running run, burstFall_of_burst phase early quiet]
  rfl

theorem channelOnly_fallClosed (t : SegNo) (dt edges : Nat) (cells : List Bool) (s : State) :
    ChannelOnly (s.advance dt) (fallClosed t dt edges cells s) :=
  (channelOnly_modSeg t _ _).trans (channelOnly_releaseIfHolder t _)

theorem fallClosed_port (t : SegNo) (dt edges : Nat) (cells : List Bool) (s : State) (q : PortNo) :
    (fallClosed t dt edges cells s).port q = s.port q := releaseIfHolder_port t _ q

/-- What the fall leaves of every segment, whatever becomes of the result. -/
theorem fall_leaves {t : SegNo} {dt edges : Nat} {cells : List Bool} {s u : State}
    (stands : BurstStands t (fallClosed t dt edges cells s) u) :
    ((s.seg t).fallen (s.chassis.now + dt) edges cells).DriveOnly (u.seg t)
      ∧ (∀ v, v ≠ t → (s.seg v).DriveOnly (u.seg v))
      ∧ (∀ q, q ≠ portOfSeg t → u.port q = s.port q)
      ∧ (s.trunk.holder = .segment t → RepeaterReleased u) := by
  obtain ⟨segs, ports, released⟩ := stands
  have closed : ∀ v, ((fallen t dt edges cells s).seg v).DriveOnly (u.seg v) := fun v =>
    (Segment.driveOnly_releaseIfHolder t _ v).trans (segs v)
  refine ⟨?_, fun v hv => ?_, fun q hq => ?_, fun holder => released ?_⟩
  · have own := closed t
    rw [fallen, State.seg_modSeg_self] at own
    exact own
  · have other := closed v
    rw [fallen, State.seg_modSeg_ne _ _ hv] at other
    exact other
  · rw [ports q hq, fallClosed_port]
  · rw [fallClosed, releaseIfHolder, if_pos (show (fallen t dt edges cells s).trunk.holder = .segment t from holder)]
    exact repeaterReleased_releaseRepeater _

theorem fallClosed_burstOver (t : SegNo) (dt edges : Nat) (cells : List Bool) (s : State) :
    ((fallClosed t dt edges cells s).seg t).BurstOver := by
  have closed := Segment.driveOnly_releaseIfHolder t (fallen t dt edges cells s) t
  rw [fallen, State.seg_modSeg_self] at closed
  rw [fallClosed, fallen, closed.eq]
  exact ⟨rfl, rfl, rfl⟩

/-- Settles O7. -/
theorem fallClassifiesTheBurst : Obligations.FallClassifiesTheBurst := by
  intro t dt edges cells s run phase early quiet g fall len n cls record q now d ended closed
  have hclass : cls = (g.fallClass now edges cells).1 := (Segment.fallClass_fst now edges cells g).symm
  have hended : ended = fallen t dt edges cells s := by
    clear_value cls
    subst hclass
    exact (fallen_eq t dt edges cells s).symm
  have hclosed : closed = fallClosed t dt edges cells s := by
    rw [fallClosed, ← hended]
    rfl
  have hrecord : record = (g.fallen now edges cells).current := by
    have seg : (fallen t dt edges cells s).seg t = g.fallen now edges cells := State.seg_modSeg_self _ _ _
    rw [← seg, ← hended]
    have own : ended.seg t = _ := State.seg_modSeg_self (s.advance dt) t _
    rw [own]
  have ran : exec (.burstFall t dt edges cells) s = .next
      (endHold (handOn t cls d g.current.truncated closed).1 (settle s (handOn t cls d g.current.truncated closed).2)) := by
    rw [hclosed, hclass]
    exact exec_burstFall run phase early quiet
  have stands := (burstStands_handOn cls d g.current.truncated (fallClosed_burstOver t dt edges cells s)).trans
    (burstStands_end t (handOn t cls d g.current.truncated closed).1 s _)
  rw [← hclosed] at stands
  have traffic : TrafficOnly s (endHold (handOn t cls d g.current.truncated closed).1
      (settle s (handOn t cls d g.current.truncated closed).2)) := by
    rw [hclosed]
    exact ((trafficOnly_advance dt s).trans (channelOnly_fallClosed t dt edges cells s).traffic).trans
      (((trafficOnly_handOn t cls d _ _).trans (arbiterOnly_settle _ _).traffic).trans (onlySends_endHold _ _).traffic)
  have ports : ∀ r, closed.port r = s.port r := fun r => by rw [hclosed]; exact fallClosed_port t dt edges cells s r
  have frame : ChannelOnly (s.advance dt) closed := by rw [hclosed]; exact channelOnly_fallClosed t dt edges cells s
  have entries : closed.dir = s.dir := ((channelOnly_iff _ _).1 frame).2.2.2.2.2.2.1
  have leaves := fall_leaves (u := endHold (handOn t cls d g.current.truncated closed).1
    (settle s (handOn t cls d g.current.truncated closed).2)) (by rw [← hclosed]; exact stands)
  have links : ∀ p, (closed.starPort p).link = (s.starPort p).link := fun p => by
    rw [hclosed, fallClosed, releaseIfHolder]
    split <;> rfl
  clear_value closed record cls
  obtain ⟨own, others, otherPorts, released⟩ := leaves
  have own' := Segment.fallen_eq now edges cells g
  refine ⟨_, ran, fun h => ?_, fun h => ?_, fun h => ⟨fun pass e found => ?_, fun no => ?_⟩,
    fun h f decoded => ⟨fun connected => ⟨fun b hb => ?_, fun hb => ?_⟩, fun apart => ?_⟩, ?_, ?_, ?_, ?_, ?_, ?_, ?_,
    fun holder => ?_, fun v hv => ?_, otherPorts, traffic⟩
  · rw [h]; rfl
  · rw [h]; rfl
  · have there : findEntry (faultEvent .check q closed) (byteAt d.store 1) = some e := by
      rw [findEntry_congr (s := s) (by rw [((channelOnly_iff _ _).1 (channelOnly_faultEvent .check q closed)).2.2.2.2.2.2.1,
        entries])]
      exact found
    rw [h, handOn_check, attributeBurst_of_entry pass there]
    rfl
  · have there : d.header ≠ some true ∨ findEntry (faultEvent .check q closed) (byteAt d.store 1) = none := by
      rw [findEntry_congr (s := s) (by rw [((channelOnly_iff _ _).1 (channelOnly_faultEvent .check q closed)).2.2.2.2.2.2.1,
        entries])]
      exact no
    rw [h, handOn_check, attributeBurst_of_none there]
    rfl
  · have on : segConnected closed t = true := by rw [segConnected, ports]; exact connected
    have held : (bridgeTrunk t g.current.truncated f (goodEvent (portOfSeg t) closed)).1 = some b := hb
    rw [h, handOn_good decoded, if_pos on, held]
    rfl
  · have on : segConnected closed t = true := by rw [segConnected, ports]; exact connected
    have held : (bridgeTrunk t g.current.truncated f (goodEvent (portOfSeg t) closed)).1 = none := hb
    rw [h, handOn_good decoded, if_pos on, held]
    rfl
  · have off : ¬ segConnected closed t = true := by rw [segConnected, ports]; simpa [segConnected] using apart
    rw [h, handOn_good decoded, if_neg off, endHold_none]
    refine settle_of_states (congrArg Directory.entries entries) (fun r => ?_) links
    rw [← ports r]
    rw [goodEvent, State.port_modPort]
    split <;> rfl
  · rw [own.current, hrecord]
  · rw [own.previous, own']
    simp only [Segment.settleBusy_eq]
  · rw [own.counters, own', hclass]
  · rw [own.phase, own']
  · rw [own.carrier, own']
  · rw [own.quietCount, own']
  · rw [own.lastFall, own']
  · exact released holder
  · exact ⟨(others v hv).current, (others v hv).counters⟩

end Sys2Proof.Machine
end

