-- ==== Sys2Proof/Proofs/Resets.lean ====
section
/-!
The supply and the panel line (R200, R201): what the start-up load leaves, whichever configuration it loads, and what a part
that stands still holds.
-/

namespace Sys2Proof.Machine

/-- The start-up load is the load of some configuration (R202). -/
theorem startUp_eq_loadConfig (s : State) : ∃ c fault, startUp s = loadConfig c fault s := by
  unfold startUp
  cases s.chassis.store.judge with
  | valid c => exact ⟨c, false, rfl⟩
  | blank => exact ⟨_, false, rfl⟩
  | invalid => exact ⟨_, true, rfl⟩

/-- The part runs after the start-up load, with its clock at 0. -/
theorem startUp_chassis (s : State) : (startUp s).chassis =
    { s.chassis with run := .running, powerOnDue := false, now := 0, ticks := SecondTicks.zero } := by
  obtain ⟨c, fault, load⟩ := startUp_eq_loadConfig s
  rw [load]
  rfl

/-- The start-up load keeps the accounts (R177). -/
theorem startUp_acct (s : State) : (startUp s).acct = s.acct := by
  obtain ⟨c, fault, load⟩ := startUp_eq_loadConfig s
  rw [load]
  rfl

theorem startUp_isRunning (s : State) : (startUp s).isRunning = true := by
  rw [State.isRunning, startUp_chassis]
  rfl

/-- The relays of a part that does not run are open (R29). -/
theorem relayClosed_of_stopped {s : State} (h : s.isRunning = false) (t : SegNo) : relayClosed s t = false := by
  rw [relayClosed, h, Bool.false_and]

/-- A power-on with the panel line released (R200). -/
theorem power_on_starts {s : State} (line : s.chassis.panelAsserted = false) :
    exec .powerOn s = .next (powerOnReset s) := by
  show execPowerOn s = _
  rw [execPowerOn, line]
  rfl

/-- The release of the panel line of a part that was held (R200). -/
theorem panel_restart_starts {s : State} (held : s.chassis.run = .held) :
    exec .panelRestart s = .next (if s.chassis.powerOnDue = true
      then powerOnReset { s with chassis := { s.chassis with panelAsserted := false } }
      else panelReset { s with chassis := { s.chassis with panelAsserted := false } }) := by
  show execPanelRestart s = _
  simp only [execPanelRestart, held]

/-- Settles O48, command by command. -/
theorem supplyAndPanelReset : Obligations.SupplyAndPanelReset := by
  intro b s
  refine ⟨fun line => ⟨_, power_on_starts line, startUp_isRunning _, ?_, startUp_acct _, ?_, ?_, rfl⟩, fun line => ?_,
    fun run => ?_, fun held due => ?_, fun held due => ?_, ?_⟩
  · rw [powerOnReset, startUp_chassis]; rfl
  · rw [powerOnReset, startUp_chassis]; rfl
  · rw [powerOnReset, startUp_chassis]; rfl
  · refine ⟨_, rfl, ?_⟩
    rw [if_pos line]
    exact ⟨rfl, rfl⟩
  · have stands : exec .panelResetAsserted s
        = .next (standStill .held { s with chassis := { s.chassis with panelAsserted := true } }) := by
      show execPanelResetAsserted s = _
      rw [execPanelResetAsserted, if_neg]
      intro off
      rw [State.isRunning, off] at run
      exact absurd run (by decide)
    exact ⟨_, stands, rfl, relayClosed_of_stopped rfl, rfl, rfl, rfl, rfl⟩
  · refine ⟨_, panel_restart_starts held, ?_⟩
    rw [if_neg (by simp [due])]
    exact ⟨startUp_isRunning _, by rw [panelReset, startUp_chassis]; rfl, startUp_acct _,
      by rw [panelReset, startUp_chassis]; rfl, rfl⟩
  · refine ⟨_, panel_restart_starts held, ?_⟩
    rw [if_pos due]
    exact ⟨startUp_isRunning _, by rw [powerOnReset, startUp_chassis]; rfl, startUp_acct _, rfl⟩
  · refine ⟨_, rfl, ?_⟩
    cases b
    · exact ⟨rfl, relayClosed_of_stopped rfl, rfl⟩
    · exact ⟨rfl, relayClosed_of_stopped rfl, rfl⟩

end Sys2Proof.Machine
end

