-- ==== Sys2Proof/Proofs/TrunkFrames.lean ====
section
/-!
The decoder fed with a trunk frame (R7, R8, R209, R210): the lead-in opens it, each byte is stored as it was sent, and the
header and the frame check of a frame as it is built pass.
-/

namespace Sys2Proof.Machine

/-! ## Bytes -/

/-- One recovered bit enters a byte from the right. -/
def shiftIn (a : Byte) (b : Bool) : Byte := (a <<< 1) ||| (if b then 1#8 else 0#8)

/-- The bits of a byte, shifted in most significant first, are the byte. -/
theorem foldl_shiftIn_byteBits : ∀ b : Byte, (byteBits b).foldl shiftIn 0 = b := by decide

/-- Between two bytes of a frame the decoder has no bit of the next. -/
def Decoder.betweenBytes (d : Decoder) : Prop := (d.phase = .header ∨ d.phase = .body) ∧ d.acc = 0 ∧ d.nbits = 0

theorem Decoder.feed_append (d : Decoder) (xs ys : List Bool) : d.feed (xs ++ ys) = (d.feed xs).feed ys :=
  List.foldl_append ..

/-- A bit in a header or a body, before the last of its byte. -/
theorem Decoder.feedBit_of_open {d : Decoder} (h : d.phase = .header ∨ d.phase = .body) (b : Bool) :
    d.feedBit b = if d.nbits = 7 then d.takeByte (shiftIn d.acc b)
      else { d with acc := shiftIn d.acc b, nbits := d.nbits + 1 } := by
  unfold Decoder.feedBit
  rcases h with h | h <;> rw [h] <;> rfl

/-- Up to seven bits are shifted into the byte being assembled. -/
theorem Decoder.feed_partial {d : Decoder} (h : d.phase = .header ∨ d.phase = .body) (bits : List Bool) (a : Byte) (n : Nat)
    (few : n + bits.length ≤ 7) :
    Decoder.feed { d with acc := a, nbits := n } bits
      = { d with acc := bits.foldl shiftIn a, nbits := n + bits.length } := by
  induction bits generalizing a n with
  | nil => rfl
  | cons b bits ih =>
    simp only [List.length_cons] at few ⊢
    have first : Decoder.feedBit { d with acc := a, nbits := n } b = { d with acc := shiftIn a b, nbits := n + 1 } := by
      rw [Decoder.feedBit_of_open (d := { d with acc := a, nbits := n }) h]
      exact if_neg (show ¬ n = 7 by omega)
    have rest := ih (shiftIn a b) (n + 1) (by omega)
    rw [show n + (bits.length + 1) = n + 1 + bits.length by omega, List.foldl_cons, ← rest]
    exact congrArg (fun x => Decoder.feed x bits) first

/-- The bits of a byte are taken as that byte (R7, R209). -/
theorem Decoder.feed_byteBits {d : Decoder} (h : d.betweenBytes) (b : Byte) : d.feed (byteBits b) = d.takeByte b := by
  obtain ⟨phase, acc, nbits⟩ := h
  have seven : byteBits b = (byteBits b).take 7 ++ [b.getLsbD 0] := rfl
  have start : d = { d with acc := 0, nbits := 0 } := by rw [← acc, ← nbits]
  have taken := Decoder.feed_partial phase ((byteBits b).take 7) 0 0 (Nat.le_refl 7)
  rw [← start] at taken
  have whole : shiftIn (((byteBits b).take 7).foldl shiftIn 0) (b.getLsbD 0) = b := foldl_shiftIn_byteBits b
  rw [seven, Decoder.feed_append, taken]
  refine (Decoder.feedBit_of_open (d := { d with
    acc := ((byteBits b).take 7).foldl shiftIn 0, nbits := 0 + ((byteBits b).take 7).length }) phase (b.getLsbD 0)).trans ?_
  rw [whole]
  rfl

/-! ## The frame -/

/-- The decoder after the lead-in and a run of whole bytes. -/
def Decoder.afterBytes (l : List Byte) : Decoder :=
  { Decoder.initial with
    phase := if 6 ≤ l.length then .body else .header, window := 0, received := l.length, store := l,
    header := if 6 ≤ l.length then some (headerPasses (l.take 6)) else none }

/-- The lead-in opens the decoder (R7). -/
theorem Decoder.feed_leadIn : Decoder.initial.feed ([0xA5#8, 0xC3#8].flatMap byteBits) = Decoder.afterBytes [] := by
  decide

theorem Decoder.afterBytes_betweenBytes (l : List Byte) : (Decoder.afterBytes l).betweenBytes := by
  refine ⟨?_, rfl, rfl⟩
  unfold Decoder.afterBytes
  by_cases h : 6 ≤ l.length
  · exact .inr (if_pos h)
  · exact .inl (if_neg h)

/-- A byte more, while the frame is no longer than the store (R7). -/
theorem Decoder.takeByte_afterBytes {l : List Byte} (h : l.length < 508) (b : Byte) :
    (Decoder.afterBytes l).takeByte b = Decoder.afterBytes (l ++ [b]) := by
  have stored : l.length + 1 + 2 ≤ 510 := by omega
  have longer : (l ++ [b]).length = l.length + 1 := List.length_append
  unfold Decoder.takeByte Decoder.afterBytes
  simp only [longer]
  rw [if_pos stored, if_neg (Nat.not_lt.2 stored)]
  rcases Nat.lt_trichotomy l.length 5 with few | five | many
  · rw [if_neg (show ¬ l.length + 1 = 6 by omega), if_neg (show ¬ 6 ≤ l.length + 1 by omega),
      if_neg (show ¬ 6 ≤ l.length by omega), if_neg (show ¬ 6 ≤ l.length + 1 by omega)]
    rfl
  · rw [if_pos (show l.length + 1 = 6 by omega), if_pos (show 6 ≤ l.length + 1 by omega),
      if_pos (show 6 ≤ l.length + 1 by omega), List.take_of_length_le (by omega)]
    rfl
  · rw [if_neg (show ¬ l.length + 1 = 6 by omega), if_pos (show 6 ≤ l.length + 1 by omega),
      if_pos (show 6 ≤ l.length by omega), if_pos (show 6 ≤ l.length + 1 by omega),
      List.take_append_of_le_length (by omega)]
    rfl

/-- A run of bytes that fits the store is stored as it was sent. -/
theorem Decoder.feed_afterBytes (bs l : List Byte) (fits : l.length + bs.length ≤ 508) :
    (Decoder.afterBytes l).feed (bs.flatMap byteBits) = Decoder.afterBytes (l ++ bs) := by
  induction bs generalizing l with
  | nil => simp [Decoder.feed]
  | cons b bs ih =>
    simp only [List.length_cons] at fits
    rw [List.flatMap_cons, Decoder.feed_append, Decoder.feed_byteBits (Decoder.afterBytes_betweenBytes l),
      Decoder.takeByte_afterBytes (by omega), ih _ (by simp; omega), List.append_assoc]
    rfl

/-- A header with its check passes (R210). -/
theorem headerPasses_headerCheck (h : List Byte) : headerPasses (h ++ [headerCheck h]) = true := by
  simp only [headerPasses, headerCheck, List.foldl_append, List.foldl_cons, List.foldl_nil, beq_iff_eq]
  generalize h.foldl (· + ·) 0#8 = x
  bv_omega

/-- The two bytes of a length are that length (R209). -/
theorem be16_u16 {n : Nat} (h : n < 65536) : be16 (BitVec.ofNat 8 (n / 256)) (BitVec.ofNat 8 n) = n := by
  simp only [be16, BitVec.toNat_ofNat]
  omega

/-- A frame as it is built is decoded: its header and its check pass, and its fields come back (R8, Table 12-1). -/
theorem Decoder.verdict_of_frame (a : TrunkAddr) (kind : Byte) (payload : List Byte) (short : payload.length ≤ 500) :
    (Decoder.afterBytes (trunkHeader a.dst a.src kind payload.length ++ payload
      ++ checkBytes (crc16 (trunkHeader a.dst a.src kind payload.length ++ payload)))).verdict
      = some { dst := a.dst, src := a.src, kind := kind, payload := payload } := by
  generalize hh : trunkHeader a.dst a.src kind payload.length = h
  have six : h.length = 6 := by rw [← hh]; rfl
  have pass : headerPasses h = true := by rw [← hh]; exact headerPasses_headerCheck _
  generalize hc : checkBytes (crc16 (h ++ payload)) = c
  have two : c.length = 2 := by rw [← hc]; rfl
  have header : (Decoder.afterBytes (h ++ payload ++ c)).header = some true := by
    simp only [Decoder.afterBytes]
    rw [if_pos (by simp; omega), List.append_assoc, List.take_left' six, pass]
  have phase : (Decoder.afterBytes (h ++ payload ++ c)).phase = .body := by
    simp only [Decoder.afterBytes]
    rw [if_pos (by simp; omega)]
  have length : (Decoder.afterBytes (h ++ payload ++ c)).length = payload.length := by
    rw [← hh]
    exact be16_u16 (by omega)
  have received : (Decoder.afterBytes (h ++ payload ++ c)).received = 6 + payload.length + 2 := by
    simp only [Decoder.afterBytes, List.length_append]
    omega
  have body : (h ++ payload).length = 6 + payload.length := by rw [List.length_append, six]
  have checked : checkBytes (crc16 ((h ++ payload ++ c).take (6 + payload.length))) = (h ++ payload ++ c).drop (6 + payload.length) := by
    rw [List.take_left' body, List.drop_left' body, hc]
  have fields : ((h ++ payload ++ c).drop 6).take payload.length = payload := by
    rw [List.append_assoc, List.drop_left' six, List.take_left' rfl]
  unfold Decoder.verdict
  rw [phase, header, length, received, if_pos ⟨by decide, rfl, short, rfl, checked⟩]
  show some (TrunkRx.mk _ _ _ (((h ++ payload ++ c).drop 6).take payload.length)) = _
  rw [fields, ← hh]
  rfl

/-- Settles O52. -/
theorem trunkFrameDecodes : Obligations.TrunkFrameDecodes := by
  intro a kind payload short
  rw [trunkFrame, List.append_assoc, List.flatMap_append, Decoder.feed_append, Decoder.feed_leadIn,
    Decoder.feed_afterBytes _ _ ?fits]
  · exact Decoder.verdict_of_frame a kind payload short
  case fits =>
    simp only [List.length_append, List.length_nil, trunkHeader, u16, checkBytes, List.length_cons]
    omega

end Sys2Proof.Machine
end

