-- ==== Sys2Proof/Proofs/Reads.lean ====
section
/-!
The eight reads (R28, R41, R92, R139, R167, R176, R188, R189): one rule for a read that names what exists and for one that
does not, and the numbers of ports, queues and stations that they name.
-/

namespace Sys2Proof.Machine

/-! ## A read -/

/-- A read in its form is answered from the state it leaves, where entries, records and links stand (R178, R181). -/
theorem request_read {s : State} {e : InputEntry} {op : Byte} {tag : BitVec 16} {params : List Byte}
    (h : Asks s e op tag params) {n : Nat} (hn : op.toNat = n) {α : Type} {parse : List Byte → Option α} {a : α}
    (ha : parse params = some a) (effect : α → State → Reply) {reply : Reply}
    (reads : effect a (takeControl e s) = reply) (hd : reply.state.dir.entries = s.dir.entries)
    (hp : reply.state.sup.ports = s.sup.ports) (hl : ∀ p, (reply.state.starPort p).link = (s.starPort p).link) :
    request (isOp n) (fun q r => stages true neverHeld (parse q.params) effect r) s
      = answered e op tag reply.status reply.results reply.state := by
  rw [request_of_asks h, if_pos (by simp [isOp, hn])]
  simp only [ha, stages_read, reads]
  exact answerRequest_of_local hd hp hl

/-- A read that leaves nothing but the request taken. -/
theorem request_read_still {s : State} {e : InputEntry} {op : Byte} {tag : BitVec 16} {params : List Byte}
    (h : Asks s e op tag params) {n : Nat} (hn : op.toNat = n) {α : Type} {parse : List Byte → Option α} {a : α}
    (ha : parse params = some a) (effect : α → State → Reply) {st : Status} {results : List Chunk}
    (reads : effect a (takeControl e s) = { status := st, results := results, state := takeControl e s }) :
    requestEvent (request (isOp n) (fun q r => stages true neverHeld (parse q.params) effect r)) s
      = .next (answered e op tag st results (takeControl e s)) := by
  rw [requestEvent_of_running h.1, request_read h hn ha effect reads rfl rfl fun _ => rfl]

/-! ## What the numbers name -/

theorem portOf_seg : ∀ t : SegNo, portOf (BitVec.ofNat 8 t.val) = some (portOfSeg t) := by decide

theorem portOf_star : ∀ p : StarNo, portOf (BitVec.ofNat 8 (p.val + 4)) = some (portOfStar p) := by decide

theorem queueOf_queueByte : ∀ q : QueueNo, queueOf (queueByte q) = some q := by decide

theorem portOf_of_le {b : Byte} (h : b.toNat ≤ 11) : portOf b = some ⟨b.toNat, by omega⟩ := dif_pos h

theorem portOf_of_lt {b : Byte} (h : 12 ≤ b.toNat) : portOf b = none := dif_neg (by omega)

theorem queueOf_of_outside {b : Byte} (h : b = 0#8 ∨ 7 ≤ b.toNat) : queueOf b = none := by
  refine dif_neg fun k => ?_
  rcases h with rfl | h
  · exact absurd k.1 (by decide)
  · omega

/-- A station ID comes back from its four bytes (R209). -/
theorem idParam_u32 (x : StationId) : idParam (u32 x) = some x := by
  show some (be32 _ _ _ _) = _
  congr 1
  have h1 : x.extractLsb' 24 8 ++ x.extractLsb' 16 8 = x.extractLsb' 16 16 :=
    BitVec.extractLsb'_append_extractLsb'_eq_extractLsb' rfl
  have h2 : x.extractLsb' 16 16 ++ x.extractLsb' 8 8 = x.extractLsb' 8 24 :=
    BitVec.extractLsb'_append_extractLsb'_eq_extractLsb' rfl
  have h3 : x.extractLsb' 8 24 ++ x.extractLsb' 0 8 = x.extractLsb' 0 32 :=
    BitVec.extractLsb'_append_extractLsb'_eq_extractLsb' rfl
  rw [be32, h1, h2, h3]
  exact BitVec.extractLsb'_eq_self

/-! ## The obligation -/

section
variable {e : InputEntry} {tag : BitVec 16} {s : State}

/-- SEGMENT_READ notes the time and the transitions that the line has brought (R11, R28). -/
theorem exec_segmentRead {b : Byte} (h : Asks s e 2#8 tag [b]) (dt edges : Nat) {reply : Reply}
    (reads : readSegment edges b (takeControl e (s.advance dt)) = reply) (hd : reply.state.dir.entries = s.dir.entries)
    (hp : reply.state.sup.ports = s.sup.ports) (hl : ∀ p, (reply.state.starPort p).link = (s.starPort p).link) :
    exec (.segmentRead dt edges) s = .next (answered e 2#8 tag reply.status reply.results reply.state) := by
  show execSegmentRead dt edges s = _
  rw [execSegmentRead, requestEvent_of_running h.1]
  exact congrArg _ (request_read (s := s.advance dt) h rfl (parse := oneParam) rfl (fun b s => readSegment edges b s) reads hd hp hl)

/-- PORT_READ of a star port notes the bytes that its line has brought (R34, R41). -/
theorem exec_portRead {b : Byte} (h : Asks s e 3#8 tag [b]) (bytes : List Byte) {reply : Reply}
    (reads : readPort bytes b (takeControl e s) = reply) (hd : reply.state.dir.entries = s.dir.entries)
    (hp : reply.state.sup.ports = s.sup.ports) (hl : ∀ p, (reply.state.starPort p).link = (s.starPort p).link) :
    exec (.portRead bytes) s = .next (answered e 3#8 tag reply.status reply.results reply.state) := by
  show execPortRead bytes s = _
  rw [execPortRead, requestEvent_of_running h.1]
  exact congrArg _ (request_read h rfl (parse := oneParam) rfl (fun b s => readPort bytes b s) reads hd hp hl)

theorem exec_countersRead {b : Byte} (h : Asks s e 4#8 tag [b]) {st : Status} {results : List Chunk}
    (reads : readCounters b (takeControl e s) = { status := st, results := results, state := takeControl e s }) :
    exec .countersRead s = .next (answered e 4#8 tag st results (takeControl e s)) :=
  request_read_still h rfl (parse := oneParam) rfl (fun b s => readCounters b s) reads

theorem exec_directoryRead {f n : Byte} (h : Asks s e 5#8 tag [f, n]) {st : Status} {results : List Chunk}
    (reads : readDirectory f n (takeControl e s) = { status := st, results := results, state := takeControl e s }) :
    exec .directoryRead s = .next (answered e 5#8 tag st results (takeControl e s)) :=
  request_read_still h rfl (parse := twoParams) rfl (fun (x : Byte × Byte) s => readDirectory x.1 x.2 s) reads

theorem exec_directoryFind {x : StationId} (h : Asks s e 6#8 tag (u32 x)) {st : Status} {results : List Chunk}
    (reads : findStation x (takeControl e s) = { status := st, results := results, state := takeControl e s }) :
    exec .directoryFind s = .next (answered e 6#8 tag st results (takeControl e s)) :=
  request_read_still h rfl (parse := idParam) (idParam_u32 x) (fun x s => findStation x s) reads

theorem exec_queueRead {b : Byte} (h : Asks s e 7#8 tag [b]) {st : Status} {results : List Chunk}
    (reads : readQueue b (takeControl e s) = { status := st, results := results, state := takeControl e s }) :
    exec .queueRead s = .next (answered e 7#8 tag st results (takeControl e s)) :=
  request_read_still h rfl (parse := oneParam) rfl (fun b s => readQueue b s) reads

theorem exec_accountRead {f n : Byte} (h : Asks s e 8#8 tag [f, n]) {st : Status} {results : List Chunk}
    (reads : readAccount f n (takeControl e s) = { status := st, results := results, state := takeControl e s }) :
    exec .accountRead s = .next (answered e 8#8 tag st results (takeControl e s)) :=
  request_read_still h rfl (parse := twoParams) rfl (fun (x : Byte × Byte) s => readAccount x.1 x.2 s) reads

theorem readSegment_seg (t : SegNo) (edges : Nat) (s : State) :
    readSegment edges (BitVec.ofNat 8 t.val) s = doneWith
      [.fixed (trunkPart (noteEdges t edges s) t
        ++ ((noteEdges t edges s).port (portOfSeg t)).bytes (some ((noteEdges t edges s).seg t).unterminated))]
      (noteEdges t edges s) := by
  simp only [readSegment, portOf_seg, splitPort_portOfSeg]

theorem readSegment_star {b : Byte} (h : 4 ≤ b.toNat) (h' : b.toNat ≤ 11) (edges : Nat) (s : State) :
    readSegment edges b s = refuse .noSuch s := by
  simp only [readSegment, portOf_of_le h', splitPort, dif_neg (Nat.not_lt.2 h)]

theorem readPort_star (p : StarNo) (bytes : List Byte) (s : State) :
    readPort bytes (BitVec.ofNat 8 (p.val + 4)) s = doneWith
      [.fixed (((noteBytes p bytes s).starPort p).bytes ++ ((noteBytes p bytes s).port (portOfStar p)).bytes none)]
      (noteBytes p bytes s) := by
  simp only [readPort, portOf_star, splitPort_portOfStar]

/-- Bytes noted leave the entries, the records and the links. -/
theorem noteBytes_stands (p : StarNo) (bytes : List Byte) (s : State) :
    (noteBytes p bytes s).dir = s.dir ∧ (noteBytes p bytes s).sup = s.sup
      ∧ ∀ v, ((noteBytes p bytes s).starPort v).link = (s.starPort v).link := by
  unfold noteBytes
  split
  · refine ⟨rfl, rfl, fun v => ?_⟩
    rw [State.starPort_modStar]
    split <;> rfl
  · exact ⟨rfl, rfl, fun _ => rfl⟩

theorem readPort_seg {b : Byte} (h : b.toNat ≤ 3) (bytes : List Byte) (s : State) :
    readPort bytes b s = refuse .noSuch s := by
  simp only [readPort, portOf_of_le (show b.toNat ≤ 11 by omega), splitPort, dif_pos (show b.toNat < 4 by omega)]

end

/-- Settles O32, read by read. -/
theorem readsAreAnsweredToAll : Obligations.ReadsAreAnsweredToAll := by
  intro e tag s
  refine ⟨fun h => ?_, fun t dt edges h => ?_, fun p bytes h => ?_, fun h => ?_, fun t h => ?_, fun p h => ?_,
    fun f n h desk => ?_, fun x y h found => ?_, fun q h => ?_, fun f n h centre => ?_, fun b n x dt edges bytes =>
    ⟨fun h big => ?_, fun h low high => ?_, fun h big => ?_, fun h small => ?_, fun h big => ?_, fun h desk => ?_,
      fun h absent => ?_, fun h outside => ?_, fun h big => ?_⟩⟩
  · exact request_read_still h rfl (parse := noParams) (a := ()) rfl (fun _ s => doneWith (statusResults s) s) rfl
  · exact exec_segmentRead h dt edges (reply := doneWith _ (noteEdges t edges (takeControl e (s.advance dt))))
      (readSegment_seg t edges (takeControl e (s.advance dt))) rfl rfl fun _ => rfl
  · intro s2
    have noted : s2 = noteBytes p bytes (takeControl e s) := rfl
    have stands := noteBytes_stands p bytes (takeControl e s)
    clear_value s2
    subst noted
    obtain ⟨dir, sup, link⟩ := stands
    exact exec_portRead h bytes (reply := doneWith _ (noteBytes p bytes (takeControl e s)))
      (readPort_star p bytes (takeControl e s)) (congrArg Directory.entries dir) (congrArg Supervision.ports sup) link
  · exact exec_countersRead h rfl
  · exact exec_countersRead h (by simp only [readCounters, portOf_seg, splitPort_portOfSeg]; rfl)
  · exact exec_countersRead h (by simp only [readCounters, portOf_star, splitPort_portOfStar]; rfl)
  · exact exec_directoryRead h (if_pos desk)
  · exact exec_directoryFind h (by simp only [findStation, takeControl_indexEntry, found]; rfl)
  · exact exec_queueRead h (by simp only [readQueue, queueOf_queueByte]; rfl)
  · exact exec_accountRead h (if_pos centre)
  · exact exec_segmentRead h dt edges (reply := refuse .outOfRange (takeControl e (s.advance dt)))
      (by rw [readSegment, portOf_of_lt big]) rfl rfl fun _ => rfl
  · exact exec_segmentRead h dt edges (reply := refuse .noSuch (takeControl e (s.advance dt)))
      (readSegment_star low high edges _) rfl rfl fun _ => rfl
  · exact exec_portRead h bytes (reply := refuse .outOfRange (takeControl e s)) (by rw [readPort, portOf_of_lt big]) rfl rfl fun _ => rfl
  · exact exec_portRead h bytes (reply := refuse .noSuch (takeControl e s)) (readPort_seg small bytes _) rfl rfl fun _ => rfl
  · refine exec_countersRead h ?_
    have other : b ≠ 12#8 := fun e => by rw [e] at big; exact absurd big (by decide)
    simp only [readCounters, portOf_of_lt (show 12 ≤ b.toNat by omega), if_neg other]
    rfl
  · exact exec_directoryRead h (if_neg (by simp [desk]))
  · exact exec_directoryFind h (by simp only [findStation, takeControl_indexEntry, absent]; rfl)
  · exact exec_queueRead h (by simp only [readQueue, queueOf_of_outside outside]; rfl)
  · exact exec_accountRead h (if_neg (by omega))

end Sys2Proof.Machine
end

