-- ==== Sys2Proof/Proofs/Refusals.lean ====
section
/-!
Requests turned away (R181, R186). Every request that is no read goes through the same stages; so one rule says what a
command answers to a sender without permission and while a SAVE is in flight, and each row of Table 9-2 is shown to follow
it.
-/

namespace Sys2Proof.Machine

/-! ## The stages of a row -/

/-- What time and the line bring leaves the directory, the Control Unit, the input queues and the buffers. -/
def Brings (f : State → State) : Prop :=
  ∀ s, (f s).dir = s.dir ∧ (f s).ctl = s.ctl ∧ (f s).sup = s.sup ∧ (f s).star = s.star ∧ (f s).inputs = s.inputs
    ∧ (f s).bufs = s.bufs ∧ (f s).isRunning = s.isRunning

theorem brings_id : Brings id := fun _ => ⟨rfl, rfl, rfl, rfl, rfl, rfl, rfl⟩
theorem brings_elapse (now : Elapsed) : Brings (·.elapse now) := fun _ => ⟨rfl, rfl, rfl, rfl, rfl, rfl, rfl⟩
theorem brings_advance (dt : Nat) : Brings (·.advance dt) := fun _ => ⟨rfl, rfl, rfl, rfl, rfl, rfl, rfl⟩

theorem Brings.asks {f : State → State} (h : Brings f) {s : State} {e : InputEntry} {op : Byte} {tag : BitVec 16}
    {params : List Byte} (a : Asks s e op tag params) : Asks (f s) e op tag params := by
  obtain ⟨-, -, -, -, inputs, bufs, run⟩ := h s
  obtain ⟨running, head, payload⟩ := a
  exact ⟨by rw [run]; exact running, by rw [inputs]; exact head, by rw [State.buf, bufs]; exact payload⟩

theorem Brings.permitted {f : State → State} (h : Brings f) (r : Route) (s : State) :
    permitted r (f s) = permitted r s := by
  obtain ⟨dir, ctl, -⟩ := h s
  rw [Machine.permitted, Machine.permitted, ctl, senderOf_congr (congrArg Directory.entries dir)]

/-- The stages of a request whose parameters have their form: refused to a sender without permission, then held back by a
SAVE in flight, then carried out (R178). -/
def staged (held : Bool) (carried : Reply) (r : Route) (s : State) : Reply :=
  stages false (fun (_ : Unit) _ => held) (some ()) (fun _ _ => carried) r s

/-- A row whose command answers as its stages say, where they do not carry the request out. -/
def ChangeRow.Staged (row : ChangeRow) : Prop :=
  Brings row.brings ∧ ∀ (e : InputEntry) (tag : BitVec 16) (params : List Byte) (s : State), row.form params = true →
    Asks s e row.op tag params → ∃ carried : Reply,
      let reply := staged (row.heldBack s params) carried e.route (takeControl e (row.brings s))
      reply.status ≠ .done →
        exec row.command s
          = .next (answerRequest (row.brings s) { op := row.op, tag := tag, params := params } e.route reply)

/-- A row whose command is a request with the stages of Table 9-2. -/
theorem ChangeRow.staged_of_request {row : ChangeRow} {α : Type} (mine : Request → Bool) (parse : List Byte → Option α)
    (held : α → State → Bool) (effect : α → State → Reply) (brings : Brings row.brings)
    (runs : ∀ s, exec row.command s = requestEvent (fun s =>
      request mine (fun q r => stages false held (parse q.params) effect r) (row.brings s)) s)
    (form : ∀ tag params, row.form params = true → mine { op := row.op, tag := tag, params := params } = true
      ∧ ∃ a, parse params = some a ∧ ∀ e s, row.heldBack s params = held a (takeControl e (row.brings s))) : row.Staged := by
  refine ⟨brings, fun e tag params s formed asks => ?_⟩
  obtain ⟨own, a, parsed, back⟩ := form tag params formed
  refine ⟨effect a (takeControl e (row.brings s)), fun _ => ?_⟩
  rw [runs, requestEvent_of_running asks.1, request_of_asks (brings.asks asks), if_pos own, parsed, back e s]
  rfl

/-- A request that is turned away leaves nothing for the arbiter, and is answered from the state taken. -/
theorem answerRequest_refused (s : State) (e : InputEntry) (op : Byte) (tag : BitVec 16) (params : List Byte) (st : Status)
    (ctl : Control) :
    answerRequest s { op := op, tag := tag, params := params } e.route
        { status := st, results := [], state := { takeControl e s with ctl := ctl } }
      = answered e op tag st [] { takeControl e s with ctl := ctl } :=
  answerRequest_of_local rfl rfl fun _ => rfl

/-- A staged row answers NOT_PERMITTED to a sender without permission (R181). -/
theorem ChangeRow.Staged.not_permitted {row : ChangeRow} (h : row.Staged) {e : InputEntry} {tag : BitVec 16}
    {params : List Byte} {s : State} (form : row.form params = true) (asks : Asks s e row.op tag params)
    (deny : permitted e.route s = false) :
    exec row.command s = .next (answered e row.op tag .notPermitted [] { takeControl e (row.brings s) with
      ctl := { (takeControl e (row.brings s)).ctl with notPermitted := bump s.ctl.notPermitted } }) := by
  obtain ⟨brings, runs⟩ := h
  obtain ⟨carried, answers⟩ := runs e tag params s form asks
  obtain ⟨-, ctl, -⟩ := brings s
  have denied : staged (row.heldBack s params) carried e.route (takeControl e (row.brings s))
      = notPermitted (takeControl e (row.brings s)) :=
    stages_notPermitted _ _ _ _ _ (by rw [takeControl_permitted, brings.permitted]; exact deny)
  rw [denied] at answers
  rw [answers (by show Status.notPermitted ≠ .done; decide), ← ctl]
  exact congrArg _ (answerRequest_refused _ _ _ _ _ .notPermitted _)

/-- A staged row that a SAVE holds back answers BUSY while one is in flight (R186). -/
theorem ChangeRow.Staged.busy {row : ChangeRow} (h : row.Staged) {e : InputEntry} {tag : BitVec 16} {params : List Byte}
    {s : State} (form : row.form params = true) (asks : Asks s e row.op tag params) (allow : permitted e.route s = true)
    (save : s.ctl.save.isSome = true) (held : row.heldBack s params = true) :
    exec row.command s = .next (answered e row.op tag .busy [] { takeControl e (row.brings s) with
      ctl := { (takeControl e (row.brings s)).ctl with busy := bump s.ctl.busy } }) := by
  obtain ⟨brings, runs⟩ := h
  obtain ⟨carried, answers⟩ := runs e tag params s form asks
  obtain ⟨-, ctl, -⟩ := brings s
  have waits : staged (row.heldBack s params) carried e.route (takeControl e (row.brings s))
      = busyReply (takeControl e (row.brings s)) :=
    stages_busy _ _ _ _ _ (by rw [takeControl_permitted, brings.permitted]; exact allow) held
      (by rw [takeControl_ctl, ctl]; exact save)
  rw [waits] at answers
  rw [answers (by show Status.busy ≠ .done; decide), ← ctl]
  exact congrArg _ (answerRequest_refused _ _ _ _ _ .busy _)

/-! ## The forms of parameters -/

theorem oneParam_of_form {l : List Byte} (h : (l.length == 1) = true) : ∃ b, oneParam l = some b ∧ l = [b] := by
  obtain ⟨b, rfl⟩ := List.length_eq_one_iff.1 (by simpa using h)
  exact ⟨b, rfl, rfl⟩

theorem twoParams_of_form {l : List Byte} (h : (l.length == 2) = true) : ∃ x, twoParams l = some x := by
  obtain ⟨a, b, rfl⟩ := List.length_eq_two.1 (by simpa using h)
  exact ⟨(a, b), rfl⟩

theorem noParams_of_form {l : List Byte} (h : l.isEmpty = true) : noParams l = some () := by
  rw [List.isEmpty_iff.1 h]; rfl

/-- Two parameters of which the second is the action. -/
theorem forceParam_of_form {l : List Byte} {a : Byte} (h : (l.length == 2 && l.getLast? == some a) = true) :
    ∃ b, forceParam a l = some b := by
  obtain ⟨two, last⟩ := Bool.and_eq_true_iff.1 h
  obtain ⟨b, c, rfl⟩ := List.length_eq_two.1 (by simpa using two)
  simp only [List.getLast?_cons_cons, List.getLast?_singleton, beq_iff_eq, Option.some.injEq] at last
  exact ⟨b, if_pos last⟩

/-- A parse that is the form. -/
theorem parsed_of_isSome {α : Type} {x : Option α} (h : x.isSome = true) : ∃ a, x = some a := Option.isSome_iff_exists.1 h

/-! ## The rows -/

/-- A row whose operation is its own and whose form is that its parameters are read. -/
theorem ChangeRow.staged_of_op {row : ChangeRow} {α : Type} (n : Nat) (parse : List Byte → Option α)
    (held : α → State → Bool) (effect : α → State → Reply) (op : row.op.toNat = n) (brings : Brings row.brings)
    (runs : ∀ s, exec row.command s = requestEvent (fun s =>
      request (isOp n) (fun q r => stages false held (parse q.params) effect r) (row.brings s)) s)
    (form : ∀ params, row.form params = true →
      ∃ a, parse params = some a ∧ ∀ e s, row.heldBack s params = held a (takeControl e (row.brings s))) : row.Staged :=
  ChangeRow.staged_of_request (isOp n) parse held effect brings runs fun _ params h =>
    ⟨by simp [isOp, op], form params h⟩

/-- A row that no SAVE holds back. -/
theorem ChangeRow.staged_free {α : Type} {op : Byte} {command : Instr} {read : List Byte → Bool} {brings : State → State}
    (n : Nat) (parse : List Byte → Option α) (effect : α → State → Reply) (hop : op.toNat = n) (hb : Brings brings)
    (runs : ∀ s, exec command s = requestEvent (fun s =>
      request (isOp n) (fun q r => stages false neverHeld (parse q.params) effect r) (brings s)) s)
    (form : ∀ params, read params = true → ∃ a, parse params = some a) : (ChangeRow.free op command read brings).Staged :=
  ChangeRow.staged_of_op n parse neverHeld effect hop hb runs fun params h =>
    (form params h).imp fun _ ha => ⟨ha, fun _ _ => rfl⟩

/-- A row that a SAVE in flight holds back. -/
theorem ChangeRow.staged_held {α : Type} {op : Byte} {command : Instr} {read : List Byte → Bool} {brings : State → State}
    (n : Nat) (parse : List Byte → Option α) (effect : α → State → Reply) (hop : op.toNat = n) (hb : Brings brings)
    (runs : ∀ s, exec command s = requestEvent (fun s =>
      request (isOp n) (fun q r => stages false alwaysHeld (parse q.params) effect r) (brings s)) s)
    (form : ∀ params, read params = true → ∃ a, parse params = some a) : (ChangeRow.held op command read brings).Staged :=
  ChangeRow.staged_of_op n parse alwaysHeld effect hop hb runs fun params h =>
    (form params h).imp fun _ ha => ⟨ha, fun _ _ => rfl⟩

/-- A row of SEGMENT_FORCE. -/
theorem ChangeRow.staged_force {command : Instr} {brings : State → State} (action : Byte) (mine : Request → Bool)
    (effect : Byte → State → Reply) (hb : Brings brings)
    (own : ∀ q, isForce action q = true → mine q = true)
    (runs : ∀ s, exec command s = requestEvent (fun s =>
      request mine (fun q r => stages false neverHeld (forceParam action q.params) effect r) (brings s)) s) :
    (ChangeRow.free 15#8 command (fun l => l.length == 2 && l.getLast? == some action) brings).Staged :=
  ChangeRow.staged_of_request mine (forceParam action) neverHeld effect hb runs fun tag params h => by
    obtain ⟨b, parsed⟩ := forceParam_of_form h
    refine ⟨own _ ?_, b, parsed, fun _ _ => rfl⟩
    simp [isForce, parsed, isOp, ChangeRow.free]

/-- ENTRY_RELEASE, which a SAVE holds back for a FIXED entry. -/
theorem ChangeRow.staged_entryRelease :
    ChangeRow.Staged
      { op := 10#8, command := .entryRelease, brings := id, form := fun l => l.length == 1
        heldBack := fun s l => (l.head?.bind (findEntry s)).any (fun e => decide (e.origin = .fixed)) } :=
  ChangeRow.staged_of_op 10 oneParam heldIfFixed releaseEntry rfl brings_id (fun _ => rfl) fun params h => by
    obtain ⟨b, parsed, rfl⟩ := oneParam_of_form h
    refine ⟨b, parsed, fun e s => ?_⟩
    show ((some b).bind (findEntry s)).any _ = ((findEntry (takeControl e s) b).map _).getD false
    rw [takeControl_findEntry, Option.bind_some]
    cases findEntry s b <;> rfl

/-- SAVE, which answers only where it is turned away (R186). -/
theorem ChangeRow.staged_save : (ChangeRow.held 26#8 .save (fun l => l.isEmpty)).Staged := by
  refine ⟨brings_id, fun e tag params s form asks => ?_⟩
  refine ⟨done (startSave tag e.route (takeControl e s)), fun refused => ?_⟩
  have parsed := noParams_of_form form
  have asks : Asks s e 26#8 tag params := asks
  show requestEvent takeSave s = _
  rw [requestEvent_of_running asks.1, takeSave]
  simp only [headControl_of_asks asks, parseRequest_cons]
  have own : isOp 26 { op := 26#8, tag := tag, params := params } = true := rfl
  rw [if_pos own, parsed]
  exact congrArg _ (if_neg refused)

/-- RESTART of either kind, which answers only where it is turned away (R207). -/
theorem ChangeRow.staged_restart {command : Instr} (factory : Bool) (mine : Request → Bool) (kind : Byte)
    (own : ∀ tag, mine { op := 27#8, tag := tag, params := [kind] } = true) (choice : boolOf kind = some factory)
    (runs : ∀ s, exec command s = requestEvent (takeRestart factory mine) s) :
    (ChangeRow.held 27#8 command (fun l => l == [kind])).Staged := by
  refine ⟨brings_id, fun e tag params s form asks => ?_⟩
  refine ⟨done (takeControl e s), fun refused => ?_⟩
  obtain rfl : params = [kind] := eq_of_beq form
  have parsed : restartKind [kind] = some factory := choice
  have asks : Asks s e 27#8 tag [kind] := asks
  show exec command s = _
  rw [runs, requestEvent_of_running asks.1, takeRestart]
  simp only [headControl_of_asks asks, parseRequest_cons, own tag, if_true, parsed]
  exact congrArg _ (if_neg refused)

/-- Every request that is no read goes through the stages (R178, R181, R186). -/
theorem staged_rows (now : Elapsed) (dt : Nat) : ∀ row ∈ changeRows now dt, row.Staged := by
  simp only [changeRows, List.forall_mem_cons, List.not_mem_nil, false_imp_iff, implies_true, and_true]
  refine ⟨?fix, ChangeRow.staged_entryRelease, ?suspend, ?resume, ?clearLearned, ?segmentSet, ?isolate, ?readmit, ?exemptOn,
    ?exemptOff, ?clear, ?enable, ?printer, ?form, ?purge, ?cancel, ?snapshot, ?alertSet, ?alertClear, ?office, ?trunk,
    ChangeRow.staged_save, ?keep, ?factory, ?causes⟩
  case fix => exact ChangeRow.staged_held 9 parseFix fixEntry rfl brings_id (fun _ => rfl) fun _ => parsed_of_isSome
  case suspend =>
    exact ChangeRow.staged_free 11 oneParam suspendEntry rfl brings_id (fun _ => rfl) fun _ h =>
      (oneParam_of_form h).imp fun _ => And.left
  case resume =>
    exact ChangeRow.staged_free 12 oneParam resumeEntry rfl brings_id (fun _ => rfl) fun _ h =>
      (oneParam_of_form h).imp fun _ => And.left
  case clearLearned =>
    exact ChangeRow.staged_free 13 noParams (fun _ => clearLearned) rfl brings_id (fun _ => rfl) fun _ h =>
      ⟨(), noParams_of_form h⟩
  case segmentSet =>
    refine ChangeRow.staged_held 14 parseSegmentSet setSegment rfl brings_id (fun _ => rfl) fun params h => ?_
    cases params with
    | nil => simp at h
    | cons b rest =>
      obtain ⟨v, hv⟩ := parsed_of_isSome (Bool.and_eq_true_iff.1 h).1
      exact ⟨(b, v.clamped), by rw [parseSegmentSet, show settingsOf rest = some v from hv]; rfl⟩
  case isolate =>
    exact ChangeRow.staged_force 0#8 _ forceIsolate (brings_elapse now) (fun q h => by simp [h]) fun _ => rfl
  case readmit => exact ChangeRow.staged_force 1#8 _ forceReadmit (brings_advance dt) (fun _ h => h) fun _ => rfl
  case exemptOn => exact ChangeRow.staged_force 2#8 _ (forceExempt true) brings_id (fun _ h => h) fun _ => rfl
  case exemptOff => exact ChangeRow.staged_force 3#8 _ (forceExempt false) brings_id (fun _ h => h) fun _ => rfl
  case clear => exact ChangeRow.staged_force 4#8 _ forceClear brings_id (fun _ h => h) fun _ => rfl
  case enable =>
    refine ChangeRow.staged_held 16 parsePortEnable setEnable rfl (brings_elapse now) (fun _ => rfl) fun params h => ?_
    obtain ⟨two, last⟩ := Bool.and_eq_true_iff.1 h
    obtain ⟨b, c, rfl⟩ := List.length_eq_two.1 (by simpa using two)
    rcases Bool.or_eq_true_iff.1 last with last | last
    · exact ⟨(b, false), by simp_all [parsePortEnable, boolOf]⟩
    · exact ⟨(b, true), by simp_all [parsePortEnable, boolOf]⟩
  case printer =>
    exact ChangeRow.staged_held 17 parsePrinterSet setPrinter rfl brings_id (fun _ => rfl) fun _ => parsed_of_isSome
  case form =>
    exact ChangeRow.staged_free 18 twoParams formLoaded rfl brings_id (fun _ => rfl) fun _ => twoParams_of_form
  case purge =>
    exact ChangeRow.staged_free 19 oneParam purgeQueue rfl brings_id (fun _ => rfl) fun _ h =>
      (oneParam_of_form h).imp fun _ => And.left
  case cancel =>
    exact ChangeRow.staged_free 20 twoParams cancelTicket rfl brings_id (fun _ => rfl) fun _ => twoParams_of_form
  case snapshot =>
    refine ChangeRow.staged_free 21 parseSnapshot snapshotAccounts rfl brings_id (fun _ => rfl) fun params h => ?_
    rcases Bool.or_eq_true_iff.1 h with h | h
    · exact ⟨true, by rw [eq_of_beq h]; rfl⟩
    · exact ⟨false, by rw [eq_of_beq h]; rfl⟩
  case alertSet =>
    exact ChangeRow.staged_held 22 parseAlertSet setAlerts rfl brings_id (fun _ => rfl) fun _ => parsed_of_isSome
  case alertClear =>
    exact ChangeRow.staged_free 23 parseAlertClear clearAlerts rfl brings_id (fun _ => rfl) fun _ => parsed_of_isSome
  case office =>
    exact ChangeRow.staged_held 24 parseOffice acceptOffice rfl brings_id (fun _ => rfl) fun _ => parsed_of_isSome
  case trunk =>
    exact ChangeRow.staged_held 25 parseTrunk acceptTrunk rfl (brings_elapse now) (fun _ => rfl) fun _ => parsed_of_isSome
  case keep => exact ChangeRow.staged_restart false _ 0#8 (fun _ => rfl) rfl fun _ => rfl
  case factory => exact ChangeRow.staged_restart true _ 1#8 (fun _ => rfl) rfl fun _ => rfl
  case causes =>
    exact ChangeRow.staged_free 28 noParams (fun _ s => done (clearCauses s)) rfl brings_id (fun _ => rfl) fun _ h =>
      ⟨(), noParams_of_form h⟩

/-- Settles O33. -/
theorem requestsAreTurnedAway : Obligations.RequestsAreTurnedAway := by
  intro e tag params dt n s
  refine ⟨fun commissioned noAdmin row mem form asks => ?_, fun allow save row mem form held asks =>
    (staged_rows dt n row mem).busy form asks allow save held⟩
  have deny : permitted e.route s = false := by
    cases sender : senderOf s e.route with
    | none => simp [permitted, commissioned, sender]
    | some x =>
      have plain : x.isAdmin = false := by
        rcases noAdmin x sender with h | h <;> simp [Entry.isAdmin, h]
      simp [permitted, commissioned, sender, plain]
  exact (staged_rows dt n row mem).not_permitted form asks deny

end Sys2Proof.Machine
end

