-- ==== Sys2Proof/Proofs/PortRequests.lean ====
section
/-!
The requests that act on a port (R133 to R137): what a port that takes a state leaves of its channel, what the enables are
after one was written, and the obligations about SEGMENT_FORCE and PORT_ENABLE.
-/

namespace Sys2Proof.Machine

/-! ## The channel of a port that takes a state -/

/-- A relay that moves leaves the transitions counted (R2, R3, R11). -/
theorem Segment.relayMoved_edges (old new : SupState) (now : Nat) (g : Segment) :
    (g.relayMoved old new now).current.edges = g.current.edges := by
  unfold Segment.relayMoved
  split
  · simp only [Segment.relayOpened]
    split <;> rfl
  · split <;> rfl

/-- A port that takes a state leaves the transitions counted on every segment. -/
theorem edges_setPortState (q : PortNo) (new : SupState) (s : State) (v : SegNo) :
    ((setPortState q new s).seg v).current.edges = (s.seg v).current.edges := by
  by_cases h : q = portOfSeg v
  · subst h
    rw [(seg_setPortState_self v new s).current, Segment.relayMoved_edges]
  · rw [(seg_setPortState_ne h new s).current]

/-- A port that takes a state leaves the other star ports, but for its own channel. -/
theorem starPort_setPortState_self (p : StarNo) (new : SupState) (s : State) :
    let moved := (s.starPort p).receiverMoved (s.port (portOfStar p)).state new
    (setPortState (portOfStar p) new s).starPort p =
      if starConnected s p && !new.inService then { moved with
        queue := [], tx := .idle, counters := { moved.counters with
          flushed := bumpBy moved.queue.length moved.counters.flushed } }
      else moved := by
  have own : ((s.modPort (portOfStar p) (fun r => { r with state := new })).modStar p
      (StarPort.receiverMoved (s.port (portOfStar p)).state new)).starPort p
        = (s.starPort p).receiverMoved (s.port (portOfStar p)).state new := State.starPort_modStar_self _ _ _
  rw [setPortState_portOfStar]
  simp only
  split
  · rw [starPort_flushStar, own]
  · exact own

/-- A segment that is not driven stays so in a flush (R27). -/
theorem driven_flushTrunk {s : State} {v : SegNo} (h : (s.seg v).driven = false) :
    ((flushTrunk s).seg v).driven = false := by
  cases down : trunkDown s with
  | false => rw [flushTrunk_of_up down]; exact h
  | true =>
    rw [flushTrunk_of_down down]
    simp only
    split
    · rw [releaseRepeater_seg]; exact Segment.stopDriving_driven _ _
    · exact h

/-- A connected segment that leaves service is let go, and gives the repeater up where it holds it (R2, R22). -/
theorem segment_leaves_service {t : SegNo} {new : SupState} {s : State} (connected : segConnected s t = true)
    (out : new.inService = false) :
    ((setPortState (portOfSeg t) new s).seg t).driven = false
      ∧ (s.trunk.holder = .segment t → RepeaterReleased (setPortState (portOfSeg t) new s)) := by
  rw [setPortState_portOfSeg]
  simp only [connected, out, Bool.not_false, Bool.and_self, if_true]
  generalize hm : (s.modPort (portOfSeg t) (fun r => { r with state := new })).modSeg t
    (Segment.relayMoved (s.port (portOfSeg t)).state new s.chassis.now) = m
  have holder : m.trunk.holder = s.trunk.holder := by subst hm; rfl
  unfold segLeaves
  simp only
  split
  · have released := repeaterReleased_releaseRepeater m
    exact ⟨driven_flushTrunk (released.2.1 t), fun _ => released.flushTrunk⟩
  · next other =>
    refine ⟨driven_flushTrunk ?_, fun held => absurd (holder.trans held) other⟩
    rw [State.seg_modSeg_self]
    exact Segment.stopDriving_driven _ _

/-! ## The requests -/

theorem portOf_port : ∀ q : PortNo, portOf (BitVec.ofNat 8 q.val) = some q := by decide

theorem withPort_port (q : PortNo) (s : State) (f : PortNo → Reply) : withPort (BitVec.ofNat 8 q.val) s f = f q := by
  rw [withPort, portOf_port]

theorem withPort_outside {b : Byte} (h : 12 ≤ b.toNat) (s : State) (f : PortNo → Reply) :
    withPort b s f = refuse .outOfRange s := by
  rw [withPort, portOf_of_lt h]

section
variable {s : State} {e : InputEntry} {op : Byte} {tag : BitVec 16} {params : List Byte}

/-- A request in its form, from a permitted sender, that no SAVE holds back comes to its effect, the arbiter's share and the
answer (R178, R182). -/
theorem exec_staged {row : State → State} (brings : Brings row) (asks : Asks s e op tag params)
    (allow : permitted e.route s = true) {command : Instr} {α : Type} {mine : Request → Bool} {parse : List Byte → Option α}
    {held : α → State → Bool} {effect : α → State → Reply} {a : α}
    (runs : exec command s = requestEvent (fun s =>
      request mine (fun q r => stages false held (parse q.params) effect r) (row s)) s)
    (own : mine { op := op, tag := tag, params := params } = true) (parsed : parse params = some a)
    (goes : held a (takeControl e (row s)) = false ∨ s.ctl.save = none) :
    exec command s = .next (answered e op tag (effect a (takeControl e (row s))).status
      (effect a (takeControl e (row s))).results (settle (row s) (effect a (takeControl e (row s))).state)) := by
  have pass : stages false held (some a) effect e.route (takeControl e (row s)) = effect a (takeControl e (row s)) := by
    have allowed : permitted e.route (takeControl e (row s)) = true := by
      rw [takeControl_permitted, brings.permitted]; exact allow
    rcases goes with h | h
    · simp only [stages, allowed, h, Bool.or_true, Bool.not_true, Bool.false_and, Bool.false_eq_true, if_false]
    · have none : (takeControl e (row s)).ctl.save = none := by
        obtain ⟨-, ctl, -⟩ := brings s
        rw [takeControl_ctl, ctl]
        exact h
      exact stages_of_free _ _ _ _ _ _ allowed none
  rw [runs, requestEvent_of_running asks.1, request_of_asks (brings.asks asks), if_pos own, parsed]
  show Host.Outcome.next (answerRequest _ _ _ (stages false held (some a) effect e.route (takeControl e (row s)))) = _
  rw [pass]
  rfl

/-- What the arbiter's share and the answer leave. -/
theorem arbiterOnly_answered (st : Status) (results : List Chunk) (before x : State) :
    ArbiterOnly x (answered e op tag st results (settle before x)) :=
  (arbiterOnly_settle before x).trans (onlySends_answered e op tag st results _).arbiter

/-- They leave every flag but the two of the Print Arbiter. -/
theorem flagOf_answered {k : AlertKind} (hk : k.apartFromPrint) (i : Nat) (st : Status) (results : List Chunk)
    (before x : State) : flagOf (answered e op tag st results (settle before x)) k i = flagOf x k i := by
  rw [flagOf_of_onlySends i (onlySends_answered e op tag st results _), flagOf_settle hk]

/-- A star port that is cut off is as silent after them (R40). -/
theorem silent_answered {p : StarNo} (st : Status) (results : List Chunk) {before x : State}
    (cut : starConnected x p = false) (queue : (x.starPort p).queue = []) (tx : (x.starPort p).tx = .idle) :
    ((answered e op tag st results (settle before x)).starPort p).queue = []
      ∧ ((answered e op tag st results (settle before x)).starPort p).tx = .idle := by
  have share := arbiterOnly_answered (e := e) (op := op) (tag := tag) st results before x
  have silent : QueueRule.Holds (.starSilence p) x := fun _ => ⟨queue, tx⟩
  refine (silent.after_settle (before := before)).after_sendControl ?_
  exact (starConnected_congr (by rw [share.sup]) p (share.link p)).trans cut

end

/-! ## SEGMENT_FORCE ISOLATE -/

theorem forceParam_pair (b a : Byte) : forceParam a [b, a] = some b := if_pos rfl

theorem isForce_pair (tag : BitVec 16) (b a : Byte) : isForce a { op := 15#8, tag := tag, params := [b, a] } = true := by
  simp [isForce, isOp, forceParam_pair]

section
variable {s : State} {e : InputEntry} {tag : BitVec 16} {b : Byte} (allow : permitted e.route s = true)
include allow

theorem exec_isolate (asks : Asks s e 15#8 tag [b, 0#8]) (now : Elapsed) :
    let reply := forceIsolate b (takeControl e (s.elapse now))
    exec (.segmentForceIsolate now) s
      = .next (answered e 15#8 tag reply.status reply.results (settle (s.elapse now) reply.state)) :=
  exec_staged (brings_elapse now) asks allow (mine := fun q => isForce 0#8 q || isForceBad q) (parse := forceParam 0#8)
    (held := neverHeld) (effect := forceIsolate) rfl (by rw [isForce_pair]; rfl) (forceParam_pair b 0#8) (.inl rfl)

theorem exec_readmit (asks : Asks s e 15#8 tag [b, 1#8]) (dt : Nat) :
    let reply := forceReadmit b (takeControl e (s.advance dt))
    exec (.segmentForceReadmit dt) s
      = .next (answered e 15#8 tag reply.status reply.results (settle (s.advance dt) reply.state)) :=
  exec_staged (brings_advance dt) asks allow (mine := isForce 1#8) (parse := forceParam 1#8) (held := neverHeld)
    (effect := forceReadmit) rfl (isForce_pair tag b 1#8) (forceParam_pair b 1#8) (.inl rfl)

/-- The three actions that change a port's record alone (R135, R136). -/
theorem exec_record {q : PortNo} {action : Byte} {command : Instr} (asks : Asks s e 15#8 tag [BitVec.ofNat 8 q.val, action])
    (f : PortRec → PortRec) (still : ∀ r, (f r).state = r.state)
    (runs : exec command s = requestEvent (fun s => request (isForce action) (fun q r =>
      stages false neverHeld (forceParam action q.params) (fun b s => withPort b s fun q => done (s.modPort q f)) r) s) s) :
    exec command s = .next (answered e 15#8 tag .done [] ((takeControl e s).modPort q f)) := by
  rw [exec_staged brings_id asks allow runs (isForce_pair tag _ action) (forceParam_pair _ action) (.inl rfl)]
  simp only [withPort_port, id]
  refine congrArg (fun x => Host.Outcome.next (answered e 15#8 tag .done [] x)) ?_
  refine settle_of_states rfl (fun r => ?_) fun _ => rfl
  show (((takeControl e s).modPort q f).port r).state = _
  rw [State.port_modPort]
  split
  · exact still _
  · rfl

end

/-! ## What ISOLATE leaves of the channel -/

/-- A transition count that time brings to a burst (R11). -/
theorem edges_elapse {s : State} {v : SegNo} (burst : (s.seg v).phase = .burst) (now : Elapsed) :
    ((s.elapse now).seg v).current.edges = min ((s.seg v).current.edges + now.edges[v.val]) 65535 := by
  rw [State.elapse_seg, Segment.noteEdges_eq, if_pos burst]

/-- What time and the line bring, as a whole state (R11). -/
theorem elapse_eq (now : Elapsed) (s : State) :
    s.elapse now = { (s.advance now.ticks) with
      trunk := { s.trunk with segs := Vector.ofFn (fun v : SegNo =>
        { s.seg v with
          current := if (s.seg v).phase = .burst
            then { (s.seg v).current with edges := min ((s.seg v).current.edges + now.edges[v.val]) 65535 }
            else (s.seg v).current }) } } := by
  have segs : (s.elapse now).trunk.segs = Vector.ofFn (fun v : SegNo => (s.seg v).noteEdges now.edges[v.val]) := by
    refine Vector.ext fun i h => ?_
    rw [Vector.getElem_ofFn]
    exact State.elapse_seg s now ⟨i, h⟩
  simp only [Segment.noteEdges_eq] at segs
  rw [← segs]
  rfl

/-- A segment that is held hears no more: its burst is abandoned (R2). -/
theorem seg_held {t : SegNo} {s : State} (hears : (s.port (portOfSeg t)).state.listens = true) :
    ((setPortState (portOfSeg t) .held s).seg t).phase = .quiet
      ∧ ((s.seg t).phase = .burst →
        ((setPortState (portOfSeg t) .held s).seg t).current = { (s.seg t).current with cls := .abandoned }) := by
  have moved := seg_setPortState_self t .held s
  rw [Segment.relayMoved, hears] at moved
  rw [moved.phase, moved.current]
  exact ⟨rfl, fun burst => if_pos burst⟩

/-- A star port that is held hears no more (R33). -/
theorem rx_held {p : StarNo} {s : State} (hears : (s.port (portOfStar p)).state.listens = true) :
    ((setPortState (portOfStar p) .held s).starPort p).rx = .idle := by
  rw [starPort_setPortState_self, StarPort.receiverMoved, hears]
  split <;> rfl

/-- A connected star port that leaves service has nothing to send (R40). -/
theorem star_leaves_service {p : StarNo} {new : SupState} {s : State} (connected : starConnected s p = true)
    (out : new.inService = false) :
    ((setPortState (portOfStar p) new s).starPort p).queue = []
      ∧ ((setPortState (portOfStar p) new s).starPort p).tx = .idle := by
  rw [starPort_setPortState_self, connected, out]
  exact ⟨rfl, rfl⟩

/-- The two timers of a port become 0 (R133). -/
def PortRec.stopTimers (r : PortRec) : PortRec := { r with holdRemaining := 0, probationRemaining := 0 }

theorem forceIsolate_of_serving {q : PortNo} {s : State}
    (h : (s.port q).state = .openMode ∨ (s.port q).state = .active ∨ (s.port q).state = .isolated
      ∨ (s.port q).state = .probation) :
    forceIsolate (BitVec.ofNat 8 q.val) s = done (holdByOrder q s) := by
  rw [forceIsolate, withPort_port]
  rcases h with h | h | h | h <;> rw [h]

/-- A command whose row is not that of the request changes what time and the line bring alone (log entry 3). -/
theorem exec_of_other {s : State} {e : InputEntry} {op : Byte} {tag : BitVec 16} {params : List Byte} {command : Instr}
    {row : State → State} (brings : Brings row) (asks : Asks s e op tag params) {mine : Request → Bool}
    {handle : Request → Route → State → Reply}
    (runs : exec command s = requestEvent (fun s => request mine handle (row s)) s)
    (other : mine { op := op, tag := tag, params := params } = false) : exec command s = .next (row s) := by
  rw [runs, requestEvent_of_running asks.1, request_of_other (brings.asks asks) mine handle other]

theorem isOp_of_ne {n : Nat} (small : n < 256) {op : Byte} (h : op ≠ BitVec.ofNat 8 n) (tag : BitVec 16) (params : List Byte) :
    isOp n { op := op, tag := tag, params := params } = false :=
  decide_eq_false fun same => h (BitVec.eq_of_toNat_eq (by
    rw [show op.toNat = n from same, BitVec.toNat_ofNat, Nat.mod_eq_of_lt small]))

section
variable {q : PortNo} {x u : State} (share : ArbiterOnly (holdByOrder q x) u)
include share

/-- The record of a port that is held (R133). -/
theorem port_of_hold (p : PortNo) : u.port p =
    if p = q then { x.port q with state := .held, holdRemaining := 0, probationRemaining := 0 } else x.port p := by
  rw [share.port, holdByOrder, port_setPortState, State.port_modPort]
  split
  · next h => subst h; rfl
  · rfl

/-- A held segment hears nothing, drives nothing and holds nothing (R2, R22). -/
theorem segment_of_hold {t : SegNo} (here : q = portOfSeg t) :
    relayClosed u t = false
      ∧ ((x.port q).state.listens = true → (u.seg t).phase = .quiet
        ∧ ((x.seg t).phase = .burst → (u.seg t).current = { (x.seg t).current with cls := .abandoned }))
      ∧ (segConnected x t = true → (u.seg t).driven = false
        ∧ (x.trunk.holder = .segment t → u.trunk.holder = .none ∧ u.trunk.truncate = false)) := by
  subst here
  have state : ((x.modPort (portOfSeg t) PortRec.stopTimers).port (portOfSeg t)).state = (x.port (portOfSeg t)).state := by
    rw [State.port_modPort_self]; rfl
  refine ⟨?_, fun hears => ?_, fun connected => ?_⟩
  · rw [relayClosed, port_of_hold share, if_pos rfl]
    exact Bool.and_false _
  · rw [share.seg]
    exact seg_held (s := x.modPort (portOfSeg t) PortRec.stopTimers) (state ▸ hears)
  · obtain ⟨free, released⟩ := segment_leaves_service (s := x.modPort (portOfSeg t) PortRec.stopTimers) (new := .held)
      (by rw [segConnected, state]; exact connected) rfl
    refine ⟨by rw [share.seg]; exact free, fun holds => ?_⟩
    have gone : RepeaterReleased u := (released holds).of_channelsStand share.channelsStand
    exact ⟨gone.1, gone.2.2⟩

/-- A held star port is cut off and hears nothing (R33). -/
theorem starPort_of_hold {p : StarNo} (here : q = portOfStar p) :
    starConnected u p = false ∧ ((x.port q).state.listens = true → (u.starPort p).rx = .idle) := by
  subst here
  refine ⟨?_, fun hears => ?_⟩
  · rw [starConnected, port_of_hold share, if_pos rfl]
    rfl
  · rw [share.2 p]
    refine rx_held (s := x.modPort (portOfStar p) PortRec.stopTimers) ?_
    rw [State.port_modPort_self]
    exact hears

end

/-! ## What READMIT leaves of the channel -/

/-- A port that returns to service has its fault history and its timers cleared (R134). -/
def PortRec.restored (r : PortRec) : PortRec :=
  { r.clearCounts with score := 0, holdRemaining := 0, probationRemaining := 0, clean := 0 }

theorem forceReadmit_of_out {q : PortNo} {s : State}
    (h : (s.port q).state = .isolated ∨ (s.port q).state = .held ∨ (s.port q).state = .probation) :
    forceReadmit (BitVec.ofNat 8 q.val) s = done (readmitByOrder q s) := by
  rw [forceReadmit, withPort_port]
  rcases h with h | h | h <;> rw [h]

theorem forceReadmit_of_serving {q : PortNo} {s : State} (h : (s.port q).state = .active ∨ (s.port q).state = .openMode) :
    forceReadmit (BitVec.ofNat 8 q.val) s = done s := by
  rw [forceReadmit, withPort_port]
  rcases h with h | h <;> rw [h]

theorem inService_serviceState (s : State) : (serviceState s).inService = true := by
  unfold serviceState
  split <;> rfl

theorem listens_serviceState (s : State) : (serviceState s).listens = true := by
  unfold serviceState
  split <;> rfl

theorem link_modStar {v : StarNo} {f : StarPort → StarPort} (hf : ∀ x, (f x).link = x.link) (s : State) (p : StarNo) :
    ((s.modStar v f).starPort p).link = (s.starPort p).link := by
  rw [State.starPort_modStar]
  split
  · exact hf _
  · rfl

theorem link_flushStar (v : StarNo) (s : State) (p : StarNo) : ((flushStar v s).starPort p).link = (s.starPort p).link := by
  rw [flushStar, (onlySends_dropRefs _ _).link]
  refine link_modStar (fun _ => ?_) s p
  rfl

/-- A port that takes a state keeps its link. -/
theorem link_setPortState (q : PortNo) (new : SupState) (s : State) (p : StarNo) :
    ((setPortState q new s).starPort p).link = (s.starPort p).link := by
  rcases port_cases q with ⟨t, rfl⟩ | ⟨v, rfl⟩
  · rw [setPortState_portOfSeg]
    simp only
    split
    · rw [segLeaves_eq]; rfl
    · rfl
  · have moved : (((s.modPort (portOfStar v) (fun r => { r with state := new })).modStar v
        (StarPort.receiverMoved (s.port (portOfStar v)).state new)).starPort p).link = (s.starPort p).link :=
      link_modStar (fun x => by rw [StarPort.receiverMoved_eq]) _ p
    rw [setPortState_portOfStar]
    simp only
    split
    · exact (link_flushStar v _ p).trans moved
    · exact moved

section
variable {q : PortNo} {x u : State} (share : ArbiterOnly (readmitByOrder q x) u)
include share

/-- The record of a port that is readmitted (R134). -/
theorem port_of_readmit (p : PortNo) : u.port p =
    if p = q then { (x.port q).restored with state := serviceState x } else x.port p := by
  rw [share.port, readmitByOrder, port_setPortState, State.port_modPort]
  split
  · next h => subst h; rfl
  · rfl

/-- A readmitted segment is connected, its relay closed (R134). -/
theorem segment_of_readmit {t : SegNo} (runs : x.isRunning = true) (here : q = portOfSeg t) :
    relayClosed u t = true ∧ segConnected u t = true := by
  subst here
  have running : u.isRunning = true := by
    rw [State.isRunning, share.chassis, ((channelOnly_iff _ _).1 (channelOnly_readmitByOrder _ x)).2.1]
    exact runs
  rw [relayClosed, segConnected, running, port_of_readmit share, if_pos rfl]
  exact ⟨listens_serviceState x, inService_serviceState x⟩

/-- A readmitted star port is connected where its link is up (R30). -/
theorem starConnected_of_readmit {p : StarNo} (here : q = portOfStar p) : starConnected u p = (x.starPort p).link := by
  subst here
  have link : (u.starPort p).link = (x.starPort p).link := by
    rw [share.link, readmitByOrder, link_setPortState]
    rfl
  rw [starConnected, link, port_of_readmit share, if_pos rfl]
  exact (congrArg (· && _) (inService_serviceState x)).trans (Bool.true_and _)

end

/-! ## The obligation on SEGMENT_FORCE -/

section
variable {s : State} {e : InputEntry} {tag : BitVec 16} {b : Byte} {st : Status} (allow : permitted e.route s = true)
include allow

/-- An ISOLATE that leaves the port as it stands is answered from the state taken. -/
theorem exec_isolate_still (asks : Asks s e 15#8 tag [b, 0#8]) (now : Elapsed)
    (effect : forceIsolate b (takeControl e (s.elapse now))
      = { status := st, results := [], state := takeControl e (s.elapse now) }) :
    exec (.segmentForceIsolate now) s = .next (answered e 15#8 tag st [] (takeControl e (s.elapse now))) := by
  rw [exec_isolate allow asks now, effect]
  exact congrArg (fun x => Host.Outcome.next (answered e 15#8 tag st [] x)) (settle_eq_self rfl rfl fun _ => rfl)

/-- A READMIT that leaves the port as it stands is answered from the state taken. -/
theorem exec_readmit_still (asks : Asks s e 15#8 tag [b, 1#8]) (dt : Nat)
    (effect : forceReadmit b (takeControl e (s.advance dt))
      = { status := st, results := [], state := takeControl e (s.advance dt) }) :
    exec (.segmentForceReadmit dt) s = .next (answered e 15#8 tag st [] (takeControl e (s.advance dt))) := by
  rw [exec_readmit allow asks dt, effect]
  exact congrArg (fun x => Host.Outcome.next (answered e 15#8 tag st [] x)) (settle_eq_self rfl rfl fun _ => rfl)

end

/-- Settles O38, action by action. -/
theorem portIsForced : Obligations.PortIsForced := by
  intro e tag q now dt s allow r b late elapsed
  refine ⟨elapse_eq now s, fun op params asks => ⟨fun ne => ?_, fun ne => ?_, fun ne => ?_⟩, fun asks serving => ?_,
    fun asks off => ?_, fun asks held => ?_, fun b asks outside => ?_, fun asks off => ?_, fun asks serves => ?_,
    fun asks out => ?_,
    fun asks => exec_record allow asks (fun r => { r with exempt := true }) (fun _ => rfl) rfl,
    fun asks => exec_record allow asks (fun r => { r with exempt := false }) (fun _ => rfl) rfl,
    fun asks => exec_record allow asks PortRec.wiped (fun _ => rfl) rfl⟩
  · refine exec_of_other (brings_elapse now) asks rfl ?_
    simp only [isForce, isForceBad, isOp_of_ne (n := 15) (by omega) ne, Bool.false_and,
      Bool.or_self]
  · exact exec_of_other (brings_elapse now) asks rfl (isOp_of_ne (n := 16) (by omega) ne _ _)
  · exact exec_of_other (brings_elapse now) asks rfl (isOp_of_ne (n := 25) (by omega) ne _ _)
  · have effect := forceIsolate_of_serving (s := elapsed) serving
    have run : exec (.segmentForceIsolate now) s
        = .next (answered e 15#8 tag .done [] (settle (s.elapse now) (holdByOrder q elapsed))) := by
      rw [exec_isolate allow asks now, effect]
      rfl
    have share := arbiterOnly_answered (e := e) (op := 15#8) (tag := tag) .done [] (s.elapse now) (holdByOrder q elapsed)
    refine ⟨_, run, ?_, ?_, fun t here => ?_, fun p here => ?_, fun v burst => ?_, rfl, fun p ne => ?_, ?_⟩
    · exact (port_of_hold share q).trans (if_pos rfl)
    · exact (flagOf_answered ⟨by decide, by decide⟩ _ _ _ _ _).trans
        (flagOf_congr (congrArg Alerts.flags (alerts_setPortState _ _ _)) _ _)
    · obtain ⟨open_, heard, let_go⟩ := segment_of_hold share here
      have state : r.state = (s.port (portOfSeg t)).state := by rw [← here]
      refine ⟨open_, fun closed => ?_, let_go⟩
      obtain ⟨quiet, abandoned⟩ := heard ((congrArg SupState.listens state).trans (Bool.and_eq_true_iff.1 closed).2)
      refine ⟨quiet, fun burst => ?_⟩
      rw [abandoned (by rw [takeControl_seg, State.elapse_seg, Segment.noteEdges_phase]; exact burst), takeControl_seg,
        State.elapse_seg, Segment.noteEdges_eq, if_pos burst]
    · obtain ⟨cut, heard⟩ := starPort_of_hold share here
      refine ⟨cut, heard, fun connected => ?_⟩
      subst here
      obtain ⟨queue, tx⟩ := star_leaves_service (new := .held) (s := elapsed.modPort (portOfStar p) PortRec.stopTimers)
        (by rw [starConnected, State.port_modPort_self]; exact connected) rfl
      exact silent_answered .done [] (starPort_of_hold (.refl _) rfl).1 queue tx
    · rw [share.seg, holdByOrder, edges_setPortState]
      exact edges_elapse burst now
    · exact (port_of_hold share p).trans (if_neg ne)
    · exact (channelOnly_holdByOrder q elapsed).trans share.channel
  · have effect : forceIsolate b elapsed = refuse .conflict elapsed := by
      rw [forceIsolate, withPort_port, show (elapsed.port q).state = .off from off]
    exact exec_isolate_still allow asks now effect
  · have effect : forceIsolate b elapsed = done elapsed := by
      rw [forceIsolate, withPort_port, show (elapsed.port q).state = .held from held]
    exact exec_isolate_still allow asks now effect
  · exact exec_isolate_still allow asks now (withPort_outside outside elapsed _)
  · have effect : forceReadmit b late = refuse .conflict late := by
      rw [forceReadmit, withPort_port, show (late.port q).state = .off from off]
    exact exec_readmit_still allow asks dt effect
  · exact exec_readmit_still allow asks dt (forceReadmit_of_serving (s := late) serves)
  · have run := exec_readmit allow asks dt
    simp only at run
    rw [show forceReadmit b (takeControl e (s.advance dt)) = _ from forceReadmit_of_out (s := late) out] at run
    have share := arbiterOnly_answered (e := e) (op := 15#8) (tag := tag) .done [] (s.advance dt) (readmitByOrder q late)
    refine ⟨_, run, ?_, ?_, fun t here => segment_of_readmit share asks.1 here, fun p here => starConnected_of_readmit share here,
      fun p ne => ?_, ?_⟩
    · exact (port_of_readmit share q).trans (if_pos rfl)
    · exact (flagOf_answered ⟨by decide, by decide⟩ _ _ _ _ _).trans
        (flagOf_congr (congrArg Alerts.flags (alerts_setPortState _ _ _)) _ _)
    · exact (port_of_readmit share p).trans (if_neg ne)
    · exact (channelOnly_readmitByOrder q late).trans share.channel

end Sys2Proof.Machine
end

