-- ==== Sys2Proof/Proofs/PortEnables.lean ====
section
/-!
What a port makes of its enable (R137): the enables after one was written, the record of a port that acts on a change, and
the obligation about PORT_ENABLE.
-/

namespace Sys2Proof.Machine

/-! ## The enables -/

theorem portEnabled_congr {s u : State} (plans : u.segPlans = s.segPlans) (office : u.office = s.office) (q : PortNo) :
    portEnabled u q = portEnabled s q := by
  rw [portEnabled, portEnabled, plans, office]

/-- An enable that is written changes the enables of the two plans alone. -/
theorem writeEnable_eq (q : PortNo) (on : Bool) (s : State) : writeEnable q on s =
    { s with segPlans := (writeEnable q on s).segPlans,
             office := { s.office with enables := (writeEnable q on s).office.enables } } := by
  unfold writeEnable
  split <;> rfl

theorem portEnabled_portOfSeg (s : State) (t : SegNo) : portEnabled s (portOfSeg t) = s.segPlans[t.val].enable := by
  rw [portEnabled, splitPort_portOfSeg]

theorem portEnabled_portOfStar (s : State) (p : StarNo) : portEnabled s (portOfStar p) = s.office.enables[p.val] := by
  rw [portEnabled, splitPort_portOfStar]

/-- The enables after one was written: the one is as written, and the others stand (R137). -/
theorem portEnabled_writeEnable (q p : PortNo) (on : Bool) (s : State) :
    portEnabled (writeEnable q on s) p = if p = q then on else portEnabled s p := by
  rcases port_cases q with ⟨t, rfl⟩ | ⟨v, rfl⟩ <;> rcases port_cases p with ⟨t', rfl⟩ | ⟨v', rfl⟩
  · simp only [writeEnable, splitPort_portOfSeg, portEnabled_portOfSeg, modAt_get, portOfSeg_inj]
    split <;> rfl
  · rw [writeEnable, splitPort_portOfSeg, if_neg (portOfStar_ne_portOfSeg v' t)]
    simp only [portEnabled_portOfStar]
  · rw [writeEnable, splitPort_portOfStar, if_neg (portOfStar_ne_portOfSeg v t').symm]
    simp only [portEnabled_portOfSeg]
  · simp only [writeEnable, splitPort_portOfStar, portEnabled_portOfStar, modAt_get, portOfStar_inj]

/-! ## A port that acts on its enable -/

/-- The record of a port whose enable was turned off (R137). -/
def PortRec.disabled (r : PortRec) : PortRec :=
  { r with state := .off, holdRemaining := 0, probationRemaining := 0, clean := 0 }

/-- The record of a port whose enable was turned on, which takes the state of service (R137). -/
def PortRec.enabled (service : SupState) (r : PortRec) : PortRec := { r.clearCounts with score := 0, state := service }

/-- The record of a port after its enable went from one value to another (R137). -/
def PortRec.enableMoved (old new : Bool) (service : SupState) (r : PortRec) : PortRec :=
  match old, new with
  | true, false => r.disabled
  | false, true => r.enabled service
  | true, true => r
  | false, false => r

theorem PortRec.enableMoved_same (b : Bool) (service : SupState) (r : PortRec) : r.enableMoved b b service = r := by
  cases b <;> rfl

theorem port_actOnEnable (q p : PortNo) (old new : Bool) (s : State) :
    (actOnEnable q old new s).port p = if p = q then (s.port q).enableMoved old new (serviceState s) else s.port p := by
  cases old <;> cases new
  · exact (ite_eq_right_iff.2 fun h => by rw [h]; rfl).symm
  · rw [actOnEnable, enablePort, port_setPortState, State.port_modPort]
    split
    · next h => subst h; rfl
    · rfl
  · rw [actOnEnable, disablePort, port_setPortState, State.port_modPort]
    split
    · next h => subst h; rfl
    · rfl
  · exact (ite_eq_right_iff.2 fun h => by rw [h]; rfl).symm

/-- A port that acts on its enable leaves the transitions counted on every segment (R11). -/
theorem edges_actOnEnable (q : PortNo) (old new : Bool) (s : State) (v : SegNo) :
    ((actOnEnable q old new s).seg v).current.edges = (s.seg v).current.edges := by
  cases old <;> cases new
  · rfl
  · exact edges_setPortState q _ _ v
  · exact edges_setPortState q _ _ v
  · rfl

/-! ## The obligation on PORT_ENABLE -/

theorem parsePortEnable_pair (b : Byte) (on : Bool) : parsePortEnable [b, if on then 1#8 else 0#8] = some (b, on) := by
  cases on <;> rfl

theorem exec_portEnable {s : State} {e : InputEntry} {tag : BitVec 16} {q : PortNo} {on : Bool}
    (asks : Asks s e 16#8 tag [BitVec.ofNat 8 q.val, if on then 1#8 else 0#8]) (free : Free s e) (now : Elapsed) :
    exec (.portEnable now) s = .next (answered e 16#8 tag .done [] (settle (s.elapse now)
      (actOnEnable q (portEnabled s q) on (writeEnable q on (takeControl e (s.elapse now)))))) := by
  obtain ⟨allow, idle⟩ := free
  rw [exec_staged (brings_elapse now) asks allow (command := .portEnable now) (mine := isOp 16) (parse := parsePortEnable)
    (held := alwaysHeld) (effect := setEnable) rfl rfl (parsePortEnable_pair _ on) (.inr idle), setEnable, withPort_port]
  rfl

/-- What an enable that is written leaves of the records, the segments and the state of service. -/
theorem writeEnable_stands (q : PortNo) (on : Bool) (s : State) :
    (∀ p, (writeEnable q on s).port p = s.port p) ∧ (∀ v, (writeEnable q on s).seg v = s.seg v)
      ∧ serviceState (writeEnable q on s) = serviceState s := by
  rw [writeEnable_eq]
  exact ⟨fun _ => rfl, fun _ => rfl, rfl⟩

/-- Settles O39. -/
theorem portIsEnabled : Obligations.PortIsEnabled := by
  intro e tag q on now s asks free r
  have share := arbiterOnly_answered (e := e) (op := 16#8) (tag := tag) .done [] (s.elapse now)
    (actOnEnable q (portEnabled s q) on (writeEnable q on (takeControl e (s.elapse now))))
  refine ⟨_, exec_portEnable asks free now, ?_⟩
  generalize answered _ _ _ _ _ _ = u at share ⊢
  obtain ⟨records, segs, service⟩ := writeEnable_stands q on (takeControl e (s.elapse now))
  have written := writeEnable_eq q on (takeControl e (s.elapse now))
  have enables := fun p => portEnabled_writeEnable q p on (takeControl e (s.elapse now))
  generalize writeEnable q on (takeControl e (s.elapse now)) = w at share records segs service written enables
  have port : ∀ p, u.port p = if p = q then r.enableMoved (portEnabled s q) on (serviceState s) else s.port p := fun p => by
    rw [share.port, port_actOnEnable, records, records, service]
    rfl
  have channel := (channelOnly_actOnEnable q (portEnabled s q) on w).trans share.channel
  obtain ⟨-, -, -, -, office, plans, -⟩ := (channelOnly_iff _ _).1 channel
  have enabled : ∀ p, portEnabled u p = if p = q then on else portEnabled s p := fun p =>
    (portEnabled_congr plans office p).trans (enables p)
  have own := (port q).trans (if_pos rfl)
  refine ⟨(enabled q).trans (if_pos rfl), fun was off => ?_, fun was goes => ?_, fun same => ?_,
    fun p ne => ⟨(port p).trans (if_neg ne), (enabled p).trans (if_neg ne)⟩, fun v burst => ?_, ?_⟩
  · rw [own, was, off]
    rfl
  · rw [own, was, goes]
    rfl
  · rw [own, same, PortRec.enableMoved_same]
  · rw [share.seg, edges_actOnEnable, segs]
    exact edges_elapse burst now
  · rw [plans, office]
    rw [written] at channel
    exact channel

end Sys2Proof.Machine
end

