-- ==== Sys2Proof/Proofs/PlansTaken.lean ====
section
/-!
What a plan that is accepted brings about (R184, R185, R206): each port acts on its own enable, and commissioning follows.
One rule says what a run over the ports makes of each record; with what commissioning changes it gives what either plan
leaves.
-/

namespace Sys2Proof.Machine

/-! ## A run over ports -/

/-- A run of steps that each keep something keeps it. -/
theorem foldl_keeps {α β : Type} (step : State → α → State) (what : State → β) (keeps : ∀ x a, what (step x a) = what x)
    (l : List α) (s : State) : what (l.foldl step s) = what s := by
  induction l generalizing s with
  | nil => rfl
  | cons a l ih => rw [List.foldl_cons, ih, keeps]

section
variable {α : Type} {port : α → PortNo} {step : State → α → State} {change : α → PortRec → PortRec} {service : SupState}
  (service_kept : ∀ x a, serviceState x = service → serviceState (step x a) = service)
  (steps : ∀ x a p, serviceState x = service →
    (step x a).port p = if p = port a then change a (x.port p) else x.port p)
include service_kept steps

/-- A run over ports leaves the port of none of them. -/
theorem port_foldl_of_ne {p : PortNo} {l : List α} (apart : ∀ a ∈ l, p ≠ port a) {s : State}
    (serves : serviceState s = service) : (l.foldl step s).port p = s.port p := by
  induction l generalizing s with
  | nil => rfl
  | cons a l ih =>
    obtain ⟨here, rest⟩ := List.forall_mem_cons.1 apart
    rw [List.foldl_cons, ih rest (service_kept s a serves), steps s a p serves, if_neg here]

/-- A run over ports makes of each its own step's change. -/
theorem port_foldl_of_mem (inj : port.Injective) {l : List α} (once : l.Nodup) {a : α} (mem : a ∈ l) {s : State}
    (serves : serviceState s = service) : (l.foldl step s).port (port a) = change a (s.port (port a)) := by
  induction l generalizing s with
  | nil => exact absurd mem List.not_mem_nil
  | cons b l ih =>
    obtain ⟨fresh, once⟩ := List.nodup_cons.1 once
    rw [List.foldl_cons]
    rcases List.mem_cons.1 mem with rfl | later
    · rw [port_foldl_of_ne service_kept steps (fun c hc same => fresh ((inj same : a = c) ▸ hc)) (service_kept s a serves),
        steps s a _ serves, if_pos rfl]
    · have ne : a ≠ b := fun same => fresh (same ▸ later)
      rw [ih once later (service_kept s b serves), steps s b _ serves, if_neg (fun same => ne (inj same))]

end

/-! ## Every port acts on its enable -/

/-- Each of some ports acts on its enable, in their order (R184, R185; log entry 15). -/
def actOnEnables {α : Type} (port : α → PortNo) (old new : α → Bool) (l : List α) (s : State) : State :=
  l.foldl (fun x a => actOnEnable (port a) (old a) (new a) x) s

section
variable {α : Type} {port : α → PortNo} {old new : α → Bool}

theorem channelOnly_actOnEnables (l : List α) (s : State) : ChannelOnly s (actOnEnables port old new l s) :=
  ChannelOnly.foldl _ (fun s a => channelOnly_actOnEnable (port a) (old a) (new a) s) l s

theorem ChannelOnly.serviceState {s u : State} (h : ChannelOnly s u) : serviceState u = serviceState s := by
  obtain ⟨-, -, -, -, -, -, -, -, -, -, ctl⟩ := (channelOnly_iff _ _).1 h
  rw [Machine.serviceState, ctl, Machine.serviceState]

theorem port_actOnEnables (inj : port.Injective) {l : List α} (once : l.Nodup) {a : α} (mem : a ∈ l) (s : State) :
    (actOnEnables port old new l s).port (port a)
      = (s.port (port a)).enableMoved (old a) (new a) (serviceState s) := by
  refine port_foldl_of_mem (service := serviceState s)
    (change := fun a r => r.enableMoved (old a) (new a) (serviceState s))
    (fun x a h => (channelOnly_actOnEnable _ _ _ x).serviceState.trans h) (fun x a p h => ?_) inj once mem rfl
  rw [port_actOnEnable, h]
  exact ite_congr rfl (fun same => by rw [same]) fun _ => rfl

theorem edges_actOnEnables (l : List α) (s : State) (v : SegNo) :
    ((actOnEnables port old new l s).seg v).current.edges = (s.seg v).current.edges :=
  foldl_keeps _ (fun x => (x.seg v).current.edges) (fun x a => edges_actOnEnable (port a) (old a) (new a) x v) l s

end

/-! ## Commissioning -/

/-- The conditions of R206. -/
def commissionable (s : State) : Bool := s.ctl.officeMark && s.ctl.trunkMark && hasAdmin s

/-- The record of a port when the bridge is commissioned (R138). -/
def PortRec.commissioned (r : PortRec) : PortRec := if r.state = .openMode then { r with state := .active } else r

theorem PortRec.commissioned_of_ne {r : PortRec} (h : r.state ≠ .openMode) : r.commissioned = r := if_neg h

/-- What commissioning changes (R138, R198, R206). -/
theorem commission_eq (s : State) : ∃ a : Alerts, commission s =
    { s with
      ctl := { s.ctl with commissioned := s.ctl.commissioned || commissionable s },
      sup := { s.sup with ports := if !s.ctl.commissioned && commissionable s
        then s.sup.ports.map PortRec.commissioned else s.sup.ports },
      alerts := a } := by
  have cond : (!s.ctl.commissioned && s.ctl.officeMark && s.ctl.trunkMark && hasAdmin s)
      = (!s.ctl.commissioned && commissionable s) := by simp only [commissionable, Bool.and_assoc]
  unfold commission
  rw [cond]
  cases h : !s.ctl.commissioned && commissionable s with
  | true =>
    obtain ⟨fresh, ready⟩ := Bool.and_eq_true_iff.1 h
    rw [ready, Bool.or_true]
    obtain ⟨a, e, -⟩ := raiseBacklog_eq
      { s with
        ctl := { s.ctl with commissioned := true },
        sup := { s.sup with ports := s.sup.ports.map (fun r => if r.state = .openMode then { r with state := .active } else r) } }
    exact ⟨a, e⟩
  | false =>
    have same : (s.ctl.commissioned || commissionable s) = s.ctl.commissioned := by
      cases hc : s.ctl.commissioned
      · rw [hc] at h; exact h
      · rfl
    rw [same]
    exact ⟨s.alerts, rfl⟩

theorem port_commission (s : State) (q : PortNo) : (commission s).port q =
    if !s.ctl.commissioned && commissionable s then (s.port q).commissioned else s.port q := by
  obtain ⟨a, e⟩ := commission_eq s
  rw [e]
  cases h : !s.ctl.commissioned && commissionable s with
  | true => exact Vector.getElem_map _ _
  | false => rfl

/-! ## What a plan leaves -/

/-- What commissioning and the arbiter's share leave: plans, directory, chassis, input queues, drop counters, period and
channels; and the control marks but for the commissioned one. -/
def PlanStands (s u : State) : Prop :=
  u.office = s.office ∧ u.segPlans = s.segPlans ∧ u.dir = s.dir ∧ u.chassis = s.chassis ∧ u.inputs = s.inputs
    ∧ u.drops = s.drops ∧ u.sup.period = s.sup.period ∧ u.ctl.officeMark = s.ctl.officeMark
    ∧ u.ctl.trunkMark = s.ctl.trunkMark

theorem PlanStands.trans {s x u : State} (h : PlanStands s x) (k : PlanStands x u) : PlanStands s u := by
  obtain ⟨h1, h2, h3, h4, h5, h6, h7, h8, h9⟩ := h
  obtain ⟨k1, k2, k3, k4, k5, k6, k7, k8, k9⟩ := k
  exact ⟨k1.trans h1, k2.trans h2, k3.trans h3, k4.trans h4, k5.trans h5, k6.trans h6, k7.trans h7, k8.trans h8, k9.trans h9⟩

theorem ChannelOnly.planStands {s u : State} (h : ChannelOnly s u) : PlanStands s u := by
  obtain ⟨-, chassis, inputs, drops, office, plans, dir, sup, -, -, ctl⟩ := (channelOnly_iff _ _).1 h
  exact ⟨office, plans, dir, chassis, inputs, drops, by rw [sup], by rw [ctl], by rw [ctl]⟩

theorem planStands_commission (s : State) : PlanStands s (commission s) := by
  obtain ⟨a, e⟩ := commission_eq s
  rw [e]
  exact ⟨rfl, rfl, rfl, rfl, rfl, rfl, rfl, rfl, rfl⟩

section
variable {α : Type} {port : α → PortNo} {old new : α → Bool} (inj : port.Injective) {l : List α} (once : l.Nodup)
  {s u : State} (share : ArbiterOnly (commission (actOnEnables port old new l s)) u)
include share

theorem plan_stands : PlanStands s u :=
  ((channelOnly_actOnEnables l s).planStands.trans (planStands_commission _)).trans share.channel.planStands

/-- Either plan commissions the bridge where the conditions hold (R206). -/
theorem plan_commissions : u.ctl.commissioned = (s.ctl.commissioned || commissionable s) := by
  obtain ⟨-, -, -, -, -, -, -, -, -, -, -, ctl, -⟩ := (arbiterOnly_iff _ _).1 share
  obtain ⟨a, e⟩ := commission_eq (actOnEnables port old new l s)
  obtain ⟨-, -, -, -, -, -, dir, -, -, -, acted⟩ :=
    (channelOnly_iff _ _).1 (channelOnly_actOnEnables (port := port) (old := old) (new := new) l s)
  rw [ctl, e, commissionable, hasAdmin, acted, dir]
  rfl

theorem plan_port (q : PortNo) : u.port q =
    if !s.ctl.commissioned && commissionable s then ((actOnEnables port old new l s).port q).commissioned
    else (actOnEnables port old new l s).port q := by
  obtain ⟨-, -, -, -, -, -, dir, -, -, -, acted⟩ :=
    (channelOnly_iff _ _).1 (channelOnly_actOnEnables (port := port) (old := old) (new := new) l s)
  rw [share.port, port_commission, commissionable, hasAdmin, acted, dir]
  rfl

/-- A bridge that was just commissioned has no port OPEN (R138). -/
theorem plan_leaves_no_open (fresh : s.ctl.commissioned = false) (ready : commissionable s = true) (q : PortNo) :
    (u.port q).state ≠ .openMode := by
  rw [plan_port share, fresh, ready]
  show PortRec.state (PortRec.commissioned _) ≠ _
  unfold PortRec.commissioned
  split
  · exact nofun
  · assumption

include inj once

/-- A port whose enable a plan turns off is OFF (R137). -/
theorem plan_turns_off {a : α} (mem : a ∈ l) (was : old a = true) (off : new a = false) :
    (u.port (port a)).state = .off := by
  have acted : (actOnEnables port old new l s).port (port a) = (s.port (port a)).disabled := by
    rw [port_actOnEnables inj once mem, was, off]
    rfl
  rw [plan_port share, acted]
  split <;> rfl

/-- A port whose enable a plan turns on is in service, by the mode that the plan leaves, with a score of 0 (R137, R138). -/
theorem plan_turns_on {a : α} (mem : a ∈ l) (was : old a = false) (on : new a = true) :
    (u.port (port a)).state = (if u.ctl.commissioned then .active else .openMode) ∧ (u.port (port a)).score = 0 := by
  have acted : (actOnEnables port old new l s).port (port a) = (s.port (port a)).enabled (serviceState s) := by
    rw [port_actOnEnables inj once mem, was, on]
    rfl
  rw [plan_port share, acted, plan_commissions share, serviceState]
  cases s.ctl.commissioned <;> cases commissionable s <;> exact ⟨rfl, rfl⟩

/-- A port whose enable a plan leaves stands, but for commissioning (R138). -/
theorem plan_leaves {a : α} (mem : a ∈ l) (same : old a = new a) (settled : (s.port (port a)).state ≠ .openMode) :
    u.port (port a) = s.port (port a) := by
  have acted : (actOnEnables port old new l s).port (port a) = s.port (port a) := by
    rw [port_actOnEnables inj once mem, same, PortRec.enableMoved_same]
  rw [plan_port share, acted, PortRec.commissioned_of_ne settled, ite_self]

/-- A plan leaves the settings of a port, staged and current. -/
theorem plan_leaves_settings {a : α} (mem : a ∈ l) : (u.port (port a)).staged = (s.port (port a)).staged
    ∧ (u.port (port a)).pending = (s.port (port a)).pending ∧ (u.port (port a)).current = (s.port (port a)).current := by
  have acted := port_actOnEnables inj once mem s (old := old) (new := new)
  have kept : ∀ r : PortRec, (r.commissioned.staged = r.staged ∧ r.commissioned.pending = r.pending
      ∧ r.commissioned.current = r.current) := fun r => by
    unfold PortRec.commissioned
    split <;> exact ⟨rfl, rfl, rfl⟩
  have moved : ∀ r : PortRec, (r.enableMoved (old a) (new a) (serviceState s)).staged = r.staged
      ∧ (r.enableMoved (old a) (new a) (serviceState s)).pending = r.pending
      ∧ (r.enableMoved (old a) (new a) (serviceState s)).current = r.current := fun r => by
    cases old a <;> cases new a <;> exact ⟨rfl, rfl, rfl⟩
  rw [plan_port share, acted]
  obtain ⟨m1, m2, m3⟩ := moved (s.port (port a))
  split
  · obtain ⟨k1, k2, k3⟩ := kept ((s.port (port a)).enableMoved (old a) (new a) (serviceState s))
    exact ⟨k1.trans m1, k2.trans m2, k3.trans m3⟩
  · exact ⟨m1, m2, m3⟩

omit inj once

/-- The bursts in progress keep the transitions counted (R11). -/
theorem plan_leaves_edges (v : SegNo) : (u.seg v).current.edges = (s.seg v).current.edges := by
  obtain ⟨a, e⟩ := commission_eq (actOnEnables port old new l s)
  have commissioned : (commission (actOnEnables port old new l s)).seg v = (actOnEnables port old new l s).seg v := by
    rw [e]
    rfl
  rw [share.seg, commissioned, edges_actOnEnables]

end

/-! ## The obligation -/

/-- An office plan in force with its mark, before its enables act (R184). -/
def State.takeOffice (p : OfficePlan) (s : State) : State :=
  { s with office := p, ctl := { s.ctl with officeMark := true } }

/-- A trunk plan in force with its mark, its settings staged on ports 0–3, before its enables act (R185). -/
def State.takeTrunk (p : TrunkReq) (s : State) : State :=
  (List.finRange 4).foldl (fun x t => x.modPort (portOfSeg t) (PortRec.stage p.settings))
    { s with segPlans := p.plans, ctl := { s.ctl with trunkMark := true } }

theorem portOfSeg_injective : portOfSeg.Injective := fun _ _ => portOfSeg_inj.1

theorem portOfStar_injective : portOfStar.Injective := fun _ _ => portOfStar_inj.1

theorem acceptOffice_of_passed {p : OfficePlan} {s : State} (passed : officeRefusal p s = none) :
    acceptOffice p s = done (commission (actOnEnables portOfStar (fun q => s.office.enables[q.val])
      (fun q => p.enables[q.val]) (List.finRange 8) (s.takeOffice p))) := by
  rw [acceptOffice, passed]
  rfl

theorem acceptTrunk_eq (p : TrunkReq) (s : State) :
    acceptTrunk p s = done (commission (actOnEnables portOfSeg (fun t => s.segPlans[t.val].enable)
      (fun t => p.plans[t.val].enable) (List.finRange 4) (s.takeTrunk p))) := rfl

/-- A trunk plan stages its settings on each segment's port (R185). -/
theorem port_takeTrunk (p : TrunkReq) (s : State) (t : SegNo) :
    (s.takeTrunk p).port (portOfSeg t) = (s.port (portOfSeg t)).stage p.settings :=
  port_foldl_of_mem (step := fun x t => x.modPort (portOfSeg t) (PortRec.stage p.settings))
    (change := fun _ => PortRec.stage p.settings) (fun _ _ h => h)
    (fun x v q _ => State.port_modPort x (portOfSeg v) q _) portOfSeg_injective (List.nodup_finRange 4)
    (List.mem_finRange t) rfl

theorem channelOnly_takeTrunk (p : TrunkReq) (s : State) :
    ChannelOnly { s with segPlans := p.plans, ctl := { s.ctl with trunkMark := true } } (s.takeTrunk p) :=
  ChannelOnly.foldl _ (fun x t => channelOnly_modPort (portOfSeg t) _ x) _ _

theorem trunk_takeTrunk (p : TrunkReq) (s : State) : (s.takeTrunk p).trunk = s.trunk :=
  foldl_keeps (fun x t => x.modPort (portOfSeg t) (PortRec.stage p.settings)) State.trunk (fun _ _ => rfl) _ _

section
variable {s : State} {e : InputEntry} {tag : BitVec 16} {params : List Byte} (free : Free s e)
include free

theorem exec_officePlan {p : OfficePlan} (asks : Asks s e 24#8 tag params) (parsed : parseOffice params = some p) :
    let reply := acceptOffice p (takeControl e s)
    exec .officePlan s = .next (answered e 24#8 tag reply.status reply.results (settle s reply.state)) :=
  exec_staged brings_id asks free.1 (command := .officePlan) (mine := isOp 24) (parse := parseOffice) (held := alwaysHeld)
    (effect := acceptOffice) rfl rfl parsed (.inr free.2)

theorem exec_trunkPlan {p : TrunkReq} (asks : Asks s e 25#8 tag params) (parsed : parseTrunk params = some p)
    (now : Elapsed) :
    let reply := acceptTrunk p (takeControl e (s.elapse now))
    exec (.trunkPlan now) s = .next (answered e 25#8 tag reply.status reply.results (settle (s.elapse now) reply.state)) :=
  exec_staged (brings_elapse now) asks free.1 (command := .trunkPlan now) (mine := isOp 25) (parse := parseTrunk)
    (held := alwaysHeld) (effect := acceptTrunk) rfl rfl parsed (.inr free.2)

end

/-- Settles O44, plan by plan. -/
theorem plansAreAccepted : Obligations.PlansAreAccepted := by
  intro e tag params now s free service
  refine ⟨fun p st asks parsed refused => ?_, fun p asks parsed passed => ?_, fun p asks parsed => ?_⟩
  · have effect : acceptOffice p (takeControl e s) = refuse st (takeControl e s) := by
      rw [acceptOffice, show officeRefusal p (takeControl e s) = some st from refused]
    rw [exec_officePlan free asks parsed, effect]
    exact congrArg (fun x => Host.Outcome.next (answered e 24#8 tag st [] x)) (settle_eq_self rfl rfl fun _ => rfl)
  · have once := List.nodup_finRange 8
    have share := arbiterOnly_answered (e := e) (op := 24#8) (tag := tag) .done [] s (commission (actOnEnables portOfStar
      (fun q => s.office.enables[q.val]) (fun q => p.enables[q.val]) (List.finRange 8) ((takeControl e s).takeOffice p)))
    have run := exec_officePlan free asks parsed
    simp only [acceptOffice_of_passed (s := takeControl e s) passed] at run
    refine ⟨_, run, ?_⟩
    simp only [done, takeControl_office]
    generalize answered _ _ _ _ _ _ = u at share ⊢
    obtain ⟨office, plans, dir, chassis, inputs, drops, period, mark, -⟩ := plan_stands share
    have commissions := plan_commissions share
    have ready : commissionable ((takeControl e s).takeOffice p) = (s.ctl.trunkMark && hasAdmin s) := rfl
    rw [ready] at commissions
    refine ⟨office, mark, plans, period,
      fun q was off => plan_turns_off portOfStar_injective once share (List.mem_finRange q) was off,
      fun q was on => plan_turns_on portOfStar_injective once share (List.mem_finRange q) was on,
      fun q same settled => plan_leaves portOfStar_injective once share (List.mem_finRange q) same settled,
      fun other admin => ?_, fun lacks => ?_, dir, chassis, inputs, drops⟩
    · rw [other, admin] at commissions ready
      exact ⟨commissions.trans (Bool.or_true _), fun fresh => plan_leaves_no_open share fresh ready⟩
    · rw [Bool.and_eq_false_iff.2 lacks, Bool.or_false] at commissions
      exact commissions
  · have once := List.nodup_finRange 4
    have share := arbiterOnly_answered (e := e) (op := 25#8) (tag := tag) .done [] (s.elapse now)
      (commission (actOnEnables portOfSeg (fun t => s.segPlans[t.val].enable) (fun t => p.plans[t.val].enable)
        (List.finRange 4) ((takeControl e (s.elapse now)).takeTrunk p)))
    have run := exec_trunkPlan free asks parsed now
    simp only [acceptTrunk_eq] at run
    refine ⟨_, run, ?_⟩
    simp only [done, takeControl_segPlans, State.elapse_segPlans]
    have staged := port_takeTrunk p (takeControl e (s.elapse now))
    have trunk := trunk_takeTrunk p (takeControl e (s.elapse now))
    have taken := channelOnly_takeTrunk p (takeControl e (s.elapse now))
    generalize State.takeTrunk p (takeControl e (s.elapse now)) = y at share staged trunk taken ⊢
    generalize answered _ _ _ _ _ _ = u at share ⊢
    obtain ⟨office, plans, dir, chassis, inputs, drops, -, -, mark⟩ := taken.planStands.trans (plan_stands share)
    obtain ⟨-, -, -, -, -, -, entries, -, -, -, ctl⟩ := (channelOnly_iff _ _).1 taken
    have commissions := plan_commissions share
    have mode : y.ctl.commissioned = s.ctl.commissioned := by rw [ctl]; rfl
    have ready : commissionable y = (s.ctl.officeMark && hasAdmin s) := by
      rw [commissionable, hasAdmin, ctl, entries]
      exact congrArg (· && _) (Bool.and_true _)
    rw [mode, ready] at commissions
    refine ⟨plans, mark, office, fun t => ?_,
      fun t was off => plan_turns_off portOfSeg_injective once share (List.mem_finRange t) was off,
      fun t was on => plan_turns_on portOfSeg_injective once share (List.mem_finRange t) was on,
      fun lacks => ?_, fun other admin => ?_, fun v burst => ?_, dir, chassis, inputs, drops⟩
    · have kept := plan_leaves_settings portOfSeg_injective once share (List.mem_finRange t)
      rw [staged t] at kept
      exact kept
    · rw [Bool.and_eq_false_iff.2 lacks, Bool.or_false] at commissions
      exact commissions
    · rw [other, admin] at commissions ready
      exact ⟨commissions.trans (Bool.or_true _), fun fresh => plan_leaves_no_open share (mode.trans fresh) ready⟩
    · rw [plan_leaves_edges share, State.seg, trunk]
      exact edges_elapse burst now

end Sys2Proof.Machine
end

