-- ==== Sys2Proof/Proofs/StarFrames.lean ====
section
/-!
The frame of a star port from end to end (R35, R39, R209 to R211): a frame as it is built is GOOD and its fields come back,
and a port sends the head of its queue.
-/

namespace Sys2Proof.Machine

/-! ## A frame as it is built -/

/-- The four bytes of a 32-bit value are that value (R209). -/
theorem be32_u32 (x : BitVec 32) :
    be32 (x.extractLsb' 24 8) (x.extractLsb' 16 8) (x.extractLsb' 8 8) (x.extractLsb' 0 8) = x :=
  Option.some.inj (idParam_u32 x)

section
variable (a : StarAddr) (kind : Byte) (payload : List Byte)

theorem length_starFrameBody : (starFrameBody a kind payload).length = 11 + payload.length :=
  Nat.add_comm payload.length 11

theorem length_starFrame : (starFrame a kind payload).length = 13 + payload.length := by
  have check : (checkBytes (crc16 (starFrameBody a kind payload))).length = 2 := rfl
  rw [starFrame, List.length_append, length_starFrameBody, check]
  omega

variable {payload} (short : payload.length ≤ 1500)
include short

/-- The length field of a frame as it is built is the length of its payload (Table 12-2). -/
theorem starLength_starFrame : starLength (starFrame a kind payload) = payload.length :=
  be16_u16 (by omega)

/-- A frame as it is built fits the receive store (R34). -/
theorem take_starFrame : (starFrame a kind payload).take 1513 = starFrame a kind payload :=
  List.take_of_length_le (by rw [length_starFrame]; omega)

/-- A frame as it is built passes every test of Table 2-2 (R35, R210). -/
theorem classifyStar_starFrame : classifyStar (starFrame a kind payload) (13 + payload.length) = .good := by
  have body : (starFrameBody a kind payload).length = 13 + payload.length - 2 := by
    rw [length_starFrameBody]; omega
  have checked : checkBytes (crc16 ((starFrame a kind payload).take (13 + payload.length - 2)))
      = (starFrame a kind payload).drop (13 + payload.length - 2) := by
    rw [starFrame, List.take_left' body, List.drop_left' body]
  rw [classifyStar, if_neg (by omega), if_neg (by omega), starLength_starFrame a kind short, if_neg (not_not.2 rfl),
    if_neg (not_not.2 checked)]

/-- The fields of a frame as it is built come back (R211, Table 12-2). -/
theorem starRxOf_starFrame :
    starRxOf (starFrame a kind payload) = { dst := a.dst, src := a.src, kind := kind, payload := payload } := by
  have dst : be32 (byteAt (starFrame a kind payload) 0) (byteAt (starFrame a kind payload) 1)
      (byteAt (starFrame a kind payload) 2) (byteAt (starFrame a kind payload) 3) = a.dst := be32_u32 a.dst
  have src : starSource (starFrame a kind payload) = a.src := be32_u32 a.src
  have field : byteAt (starFrame a kind payload) 8 = kind := rfl
  have rest : (starFrame a kind payload).drop 11 = payload ++ checkBytes (crc16 (starFrameBody a kind payload)) := rfl
  rw [starRxOf, dst, src, field, rest, starLength_starFrame a kind short, List.take_left' rfl]

end

/-- Settles O53. -/
theorem starFrameIsGood : Obligations.StarFrameIsGood := by
  intro a kind payload short f
  rw [take_starFrame a kind short, length_starFrame]
  exact ⟨classifyStar_starFrame a kind short, starRxOf_starFrame a kind short⟩

/-! ## Sending (R39) -/

/-- A change of a star port that keeps its link leaves nothing for the arbiter to do. -/
theorem settle_modStar {p : StarNo} {f : StarPort → StarPort} (hf : ∀ x, (f x).link = x.link) (s : State) :
    settle s (s.modStar p f) = s.modStar p f :=
  settle_eq_self rfl rfl (link_modStar hf s)

/-- Settles O14. -/
theorem starPortSends : Obligations.StarPortSends := by
  intro p b rest s run queue
  refine ⟨fun connected idle => ?_, fun f sending => ?_⟩
  · have started : sendStart p s = s.modStar p (fun x => { x with tx := .sending (bufStarFrame (s.buf b)) }) := by
      simp only [sendStart, queue, connected, idle, decide_true, Bool.and_self, if_true]
    show execSendStart p s = _
    rw [execSendStart, event_of_running run, started, settle_modStar fun _ => ?_]
    rfl
  · have completed : sendCompletion p s = dropRef b (s.modStar p (fun x => { x with
        queue := rest, tx := .idle, counters := { x.counters with txFrames := bump x.counters.txFrames } })) := by
      simp only [sendCompletion, sending, queue]
    show execSendCompletion p s = _
    rw [execSendCompletion, event_of_running run, completed]
    refine congrArg _ (settle_eq_self rfl rfl fun v => ?_)
    refine ((onlySends_dropRef b _).link v).trans (link_modStar (fun _ => ?_) s v)
    rfl

end Sys2Proof.Machine
end

