-- ==== Sys2Proof/Proofs/StarOffers.lean ====
section
/-!
What offering frames leaves of the star ports (R38): receiver, line, link and transmitter stand, the counters but for those
of refused offers, and the queue of a port that is not connected. The Print Arbiter's share of an event and the bridging of
a star frame do nothing else to the star side.
-/

namespace Sys2Proof.Machine

/-! ## The relation -/

/-- The supervision records stand, and of every star port all but its queue and its counts of refused offers; the queue of
a port that is not connected stands too. -/
def OffersOnly (s u : State) : Prop :=
  u.sup = s.sup ∧ ∀ p,
    u.starPort p = { s.starPort p with
      queue := (u.starPort p).queue, counters := { (s.starPort p).counters with
        queueFull := (u.starPort p).counters.queueFull, notConnected := (u.starPort p).counters.notConnected } }
    ∧ (starConnected s p = false → (u.starPort p).queue = (s.starPort p).queue)

theorem OffersOnly.refl (s : State) : OffersOnly s s := ⟨rfl, fun _ => ⟨rfl, fun _ => rfl⟩⟩

/-- A change elsewhere in the state. -/
theorem OffersOnly.of_eq {s u : State} (sup : u.sup = s.sup) (star : u.star = s.star) : OffersOnly s u := by
  have port : ∀ p, u.starPort p = s.starPort p := fun p => by rw [State.starPort, star, State.starPort]
  exact ⟨sup, fun p => by rw [port]; exact ⟨rfl, fun _ => rfl⟩⟩

section
variable {s u : State} (h : OffersOnly s u)
include h

theorem OffersOnly.starPort (p : StarNo) : u.starPort p = { s.starPort p with
    queue := (u.starPort p).queue, counters := { (s.starPort p).counters with
      queueFull := (u.starPort p).counters.queueFull, notConnected := (u.starPort p).counters.notConnected } } :=
  (h.2 p).1

theorem OffersOnly.port (q : PortNo) : u.port q = s.port q := by rw [State.port, h.1, State.port]

theorem OffersOnly.starConnected (p : StarNo) : Machine.starConnected u p = Machine.starConnected s p :=
  starConnected_congr (by rw [h.1]) p (by rw [h.starPort])

theorem OffersOnly.queue {p : StarNo} (cut : Machine.starConnected s p = false) :
    (u.starPort p).queue = (s.starPort p).queue := (h.2 p).2 cut

end

theorem OffersOnly.trans {s t u : State} (h : OffersOnly s t) (k : OffersOnly t u) : OffersOnly s u := by
  refine ⟨k.1.trans h.1, fun p => ⟨?_, fun cut => ?_⟩⟩
  · have kp := k.starPort p
    rw [h.starPort p] at kp
    exact kp
  · rw [k.queue ((h.starConnected p).trans cut), h.queue cut]

/-- A list of steps that each only offer. -/
theorem OffersOnly.foldl {α : Type} (f : State → α → State) (hf : ∀ s a, OffersOnly s (f s a)) (l : List α) (s : State) :
    OffersOnly s (l.foldl f s) := by
  induction l generalizing s with
  | nil => exact .refl s
  | cons a l ih => exact (hf s a).trans (ih _)

/-! ## Offers and the bridge's own frames -/

/-- A change of one star port that an offer makes. -/
theorem offersOnly_modStar {p : StarNo} {f : StarPort → StarPort} {s : State}
    (hf : ∀ x, f x = { x with
      queue := (f x).queue, counters := { x.counters with
        queueFull := (f x).counters.queueFull, notConnected := (f x).counters.notConnected } })
    (hq : starConnected s p = false → ∀ x, (f x).queue = x.queue) : OffersOnly s (s.modStar p f) := by
  refine ⟨rfl, fun v => ?_⟩
  by_cases hv : v = p
  · subst hv
    rw [State.starPort_modStar_self]
    exact ⟨hf _, fun cut => hq cut _⟩
  · rw [State.starPort_modStar_ne _ _ hv]
    exact ⟨rfl, fun _ => rfl⟩

theorem offersOnly_modBuf (b : BufId) (f : Buf → Buf) (s : State) : OffersOnly s (s.modBuf b f) := .of_eq rfl rfl

/-- An offer to a star transmit queue (R38). -/
theorem offersOnly_offerStar (p : StarNo) (b : BufId) (s : State) : OffersOnly s (offerStar p b s) := by
  unfold offerStar
  split
  · exact offersOnly_modStar (fun _ => rfl) fun _ _ => rfl
  · next on =>
    have connected : starConnected s p = true := by simpa using on
    split
    · exact offersOnly_modStar (fun _ => rfl) fun _ _ => rfl
    · exact (offersOnly_modStar (fun _ => rfl) fun cut => absurd connected (by rw [cut]; decide)).trans
        (offersOnly_modBuf b _ _)

theorem offersOnly_offerStars (ps : List StarNo) (b : BufId) (s : State) : OffersOnly s (offerStars ps b s) :=
  OffersOnly.foldl _ (fun s p => offersOnly_offerStar p b s) ps s

/-- An offer to the trunk transmit queue leaves the star side (R25). -/
theorem offersOnly_offerTrunk (b : BufId) (s : State) : OffersOnly s (offerTrunk b s) := by
  unfold offerTrunk
  split
  · exact .of_eq rfl rfl
  · split
    · exact .of_eq rfl rfl
    · exact .of_eq rfl rfl

theorem offersOnly_deliver (b : BufId) (d : Dest) (s : State) : OffersOnly s (deliver b d s) := by
  cases d with
  | trunk c => exact (offersOnly_modBuf b _ s).trans (offersOnly_offerTrunk b _)
  | star p x => exact (offersOnly_modBuf b _ s).trans (offersOnly_offerStar p b _)
  | flood x => exact (offersOnly_modBuf b _ s).trans (offersOnly_offerStars _ b _)
  | nowhere => exact .refl s

theorem offersOnly_takeBuf {kind : Byte} {payload : List Byte} {s s1 : State} {b : BufId}
    (h : takeBuf kind payload s = some (b, s1)) : OffersOnly s s1 := by
  unfold takeBuf at h
  split at h
  · cases h
  · cases h; exact offersOnly_modBuf _ _ _

/-- A frame of the bridge's own (R66). -/
theorem offersOnly_sendBuilt {kind : Byte} {payload : List Byte} {d : Dest} {s s1 : State}
    (h : sendBuilt kind payload d s = some s1) : OffersOnly s s1 := by
  unfold sendBuilt at h
  split at h
  · cases h
  · next b s2 taken =>
    cases h
    exact ((offersOnly_takeBuf taken).trans (offersOnly_deliver b d s2)).trans (offersOnly_modBuf b _ _)

theorem offersOnly_endHold (held : Option BufId) (s : State) : OffersOnly s (endHold held s) := by
  cases held with
  | none => exact .refl s
  | some b => exact offersOnly_modBuf b _ s

theorem offersOnly_setFlag (k : AlertKind) (i : Nat) (d : Option Byte) (s : State) : OffersOnly s (setFlag k i d s) := by
  obtain ⟨a, h, -⟩ := setFlag_eq k i d s
  rw [h]
  exact .of_eq rfl rfl

/-! ## The Print Arbiter's share of an event -/

theorem offersOnly_sendAnswer (d : Dest) (a : PrintAnswer) (q n : Byte) (s : State) :
    OffersOnly s (sendAnswer d a q n s) := by
  unfold sendAnswer
  split
  · next sent => exact offersOnly_sendBuilt sent
  · exact .of_eq rfl rfl

theorem offersOnly_sendEnding (q : QueueNo) (payload : List Byte) (s : State) :
    OffersOnly s (sendEnding q payload s) := by
  unfold sendEnding
  split
  · exact .refl s
  · split
    · split
      · next sent => exact offersOnly_sendBuilt sent
      · exact .of_eq rfl rfl
    · exact .refl s

theorem offersOnly_modPrinter (q : QueueNo) (f : Printer → Printer) (s : State) : OffersOnly s (s.modPrinter q f) :=
  .of_eq rfl rfl

theorem offersOnly_abandonAndTell (q : QueueNo) (t : Ticket) (s : State) : OffersOnly s (abandonAndTell q t s) := by
  refine OffersOnly.trans ?_ (offersOnly_sendAnswer _ _ _ _ _)
  simp only [endGrant, if_true]
  refine OffersOnly.trans ?_ (offersOnly_setFlag _ _ _ _)
  exact (offersOnly_sendEnding q _ s).trans (.of_eq rfl rfl)

theorem offersOnly_grantTicket (told : Bool) (q : QueueNo) (t : Ticket) (s : State) :
    OffersOnly s (grantTicket told q t s) := by
  simp only [grantTicket]
  split
  · exact offersOnly_modPrinter q _ s
  · exact (offersOnly_modPrinter q _ s).trans (offersOnly_sendAnswer _ _ _ _ _)

theorem offersOnly_awaitForm (q : QueueNo) (f : Fin 16) (s : State) : OffersOnly s (awaitForm q f s) := by
  unfold awaitForm
  split
  · exact .refl s
  · exact (offersOnly_modPrinter q _ s).trans (offersOnly_setFlag _ _ _ _)

theorem offersOnly_select (o : Option (QueueNo × Nat)) (q : QueueNo) (s : State) : OffersOnly s (select o q s) := by
  unfold select
  split
  · split
    · exact offersOnly_grantTicket _ _ _ _
    · exact offersOnly_awaitForm _ _ _
    · exact offersOnly_modPrinter q _ s
  · exact .refl s

theorem offersOnly_clearLostCredit (before : State) (q : QueueNo) (s : State) :
    OffersOnly s (clearLostCredit before q s) := by
  unfold clearLostCredit
  split
  · exact offersOnly_modPrinter q _ s
  · exact .refl s

theorem offersOnly_endLostGrant (q : QueueNo) (s : State) : OffersOnly s (endLostGrant q s) := by
  unfold endLostGrant
  split
  · exact .refl s
  · split
    · exact .refl s
    · exact offersOnly_abandonAndTell _ _ _

/-- The arbiter's share of an event only offers (R144). -/
theorem offersOnly_settle (before s : State) : OffersOnly s (settle before s) := by
  unfold settle
  split
  · exact .refl s
  · exact ((OffersOnly.foldl _ (fun s q => offersOnly_clearLostCredit before q s) _ s).trans
      (OffersOnly.foldl _ (fun s q => offersOnly_endLostGrant q s) _ _)).trans
      (OffersOnly.foldl _ (fun s q => offersOnly_select none q s) _ _)

/-! ## The bridging of a star frame -/

theorem offersOnly_modEntry (c : DeskCode) (f : Entry → Entry) (s : State) : OffersOnly s (s.modEntry c f) :=
  .of_eq rfl rfl

theorem offersOnly_modDrops (q : PortNo) (f : Drops → Drops) (s : State) : OffersOnly s (s.modDrops q f) := .of_eq rfl rfl

theorem offersOnly_suspendTimed (r : TimedReason) (c : DeskCode) (s : State) : OffersOnly s (suspendTimed r c s) := by
  unfold suspendTimed
  split
  · exact .refl s
  · split
    · exact (offersOnly_modEntry c _ s).trans (offersOnly_setFlag _ _ _ _)
    · exact .refl s

theorem offersOnly_moveEntry (c : DeskCode) (home : SegNo ⊕ StarNo) (s : State) : OffersOnly s (moveEntry c home s) := by
  unfold moveEntry
  simp only
  split
  · exact offersOnly_modEntry _ _ _
  · split
    · exact (offersOnly_modEntry c _ s).trans (offersOnly_suspendTimed _ _ _)
    · exact (offersOnly_modEntry c _ s).trans (offersOnly_modEntry _ _ _)

/-- Learning from a star frame (Table 4-5). -/
theorem offersOnly_learnStar (p : StarNo) (x : StationId) (s : State) : OffersOnly s (learnStar p x s) := by
  unfold learnStar
  split
  · split
    · exact .refl s
    · split
      · split
        · exact offersOnly_modEntry _ _ _
        · exact offersOnly_moveEntry _ _ _
      · exact (offersOnly_modEntry _ _ s).trans (offersOnly_modEntry _ _ _)
      · exact .refl s
  · split
    · exact .of_eq rfl rfl
    · exact offersOnly_setFlag _ _ _ s

/-- The broadcast window (R103, R104). -/
theorem offersOnly_applyWindow (e : Entry) (s : State) : OffersOnly s (applyWindow e s).2 := by
  unfold applyWindow
  split
  · simp only [strike]
    have counted : OffersOnly s ((s.modEntry e.code (fun e => { e with strikes := gain 31 e.strikes })).modPresence
      (fun p => { p with strikes := bump p.strikes })) := .of_eq rfl rfl
    split
    · exact counted
    · split
      · exact (counted.trans (offersOnly_suspendTimed _ _ _)).trans (.of_eq rfl rfl)
      · exact counted
  · exact offersOnly_modEntry _ _ _

theorem offersOnly_dispatch (b : BufId) (kind : Byte) (r : Route) (q : PortNo) (s : State) :
    OffersOnly s (dispatch b kind r q s) := by
  unfold dispatch offerControl offerPrint
  split
  · split <;> exact .of_eq rfl rfl
  · split
    · split <;> exact .of_eq rfl rfl
    · split
      · exact .refl s
      · exact offersOnly_modDrops _ _ _

theorem offersOnly_offerTrunkCopy (q : PortNo) (dst : DeskCode) (f : StarRx) (b : BufId) (s : State) :
    OffersOnly s (offerTrunkCopy q dst f b s) := by
  unfold offerTrunkCopy
  split
  · exact offersOnly_modDrops _ _ _
  · split
    · exact offersOnly_modDrops _ _ _
    · exact (offersOnly_modBuf b _ s).trans (offersOnly_offerTrunk _ _)

theorem offersOnly_placeIndexed (p : StarNo) (f : StarRx) (b : BufId) (e : Entry) (s : State) :
    OffersOnly s (placeIndexed p f b e s) := by
  unfold placeIndexed
  simp only
  split
  · exact offersOnly_modDrops _ _ _
  · split
    · exact (offersOnly_modBuf b _ s).trans (offersOnly_offerStar _ _ _)
    · exact offersOnly_modDrops _ _ _

/-- The destination rules of Table 3-4. -/
theorem offersOnly_placeStar (p : StarNo) (f : StarRx) (b : BufId) (s : State) : OffersOnly s (placeStar p f b s) := by
  have flood : OffersOnly s (floodStars (some p) b (setStarAddr b f.dst f.src s)) :=
    (offersOnly_modBuf b _ s).trans (offersOnly_offerStars _ _ _)
  unfold placeStar
  simp only
  split
  · exact offersOnly_modDrops _ _ _
  · split
    · exact offersOnly_dispatch _ _ _ _ _
    · split
      · split
        · exact flood.trans (offersOnly_offerTrunkCopy _ _ _ _ _)
        · exact flood
      · split
        · split
          · exact offersOnly_offerTrunkCopy _ _ _ _ _
          · exact offersOnly_modDrops _ _ _
        · split
          · exact offersOnly_placeIndexed _ _ _ _ _
          · exact flood

theorem offersOnly_admitStar (p : StarNo) (f : StarRx) (b : BufId) (s : State) : OffersOnly s (admitStar p f b s) := by
  unfold admitStar
  simp only
  split
  · exact offersOnly_placeStar _ _ _ _
  · next e _ =>
    split
    · split
      · exact offersOnly_dispatch _ _ _ _ _
      · exact offersOnly_modDrops _ _ _
    · split
      · have window := offersOnly_applyWindow e s
        split
        · next early => rw [early] at window; exact window.trans (offersOnly_modDrops _ _ _)
        · next accepted => rw [accepted] at window; exact window.trans (offersOnly_placeStar _ _ _ _)
      · exact offersOnly_placeStar _ _ _ _

/-- The bridging event of a good star frame only offers (R52). -/
theorem offersOnly_bridgeStar (p : StarNo) (f : StarRx) (s : State) : OffersOnly s (bridgeStar p f s).2 := by
  unfold bridgeStar
  split
  · exact offersOnly_modDrops _ _ _
  · next b x taken =>
    refine (offersOnly_takeBuf taken).trans ?_
    unfold decideStar
    simp only
    split
    · exact offersOnly_modDrops _ _ _
    · split
      · exact offersOnly_modDrops _ _ _
      · exact (offersOnly_learnStar _ _ x).trans (offersOnly_admitStar _ _ _ _)

end Sys2Proof.Machine
end

