-- ==== Sys2Proof/Proofs/StarReception.lean ====
section
/-!
A frame as a star port receives it (R33 to R37): reception begins, the class with which it ends, and what handing the result
on leaves of the port.
-/

namespace Sys2Proof.Machine

/-! ## A star port that is changed, or isolated -/

/-- Two changes of one star port are one change. -/
theorem State.modStar_modStar (s : State) (p : StarNo) (f g : StarPort → StarPort) :
    (s.modStar p f).modStar p g = s.modStar p (fun x => g (f x)) := by
  simp only [State.modStar, modAt_modAt]

/-- A change of one star port is told by what it makes of that port as it stands. -/
theorem State.modStar_congr {s : State} {p : StarNo} {f g : StarPort → StarPort} (h : f (s.starPort p) = g (s.starPort p)) :
    s.modStar p f = s.modStar p g := by
  simp only [State.modStar, modAt]
  congr 2

/-- The receiver is between frames, with nothing of one in the store (R34). -/
def StarPort.Unreceiving (x : StarPort) : Prop := x.rx = .idle ∧ x.store = [] ∧ x.count = 0

theorem StarPort.Unreceiving.receiverMoved_isolated {x : StarPort} (h : x.Unreceiving) (old : SupState) :
    x.receiverMoved old .isolated = x := by
  obtain ⟨rx, store, count⟩ := h
  cases x
  simp only at rx store count
  subst rx store count
  unfold StarPort.receiverMoved
  cases old <;> rfl

theorem starPort_flushStar_ne {p v : StarNo} (h : v ≠ p) (s : State) : (flushStar p s).starPort v = s.starPort v := by
  rw [flushStar, dropRefs_eq]
  exact State.starPort_modStar_ne s _ h

theorem starPort_setFlag (k : AlertKind) (i : Nat) (d : Option Byte) (s : State) (v : StarNo) :
    (setFlag k i d s).starPort v = s.starPort v := by
  obtain ⟨a, h, -⟩ := setFlag_eq k i d s
  rw [h]
  rfl

/-- The isolation of a star port between frames flushes it where it is connected, and does nothing else to it (R40, R128). -/
theorem starPort_isolatePort_self {p : StarNo} {s : State} (h : (s.starPort p).Unreceiving) :
    (isolatePort (portOfStar p) s).starPort p =
      if starConnected s p then { s.starPort p with
        queue := [], tx := .idle, counters := { (s.starPort p).counters with
          flushed := bumpBy (s.starPort p).queue.length (s.starPort p).counters.flushed } }
      else s.starPort p := by
  rw [isolatePort, starPort_setFlag, starPort_setPortState_self]
  simp only [State.modPort_starPort, h.receiverMoved_isolated]
  rw [starConnected, State.port_modPort_self, State.modPort_starPort]
  cases on : (s.port (portOfStar p)).state.inService && (s.starPort p).link with
  | true => rw [starConnected, on]; rfl
  | false => rw [starConnected, on]; rfl

/-- The isolation of a star port leaves the others. -/
theorem starPort_isolatePort_ne {p v : StarNo} (h : v ≠ p) (s : State) :
    (isolatePort (portOfStar p) s).starPort v = s.starPort v := by
  rw [isolatePort, starPort_setFlag, setPortState_portOfStar]
  simp only
  split
  · rw [starPort_flushStar_ne h, State.starPort_modStar_ne _ _ h]; rfl
  · rw [State.starPort_modStar_ne _ _ h]; rfl

/-- A fault event of a star port between frames flushes it where it isolates it (R112, R128). -/
theorem starPort_faultEvent_self (k : FaultKind) {p : StarNo} {s : State} (h : (s.starPort p).Unreceiving) :
    (faultEvent k (portOfStar p) s).starPort p = s.starPort p
    ∨ starConnected s p = true ∧ (faultEvent k (portOfStar p) s).starPort p = { s.starPort p with
        queue := [], tx := .idle, counters := { (s.starPort p).counters with
          flushed := bumpBy (s.starPort p).queue.length (s.starPort p).counters.flushed } } := by
  have counted : starConnected (s.modPort (portOfStar p) (PortRec.count k)) p = starConnected s p := by
    rw [starConnected, State.port_modPort_self, PortRec.count_state]
    rfl
  unfold faultEvent
  simp only
  split
  · rw [starPort_isolatePort_self (s := s.modPort _ _) h, counted]
    cases starConnected s p with
    | true => exact .inr ⟨rfl, rfl⟩
    | false => exact .inl rfl
  · exact .inl rfl

theorem starPort_faultEvent_ne (k : FaultKind) {p v : StarNo} (h : v ≠ p) (s : State) :
    (faultEvent k (portOfStar p) s).starPort v = s.starPort v := by
  unfold faultEvent
  simp only
  split
  · exact starPort_isolatePort_ne h _
  · rfl

/-- A fault event leaves the records of the other ports. -/
theorem port_faultEvent_ne (k : FaultKind) {q r : PortNo} (h : r ≠ q) (s : State) :
    (faultEvent k q s).port r = s.port r := by
  unfold faultEvent
  simp only
  split
  · rw [port_isolatePort, if_neg h, State.port_modPort_ne _ _ h]
  · exact State.port_modPort_ne _ _ h

/-! ## The end of a frame -/

/-- The store and the byte count with which a frame ends (R34). -/
def StarPort.received (bytes : List Byte) (x : StarPort) : List Byte × Nat :=
  ((x.store ++ bytes).take 1513, min (x.count + bytes.length) 65535)

/-- A star port after the end of a frame of a class, before the result is handed on (R34 to R36). -/
def StarPort.closed (c : StarClass) (x : StarPort) : StarPort :=
  { x with lineBusy := false, rx := .idle, store := [], count := 0, counters := x.counters.countClass c }

/-- Each class counts in its own counter (R36). -/
theorem StarCounters.countClass_eq (c : StarClass) (k : StarCounters) :
    k.countClass c = { k with
      rxRunt := if c = .runt then bump k.rxRunt else k.rxRunt,
      rxCheck := if c = .check then bump k.rxCheck else k.rxCheck,
      rxGood := if c = .good then bump k.rxGood else k.rxGood } := by
  cases c <;> rfl

/-- The state after the end of a frame of a class, before the result is handed on. -/
def frameClosed (p : StarNo) (c : StarClass) (s : State) : State := s.modStar p (StarPort.closed c)

theorem link_frameClosed (p : StarNo) (c : StarClass) (s : State) (v : StarNo) :
    ((frameClosed p c s).starPort v).link = (s.starPort v).link := by
  rw [frameClosed, link_modStar fun _ => ?_]
  rfl

/-- What becomes of a frame that has been closed, with the buffer that bridging it takes (R36, R37). -/
def handClosed (p : StarNo) (c : StarClass) (store : List Byte) (s : State) : Option BufId × State :=
  match c with
  | .runt => (none, faultEvent .runt (portOfStar p) s)
  | .check => (none, attributeFrame p store (faultEvent .check (portOfStar p) s))
  | .good =>
    if starConnected s p then bridgeStar p (starRxOf store) (goodEvent (portOfStar p) s)
    else (none, goodEvent (portOfStar p) s)

theorem starConnected_goodEvent (q : PortNo) (s : State) (p : StarNo) :
    starConnected (goodEvent q s) p = starConnected s p := by
  rw [starConnected, goodEvent, State.port_modPort, starConnected]
  split <;> rfl

/-- The end of a frame in reception: it is closed with its class, and handed on. -/
theorem frameEnd_of_receiving {p : StarNo} {s : State} (h : (s.starPort p).rx = .receiving) (bytes : List Byte) :
    let x := (s.starPort p).received bytes
    let c := classifyStar x.1 x.2
    frameEnd p bytes (setLineBusy p false s) = handClosed p c x.1 (frameClosed p c s) := by
  intro x c
  have port : (setLineBusy p false s).starPort p = { s.starPort p with lineBusy := false } :=
    State.starPort_modStar_self _ _ _
  have counted : (((setLineBusy p false s).modStar p StarPort.abandonRx).modStar p
      (fun y => { y with counters := y.counters.countClass c })) = frameClosed p c s := by
    rw [setLineBusy, State.modStar_modStar, State.modStar_modStar]
    rfl
  have ended : frameEnd p bytes (setLineBusy p false s)
      = handOnFrame p c x.1 ((setLineBusy p false s).modStar p StarPort.abandonRx) := by
    simp only [frameEnd, port, h]
    rfl
  rw [ended]
  clear_value c
  cases c with
  | runt => simp only [handOnFrame, counted, handClosed]
  | check => simp only [handOnFrame, counted, handClosed]
  | good => simp only [handOnFrame, counted, handClosed, starConnected_goodEvent]

/-- The end of a frame that was waited out, or of none (R33, R34). -/
theorem frameEnd_of_not_receiving {p : StarNo} {s : State} (h : (s.starPort p).rx ≠ .receiving) (bytes : List Byte) :
    frameEnd p bytes (setLineBusy p false s) = (none, s.modStar p (fun x => { x with
      lineBusy := false, rx := .idle, store := if x.rx = .idle then x.store else [],
      count := if x.rx = .idle then x.count else 0 })) := by
  have port : (setLineBusy p false s).starPort p = { s.starPort p with lineBusy := false } :=
    State.starPort_modStar_self _ _ _
  unfold frameEnd
  rw [port]
  cases rx : (s.starPort p).rx with
  | idle =>
    refine congrArg (Prod.mk none) (State.modStar_congr ?_)
    simp only [rx, if_true]
  | waitIdle =>
    refine congrArg (Prod.mk none) ((State.modStar_modStar s p _ _).trans (State.modStar_congr ?_))
    simp only [rx, StarPort.abandonRx, reduceCtorEq, if_false]
  | receiving => exact absurd rx h

/-! ## What handing the result on leaves -/

/-- The receiver of a star port, its line and its counts of received frames stand, and so do the records of the other
ports. -/
def ReceiverStands (p : StarNo) (s u : State) : Prop :=
  (u.starPort p).rx = (s.starPort p).rx ∧ (u.starPort p).lineBusy = (s.starPort p).lineBusy
    ∧ (u.starPort p).counters.rxRunt = (s.starPort p).counters.rxRunt
    ∧ (u.starPort p).counters.rxCheck = (s.starPort p).counters.rxCheck
    ∧ (u.starPort p).counters.rxGood = (s.starPort p).counters.rxGood
    ∧ ∀ q, q ≠ portOfStar p → u.port q = s.port q

theorem ReceiverStands.trans {p : StarNo} {s t u : State} (h : ReceiverStands p s t) (k : ReceiverStands p t u) :
    ReceiverStands p s u := by
  obtain ⟨h1, h2, h3, h4, h5, h6⟩ := h
  obtain ⟨k1, k2, k3, k4, k5, k6⟩ := k
  exact ⟨k1.trans h1, k2.trans h2, k3.trans h3, k4.trans h4, k5.trans h5, fun q hq => (k6 q hq).trans (h6 q hq)⟩

theorem OffersOnly.receiverStands {s u : State} (h : OffersOnly s u) (p : StarNo) : ReceiverStands p s u := by
  rw [ReceiverStands, h.starPort p]
  exact ⟨rfl, rfl, rfl, rfl, rfl, fun q _ => h.port q⟩

theorem receiverStands_modPort (p : StarNo) (f : PortRec → PortRec) (s : State) :
    ReceiverStands p s (s.modPort (portOfStar p) f) :=
  ⟨rfl, rfl, rfl, rfl, rfl, fun _ hq => State.port_modPort_ne _ _ hq⟩

theorem receiverStands_faultEvent (k : FaultKind) {p : StarNo} {s : State} (h : (s.starPort p).Unreceiving) :
    ReceiverStands p s (faultEvent k (portOfStar p) s) := by
  rcases starPort_faultEvent_self k h with e | ⟨-, e⟩
  · rw [ReceiverStands, e]
    exact ⟨rfl, rfl, rfl, rfl, rfl, fun _ hq => port_faultEvent_ne k hq s⟩
  · rw [ReceiverStands, e]
    exact ⟨rfl, rfl, rfl, rfl, rfl, fun _ hq => port_faultEvent_ne k hq s⟩

/-- Whatever the class of a frame, handing it on leaves the receiver. -/
theorem receiverStands_handClosed (c : StarClass) (store : List Byte) {p : StarNo} {s : State}
    (h : (s.starPort p).Unreceiving) : ReceiverStands p s (handClosed p c store s).2 := by
  cases c with
  | runt => exact receiverStands_faultEvent .runt h
  | check =>
    refine (receiverStands_faultEvent .check h).trans ?_
    simp only [handClosed, attributeFrame]
    split
    · exact ((offersOnly_modEntry _ _ _).receiverStands p).trans (receiverStands_modPort p _ _)
    · exact (OffersOnly.refl _).receiverStands p
  | good =>
    have counted : ReceiverStands p s (goodEvent (portOfStar p) s) := receiverStands_modPort p _ s
    simp only [handClosed]
    split
    · exact counted.trans ((offersOnly_bridgeStar p _ _).receiverStands p)
    · exact counted

/-- Handing a frame on is traffic. -/
theorem trafficOnly_handClosed (p : StarNo) (c : StarClass) (store : List Byte) (s : State) :
    TrafficOnly s (handClosed p c store s).2 := by
  cases c with
  | runt => exact (channelOnly_faultEvent .runt _ s).traffic
  | check =>
    refine (channelOnly_faultEvent .check (portOfStar p) s).traffic.trans ?_
    simp only [handClosed, attributeFrame]
    split
    · exact trafficOnly_chargeFault _ _ _
    · exact .refl _
  | good =>
    have counted : TrafficOnly s (goodEvent (portOfStar p) s) := (channelOnly_goodEvent _ s).traffic
    simp only [handClosed]
    split
    · exact counted.trans (trafficOnly_bridgeStar _ _ _)
    · exact counted

/-- A fault event leaves the index of station IDs. -/
theorem indexEntry_faultEvent (k : FaultKind) (q : PortNo) (s : State) (x : StationId) :
    indexEntry (faultEvent k q s) x = indexEntry s x :=
  indexEntry_congr (congrArg Directory.entries ((channelOnly_iff _ _).1 (channelOnly_faultEvent k q s)).2.2.2.2.2.2.1) x

/-- A CHECK frame whose source has an entry is charged to it and to the port (R37). -/
theorem handClosed_check_of_entry {p : StarNo} {store : List Byte} {s : State} {e : Entry}
    (found : indexEntry s (starSource store) = some e) :
    handClosed p .check store s = (none, chargeFault (portOfStar p) e.code (faultEvent .check (portOfStar p) s)) := by
  simp only [handClosed, attributeFrame, indexEntry_faultEvent, found]

theorem handClosed_check_of_none {p : StarNo} {store : List Byte} {s : State}
    (no : indexEntry s (starSource store) = none) :
    handClosed p .check store s = (none, faultEvent .check (portOfStar p) s) := by
  simp only [handClosed, attributeFrame, indexEntry_faultEvent, no]

/-! ## The obligation -/

/-- FRAME_START with a receiver that listens and is IDLE begins reception (R34). -/
theorem exec_frameStart {p : StarNo} {s : State} (run : s.isRunning = true)
    (listens : (s.port (portOfStar p)).state.listens = true) (idle : (s.starPort p).rx = .idle) :
    exec (.frameStart p) s
      = .next (s.modStar p (fun x => { x with lineBusy := true, rx := .receiving, store := [], count := 0 })) := by
  have hears : ((setLineBusy p true s).port (portOfStar p)).state.listens = true := listens
  have rests : ((setLineBusy p true s).starPort p).rx = .idle := by
    rw [setLineBusy, State.starPort_modStar_self]; exact idle
  show execFrameStart p s = _
  rw [execFrameStart, lineEvent_of_running run, frameStart, hears, rests, if_pos (by decide), setLineBusy,
    State.modStar_modStar, settle_modStar fun _ => ?_]
  rfl

/-- FRAME_END of a frame in reception. -/
theorem exec_frameEnd {p : StarNo} {s : State} (run : s.isRunning = true) (h : (s.starPort p).rx = .receiving)
    (bytes : List Byte) :
    let x := (s.starPort p).received bytes
    let handed := handClosed p (classifyStar x.1 x.2) x.1 (frameClosed p (classifyStar x.1 x.2) s)
    exec (.frameEnd p bytes) s = .next (endHold handed.1 (settle s handed.2)) := by
  show execFrameEnd p bytes s = _
  rw [execFrameEnd, bridgingEvent_of_running run, frameEnd_of_receiving h]

/-- FRAME_END of a frame that was waited out, or of none. -/
theorem exec_frameEnd_of_not_receiving {p : StarNo} {s : State} (run : s.isRunning = true)
    (h : (s.starPort p).rx ≠ .receiving) (bytes : List Byte) :
    exec (.frameEnd p bytes) s = .next (s.modStar p (fun x => { x with
      lineBusy := false, rx := .idle, store := if x.rx = .idle then x.store else [],
      count := if x.rx = .idle then x.count else 0 })) := by
  show execFrameEnd p bytes s = _
  rw [execFrameEnd, bridgingEvent_of_running run, frameEnd_of_not_receiving h, endHold_none,
    settle_modStar fun _ => ?_]
  rfl

/-- What the end of a frame in reception leaves of the port, of the others and of the state. -/
theorem frameEnd_leaves (p : StarNo) (c : StarClass) (store : List Byte) (s : State) :
    let handed := handClosed p c store (frameClosed p c s)
    ReceiverStands p (frameClosed p c s) (endHold handed.1 (settle s handed.2))
      ∧ TrafficOnly s (endHold handed.1 (settle s handed.2)) := by
  have between : ((frameClosed p c s).starPort p).Unreceiving := by
    rw [frameClosed, State.starPort_modStar_self]
    exact ⟨rfl, rfl, rfl⟩
  exact ⟨(receiverStands_handClosed c store between).trans
      (((offersOnly_settle s _).trans (offersOnly_endHold _ _)).receiverStands p),
    ((channelOnly_modStar p _ s).traffic.trans (trafficOnly_handClosed p c store _)).trans
      ((arbiterOnly_settle s _).traffic.trans (onlySends_endHold _ _).traffic)⟩

/-- What becomes of a frame, by its class, up to the end of the event (R36, R37, R44). -/
theorem frameEnd_hands_on (p : StarNo) (c : StarClass) (store : List Byte) (s : State) :
    let q := portOfStar p
    let closed := frameClosed p c s
    let handed := handClosed p c store closed
    let u := endHold handed.1 (settle s handed.2)
    (c = .runt → u = settle s (faultEvent .runt q closed))
    ∧ (c = .check →
      (∀ e, indexEntry s (starSource store) = some e →
        u = settle s (chargeFault q e.code (faultEvent .check q closed)))
      ∧ (indexEntry s (starSource store) = none → u = settle s (faultEvent .check q closed)))
    ∧ (c = .good →
      let bridged := bridgeStar p (starRxOf store) (goodEvent q closed)
      (starConnected s p = true →
        (∀ b, bridged.1 = some b → u = dropRef b (settle s bridged.2))
        ∧ (bridged.1 = none → u = settle s bridged.2))
      ∧ (starConnected s p = false → u = goodEvent q closed)) := by
  intro q closed handed u
  have link : ∀ v, (closed.starPort v).link = (s.starPort v).link := link_frameClosed p c s
  have connected : starConnected closed p = starConnected s p := starConnected_congr (s := s) (u := closed) rfl p (link p)
  cases c with
  | runt => exact ⟨fun _ => rfl, nofun, nofun⟩
  | check =>
    refine ⟨nofun, fun _ => ⟨fun e found => ?_, fun no => ?_⟩, nofun⟩
    · have charged : handed = (none, chargeFault q e.code (faultEvent .check q closed)) :=
        handClosed_check_of_entry (s := closed) found
      simp only [u, charged, endHold_none]
    · have faulted : handed = (none, faultEvent .check q closed) := handClosed_check_of_none (s := closed) no
      simp only [u, faulted, endHold_none]
  | good =>
    refine ⟨nofun, nofun, fun _ => ⟨fun on => ?_, fun off => ?_⟩⟩
    · have passed : handed = bridgeStar p (starRxOf store) (goodEvent q closed) := if_pos (connected.trans on)
      exact ⟨fun b held => by simp only [u, passed, held, endHold_some],
        fun held => by simp only [u, passed, held, endHold_none]⟩
    · have kept : handed = (none, goodEvent q closed) := if_neg (by rw [connected, off]; decide)
      have still : settle s (goodEvent q closed) = goodEvent q closed := by
        refine settle_of_states rfl (fun r => ?_) link
        rw [goodEvent, State.port_modPort]
        split <;> rfl
      simp only [u, kept, endHold_none, still]

/-- Settles O13. -/
theorem starFrameIsClassified : Obligations.StarFrameIsClassified := by
  intro p bytes s run
  refine ⟨exec_frameStart run, ?_⟩
  by_cases h : (s.starPort p).rx = .receiving
  · have leaves := frameEnd_leaves p (classifyStar ((s.starPort p).received bytes).1 ((s.starPort p).received bytes).2)
      ((s.starPort p).received bytes).1 s
    refine ⟨_, exec_frameEnd run h bytes, ?_⟩
    obtain ⟨⟨rx, busy, runt, check, good, others⟩, traffic⟩ := leaves
    have port := State.starPort_modStar_self s p
      (StarPort.closed (classifyStar ((s.starPort p).received bytes).1 ((s.starPort p).received bytes).2))
    rw [← frameClosed] at port
    rw [port] at rx busy runt check good
    refine ⟨rx, busy, ?_⟩
    intro x store n cls k
    refine ⟨fun _ => ⟨runt.trans ?_, check.trans ?_, good.trans ?_⟩, fun r => absurd h r, fun _ => ?_, others, traffic⟩
    · rw [StarPort.closed, StarCounters.countClass_eq]; rfl
    · rw [StarPort.closed, StarCounters.countClass_eq]; rfl
    · rw [StarPort.closed, StarCounters.countClass_eq]; rfl
    · intro q closed source
      have closed_eq : closed = frameClosed p cls s := by
        refine State.modStar_congr ?_
        rw [StarPort.closed, StarCounters.countClass_eq]
      clear_value closed
      subst closed_eq
      exact frameEnd_hands_on p cls store s
  · refine ⟨_, exec_frameEnd_of_not_receiving run h bytes, ?_⟩
    have port := State.starPort_modStar_self s p (fun x => { x with
      lineBusy := false, rx := .idle, store := if x.rx = .idle then x.store else [],
      count := if x.rx = .idle then x.count else 0 })
    refine ⟨congrArg StarPort.rx port, congrArg StarPort.lineBusy port, ?_⟩
    exact ⟨fun r => absurd r h, fun _ => rfl, fun r => absurd r h, fun _ _ => rfl, (channelOnly_modStar p _ s).traffic⟩

end Sys2Proof.Machine
end

