-- ==== Sys2Proof/Proofs/ArbiterShare.lean ====
section
/-!
The Print Arbiter's share of an event, printer by printer: lost credit, lost grants and selection (R144, R153, R154, R159,
R160).
-/

namespace Sys2Proof.Machine

/-! ## Loss of reachability -/

theorem codeDest_congr {s u : State} (h : u.dir.entries = s.dir.entries) (c : DeskCode) : codeDest u c = codeDest s c := by
  simp only [codeDest, findEntry_congr h]

/-- The end of a granted job, told to its requester, after the ending message of `s` (R155). -/
def abandoned (q : QueueNo) (t : Ticket) (s : State) : State :=
  setFlag .jobAbandoned (q.val + 1) (some t.byte)
    ((s.modPrinter q (fun z => { z with state := if z.enable then .idle else .disabled })).modLive t.costCentre
      CostSet.addAbandoned)

theorem abandonAndTell_eq (q : QueueNo) (t : Ticket) (s : State) :
    abandonAndTell q t s = sendAnswer (codeDest s t.requester) .abandoned (queueByte q) t.byte
      (abandoned q t (sendEnding q (breakPayload (queueByte q) t.byte) s)) := by
  have ended : endGrant (.abandonment true) q t s = abandoned q t (sendEnding q (breakPayload (queueByte q) t.byte) s) := rfl
  have dir : (endGrant (.abandonment true) q t s).dir = s.dir := (arbiterOnly_endGrant _ q t s).dir
  rw [abandonAndTell, answerRequester, codeDest_congr (congrArg Directory.entries dir), ended]

theorem Printer.grant_of_granted {p : Printer} {t : Ticket} (h : p.state = .granted t) : p.grant = some t := by
  rw [Printer.grant, h]

section
variable {q : QueueNo} {s : State} {t : Ticket} (granted : (s.printer q).state = .granted t)
include granted

theorem endLostGrant_of_reachable (printer : printerReachable s q = true) (requester : reachable s t.requester = true) :
    endLostGrant q s = s := by
  rw [endLostGrant_of_some (Printer.grant_of_granted granted), if_pos ⟨printer, requester⟩]

/-- BREAK goes out for a grant whose requester is lost (R157, R160). -/
theorem endLostGrant_of_lost_requester (requester : reachable s t.requester = false) :
    endLostGrant q s = sendAnswer (codeDest s t.requester) .abandoned (queueByte q) t.byte
      (abandoned q t (sendEnding q (breakPayload (queueByte q) t.byte) s)) := by
  rw [endLostGrant_of_some (Printer.grant_of_granted granted), if_neg (fun h => by simp [requester] at h),
    abandonAndTell_eq]

/-- No BREAK goes out to a printer that is lost (R157, R159). -/
theorem endLostGrant_of_lost_printer (printer : printerReachable s q = false) :
    endLostGrant q s = sendAnswer (codeDest s t.requester) .abandoned (queueByte q) t.byte (abandoned q t s) := by
  rw [endLostGrant_of_some (Printer.grant_of_granted granted), if_neg (fun h => by simp [printer] at h),
    abandonAndTell_eq, sendEnding_of_unreachable printer]

end

/-! ## Selection -/

theorem Printer.selectable_iff (p : Printer) : p.state.selectable = true ↔ p.state ≠ .disabled ∧ p.grant = none := by
  unfold Printer.grant
  cases p.state <;> simp [PrinterState.selectable]

/-- What makes a printer eligible (R144). -/
theorem eligible_iff (s : State) (q : QueueNo) :
    eligible s q = true ↔ (s.printer q).code.isSome = true ∧ (s.printer q).enable = true ∧ (s.printer q).online = true
      ∧ printerReachable s q = true ∧ (s.printer q).state ≠ .disabled ∧ (s.printer q).grant = none := by
  simp only [eligible, Printer.configured, Bool.and_eq_true, Printer.selectable_iff, and_assoc]

/-- A ticket is granted (R154). -/
def granting (q : QueueNo) (t : Ticket) (s : State) : State :=
  s.modPrinter q (fun y => { y with state := .granted t, waiting := y.waiting.erase t, idleRemaining := y.idleLimit })

/-- The grant of the ticket being opened is told by the answer to its OPEN, any other by a GRANTED (R154). -/
theorem grantTicket_eq (opened : Option (QueueNo × Nat)) (q : QueueNo) (t : Ticket) (s : State) :
    grantTicket (opened == some (q, t.number)) q t s =
      if opened = some (q, t.number) then granting q t s
      else sendAnswer (codeDest s t.requester) .granted (queueByte q) t.byte (granting q t s) := by
  by_cases told : opened = some (q, t.number)
  · rw [if_pos told, beq_iff_eq.2 told]; rfl
  · rw [if_neg told, beq_eq_false_iff_ne.2 told]; rfl

section
variable {opened : Option (QueueNo × Nat)} {q : QueueNo} {s : State} (able : eligible s q = true)
include able

theorem select_of_no_candidate (empty : candidates s q = []) :
    select opened q s = s.modPrinter q (fun y => { y with state := .idle }) :=
  (select_of_eligible able).2.2 (by rw [empty]; rfl)

variable {head : Ticket} (first : (candidates s q).head? = some head)
include first

/-- The head candidate is granted where its form is loaded (R153 case 1). -/
theorem select_of_head_form (form : head.form = (s.printer q).loadedForm) :
    select opened q s = grantTicket (opened == some (q, head.number)) q head s := by
  refine (select_of_eligible able).1 head ?_
  obtain ⟨rest, e⟩ := List.head?_eq_some_iff.1 first
  simp only [e, choose, form, if_true]

/-- While the head is young, the first candidate whose form is loaded is granted (R153 case 2). -/
theorem select_of_young_head (form : head.form ≠ (s.printer q).loadedForm)
    (young : head.waitAge < (s.printer q).formHold) {t : Ticket}
    (fits : (candidates s q).find? (fun y => y.form == (s.printer q).loadedForm) = some t) :
    select opened q s = grantTicket (opened == some (q, t.number)) q t s := by
  refine (select_of_eligible able).1 t ?_
  obtain ⟨rest, e⟩ := List.head?_eq_some_iff.1 first
  rw [e] at fits ⊢
  simp only [choose, form, young, if_false, if_true, fits]

/-- Otherwise the printer waits for the form of the head (R153 case 3). -/
theorem select_of_old_head (form : head.form ≠ (s.printer q).loadedForm)
    (old : (s.printer q).formHold ≤ head.waitAge ∨ ∀ y ∈ candidates s q, y.form ≠ (s.printer q).loadedForm) :
    select opened q s = awaitForm q head.form s := by
  refine (select_of_eligible able).2.1 head.form ?_
  obtain ⟨rest, e⟩ := List.head?_eq_some_iff.1 first
  rw [e] at old ⊢
  by_cases young : head.waitAge < (s.printer q).formHold
  · have no : (head :: rest).find? (fun y => y.form == (s.printer q).loadedForm) = none :=
      List.find?_eq_none.2 fun y mem => by simpa using old.resolve_left (Nat.not_le.2 young) y mem
    simp only [choose, form, young, if_false, if_true, no]
  · simp only [choose, form, young, if_false]

end

end Sys2Proof.Machine
end

