-- ==== Sys2Proof/Proofs/Links.lean ====
section
/-!
The link of a star port (R31, R32, R40): what LINK_DOWN does to the port before and after the Print Arbiter's share, and the
obligation about both events.
-/

namespace Sys2Proof.Machine

/-! ## A lost link -/

/-- A star port whose link was lost: the loss is counted (R32). -/
def StarPort.unlinked (x : StarPort) : StarPort :=
  { x with
    lineUp := false, lineBusy := false, link := false,
    counters := { x.counters with linkLoss := bump x.counters.linkLoss } }

/-- The state after a link was lost, with a connected port flushed (R32, R40). -/
def linkCut (p : StarNo) (s : State) : State :=
  if starConnected s p then flushStar p (s.modStar p StarPort.unlinked) else s.modStar p StarPort.unlinked

/-- What follows outside OFF: the frame in reception is abandoned, the flag is set and the event is counted (R32). -/
def linkLost (p : StarNo) (s : State) : State :=
  faultEvent .link (portOfStar p) (setFlag .linkDown p.val none ((linkCut p s).modStar p StarPort.abandonRx))

theorem starPort_linkCut_self (p : StarNo) (s : State) :
    (linkCut p s).starPort p = if starConnected s p then { (s.starPort p).unlinked with
        queue := [], tx := .idle, counters := { (s.starPort p).unlinked.counters with
          flushed := bumpBy (s.starPort p).queue.length (s.starPort p).counters.flushed } }
      else (s.starPort p).unlinked := by
  unfold linkCut
  split
  · rw [starPort_flushStar, State.starPort_modStar_self]; rfl
  · exact State.starPort_modStar_self s p _

theorem starPort_linkCut_ne {p v : StarNo} (h : v ≠ p) (s : State) : (linkCut p s).starPort v = s.starPort v := by
  unfold linkCut
  split
  · rw [starPort_flushStar_ne h, State.starPort_modStar_ne _ _ h]
  · exact State.starPort_modStar_ne _ _ h

/-- A lost link changes the star side and the buffers alone. -/
theorem linkCut_eq (p : StarNo) (s : State) :
    linkCut p s = { s with star := (linkCut p s).star, bufs := (linkCut p s).bufs } := by
  unfold linkCut
  split
  · rw [flushStar, dropRefs_eq]; rfl
  · rfl

theorem channelOnly_linkCut (p : StarNo) (s : State) : ChannelOnly s (linkCut p s) := by
  unfold linkCut
  split
  · exact (channelOnly_modStar p _ s).trans (channelOnly_flushStar p _)
  · exact channelOnly_modStar p _ s

theorem port_linkCut (p : StarNo) (s : State) (q : PortNo) : (linkCut p s).port q = s.port q := by
  rw [linkCut_eq]; rfl

/-- A lost link, as the port takes it (R32). -/
theorem linkDown_of_link {p : StarNo} {s : State} (up : (s.starPort p).link = true) :
    linkDown p (setLineUp p false s) =
      if (s.port (portOfStar p)).state = .off then linkCut p s else linkLost p s := by
  have port : (setLineUp p false s).starPort p = { s.starPort p with lineUp := false, lineBusy := false } :=
    State.starPort_modStar_self _ _ _
  have connected : starConnected (setLineUp p false s) p = starConnected s p := by
    rw [starConnected, port]; rfl
  have cut : (setLineUp p false s).modStar p (fun x =>
      { x with link := false, counters := { x.counters with linkLoss := bump x.counters.linkLoss } })
        = s.modStar p StarPort.unlinked := by
    rw [setLineUp, State.modStar_modStar]
    rfl
  have lost : linkDown p (setLineUp p false s) = linkLossEvent p (linkCut p s) := by
    simp only [linkDown, port, up, if_true, cut, connected]
    rfl
  rw [lost, linkLossEvent, port_linkCut]
  rfl

/-- A link already recorded DOWN (R32). -/
theorem linkDown_of_no_link {p : StarNo} {s : State} (down : (s.starPort p).link = false) :
    linkDown p (setLineUp p false s) = s.modStar p (fun x => { x with lineUp := false, lineBusy := false }) := by
  have port : (setLineUp p false s).starPort p = { s.starPort p with lineUp := false, lineBusy := false } :=
    State.starPort_modStar_self _ _ _
  rw [linkDown, port, down, if_neg (by decide)]
  rfl

/-! ## The port that is not OFF -/

/-- A port that lost its link is not connected, so that isolation flushes nothing more. -/
theorem starPort_linkLost_self (p : StarNo) (s : State) :
    (linkLost p s).starPort p = ((linkCut p s).starPort p).abandonRx := by
  have port : (setFlag .linkDown p.val none ((linkCut p s).modStar p StarPort.abandonRx)).starPort p
      = ((linkCut p s).starPort p).abandonRx := by
    rw [starPort_setFlag, State.starPort_modStar_self]
  have cut : ((linkCut p s).starPort p).link = false := by
    rw [starPort_linkCut_self]
    split <;> rfl
  have between : ((setFlag .linkDown p.val none ((linkCut p s).modStar p StarPort.abandonRx)).starPort p).Unreceiving := by
    rw [port]
    exact ⟨rfl, rfl, rfl⟩
  rcases starPort_faultEvent_self .link between with e | ⟨connected, -⟩
  · exact e.trans port
  · rw [starConnected, port, Bool.and_eq_true] at connected
    exact absurd (connected.2.symm.trans cut) (by decide)

theorem starPort_linkLost_ne {p v : StarNo} (h : v ≠ p) (s : State) : (linkLost p s).starPort v = s.starPort v := by
  rw [linkLost, starPort_faultEvent_ne .link h, starPort_setFlag, State.starPort_modStar_ne _ _ h,
    starPort_linkCut_ne h]

/-- The event is counted, and may isolate the port (R110, R112). -/
theorem nLink_linkLost (p : StarNo) (s : State) :
    ((linkLost p s).port (portOfStar p)).nLink = gain 65535 (s.port (portOfStar p)).nLink := by
  have port : (setFlag .linkDown p.val none ((linkCut p s).modStar p StarPort.abandonRx)).port (portOfStar p)
      = s.port (portOfStar p) := ((arbiterOnly_setFlag _ _ _ _).port _).trans (port_linkCut p s _)
  rw [linkLost]
  unfold faultEvent
  simp only
  split
  · rw [port_isolatePort, if_pos rfl, State.port_modPort_self, port]; rfl
  · rw [State.port_modPort_self, port]; rfl

theorem port_linkLost_ne {p : StarNo} {q : PortNo} (h : q ≠ portOfStar p) (s : State) :
    (linkLost p s).port q = s.port q := by
  rw [linkLost, port_faultEvent_ne .link h, (arbiterOnly_setFlag _ _ _ _).port]
  exact port_linkCut p s q

theorem channelOnly_linkLost (p : StarNo) (s : State) : ChannelOnly s (linkLost p s) :=
  (((channelOnly_linkCut p s).trans (channelOnly_modStar p _ _)).trans (channelOnly_setFlag _ _ _ _)).trans
    (channelOnly_faultEvent _ _ _)

/-- A fault event sets no flag but PORT_ISOLATED. -/
theorem flagOf_faultEvent {k : AlertKind} (hk : k ≠ .portIsolated) (i : Nat) (f : FaultKind) (q : PortNo) (s : State) :
    flagOf (faultEvent f q s) k i = flagOf s k i := by
  unfold faultEvent
  simp only
  split
  · rw [flagOf_isolatePort hk]; rfl
  · rfl

/-- LINK_DOWN stands after a lost link (R32). -/
theorem flagOf_linkLost (p : StarNo) (s : State) : (flagOf (linkLost p s) .linkDown p.val).isSome = true := by
  obtain ⟨f, set, -⟩ := flagOf_setFlag_self .linkDown p.val none ((linkCut p s).modStar p StarPort.abandonRx)
  rw [linkLost, flagOf_faultEvent (by decide), set]
  rfl

/-! ## The port that is OFF -/

/-- The share of the arbiter is nothing where the same ports are connected. -/
theorem settle_of_connected {s u : State} (hd : u.dir.entries = s.dir.entries)
    (hs : ∀ t, segConnected u t = segConnected s t) (hp : ∀ p, starConnected u p = starConnected s p) :
    settle s u = u := by
  have homes : homeConnected u = homeConnected s := by
    funext e
    simp only [homeConnected, hs, hp]
  have stations : reachableStations s = reachableStations u := by
    simp only [reachableStations, hd]
    congr 2
    funext e
    rw [entryReachable, entryReachable, homes]
  rw [settle, if_pos stations]

/-- A port that is OFF was not connected, and loses nothing that can be reached. -/
theorem settle_linkCut_of_off {p : StarNo} {s : State} (off : (s.port (portOfStar p)).state = .off) :
    settle s (linkCut p s) = linkCut p s := by
  refine settle_of_connected (by rw [linkCut_eq]) (fun t => segConnected_congr (by rw [linkCut_eq]) t) fun v => ?_
  by_cases hv : v = p
  · subst hv
    rw [starConnected, starConnected, port_linkCut, off]
    rfl
  · exact starConnected_congr (by rw [linkCut_eq]) v (by rw [starPort_linkCut_ne hv])

/-! ## The obligation -/

/-- LINK_UP (R31). -/
theorem exec_linkUp {p : StarNo} {s : State} (run : s.isRunning = true) :
    exec (.linkUp p) s = .next (settle s (s.modStar p (fun x => { x with lineUp := true, link := true }))) := by
  have raised : linkUp p (setLineUp p true s) = s.modStar p (fun x => { x with lineUp := true, link := true }) := by
    rw [linkUp, setLineUp, State.modStar_modStar]
    rfl
  show execLinkUp p s = _
  rw [execLinkUp, lineEvent_of_running run, raised]

/-- The state after a lost link, before the Print Arbiter's share. -/
def linkGone (p : StarNo) (s : State) : State :=
  if (s.port (portOfStar p)).state = .off then linkCut p s else linkLost p s

theorem exec_linkDown {p : StarNo} {s : State} (run : s.isRunning = true) (up : (s.starPort p).link = true) :
    exec (.linkDown p) s = .next (settle s (linkGone p s)) := by
  show execLinkDown p s = _
  rw [execLinkDown, lineEvent_of_running run, linkDown_of_link up]
  rfl

theorem exec_linkDown_of_no_link {p : StarNo} {s : State} (run : s.isRunning = true)
    (down : (s.starPort p).link = false) :
    exec (.linkDown p) s = .next (s.modStar p (fun x => { x with lineUp := false, lineBusy := false })) := by
  show execLinkDown p s = _
  rw [execLinkDown, lineEvent_of_running run, linkDown_of_no_link down, settle_modStar fun _ => ?_]
  rfl

/-- Whatever the state of the port, the loss of its link leaves it cut, but for its receiver. -/
theorem starPort_linkGone_self (p : StarNo) (s : State) :
    let x := (linkGone p s).starPort p
    x = { (linkCut p s).starPort p with rx := x.rx, store := x.store, count := x.count } := by
  unfold linkGone
  split
  · rfl
  · rw [starPort_linkLost_self]; rfl

theorem starPort_linkGone_ne {p v : StarNo} (h : v ≠ p) (s : State) : (linkGone p s).starPort v = s.starPort v := by
  unfold linkGone
  split
  · exact starPort_linkCut_ne h s
  · exact starPort_linkLost_ne h s

theorem port_linkGone_ne {p : StarNo} {q : PortNo} (h : q ≠ portOfStar p) (s : State) :
    (linkGone p s).port q = s.port q := by
  unfold linkGone
  split
  · exact port_linkCut p s q
  · exact port_linkLost_ne h s

theorem channelOnly_linkGone (p : StarNo) (s : State) : ChannelOnly s (linkGone p s) := by
  unfold linkGone
  split
  · exact channelOnly_linkCut p s
  · exact channelOnly_linkLost p s

/-- The port at the end of the event: what the arbiter offers to a port that is not connected is refused (R38). -/
theorem starPort_settle_linkGone (p : StarNo) (s : State) :
    let x := (settle s (linkGone p s)).starPort p
    let y := (linkCut p s).starPort p
    x.link = false ∧ x.counters.linkLoss = bump (s.starPort p).counters.linkLoss ∧ x.queue = y.queue ∧ x.tx = y.tx
      ∧ x.counters.flushed = y.counters.flushed ∧ x.rx = ((linkGone p s).starPort p).rx
      ∧ x.store = ((linkGone p s).starPort p).store ∧ x.count = ((linkGone p s).starPort p).count := by
  intro x y
  have gone := starPort_linkGone_self p s
  have cut : y.link = false ∧ y.counters.linkLoss = bump (s.starPort p).counters.linkLoss := by
    simp only [y, starPort_linkCut_self]
    split <;> exact ⟨rfl, rfl⟩
  have apart : starConnected (linkGone p s) p = false := by
    rw [starConnected, gone, Bool.and_eq_false_iff]
    exact .inr cut.1
  have offers := offersOnly_settle s (linkGone p s)
  have queue : x.queue = y.queue := (offers.queue apart).trans (by rw [gone])
  have port : x = _ := offers.starPort p
  rw [gone] at port
  refine ⟨?_, ?_, queue, ?_, ?_, ?_, ?_, ?_⟩
  · rw [port]; exact cut.1
  · rw [port]; exact cut.2
  all_goals rw [port]

/-- A link already UP changes nothing but the mark of the line (R31). -/
theorem linkUp_settles (p : StarNo) (s : State) (up : (s.starPort p).link = true) :
    settle s (s.modStar p (fun x => { x with lineUp := true, link := true }))
      = s.modStar p (fun x => { x with lineUp := true }) := by
  have marked : s.modStar p (fun x => { x with lineUp := true, link := true })
      = s.modStar p (fun x => { x with lineUp := true }) := State.modStar_congr (by rw [← up])
  rw [marked, settle_modStar fun _ => ?_]
  rfl

/-- Settles O12. -/
theorem linkEvents : Obligations.LinkEvents := by
  intro p s run x r
  refine ⟨⟨_, exec_linkUp run, rfl, arbiterOnly_settle _ _, linkUp_settles p s⟩, ?_, fun before v opened => ?_⟩
  · by_cases link : x.link = true
    · obtain ⟨down, loss, queue, tx, flushed, rx, store, count⟩ := starPort_settle_linkGone p s
      have share := arbiterOnly_settle s (linkGone p s)
      have cut := starPort_linkCut_self p s
      refine ⟨_, exec_linkDown run link, fun h => absurd link (by simp [h]), fun _ => ⟨down, loss⟩, fun _ off => ?_,
        fun _ on => ?_, fun _ serving => ?_, fun _ active openMode => ?_, fun _ => ?_, fun w hw => ?_, fun q hq => ?_,
        (channelOnly_linkGone p s).trans share.channel⟩
      · rw [linkGone, if_pos off, settle_linkCut_of_off off, linkCut_eq]
        exact ⟨rfl, rfl⟩
      · have gone : linkGone p s = linkLost p s := if_neg on
        rw [rx, store, count, share.port, flagOf_settle ⟨by decide, by decide⟩, gone, starPort_linkLost_self]
        exact ⟨rfl, rfl, rfl, flagOf_linkLost p s, nLink_linkLost p s⟩
      · have connected : starConnected s p = true := by
          rw [starConnected, show (s.starPort p).link = true from link, Bool.and_true]
          rcases serving with h | h <;> rw [show (s.port (portOfStar p)).state = _ from h] <;> rfl
        rw [if_pos connected] at cut
        rw [queue, tx, flushed, cut]
        exact ⟨rfl, rfl, rfl⟩
      · have apart : starConnected s p = false := by
          rw [starConnected, Bool.and_eq_false_iff]
          refine .inl ?_
          change r.state.inService = false
          cases h : r.state with
          | active => exact absurd h active
          | openMode => exact absurd h openMode
          | off => rfl
          | isolated => rfl
          | probation => rfl
          | held => rfl
        rw [if_neg (by rw [apart]; decide)] at cut
        rw [queue, flushed, cut]
        exact ⟨rfl, rfl⟩
      · rfl
      · rw [share.2 w, starPort_linkGone_ne hw]
      · rw [share.port, port_linkGone_ne hq]
    · have already : x.link = false := by simpa using link
      refine ⟨_, exec_linkDown_of_no_link run already, fun _ => rfl, fun h => absurd h link, fun h => absurd h link,
        fun h => absurd h link, fun h => absurd h link, fun h => absurd h link, fun h => absurd h link, fun w hw => ?_,
        fun q _ => rfl, channelOnly_modStar p _ s⟩
      rw [State.starPort_modStar_ne _ _ hw]
  · intro k
    refine ⟨rfl, rfl, rfl, ?_, endLostGrant_of_none, fun t granted => ?_, rfl, eligible_iff s v, select_of_not_eligible,
      fun able => ?_⟩
    · simp only [clearLostCredit, Bool.and_eq_true, Bool.not_eq_true']
    · exact ⟨endLostGrant_of_reachable granted, fun _ => endLostGrant_of_lost_requester granted,
        endLostGrant_of_lost_printer granted⟩
    · refine ⟨select_of_no_candidate able, fun head first => ⟨fun form => ?_, fun form young t fits => ?_, fun form old => ?_⟩⟩
      · exact (select_of_head_form able first form).trans (grantTicket_eq opened v head s)
      · exact (select_of_young_head able first form young fits).trans (grantTicket_eq opened v t s)
      · exact select_of_old_head able first form old

end Sys2Proof.Machine
end

