-- ==== Sys2Proof/Proofs/BufferAccord.lean ====
section
/-!
The accord of the buffers with the queues (R43, Table 3-1) in the middle of an event: the references that the event itself
holds are counted besides those on the queues. One rule for each operation on buffers and queues says how it moves references
between the queues and the event.
-/

namespace Sys2Proof.Machine

/-! ## References and queues -/

/-- References to a buffer on the star transmit queues. -/
def starRefs (s : State) (b : BufId) : Nat := ((List.finRange 8).map fun p => (s.starPort p).queue.count b).sum

theorem refsTo_eq (s : State) (b : BufId) :
    refsTo s b = s.trunk.queue.count b + starRefs s b + (s.inputs.control.map InputEntry.buf).count b
      + (s.inputs.print.map InputEntry.buf).count b := rfl

/-- A changed star port accounts for the whole change of the star queues' references. -/
theorem starRefs_modStar (s : State) (p : StarNo) (f : StarPort → StarPort) (b : BufId) :
    starRefs (s.modStar p f) b + (s.starPort p).queue.count b = starRefs s b + (f (s.starPort p)).queue.count b := by
  have total (u : State) : starRefs u b = ∑ v, (u.starPort v).queue.count b := Fin.sum_univ_def _ |>.symm
  rw [total, total, ← Finset.add_sum_erase _ _ (Finset.mem_univ p), ← Finset.add_sum_erase _ _ (Finset.mem_univ p),
    State.starPort_modStar_self]
  have others : ∑ v ∈ Finset.univ.erase p, ((s.modStar p f).starPort v).queue.count b
      = ∑ v ∈ Finset.univ.erase p, (s.starPort v).queue.count b :=
    Finset.sum_congr rfl fun v hv => by rw [State.starPort_modStar_ne _ _ (Finset.ne_of_mem_erase hv)]
  omega

theorem onTrunkQueue_iff {s : State} {b : BufId} : onTrunkQueue s b = true ↔ b ∈ s.trunk.queue := by simp [onTrunkQueue]

theorem onStarQueue_iff {s : State} {b : BufId} : onStarQueue s b = true ↔ ∃ p, b ∈ (s.starPort p).queue := by
  simp [onStarQueue]

/-- A changed star port decides by its new queue, the other ports as before. -/
theorem onStarQueue_modStar {s : State} {p : StarNo} {f : StarPort → StarPort} {b : BufId} :
    onStarQueue (s.modStar p f) b = true
      ↔ b ∈ (f (s.starPort p)).queue ∨ ∃ v, v ≠ p ∧ b ∈ (s.starPort v).queue := by
  rw [onStarQueue_iff]
  constructor
  · rintro ⟨v, hv⟩
    by_cases e : v = p
    · subst e; exact .inl (by simpa using hv)
    · exact .inr ⟨v, e, by rwa [State.starPort_modStar_ne _ _ e] at hv⟩
  · rintro (h | ⟨v, e, h⟩)
    · exact ⟨p, by simpa using h⟩
    · exact ⟨v, by rwa [State.starPort_modStar_ne _ _ e]⟩

/-- A buffer to which no queue refers is on no transmit queue. -/
theorem not_onQueue_of_refsTo {s : State} {b : BufId} (h : refsTo s b = 0) :
    onTrunkQueue s b = false ∧ onStarQueue s b = false := by
  simp only [refsTo_eq, starRefs, Nat.add_eq_zero_iff, List.count_eq_zero, List.sum_eq_zero_iff, List.mem_map,
    List.mem_finRange, true_and, forall_exists_index, forall_apply_eq_imp_iff] at h
  obtain ⟨⟨⟨trunk, star⟩, -⟩, -⟩ := h
  refine ⟨Bool.eq_false_iff.2 (mt onTrunkQueue_iff.1 trunk), Bool.eq_false_iff.2 fun on => ?_⟩
  obtain ⟨p, hp⟩ := onStarQueue_iff.1 on
  exact star p hp

/-! ## The accord -/

/-- The addressing of one kind fits the transmit queues of that kind: it is written where a queue refers to the buffer, and
unless the event holds the buffer, only there. -/
def AddrFits (held on written : Bool) : Prop := (on = true → written = true) ∧ (held = false → written = true → on = true)

/-- The buffers agree with the queues while an event holds the references `held`: each count is the number of references on
the queues and in the event, and under `P` the addressing fits the transmit queues. -/
structure Accord (P : Prop) (held : List BufId) (s : State) : Prop where
  counts : ∀ b, (s.buf b).refs = refsTo s b + held.count b
  trunkAddr : P → ∀ b, AddrFits (held.contains b) (onTrunkQueue s b) (s.buf b).trunkAddr.isSome
  starAddr : P → ∀ b, AddrFits (held.contains b) (onStarQueue s b) (s.buf b).starAddr.isSome

theorem addrFits_of_eq {on written : Bool} (h : written = on) (held : Bool) : AddrFits held on written := by
  subst h; exact ⟨id, fun _ => id⟩

/-- An event that holds nothing leaves addressing on a buffer exactly while a queue refers to it. -/
theorem AddrFits.eq {on written : Bool} (h : AddrFits false on written) : written = on :=
  Bool.eq_iff_iff.2 ⟨h.2 rfl, h.1⟩

/-- A held buffer's addressing needs only be there where a queue wants it. -/
theorem addrFits_of_held {held on written : Bool} (h : held = true) (w : on = true → written = true) :
    AddrFits held on written := ⟨w, by simp [h]⟩

/-- A buffer that leaves some queues of a kind fits as before once the event holds it. -/
theorem AddrFits.leave {held held' on on' written : Bool} (h : AddrFits held on written) (on_of : on' = true → on = true)
    (held_of : held = true → held' = true) (out : on = true → on' = true ∨ held' = true) : AddrFits held' on' written := by
  refine ⟨fun k => h.1 (on_of k), fun free w => ?_⟩
  have hf : held = false := Bool.eq_false_iff.2 fun k => by simp [held_of k] at free
  rcases out (h.2 hf w) with k | k
  · exact k
  · simp [k] at free

section
variable {P : Prop} {held : List BufId} {s : State}

/-- Between events the accord is the condition on counts with the condition on addressing. -/
theorem accord_nil_iff : Accord P [] s ↔ BufferCounts s ∧ (P → AddressedAsQueued s) := by
  constructor
  · intro h
    exact ⟨fun b => by simpa using h.counts b, fun k b => ⟨(h.trunkAddr k b).eq, (h.starAddr k b).eq⟩⟩
  · rintro ⟨counts, fits⟩
    exact ⟨fun b => by simpa using counts b, fun k b => addrFits_of_eq (fits k b).1 _,
      fun k b => addrFits_of_eq (fits k b).2 _⟩

/-- The accord depends on the buffers and the queues alone. -/
theorem Accord.congr {t : State} (h : Accord P held s) (bufs : t.bufs = s.bufs)
    (trunk : t.trunk.queue = s.trunk.queue) (star : ∀ p, (t.starPort p).queue = (s.starPort p).queue)
    (control : t.inputs.control = s.inputs.control) (print : t.inputs.print = s.inputs.print) : Accord P held t := by
  have buf : ∀ b, t.buf b = s.buf b := fun b => by rw [State.buf, State.buf, bufs]
  refine ⟨fun b => ?_, fun k b => ?_, fun k b => ?_⟩
  · rw [buf, h.counts b, refsTo, refsTo, trunk, control, print]
    simp only [star]
  · rw [buf, onTrunkQueue, trunk]
    exact h.trunkAddr k b
  · rw [buf, onStarQueue]
    simp only [star]
    exact h.starAddr k b

/-- The fields on which the accord depends. -/
def State.bufferFields (s : State) : Vector Buf 48 × List BufId × Vector StarPort 8 × List InputEntry × List InputEntry :=
  (s.bufs, s.trunk.queue, s.star, s.inputs.control, s.inputs.print)

/-- A change of other fields keeps the accord. -/
theorem Accord.same {t : State} (h : Accord P held s) (same : t.bufferFields = s.bufferFields) :
    Accord P held t := by
  simp only [State.bufferFields, Prod.mk.injEq] at same
  obtain ⟨bufs, trunk, star, control, print⟩ := same
  exact h.congr bufs trunk (fun p => by rw [State.starPort, State.starPort, star]) control print

/-- A list of steps that keep the accord keeps it. -/
theorem Accord.after_foldl {α : Type} {f : State → α → State} {l : List α} (h : Accord P held s)
    (hf : ∀ s a, Accord P held s → Accord P held (f s a)) : Accord P held (l.foldl f s) := by
  induction l generalizing s with
  | nil => exact h
  | cons a l ih => exact ih (hf s a h)

/-- A star port changed in other fields than its queue. -/
theorem Accord.after_modStar {p : StarNo} {f : StarPort → StarPort} (h : Accord P held s)
    (hf : (f (s.starPort p)).queue = (s.starPort p).queue) : Accord P held (s.modStar p f) := by
  refine h.congr rfl rfl (fun v => ?_) rfl rfl
  rw [State.starPort_modStar]
  split
  · next e => exact e ▸ hf
  · rfl

/-! ## References that leave a queue -/

/-- References that leave the trunk transmit queue are held by the event. -/
theorem Accord.after_trunkLeaves {t : Trunk} {out : List BufId} (h : Accord P held s)
    (split : s.trunk.queue = out ++ t.queue) : Accord P (out ++ held) { s with trunk := t } := by
  refine ⟨fun b => ?_, fun k b => ?_, fun k b => ?_⟩
  · have counts := h.counts b
    simp only [refsTo, split, List.count_append] at counts ⊢
    exact counts.trans (by simp only [State.starPort]; omega)
  · refine (h.trunkAddr k b).leave ?_ ?_ ?_ <;> simp only [onTrunkQueue_iff, split, List.contains_iff_mem, List.mem_append] <;>
      tauto
  · exact (h.starAddr k b).leave id (by simp +contextual) .inl

/-- References that leave the queue of a star port are held by the event. -/
theorem Accord.after_starLeaves {p : StarNo} {f : StarPort → StarPort} {out : List BufId} (h : Accord P held s)
    (split : (s.starPort p).queue = out ++ (f (s.starPort p)).queue) : Accord P (out ++ held) (s.modStar p f) := by
  refine ⟨fun b => ?_, fun k b => ?_, fun k b => ?_⟩
  · have counts := h.counts b
    have moved := starRefs_modStar s p f b
    simp only [refsTo_eq, split, List.count_append, State.modStar_buf, State.modStar_trunk, State.modStar_inputs] at *
    omega
  · exact (h.trunkAddr k b).leave id (by simp +contextual) .inl
  · refine (h.starAddr k b).leave (fun on => ?_) (by simp +contextual) fun on => ?_
    · rw [onStarQueue_iff]
      rcases onStarQueue_modStar.1 on with hb | ⟨v, -, hb⟩
      · exact ⟨p, by simp [split, hb]⟩
      · exact ⟨v, hb⟩
    · obtain ⟨v, hv⟩ := onStarQueue_iff.1 on
      rw [onStarQueue_modStar, List.contains_iff_mem, List.mem_append]
      by_cases e : v = p
      · rw [e, split, List.mem_append] at hv
        tauto
      · exact .inl (.inr ⟨v, e, hv⟩)

/-- The head entry of an input queue is held by the event that takes it. -/
theorem Accord.after_inputLeaves {t : State} {b : BufId} (h : Accord P held s) (bufs : t.bufs = s.bufs)
    (trunk : t.trunk = s.trunk) (star : t.star = s.star)
    (left : ∀ v, (s.inputs.control.map InputEntry.buf).count v + (s.inputs.print.map InputEntry.buf).count v
      = (t.inputs.control.map InputEntry.buf).count v + (t.inputs.print.map InputEntry.buf).count v + [b].count v) :
    Accord P (b :: held) t := by
  have buf : ∀ v, t.buf v = s.buf v := fun v => by rw [State.buf, State.buf, bufs]
  have port : ∀ p, t.starPort p = s.starPort p := fun p => by rw [State.starPort, State.starPort, star]
  refine ⟨fun v => ?_, fun k v => ?_, fun k v => ?_⟩
  · have counts := h.counts v
    have left := left v
    have one : (b :: held).count v = [b].count v + held.count v := List.count_append (l₁ := [b])
    simp only [refsTo, buf, port, trunk, one] at counts ⊢
    omega
  · rw [buf, show onTrunkQueue t v = onTrunkQueue s v by rw [onTrunkQueue, onTrunkQueue, trunk]]
    exact (h.trunkAddr k v).leave id (by simp +contextual) .inl
  · rw [buf, show onStarQueue t v = onStarQueue s v by simp only [onStarQueue, port]]
    exact (h.starAddr k v).leave id (by simp +contextual) .inl

/-! ## Buffers -/

/-- A buffer's record changed with its count, and with addressing that fits. -/
theorem Accord.after_modBuf {b : BufId} {f : Buf → Buf} (h : Accord P held s)
    (refs : (f (s.buf b)).refs = (s.buf b).refs)
    (trunk : (s.buf b).trunkAddr.isSome = true → (f (s.buf b)).trunkAddr.isSome = true)
    (star : (s.buf b).starAddr.isSome = true → (f (s.buf b)).starAddr.isSome = true)
    (hb : b ∈ held) : Accord P held (s.modBuf b f) := by
  have contains : held.contains b = true := by simpa using hb
  refine ⟨fun v => ?_, fun k v => ?_, fun k v => ?_⟩ <;> rw [State.buf_modBuf] <;> split
  · next e => subst e; exact refs.trans (h.counts v)
  · exact h.counts v
  · next e => subst e; exact addrFits_of_held contains fun on => trunk ((h.trunkAddr k v).1 on)
  · exact h.trunkAddr k v
  · next e => subst e; exact addrFits_of_held contains fun on => star ((h.starAddr k v).1 on)
  · exact h.starAddr k v

theorem Accord.after_setTrunkAddr {b : BufId} {dst src : DeskCode} (h : Accord P held s) (hb : b ∈ held) :
    Accord P held (setTrunkAddr b dst src s) := h.after_modBuf rfl (fun _ => rfl) id hb

theorem Accord.after_setStarAddr {b : BufId} {dst src : StationId} (h : Accord P held s) (hb : b ∈ held) :
    Accord P held (setStarAddr b dst src s) := h.after_modBuf rfl id (fun _ => rfl) hb

theorem contains_cons_of_ne {b v : BufId} (e : v ≠ b) : (b :: held).contains v = held.contains v := by simp [e]

/-- A buffer that is taken was referred to by nothing, and is held by the event (R44). -/
theorem Accord.after_takeBuf {kind : Byte} {payload : List Byte} {s1 : State} {b : BufId} (h : Accord P held s)
    (hb : takeBuf kind payload s = some (b, s1)) : Accord P (b :: held) s1 := by
  unfold takeBuf at hb
  split at hb
  · cases hb
  · next free =>
    cases hb
    have none : (s.buf b).refs = 0 := by simpa using List.find?_some free
    have counts := h.counts b
    obtain ⟨offTrunk, offStar⟩ := not_onQueue_of_refsTo (s := s) (b := b) (by omega)
    refine ⟨fun v => ?_, fun k v => ?_, fun k v => ?_⟩ <;> rw [State.buf_modBuf] <;> split
    · next e => subst e; rw [List.count_cons_self, show refsTo (s.modBuf v _) v = refsTo s v from rfl]; simp only; omega
    · next e => rw [List.count_cons_of_ne (Ne.symm e)]; exact h.counts v
    · next e => subst e; exact addrFits_of_eq offTrunk.symm _
    · next e => rw [contains_cons_of_ne e]; exact h.trunkAddr k v
    · next e => subst e; exact addrFits_of_eq offStar.symm _
    · next e => rw [contains_cons_of_ne e]; exact h.starAddr k v

/-- A reference that the event holds is released: what addressing it leaves is what the queues hold (R45). -/
theorem Accord.after_dropRef {b : BufId} (h : Accord P (b :: held) s) : Accord P held (dropRef b s) := by
  have counts := h.counts b
  rw [List.count_cons_self] at counts
  refine ⟨fun v => ?_, fun k v => ?_, fun k v => ?_⟩ <;> rw [buf_dropRef] <;> split
  · next e => subst e; rw [Buf.released_refs, show refsTo (dropRef v s) v = refsTo s v from rfl]; omega
  · next e => have := h.counts v; rwa [List.count_cons_of_ne (Ne.symm e)] at this
  · next e =>
    subst e
    refine addrFits_of_eq ?_ _
    change _ = onTrunkQueue s v
    by_cases last : (s.buf v).refs ≤ 1
    · simp [Buf.released, last, Buf.free, (not_onQueue_of_refsTo (s := s) (b := v) (by omega)).1]
    · cases on : onTrunkQueue s v <;> simp [Buf.released, last, (h.trunkAddr k v).1, on]
  · next e => have fits := h.trunkAddr k v; rw [contains_cons_of_ne e] at fits; exact fits
  · next e =>
    subst e
    refine addrFits_of_eq ?_ _
    change _ = onStarQueue s v
    by_cases last : (s.buf v).refs ≤ 1
    · simp [Buf.released, last, Buf.free, (not_onQueue_of_refsTo (s := s) (b := v) (by omega)).2]
    · cases on : onStarQueue s v <;> simp [Buf.released, last, (h.starAddr k v).1, on]
  · next e => have fits := h.starAddr k v; rw [contains_cons_of_ne e] at fits; exact fits

theorem Accord.after_dropRefs {bs : List BufId} (h : Accord P (bs ++ held) s) : Accord P held (dropRefs bs s) := by
  induction bs generalizing s with
  | nil => exact h
  | cons b bs ih => exact ih (Accord.after_dropRef h)

/-- An event ends: the buffer that it has taken, if any, is held no longer (R44). -/
theorem Accord.after_endHold {b : Option BufId} (h : Accord P (b.toList ++ held) s) : Accord P held (endHold b s) := by
  cases b with
  | none => exact h
  | some b => exact h.after_dropRef

/-! ## Offers -/

/-- A reference joins a queue and counts: on a transmit queue the buffer is addressed for that kind. -/
theorem Accord.after_addRef {t : State} {b : BufId} (h : Accord P held s) (bufs : t.bufs = s.bufs)
    (joined : ∀ v, refsTo t v = refsTo s v + [b].count v)
    (trunk : ∀ v, onTrunkQueue s v = true → onTrunkQueue t v = true)
    (trunkNew : ∀ v, onTrunkQueue t v = true → onTrunkQueue s v = true ∨ (v = b ∧ (s.buf b).trunkAddr.isSome = true))
    (star : ∀ v, onStarQueue s v = true → onStarQueue t v = true)
    (starNew : ∀ v, onStarQueue t v = true → onStarQueue s v = true ∨ (v = b ∧ (s.buf b).starAddr.isSome = true)) :
    Accord P held (addRef b t) := by
  have buf : ∀ v, (addRef b t).buf v = if v = b then { s.buf v with refs := (s.buf v).refs + 1 } else s.buf v := fun v => by
    rw [addRef, State.buf_modBuf, State.buf, State.buf, bufs]
  have refs : ∀ v, ((addRef b t).buf v).refs = (s.buf v).refs + [b].count v := fun v => by
    rw [buf]; split
    · next e => simp [e]
    · next e => simp [Ne.symm e]
  have trunkAddr : ∀ v, ((addRef b t).buf v).trunkAddr = (s.buf v).trunkAddr := fun v => by rw [buf]; split <;> rfl
  have starAddr : ∀ v, ((addRef b t).buf v).starAddr = (s.buf v).starAddr := fun v => by rw [buf]; split <;> rfl
  refine ⟨fun v => ?_, fun k v => ?_, fun k v => ?_⟩
  · rw [refs, h.counts v, show refsTo (addRef b t) v = refsTo t v from rfl, joined]; omega
  · rw [trunkAddr]
    refine ⟨fun on => ?_, fun free w => trunk v ((h.trunkAddr k v).2 free w)⟩
    rcases trunkNew v on with on | ⟨rfl, w⟩
    · exact (h.trunkAddr k v).1 on
    · exact w
  · rw [starAddr]
    refine ⟨fun on => ?_, fun free w => star v ((h.starAddr k v).2 free w)⟩
    rcases starNew v on with on | ⟨rfl, w⟩
    · exact (h.starAddr k v).1 on
    · exact w

/-- An addressed buffer is offered to the trunk transmit queue (R25, R27). -/
theorem Accord.after_offerTrunk {b : BufId} (h : Accord P held s) (hb : (s.buf b).trunkAddr.isSome = true) :
    Accord P held (offerTrunk b s) := by
  unfold offerTrunk
  split
  · exact h.same rfl
  · split
    · exact h.same rfl
    · refine h.after_addRef rfl (fun v => ?_) (fun v on => ?_) (fun v on => ?_) (fun _ => id) fun _ => .inl
      · simp only [refsTo, List.count_append, State.starPort]; omega
      · rw [onTrunkQueue_iff] at on ⊢; exact List.mem_append_left _ on
      · rw [onTrunkQueue_iff] at on ⊢
        rcases List.mem_append.1 on with on | on
        · exact .inl on
        · exact .inr ⟨List.mem_singleton.1 on, hb⟩

/-- A frame that the event holds is addressed for the trunk and offered. -/
theorem Accord.after_sendTrunk {b : BufId} {dst src : DeskCode} (h : Accord P held s) (hb : b ∈ held) :
    Accord P held (offerTrunk b (setTrunkAddr b dst src s)) :=
  (h.after_setTrunkAddr hb).after_offerTrunk (by simp [setTrunkAddr])

/-- An addressed buffer is offered to a star transmit queue (R38). -/
theorem Accord.after_offerStar {p : StarNo} {b : BufId} (h : Accord P held s) (hb : (s.buf b).starAddr.isSome = true) :
    Accord P held (offerStar p b s) := by
  unfold offerStar
  split
  · exact h.after_modStar rfl
  · split
    · exact h.after_modStar rfl
    · refine h.after_addRef rfl (fun v => ?_) (fun _ => id) (fun _ => .inl) (fun v on => ?_) fun v on => ?_
      · have moved := starRefs_modStar s p (fun x => { x with queue := x.queue ++ [b] }) v
        simp only [refsTo_eq, List.count_append, State.modStar_trunk, State.modStar_inputs] at moved ⊢
        omega
      · obtain ⟨w, hw⟩ := onStarQueue_iff.1 on
        rw [onStarQueue_modStar]
        by_cases e : w = p
        · exact .inl (List.mem_append_left _ (e ▸ hw))
        · exact .inr ⟨w, e, hw⟩
      · rw [onStarQueue_iff]
        rcases onStarQueue_modStar.1 on with on | ⟨w, -, on⟩
        · rcases List.mem_append.1 on with on | on
          · exact .inl ⟨p, on⟩
          · exact .inr ⟨List.mem_singleton.1 on, hb⟩
        · exact .inl ⟨w, on⟩

/-- A frame that the event holds is addressed for the star side and offered to a port. -/
theorem Accord.after_sendStar {p : StarNo} {b : BufId} {dst src : StationId} (h : Accord P held s) (hb : b ∈ held) :
    Accord P held (offerStar p b (setStarAddr b dst src s)) :=
  (h.after_setStarAddr hb).after_offerStar (by simp [setStarAddr])

/-- Offers leave a buffer's addressing. -/
theorem starAddr_offerStar (p : StarNo) (b v : BufId) (s : State) : ((offerStar p b s).buf v).starAddr = (s.buf v).starAddr := by
  unfold offerStar
  split
  · rfl
  · split
    · rfl
    · rw [addRef, State.buf_modBuf]; split <;> rfl

theorem Accord.after_offerStars {ps : List StarNo} {b : BufId} (h : Accord P held s)
    (hb : (s.buf b).starAddr.isSome = true) : Accord P held (offerStars ps b s) := by
  unfold offerStars
  induction ps generalizing s with
  | nil => exact h
  | cons p ps ih => exact ih (h.after_offerStar hb) (by rwa [starAddr_offerStar])

theorem isSome_starAddr_setStarAddr (b : BufId) (dst src : StationId) (s : State) :
    ((setStarAddr b dst src s).buf b).starAddr.isSome = true := by simp [setStarAddr]

/-- A frame that the event holds is delivered with the bridge as source (R66). -/
theorem Accord.after_deliver {b : BufId} {d : Dest} (h : Accord P held s) (hb : b ∈ held) :
    Accord P held (deliver b d s) := by
  cases d with
  | trunk c => exact h.after_sendTrunk hb
  | star p x => exact h.after_sendStar hb
  | flood x => exact (h.after_setStarAddr hb).after_offerStars (isSome_starAddr_setStarAddr ..)
  | nowhere => exact h

/-- A frame of the bridge's own, built and sent, ends held by the queues that took it (R44, R66). -/
theorem Accord.after_sendBuilt {kind : Byte} {payload : List Byte} {d : Dest} {s1 : State} (h : Accord P held s)
    (hs : sendBuilt kind payload d s = some s1) : Accord P held s1 := by
  unfold sendBuilt at hs
  split at hs
  · cases hs
  · next hb =>
    cases hs
    exact ((h.after_takeBuf hb).after_deliver List.mem_cons_self).after_dropRef

end

end Sys2Proof.Machine
end

