-- ==== Sys2Proof/Proofs/BufferWalk.lean ====
section
/-!
Every operation of the blocks keeps the accord of the buffers with the queues, whatever the event that runs it holds: one
lemma for each, from the flushes up to bridging, in the order of the model's files.
-/

namespace Sys2Proof.Machine

section
variable {P : Prop} {held : List BufId} {s : State}

/-! ## Updates of other fields -/

theorem Accord.after_modSeg {t : SegNo} {f : Segment → Segment} (h : Accord P held s) : Accord P held (s.modSeg t f) :=
  h.same rfl

theorem Accord.after_modEntry {c : DeskCode} {f : Entry → Entry} (h : Accord P held s) : Accord P held (s.modEntry c f) :=
  h.same rfl

theorem Accord.after_dropEntry {c : DeskCode} (h : Accord P held s) : Accord P held (s.dropEntry c) := h.same rfl

theorem Accord.after_addEntry {e : Entry} (h : Accord P held s) : Accord P held (s.addEntry e) := h.same rfl

theorem Accord.after_toPool {c : DeskCode} (h : Accord P held s) : Accord P held (s.toPool c) := h.same rfl

theorem Accord.after_modPrinter {q : QueueNo} {f : Printer → Printer} (h : Accord P held s) : Accord P held (s.modPrinter q f) :=
  h.same rfl

theorem Accord.after_modLive {cc : Fin 16} {f : CostSet → CostSet} (h : Accord P held s) : Accord P held (s.modLive cc f) :=
  h.same rfl

theorem Accord.after_modPresence {f : PresenceCounters → PresenceCounters} (h : Accord P held s) : Accord P held (s.modPresence f) :=
  h.same rfl

theorem Accord.after_modTrunkCounters {f : TrunkCounters → TrunkCounters} (h : Accord P held s) : Accord P held (s.modTrunkCounters f) :=
  h.same rfl

theorem Accord.after_modPort {q : PortNo} {f : PortRec → PortRec} (h : Accord P held s) : Accord P held (s.modPort q f) :=
  h.same rfl

theorem Accord.after_advance {dt : Nat} (h : Accord P held s) : Accord P held (s.advance dt) := h.same rfl

theorem Accord.after_setFlag {k : AlertKind} {i : Nat} {d : Option Byte} (h : Accord P held s) :
    Accord P held (setFlag k i d s) := by
  obtain ⟨a, e, -⟩ := setFlag_eq k i d s
  exact h.same (by rw [e]; rfl)

theorem Accord.after_raiseBacklog (h : Accord P held s) : Accord P held (raiseBacklog s) := by
  obtain ⟨a, e, -⟩ := raiseBacklog_eq s
  exact h.same (by rw [e]; rfl)

/-! ## Queues that are flushed (R26, R27, R40) -/

theorem Accord.after_popTrunk (h : Accord P held s) : Accord P held (popTrunk s) := by
  unfold popTrunk
  split
  · exact h
  · next hq => exact Accord.after_dropRef (h.after_trunkLeaves (out := [_]) hq)

theorem Accord.after_releaseRepeater (h : Accord P held s) : Accord P held (releaseRepeater s) := h.same rfl

theorem Accord.after_flushTrunk (h : Accord P held s) : Accord P held (flushTrunk s) := by
  have flushed : Accord P held (dropRefs s.trunk.queue { s with trunk := { s.trunk with queue := [], attempts := 0 } }) :=
    Accord.after_dropRefs (h.after_trunkLeaves (List.append_nil _).symm)
  unfold flushTrunk
  split
  · simp only
    split
    · exact flushed.after_modTrunkCounters.after_releaseRepeater
    · exact flushed.after_modTrunkCounters
  · exact h

theorem Accord.after_segLeaves {t : SegNo} (h : Accord P held s) : Accord P held (segLeaves t s) := by
  unfold segLeaves
  simp only
  split
  · exact h.after_releaseRepeater.after_flushTrunk
  · exact h.after_modSeg.after_flushTrunk

theorem Accord.after_flushStar {p : StarNo} (h : Accord P held s) : Accord P held (flushStar p s) :=
  Accord.after_dropRefs (h.after_starLeaves (List.append_nil _).symm)

/-- A port takes a state: what it cuts off is flushed. -/
theorem Accord.after_setPortState {q : PortNo} {new : SupState} (h : Accord P held s) :
    Accord P held (setPortState q new s) := by
  obtain ⟨t, rfl⟩ | ⟨p, rfl⟩ := port_cases q
  · rw [setPortState_portOfSeg]
    simp only
    split
    · exact h.after_modPort.after_modSeg.after_segLeaves
    · exact h.after_modPort.after_modSeg
  · have moved : Accord P held ((s.modPort (portOfStar p) (fun r => { r with state := new })).modStar p
        (StarPort.receiverMoved (s.port (portOfStar p)).state new)) :=
      h.after_modPort.after_modStar (by rw [StarPort.receiverMoved_eq])
    rw [setPortState_portOfStar]
    simp only
    split
    · exact moved.after_flushStar
    · exact moved

/-! ## The Print Arbiter (Chapter 7) -/

theorem Accord.after_sendAnswer {d : Dest} {a : PrintAnswer} {q n : Byte} (h : Accord P held s) :
    Accord P held (sendAnswer d a q n s) := by
  unfold sendAnswer
  split
  · next hb => exact h.after_sendBuilt hb
  · exact h.same rfl

theorem Accord.after_answerRequester {a : PrintAnswer} {q : QueueNo} {t : Ticket} (h : Accord P held s) :
    Accord P held (answerRequester a q t s) := h.after_sendAnswer

theorem Accord.after_sendEnding {q : QueueNo} {payload : List Byte} (h : Accord P held s) :
    Accord P held (sendEnding q payload s) := by
  unfold sendEnding
  split
  · exact h
  · split
    · split
      · next hb => exact h.after_sendBuilt hb
      · exact h.same rfl
    · exact h

theorem Accord.after_endGrant {how : Ending} {q : QueueNo} {t : Ticket} (h : Accord P held s) :
    Accord P held (endGrant how q t s) := by
  cases how with
  | completion => exact h.after_sendEnding.after_modPrinter.after_modLive
  | abandonment flagged =>
    simp only [endGrant]
    split
    · exact h.after_sendEnding.after_modPrinter.after_modLive.after_setFlag
    · exact h.after_sendEnding.after_modPrinter.after_modLive

theorem Accord.after_abandonAndTell {q : QueueNo} {t : Ticket} (h : Accord P held s) : Accord P held (abandonAndTell q t s) :=
  h.after_endGrant.after_answerRequester

theorem Accord.after_grantTicket {told : Bool} {q : QueueNo} {t : Ticket} (h : Accord P held s) :
    Accord P held (grantTicket told q t s) := by
  simp only [grantTicket]
  split
  · exact h.same rfl
  · exact h.after_modPrinter.after_answerRequester

theorem Accord.after_awaitForm {q : QueueNo} {f : Fin 16} (h : Accord P held s) : Accord P held (awaitForm q f s) := by
  unfold awaitForm
  split
  · exact h
  · exact h.after_modPrinter.after_setFlag

theorem Accord.after_select {o : Option (QueueNo × Nat)} {q : QueueNo} (h : Accord P held s) :
    Accord P held (select o q s) := by
  unfold select
  split
  · split
    · exact h.after_grantTicket
    · exact h.after_awaitForm
    · exact h.same rfl
  · exact h

theorem Accord.after_selectFor {o : Option (QueueNo × Nat)} (h : Accord P held s) : Accord P held (selectFor o s) :=
  h.after_foldl fun _ _ h => h.after_select

theorem Accord.after_selectAll (h : Accord P held s) : Accord P held (selectAll s) := h.after_selectFor

theorem Accord.after_clearLostCredit {before : State} {q : QueueNo} (h : Accord P held s) :
    Accord P held (clearLostCredit before q s) := by
  unfold clearLostCredit
  split
  · exact h.same rfl
  · exact h

theorem Accord.after_endLostGrant {q : QueueNo} (h : Accord P held s) : Accord P held (endLostGrant q s) := by
  unfold endLostGrant
  split
  · exact h
  · split
    · exact h
    · exact h.after_abandonAndTell

theorem Accord.after_settle {before : State} (h : Accord P held s) : Accord P held (settle before s) := by
  unfold settle
  split
  · exact h
  · exact Accord.after_selectAll (Accord.after_foldl
      (h.after_foldl fun _ _ h => h.after_clearLostCredit) fun _ _ h => h.after_endLostGrant)

theorem Accord.after_cancelWaiting {m : TellMode} {q : QueueNo} {t : Ticket} (h : Accord P held s) :
    Accord P held (cancelWaiting m q t s) := by
  cases m with
  | tell => exact h.after_modPrinter.after_answerRequester
  | silent => exact h.same rfl

theorem Accord.after_abandonGrant {m : TellMode} {q : QueueNo} {t : Ticket} (h : Accord P held s) :
    Accord P held (abandonGrant m q t s) := by
  cases m with
  | tell => exact h.after_abandonAndTell
  | silent => exact Accord.after_endGrant (how := .abandonment true) h

theorem Accord.after_removeTicketsAt {m : TellMode} {p : Ticket → Bool} {q : QueueNo} (h : Accord P held s) :
    Accord P held (removeTicketsAt m p q s) := by
  have waiting : Accord P held (((s.printer q).waiting.filter p).foldl (fun s t => cancelWaiting m q t s) s) :=
    h.after_foldl fun _ _ h => h.after_cancelWaiting
  simp only [removeTicketsAt]
  split
  · split
    · exact waiting.after_abandonGrant
    · exact waiting
  · exact waiting

theorem Accord.after_removeTicketsOf {m : TellMode} {c : DeskCode} (h : Accord P held s) :
    Accord P held (removeTicketsOf m c s) := h.after_foldl fun _ _ h => h.after_removeTicketsAt

theorem Accord.after_removeQueueTickets {q : QueueNo} (h : Accord P held s) : Accord P held (removeQueueTickets q s) := by
  unfold removeQueueTickets restState
  split
  · exact h.after_removeTicketsAt
  · exact h.after_removeTicketsAt.after_modPrinter

theorem Accord.after_renameRequester {old new : DeskCode} (h : Accord P held s) : Accord P held (renameRequester old new s) :=
  (h.same rfl)

/-! ## The Station Directory and the Presence Monitor (Chapters 4 and 5) -/

theorem Accord.after_suspendTimed {why : TimedReason} {c : DeskCode} (h : Accord P held s) :
    Accord P held (suspendTimed why c s) := by
  unfold suspendTimed
  split
  · exact h
  · split
    · exact Accord.after_setFlag (h.same rfl)
    · exact h

theorem Accord.after_removeKeepingCode {m : TellMode} {c : DeskCode} (h : Accord P held s) :
    Accord P held (removeKeepingCode m c s) := h.after_removeTicketsOf.after_dropEntry

theorem Accord.after_removeEntry {m : TellMode} {c : DeskCode} (h : Accord P held s) : Accord P held (removeEntry m c s) :=
  h.after_removeKeepingCode.after_toPool

theorem Accord.after_displaceProxy {c : DeskCode} (h : Accord P held s) : Accord P held (displaceProxy c s) := by
  unfold displaceProxy
  split
  · unfold renumber
    split
    · exact h
    · exact h.same rfl
  · exact h.after_setFlag.after_removeKeepingCode

theorem Accord.after_moveEntry {c : DeskCode} {home : SegNo ⊕ StarNo} (h : Accord P held s) :
    Accord P held (moveEntry c home s) := by
  unfold moveEntry
  simp only
  split
  · exact h.same rfl
  · split
    · exact h.after_modEntry.after_suspendTimed
    · exact h.same rfl

theorem Accord.after_learnTrunk {t : SegNo} {c : DeskCode} (h : Accord P held s) : Accord P held (learnTrunk t c s).2 := by
  unfold learnTrunk
  split
  · exact h.same rfl
  · split
    · split
      · exact h
      · split
        · exact h.same rfl
        · split
          · exact h.after_moveEntry
          · exact h.after_suspendTimed
    · exact h.after_setFlag.after_displaceProxy.after_addEntry
    · exact h.after_setFlag

theorem Accord.after_learnStar {p : StarNo} {x : StationId} (h : Accord P held s) : Accord P held (learnStar p x s) := by
  unfold learnStar
  split
  · split
    · exact h
    · split
      · split
        · exact h.same rfl
        · exact h.after_moveEntry
      · exact h.same rfl
      · exact h
  · split
    · exact h.same rfl
    · exact h.after_setFlag

theorem Accord.after_presenceQuery {c : DeskCode} (h : Accord P held s) : Accord P held (presenceQuery c s) := by
  unfold presenceQuery
  split
  · exact h
  · split
    · simp only
      split
      · next hb => exact (h.after_modEntry.after_sendBuilt hb).after_modPresence
      · exact h.same rfl
    · exact h

theorem Accord.after_aging {c : DeskCode} (h : Accord P held s) : Accord P held (aging c s) := by
  unfold aging
  split
  · exact h
  · split
    · exact h.after_removeEntry.after_modPresence
    · exact h

theorem Accord.after_becomesAbsent {c : DeskCode} (h : Accord P held s) : Accord P held (becomesAbsent c s) := by
  unfold becomesAbsent
  split
  · exact h
  · split
    · exact h.after_modEntry.after_removeTicketsOf.after_modPresence
    · exact h

theorem Accord.after_quarantineEnd {c : DeskCode} (h : Accord P held s) : Accord P held (quarantineEnd c s) := by
  unfold quarantineEnd
  split
  · exact h
  · split
    · exact h.same rfl
    · exact h

theorem Accord.after_strike {c : DeskCode} (h : Accord P held s) : Accord P held (strike c s) := by
  unfold strike
  simp only
  split
  · exact h.same rfl
  · split
    · exact h.after_modEntry.after_modPresence.after_suspendTimed.after_modPresence
    · exact h.same rfl

theorem Accord.after_applyWindow {e : Entry} (h : Accord P held s) : Accord P held (applyWindow e s).2 := by
  unfold applyWindow
  split
  · exact h.after_strike
  · exact h.same rfl

theorem Accord.after_oneSecondTick (h : Accord P held s) : Accord P held (oneSecondTick s) := by
  unfold oneSecondTick presenceSecond printSecond
  split
  · split
    · exact Accord.after_selectAll (Accord.after_foldl (h.same rfl) fun _ _ h => h.after_modPrinter)
    · exact h
  · split
    · exact h.same rfl
    · exact h

theorem Accord.after_idleExpiry {q : QueueNo} (h : Accord P held s) : Accord P held (idleExpiry q s) := by
  unfold idleExpiry
  split
  · exact h
  · split
    · exact h.after_modPrinter.after_abandonAndTell.after_selectAll
    · exact h

theorem Accord.after_formHoldReached {q : QueueNo} (h : Accord P held s) : Accord P held (formHoldReached q s) := by
  unfold formHoldReached
  split
  · exact h
  · exact h.after_modPrinter.after_selectAll

theorem Accord.after_oneMillisecondTick {tick : MsTick} (h : Accord P held s) :
    Accord P held (oneMillisecondTick tick s) := by
  refine h.same ?_
  simp only [State.bufferFields, oneMillisecondTick, Prod.mk.injEq]
  refine ⟨rfl, ?_, rfl, rfl, rfl⟩
  split <;> rfl

theorem Accord.after_longQuiet {t : SegNo} (h : Accord P held s) : Accord P held (longQuiet t s) := by
  unfold longQuiet
  split
  · exact h.same rfl
  · exact h

/-! ## The Supervision Unit (Chapter 6) -/

theorem Accord.after_isolatePort {q : PortNo} (h : Accord P held s) : Accord P held (isolatePort q s) :=
  h.after_modPort.after_setPortState.after_setFlag

theorem Accord.after_faultEvent {k : FaultKind} {q : PortNo} (h : Accord P held s) : Accord P held (faultEvent k q s) := by
  have counted : Accord P held (s.modPort q (PortRec.count k)) := h.after_modPort
  simp only [faultEvent]
  split
  · exact counted.after_isolatePort
  · exact counted

theorem Accord.after_goodEvent {q : PortNo} (h : Accord P held s) : Accord P held (goodEvent q s) := h.after_modPort

theorem Accord.after_jabberEvent {q : PortNo} (h : Accord P held s) : Accord P held (jabberEvent q s) := by
  simp only [jabberEvent]
  split
  · exact h.after_modPort.after_isolatePort
  · exact h.after_modPort

theorem Accord.after_chargeFault {q : PortNo} {c : DeskCode} (h : Accord P held s) : Accord P held (chargeFault q c s) :=
  h.after_modEntry.after_modPort

theorem Accord.after_readmitPort {q : PortNo} (h : Accord P held s) : Accord P held (readmitPort q s) :=
  h.after_modPort.after_setPortState.after_setFlag

theorem Accord.after_verdict {q : PortNo} (h : Accord P held s) : Accord P held (verdict q s) := by
  simp only [verdict]
  split
  · split
    · exact h.after_isolatePort
    · exact h
  · split
    · split
      · exact h.after_modPort.after_readmitPort
      · exact h.after_modPort.after_isolatePort
    · exact h.after_modPort
  · split
    · split
      · exact h.after_modPort
      · exact Accord.after_setPortState (Accord.after_modPort h.after_modPort)
    · exact h.after_modPort
  · exact h
  · exact h
  · exact h

theorem Accord.after_suspendCulprit {c : DeskCode} (h : Accord P held s) : Accord P held (suspendCulprit c s) := by
  unfold suspendCulprit
  split
  · exact h
  · split
    · exact Accord.same (s := suspendTimed .check _ s) h.after_suspendTimed rfl
    · exact h

theorem Accord.after_culpritStage {q : PortNo} {st : SupState} (h : Accord P held s) :
    Accord P held (culpritStage q st s) := by
  unfold culpritStage
  split
  · exact h.after_foldl fun _ _ h => h.after_suspendCulprit
  · exact h

theorem Accord.after_clearStage {q : PortNo} (h : Accord P held s) : Accord P held (clearStage q s) := by
  have cleared : Accord P held (s.modPort q fun x => x.clearCounts.adopt) := h.after_modPort
  simp only [clearStage]
  split
  · exact cleared.same rfl
  · exact cleared.same rfl

theorem Accord.after_foldPort {q : PortNo} (h : Accord P held s) : Accord P held (foldPort q s) := by
  have scored : Accord P held (s.modPort q (PortRec.scored (foldUtil q s))) := h.after_modPort
  simp only [foldPort]
  refine Accord.after_clearStage (Accord.after_culpritStage (Accord.after_modPort (Accord.after_verdict ?_)))
  split
  · exact scored.after_setFlag
  · exact scored

theorem Accord.after_foldAll (h : Accord P held s) : Accord P held (foldAll s) := by
  have folded : Accord P held ((List.finRange 12).foldl (fun s q => foldPort q s) s) :=
    h.after_foldl fun _ _ h => h.after_foldPort
  unfold foldAll
  generalize (List.finRange 12).foldl (fun s q => foldPort q s) s = x at folded ⊢
  exact folded.same rfl

theorem Accord.after_readmitByOrder {q : PortNo} (h : Accord P held s) : Accord P held (readmitByOrder q s) :=
  h.after_modPort.after_setPortState

theorem Accord.after_holdByOrder {q : PortNo} (h : Accord P held s) : Accord P held (holdByOrder q s) :=
  h.after_modPort.after_setPortState

theorem Accord.after_actOnEnable {q : PortNo} {old new : Bool} (h : Accord P held s) :
    Accord P held (actOnEnable q old new s) := by
  cases old <;> cases new
  · exact h
  · exact h.after_modPort.after_setPortState
  · exact h.after_modPort.after_setPortState
  · exact h

theorem Accord.after_writeEnable {q : PortNo} {on : Bool} (h : Accord P held s) : Accord P held (writeEnable q on s) := by
  unfold writeEnable
  split <;> exact h.same rfl

theorem Accord.after_commission (h : Accord P held s) : Accord P held (commission s) := by
  unfold commission
  split
  · exact Accord.after_raiseBacklog (h.same rfl)
  · exact h

/-! ## Bridging (Chapter 3) -/

/-- An entry that joins the control input queue counts, and asks for no addressing (R48). -/
theorem Accord.after_offerControl {b : BufId} {route : Route} (h : Accord P held s) :
    Accord P held (offerControl b route s) := by
  unfold offerControl
  split
  · refine h.after_addRef rfl (fun v => ?_) (fun _ => id) (fun _ => .inl) (fun _ => id) fun _ => .inl
    simp only [refsTo, List.map_append, List.map_cons, List.map_nil, List.count_append, State.starPort]
    omega
  · exact h.same rfl

/-- An entry that joins the print input queue counts, and asks for no addressing (R49). -/
theorem Accord.after_offerPrint {b : BufId} {route : Route} (h : Accord P held s) :
    Accord P held (offerPrint b route s) := by
  unfold offerPrint
  split
  · refine h.after_addRef rfl (fun v => ?_) (fun _ => id) (fun _ => .inl) (fun _ => id) fun _ => .inl
    simp only [refsTo, List.map_append, List.map_cons, List.map_nil, List.count_append, State.starPort]
    omega
  · exact h.same rfl

theorem Accord.after_dispatch {b : BufId} {kind : Byte} {route : Route} {q : PortNo} (h : Accord P held s) :
    Accord P held (dispatch b kind route q s) := by
  unfold dispatch
  split
  · exact h.after_offerControl
  · split
    · exact h.after_offerPrint
    · split
      · exact h
      · exact h.same rfl

/-- A frame that the event holds is addressed for the star side and offered to each connected port but one (R55, R63, R65). -/
theorem Accord.after_flood {x : Option StarNo} {b : BufId} {dst src : StationId} (h : Accord P held s) (hb : b ∈ held) :
    Accord P held (floodStars x b (setStarAddr b dst src s)) :=
  (h.after_setStarAddr hb).after_offerStars (isSome_starAddr_setStarAddr ..)

theorem Accord.after_placeTrunk {t : SegNo} {f : TrunkRx} {b : BufId} (h : Accord P held s) (hb : b ∈ held) :
    Accord P held (placeTrunk t f b s) := by
  simp only [placeTrunk]
  split
  · split
    · exact h.after_flood hb
    · exact h
  · split
    · exact h.after_dispatch
    · split
      · split
        · split
          · exact h.after_sendStar hb
          · exact h.same rfl
        · exact h
      · split
        · exact h.same rfl
        · exact h

theorem Accord.after_decideTrunk {t : SegNo} {tr : Bool} {f : TrunkRx} {b : BufId} (h : Accord P held s) (hb : b ∈ held) :
    Accord P held (decideTrunk t tr f b s) := by
  simp only [decideTrunk]
  split
  · exact h.same rfl
  · split
    · split
      · exact h.after_dispatch
      · exact h
    · have learned : Accord P held (learnTrunk t f.src s).2 := h.after_learnTrunk
      split
      · next e => rw [e] at learned; exact learned.same rfl
      · next e =>
        rw [e] at learned
        split
        · split
          · exact learned.after_dispatch
          · exact learned.same rfl
        · exact learned.after_placeTrunk hb

/-- A bridging event ends with the buffer that it has taken, if any, among those it holds (R44). -/
theorem Accord.after_bridgeTrunk {t : SegNo} {tr : Bool} {f : TrunkRx} (h : Accord P held s) :
    Accord P ((bridgeTrunk t tr f s).1.toList ++ held) (bridgeTrunk t tr f s).2 := by
  unfold bridgeTrunk
  split
  · exact h.same rfl
  · next hb => exact (h.after_takeBuf hb).after_decideTrunk List.mem_cons_self

theorem Accord.after_offerTrunkCopy {q : PortNo} {dst : DeskCode} {f : StarRx} {b : BufId} (h : Accord P held s) (hb : b ∈ held) :
    Accord P held (offerTrunkCopy q dst f b s) := by
  unfold offerTrunkCopy
  split
  · exact h.same rfl
  · split
    · exact h.same rfl
    · exact h.after_sendTrunk hb

theorem Accord.after_placeIndexed {p : StarNo} {f : StarRx} {b : BufId} {e : Entry} (h : Accord P held s) (hb : b ∈ held) :
    Accord P held (placeIndexed p f b e s) := by
  simp only [placeIndexed]
  split
  · exact h.same rfl
  · split
    · exact h.after_sendStar hb
    · exact h.same rfl

theorem Accord.after_placeStar {p : StarNo} {f : StarRx} {b : BufId} (h : Accord P held s) (hb : b ∈ held) :
    Accord P held (placeStar p f b s) := by
  have flooded : Accord P held (floodStars (some p) b (setStarAddr b f.dst f.src s)) := h.after_flood hb
  simp only [placeStar]
  split
  · exact h.same rfl
  · split
    · exact h.after_dispatch
    · split
      · split
        · exact flooded.after_offerTrunkCopy hb
        · exact flooded
      · split
        · split
          · exact h.after_offerTrunkCopy hb
          · exact h.same rfl
        · split
          · exact h.after_placeIndexed hb
          · exact flooded

theorem Accord.after_admitStar {p : StarNo} {f : StarRx} {b : BufId} (h : Accord P held s) (hb : b ∈ held) :
    Accord P held (admitStar p f b s) := by
  simp only [admitStar]
  split
  · exact h.after_placeStar hb
  · next e _ =>
    split
    · split
      · exact h.after_dispatch
      · exact h.same rfl
    · have windowed : Accord P held (applyWindow e s).2 := h.after_applyWindow
      split
      · split
        · next w => rw [w] at windowed; exact windowed.same rfl
        · next w => rw [w] at windowed; exact windowed.after_placeStar hb
      · exact h.after_placeStar hb

/-- A bridging event ends with the buffer that it has taken, if any, among those it holds (R44). -/
theorem Accord.after_bridgeStar {p : StarNo} {f : StarRx} (h : Accord P held s) :
    Accord P ((bridgeStar p f s).1.toList ++ held) (bridgeStar p f s).2 := by
  unfold bridgeStar
  split
  · exact h.same rfl
  · next b _ hb =>
    have taken := h.after_takeBuf hb
    simp only [decideStar]
    split
    · exact taken.same rfl
    · split
      · exact taken.same rfl
      · exact taken.after_learnStar.after_admitStar List.mem_cons_self



end

end Sys2Proof.Machine
end

