-- ==== Sys2Proof/Proofs/BufferSteps.lean ====
section
/-!
The events of the trunk and of the star ports, the requests, the print messages and the resets keep the accord of the buffers
with the queues.
-/

namespace Sys2Proof.Machine

section
variable {P : Prop} {held : List BufId} {s : State}

/-! ## The events of the trunk (Chapter 1) -/

theorem Accord.after_carrierFalls {t : SegNo} {ph : LinePhase} (h : Accord P held s) :
    Accord P held (carrierFalls t ph s) := by
  unfold carrierFalls
  split
  · exact h.after_modSeg
  · exact h

theorem Accord.after_txCollision (h : Accord P held s) : Accord P held (txCollision s) := by
  have released : Accord P held (releaseRepeater s) := h.same rfl
  simp only [txCollision]
  split
  · exact released.after_modTrunkCounters.after_modTrunkCounters.after_popTrunk
  · exact released.same rfl

theorem Accord.after_burstRise {t : SegNo} {dt : Nat} (h : Accord P held s) : Accord P held (burstRise t dt s) := by
  have opened : ∀ f, Accord P held ((s.advance dt).modSeg t f) := fun f => h.same rfl
  simp only [burstRise, setCarrier, takeRise]
  split
  · refine Accord.after_modSeg ?_
    split
    · split
      · exact h.same rfl
      · exact opened _
    · split
      · exact (opened _).after_txCollision
      · exact opened _
    · exact opened _
  · exact opened _

theorem Accord.after_truncateBurst {t : SegNo} (h : Accord P held s) : Accord P held (truncateBurst t s) := h.same rfl

theorem Accord.after_headerDecision {t : SegNo} {dst src : DeskCode} (h : Accord P held s) :
    Accord P held (headerDecision t dst src s) := by
  unfold headerDecision
  split
  · exact h
  · next e _ =>
    split
    · exact h.after_truncateBurst
    · have windowed : Accord P held (applyWindow e s).2 := h.after_applyWindow
      split
      · split
        · next w => rw [w] at windowed; exact windowed.after_truncateBurst
        · next w => rw [w] at windowed; exact windowed
      · exact h

theorem Accord.after_feedDecoder {t : SegNo} {cells : List Bool} (h : Accord P held s) :
    Accord P held (feedDecoder t cells s) := by
  simp only [feedDecoder, headerEvent]
  split
  · split
    · exact h.after_modSeg.after_headerDecision
    · exact h.after_modSeg
  · exact h.after_modSeg

theorem Accord.after_releaseIfHolder {t : SegNo} (h : Accord P held s) : Accord P held (releaseIfHolder t s) := by
  unfold releaseIfHolder
  split
  · exact h.same rfl
  · exact h

theorem Accord.after_attributeBurst {t : SegNo} {d : Decoder} (h : Accord P held s) :
    Accord P held (attributeBurst t d s) := by
  unfold attributeBurst
  split
  · split
    · exact h.after_chargeFault
    · exact h
  · exact h

theorem Accord.after_handOn {t : SegNo} {c : BurstClass} {d : Decoder} {tr : Bool} (h : Accord P held s) :
    Accord P ((handOn t c d tr s).1.toList ++ held) (handOn t c d tr s).2 := by
  cases c with
  | runt => exact h.after_faultEvent
  | garble => exact h.after_faultEvent
  | check => exact h.after_faultEvent.after_attributeBurst
  | good =>
    simp only [handOn]
    split
    · split
      · exact h.after_goodEvent.after_bridgeTrunk
      · exact h.after_goodEvent
    · exact h.after_goodEvent
  | none => exact h
  | inProgress => exact h
  | jabber => exact h
  | abandoned => exact h

theorem Accord.after_cutBurst {t : SegNo} {edges : Nat} (h : Accord P held s) : Accord P held (cutBurst t edges s) :=
  h.after_modSeg.after_releaseIfHolder.after_jabberEvent

theorem Accord.after_burstFall {t : SegNo} {dt edges : Nat} {cells : List Bool} (h : Accord P held s) :
    Accord P ((burstFall t dt edges cells s).1.toList ++ held) (burstFall t dt edges cells s).2 := by
  have fed : Accord P held (feedDecoder t cells (s.advance dt)) := h.after_advance.after_feedDecoder
  simp only [burstFall]
  split
  · split
    · simp only
      split
      · exact fed.after_cutBurst.after_modSeg
      · exact fed.after_cutBurst
    · exact fed.after_modSeg.after_releaseIfHolder.after_handOn
  · exact h.after_advance

theorem Accord.after_jabberCut {t : SegNo} {edges : Nat} (h : Accord P held s) : Accord P held (jabberCut t edges s) := by
  unfold jabberCut
  split
  · exact Accord.after_cutBurst (h.same rfl)
  · exact h

theorem Accord.after_terminatorEdge {t : SegNo} (h : Accord P held s) : Accord P held (terminatorEdge t s) := by
  simp only [terminatorEdge]
  split
  · exact h
  · split
    · exact h.after_modSeg
    · split
      · split
        · exact h.after_modSeg
        · exact h.after_modSeg.after_setFlag
        · unfold terminatorTrigger
          split
          · exact h.after_modSeg.after_setFlag.after_isolatePort
          · exact h.after_modSeg.after_setFlag
      · split
        · exact h.after_modSeg
        · exact h.after_modSeg.after_setFlag

theorem Accord.after_transmitClaim (h : Accord P held s) : Accord P held (transmitClaim s) := by
  unfold transmitClaim
  split
  · exact h.same rfl
  · exact h

theorem Accord.after_transmitCompletion (h : Accord P held s) : Accord P held (transmitCompletion s) := by
  have released : Accord P held (releaseRepeater s) := h.same rfl
  unfold transmitCompletion
  split
  · exact released.after_popTrunk.after_modTrunkCounters
  · exact h

/-! ## Alerts (Chapter 10) -/

theorem Accord.after_alertSend (h : Accord P held s) : Accord P held (alertSend s) := by
  simp only [alertSend]
  split
  · exact h
  · split
    · exact h
    · next hb =>
      have sent := h.after_sendBuilt hb
      split <;> exact sent.same rfl

theorem Accord.after_applyAlertConfig {c : AlertConfig} (h : Accord P held s) : Accord P held (applyAlertConfig c s) :=
  h.same rfl

/-! ## The events of the star ports (Chapter 2) -/

theorem Accord.after_linkLossEvent {p : StarNo} (h : Accord P held s) : Accord P held (linkLossEvent p s) := by
  unfold linkLossEvent
  split
  · exact h
  · exact (h.after_modStar rfl).after_setFlag.after_faultEvent

theorem Accord.after_linkDown {p : StarNo} (h : Accord P held s) : Accord P held (linkDown p s) := by
  simp only [linkDown]
  split
  · refine Accord.after_linkLossEvent ?_
    split
    · exact Accord.after_flushStar (h.after_modStar (by rfl))
    · exact h.after_modStar (by rfl)
  · exact h

theorem Accord.after_frameStart {p : StarNo} (h : Accord P held s) : Accord P held (frameStart p s) := by
  unfold frameStart
  split
  · exact h.after_modStar rfl
  · exact h

theorem Accord.after_attributeFrame {p : StarNo} {store : List Byte} (h : Accord P held s) :
    Accord P held (attributeFrame p store s) := by
  unfold attributeFrame
  split
  · exact h.after_chargeFault
  · exact h

theorem Accord.after_handOnFrame {p : StarNo} {c : StarClass} {store : List Byte} (h : Accord P held s) :
    Accord P ((handOnFrame p c store s).1.toList ++ held) (handOnFrame p c store s).2 := by
  cases c with
  | runt => exact (h.after_modStar rfl).after_faultEvent
  | check => exact (h.after_modStar rfl).after_faultEvent.after_attributeFrame
  | good =>
    simp only [handOnFrame]
    split
    · exact (h.after_modStar rfl).after_goodEvent.after_bridgeStar
    · exact (h.after_modStar rfl).after_goodEvent

theorem Accord.after_frameEnd {p : StarNo} {bytes : List Byte} (h : Accord P held s) :
    Accord P ((frameEnd p bytes s).1.toList ++ held) (frameEnd p bytes s).2 := by
  simp only [frameEnd]
  split
  · exact h
  · exact h.after_modStar rfl
  · exact (h.after_modStar rfl).after_handOnFrame

theorem Accord.after_sendStart {p : StarNo} (h : Accord P held s) : Accord P held (sendStart p s) := by
  simp only [sendStart]
  split
  · exact h
  · split
    · exact h.after_modStar rfl
    · exact h

theorem Accord.after_sendCompletion {p : StarNo} (h : Accord P held s) : Accord P held (sendCompletion p s) := by
  unfold sendCompletion
  split
  · next hq => exact Accord.after_dropRef (h.after_starLeaves (out := [_]) hq)
  · exact h
  · exact h

/-! ## Requests (Chapter 9) -/

theorem Accord.after_sendControl {route : Route} {payload : List Byte} (h : Accord P held s) :
    Accord P held (sendControl route payload s) := by
  unfold sendControl
  split
  · next hb => exact h.after_sendBuilt hb
  · exact h.same rfl

/-- The request that the Control Unit reads is the head of its queue. -/
theorem head_of_headControl {e : InputEntry} {payload : List Byte} (h : headControl s = some (e, payload)) :
    s.inputs.control = e :: s.inputs.control.tail := by
  unfold headControl at h
  split at h
  · cases h
  · next hc => cases h; rw [hc]; rfl

/-- The message that the Print Arbiter reads is the head of its queue. -/
theorem head_of_headPrint {e : InputEntry} {m : PrintMsg} (h : headPrint s = some (e, m)) :
    s.inputs.print = e :: s.inputs.print.tail := by
  unfold headPrint at h
  split at h
  · cases h
  · next hc => cases h; rw [hc]; rfl

/-- Taking a request releases the reference of its entry (R48). -/
theorem Accord.after_takeControl {e : InputEntry} (h : Accord P held s)
    (head : s.inputs.control = e :: s.inputs.control.tail) : Accord P held (takeControl e s) := by
  refine Accord.after_dropRef (h.after_inputLeaves rfl rfl rfl fun v => ?_)
  rw [head, List.map_cons, List.count_cons]
  simp only [List.tail_cons, List.count_singleton]
  omega

theorem Accord.after_answerRequest {before : State} {q : Request} {route : Route} {reply : Reply}
    (h : Accord P held reply.state) : Accord P held (answerRequest before q route reply) := h.after_settle.after_sendControl

/-- A command of the Control Unit keeps the accord where its handling does. -/
theorem Accord.after_request {mine : Request → Bool} {handle : Request → Route → State → Reply} (h : Accord P held s)
    (hh : ∀ q route x, Accord P held x → Accord P held (handle q route x).state) : Accord P held (request mine handle s) := by
  unfold request
  split
  · exact h
  · next head =>
    split
    · exact h
    · split
      · exact (hh _ _ _ (h.after_takeControl (head_of_headControl head))).after_answerRequest
      · exact h

/-- The stages of a request keep a condition that its effect keeps. -/
theorem Accord.after_stages {α : Type} {read : Bool} {hold : α → State → Bool} {params : Option α}
    {effect : α → State → Reply} {route : Route} (h : Accord P held s) (he : ∀ a, Accord P held (effect a s).state) :
    Accord P held (stages read hold params effect route s).state := by
  unfold stages
  split
  · exact h
  · split
    · exact h.same rfl
    · split
      · exact h.same rfl
      · exact he _

theorem Accord.after_done (h : Accord P held s) : Accord P held (done s).state := h

theorem Accord.after_doneWith {results : List Chunk} (h : Accord P held s) : Accord P held (doneWith results s).state := h

/-- A request whose parameters are judged by its stages keeps the accord where its effect does. -/
theorem Accord.after_staged {α : Type} {mine : Request → Bool} {read : Bool} {hold : α → State → Bool}
    {parse : Request → Option α} {effect : α → State → Reply} (h : Accord P held s)
    (he : ∀ a x, Accord P held x → Accord P held (effect a x).state) :
    Accord P held (request mine (fun q route => stages read hold (parse q) effect route) s) :=
  h.after_request fun _ _ x hx => hx.after_stages fun a => he a x hx

/-- A request for a port keeps the accord where its effect on the port does. -/
theorem Accord.after_withPort {b : Byte} {f : PortNo → Reply} (h : Accord P held s) (hf : ∀ q, Accord P held (f q).state) :
    Accord P held (withPort b s f).state := by
  unfold withPort
  split
  · exact hf _
  · exact h

theorem Accord.after_withQueue {b : Byte} {f : QueueNo → Reply} (h : Accord P held s) (hf : ∀ q, Accord P held (f q).state) :
    Accord P held (withQueue b s f).state := by
  unfold withQueue
  split
  · exact hf _
  · exact h

theorem Accord.after_withConfigured {b : Byte} {f : QueueNo → Reply} (h : Accord P held s)
    (hf : ∀ q, Accord P held (f q).state) : Accord P held (withConfigured b s f).state :=
  h.after_withQueue fun q => by
    split
    · exact hf q
    · exact h

theorem Accord.after_withEntry {c : Byte} {f : Entry → Reply} (h : Accord P held s) (hf : ∀ e, Accord P held (f e).state) :
    Accord P held (withEntry c s f).state := by
  unfold withEntry
  split
  · split
    · exact hf _
    · exact h
  · exact h

theorem Accord.after_makeFixed {f : FixPlan} (h : Accord P held s) : Accord P held (makeFixed f s) := by
  unfold makeFixed
  split
  · exact h.after_addEntry
  · split
    · exact h.after_modEntry
    · split
      · exact h.after_modEntry
      · exact h.after_displaceProxy.after_setFlag.after_addEntry

theorem Accord.after_moveStation {f : FixPlan} {old : Entry} (h : Accord P held s) : Accord P held (moveStation f old s) :=
  h.after_renameRequester.after_dropEntry.after_toPool.after_makeFixed.after_modEntry.after_renameRequester

theorem Accord.after_fixEntry {q : FixReq} (h : Accord P held s) : Accord P held (fixEntry q s).state := by
  unfold fixEntry
  split
  · exact h
  · split
    · exact h
    · refine Accord.after_commission ?_
      split
      · exact h.after_moveStation
      · exact h.after_makeFixed

theorem Accord.after_releaseEntry {c : Byte} (h : Accord P held s) : Accord P held (releaseEntry c s).state := by
  refine h.after_withEntry fun _ => ?_
  split
  · exact h
  · split
    · exact h
    · exact h.after_removeEntry

theorem Accord.after_forceIsolate {b : Byte} (h : Accord P held s) : Accord P held (forceIsolate b s).state := by
  refine h.after_withPort fun q => ?_
  split
  · exact h
  · exact h
  all_goals exact Accord.after_holdByOrder h

theorem Accord.after_forceReadmit {b : Byte} (h : Accord P held s) : Accord P held (forceReadmit b s).state := by
  refine h.after_withPort fun q => ?_
  split
  · exact h
  · exact Accord.after_readmitByOrder h
  · exact Accord.after_readmitByOrder h
  · exact Accord.after_readmitByOrder h
  · exact h
  · exact h

theorem Accord.after_setEnable {x : Byte × Bool} (h : Accord P held s) : Accord P held (setEnable x s).state :=
  h.after_withPort fun _ => h.after_writeEnable.after_actOnEnable

theorem Accord.after_acceptOffice {p : OfficePlan} (h : Accord P held s) : Accord P held (acceptOffice p s).state := by
  unfold acceptOffice
  split
  · exact h
  · exact Accord.after_commission (Accord.after_foldl (h.same rfl) fun _ _ h => h.after_actOnEnable)

theorem Accord.after_acceptTrunk {p : TrunkReq} (h : Accord P held s) : Accord P held (acceptTrunk p s).state :=
  Accord.after_commission (Accord.after_foldl
    (Accord.after_foldl (h.same rfl) fun _ _ h => h.after_modPort) fun _ _ h => h.after_actOnEnable)

theorem Accord.after_enableQueue {q : QueueNo} {old new : Bool} (h : Accord P held s) :
    Accord P held (enableQueue q old new s) := by
  cases old <;> cases new
  · exact h.after_modPrinter
  · exact Accord.after_modPrinter h.after_modPrinter
  · exact Accord.after_removeQueueTickets h.after_modPrinter
  · exact h.after_modPrinter

theorem Accord.after_setPrinter {p : PrinterReq} (h : Accord P held s) : Accord P held (setPrinter p s).state := by
  refine h.after_withQueue fun q => ?_
  split
  · exact h
  · exact h.after_modPrinter.after_enableQueue.after_selectAll.after_done

theorem Accord.after_cancelTicket {x : Byte × Byte} (h : Accord P held s) : Accord P held (cancelTicket x s).state := by
  refine h.after_withQueue fun q => ?_
  split
  · exact h
  · refine Accord.after_done (Accord.after_selectAll ?_)
    split
    · exact h.after_abandonAndTell
    · exact h.after_cancelWaiting

theorem Accord.after_setAlerts {c : AlertConfig} (h : Accord P held s) : Accord P held (setAlerts c s).state := by
  unfold setAlerts
  split
  · exact h
  · exact Accord.after_applyAlertConfig h

theorem Accord.after_clearAlerts {items : List (AlertKind × Byte)} (h : Accord P held s) :
    Accord P held (clearAlerts items s).state := by
  unfold clearAlerts
  split
  · exact h
  · exact h.same rfl

theorem Accord.after_takeSave (h : Accord P held s) : Accord P held (takeSave s) := by
  unfold takeSave
  split
  · exact h
  · next e payload head =>
    have taken : Accord P held (takeControl e s) := h.after_takeControl (head_of_headControl head)
    split
    · exact h
    · next q _ =>
      split
      · have staged : Accord P held (stages false alwaysHeld (noParams q.params)
            (fun _ s => done (startSave q.tag e.route s)) e.route (takeControl e s)).state :=
          taken.after_stages fun _ => taken.same rfl
        simp only
        split
        · exact staged
        · exact staged.after_answerRequest
      · exact h

theorem Accord.after_completeSave {verified : Bool} (h : Accord P held s) : Accord P held (completeSave verified s) := by
  unfold completeSave
  split
  · exact h
  · simp only
    split
    · exact Accord.after_sendControl (h.same rfl)
    · exact Accord.after_sendControl (Accord.after_setFlag (h.same rfl))

theorem Accord.after_readSegment {edges : Nat} {b : Byte} (h : Accord P held s) :
    Accord P held (readSegment edges b s).state := by
  unfold readSegment
  split
  · exact h
  · split
    · exact h.after_modSeg
    · exact h

theorem Accord.after_readPort {bytes : List Byte} {b : Byte} (h : Accord P held s) :
    Accord P held (readPort bytes b s).state := by
  unfold readPort
  split
  · exact h
  · split
    · exact h
    · simp only [noteBytes]
      split
      · exact h.after_modStar rfl
      · exact h

theorem Accord.after_unknownOperation (h : Accord P held s) : Accord P held (unknownOperation s) := by
  unfold unknownOperation
  split
  · exact h
  · next e _ head =>
    have taken : Accord P held (takeControl e s) := h.after_takeControl (head_of_headControl head)
    split
    · exact taken.same rfl
    · split
      · exact h
      · exact Accord.after_answerRequest taken

/-! ## Print messages (Section 7.4) -/

theorem Accord.after_handleOpen {q : QueueNo} {form : Fin 16} {label : List Byte} {route : Route} (h : Accord P held s) :
    Accord P held (handleOpen q form label route s) := by
  unfold handleOpen
  split
  · exact Accord.after_sendAnswer (Accord.after_selectFor (h.same rfl))
  · exact h
  · exact Accord.after_selectAll (Accord.after_sendAnswer (h.same rfl))

/-- A FEED goes out in the buffer of its DATA, which the event holds (R149). -/
theorem Accord.after_handleData {q : QueueNo} {n : Byte} {bytes : List Byte} {b : BufId} {route : Route}
    (h : Accord P held s) (hb : b ∈ held) : Accord P held (handleData q n bytes b route s) := by
  unfold handleData
  split
  · exact h.after_sendAnswer
  · exact h.after_sendAnswer
  · next t d _ =>
    have placed : Accord P held (deliver b d (s.modBuf b fun x => { x with payload := feedPayload (queueByte q) n bytes })) :=
      (h.after_modBuf rfl id id hb).after_deliver hb
    exact placed.same rfl

theorem Accord.after_handleClose {q : QueueNo} {n : Byte} {route : Route} (h : Accord P held s) :
    Accord P held (handleClose q n route s) := by
  unfold handleClose
  split
  · exact h.after_sendAnswer
  · split
    · exact h.after_endGrant.after_sendAnswer
    · exact Accord.after_sendAnswer (h.same rfl)

theorem Accord.after_handleCancel {q : QueueNo} {n : Byte} {route : Route} (h : Accord P held s) :
    Accord P held (handleCancel q n route s) := by
  unfold handleCancel
  split
  · exact h.after_sendAnswer
  · split
    · exact h.after_endGrant.after_sendAnswer
    · exact Accord.after_sendAnswer (h.same rfl)

theorem Accord.after_handleStatus {online : Bool} {f : Fin 16} {credit : Nat} {route : Route} (h : Accord P held s) :
    Accord P held (handleStatus online f credit route s) := by
  unfold handleStatus
  split
  · exact h.after_sendAnswer
  · simp only
    split
    · exact h.after_modPrinter
    · exact h.after_modPrinter.after_setFlag

/-- The event that takes a print message holds its buffer to the end (R49). -/
theorem Accord.after_takePrint {e : InputEntry} {f : State → State} (h : Accord P held s)
    (head : s.inputs.print = e :: s.inputs.print.tail)
    (hf : ∀ x, Accord P (e.buf :: held) x → Accord P (e.buf :: held) (f x)) : Accord P held (takePrint e f s) := by
  refine Accord.after_dropRef (hf _ (h.after_inputLeaves rfl rfl rfl fun v => ?_))
  rw [head, List.map_cons, List.count_cons]
  simp only [popPrint, List.count_singleton]
  omega

/-! ## Resets (Section 11.1) -/

/-- A state with every buffer free and every queue empty. -/
theorem accord_of_empty (bufs : s.bufs = Vector.replicate 48 Buf.free) (trunk : s.trunk.queue = [])
    (star : ∀ p, (s.starPort p).queue = []) (control : s.inputs.control = []) (print : s.inputs.print = []) :
    Accord P [] s := by
  have buf : ∀ b, s.buf b = Buf.free := fun b => by simp [State.buf, bufs]
  refine ⟨fun b => ?_, fun _ b => ?_, fun _ b => ?_⟩
  · simp [buf, refsTo, trunk, star, control, print, Buf.free]
  · exact addrFits_of_eq (by simp [buf, onTrunkQueue, trunk, Buf.free]) _
  · exact addrFits_of_eq (by simp [buf, onStarQueue, star, Buf.free]) _

theorem accord_loadConfig (c : StoredConfig) (f : Bool) (s : State) : Accord P [] (loadConfig c f s) := by
  refine accord_of_empty rfl rfl (fun p => ?_) rfl rfl
  simp only [loadConfig, State.starPort, Vector.getElem_ofFn, loadStar]
  split <;> rfl

theorem accord_startUp (s : State) : Accord P [] (startUp s) := by
  unfold startUp
  split <;> exact accord_loadConfig _ _ _

theorem accord_standStill (m : RunState) (s : State) : Accord P [] (standStill m s) := by
  refine accord_of_empty rfl rfl (fun p => ?_) rfl rfl
  simp only [standStill, State.starPort, Vector.getElem_ofFn]
  rfl

theorem Accord.after_takeRestart {factory : Bool} {mine : Request → Bool} (h : Accord P [] s) :
    Accord P [] (takeRestart factory mine s) := by
  unfold takeRestart
  split
  · exact h
  · next e payload head =>
    have taken : Accord P [] (takeControl e s) := h.after_takeControl (head_of_headControl head)
    split
    · exact h
    · split
      · simp only
        split
        · split <;> exact accord_startUp _
        · exact Accord.after_answerRequest (taken.after_stages fun _ => taken)
      · exact h

end

end Sys2Proof.Machine
end

