-- ==== Sys2Proof/Proofs/BuffersKept.lean ====
section
/-!
The obligation about the buffers: every command keeps the accord, so every step does.
-/

namespace Sys2Proof.Machine

/-- A command answers with a state in which the buffers agree with the queues, its event over. -/
def EndsInAccord (P : Prop) (o : Host.Outcome State Fault Refusal) : Prop := ∀ u, o = .next u → Accord P [] u

section
variable {P : Prop} {s : State}

theorem endsInAccord_next (h : Accord P [] s) : EndsInAccord P (.next s) := by
  rintro u ⟨⟩
  exact h

/-! ## How a command is taken -/

theorem endsInAccord_event {f : State → State} (h : Accord P [] s) (hf : ∀ x, Accord P [] x → Accord P [] (f x)) :
    EndsInAccord P (event f s) := by
  refine endsInAccord_next ?_
  split
  · exact (hf s h).after_settle
  · exact h

theorem endsInAccord_lineEvent {m f : State → State} (h : Accord P [] s) (hm : ∀ x, Accord P [] x → Accord P [] (m x))
    (hf : ∀ x, Accord P [] x → Accord P [] (f x)) : EndsInAccord P (lineEvent m f s) := by
  refine endsInAccord_next ?_
  split
  · exact (hf _ (hm s h)).after_settle
  · exact hm s h

theorem endsInAccord_bridgingEvent {m : State → State} {f : State → Option BufId × State} (h : Accord P [] s)
    (hm : ∀ x, Accord P [] x → Accord P [] (m x)) (hf : ∀ x, Accord P [] x → Accord P ((f x).1.toList ++ []) (f x).2) :
    EndsInAccord P (bridgingEvent m f s) := by
  refine endsInAccord_next ?_
  split
  · exact Accord.after_endHold (hf _ (hm s h)).after_settle
  · exact hm s h

theorem endsInAccord_requestEvent {f : State → State} (h : Accord P [] s) (hf : ∀ x, Accord P [] x → Accord P [] (f x)) :
    EndsInAccord P (requestEvent f s) := by
  refine endsInAccord_next ?_
  split
  · exact hf s h
  · exact h

/-- A request judged by its stages. -/
theorem endsInAccord_staged {α : Type} {mine : Request → Bool} {read : Bool} {hold : α → State → Bool}
    {parse : Request → Option α} {effect : α → State → Reply} (h : Accord P [] s)
    (he : ∀ a x, Accord P [] x → Accord P [] (effect a x).state) :
    EndsInAccord P (requestEvent (request mine (fun q route => stages read hold (parse q) effect route)) s) :=
  endsInAccord_requestEvent h fun _ hx => hx.after_staged he

/-- A print message taken from the head of its queue, handled and followed by selection. -/
theorem Accord.after_print {e : InputEntry} {f : State → State} (h : Accord P [] s)
    (head : s.inputs.print = e :: s.inputs.print.tail) (hf : ∀ x, Accord P [e.buf] x → Accord P [e.buf] (f x)) :
    Accord P [] (takePrint e (fun x => selectAll (f x)) s) :=
  h.after_takePrint head fun x hx => (hf x hx).after_selectAll

/-! ## The commands -/

/-- Every print message keeps the accord. -/
theorem endsInAccord_print (h : Accord P [] s) :
    EndsInAccord P (execPrintOpen s) ∧ EndsInAccord P (execPrintData s) ∧ EndsInAccord P (execPrintClose s)
      ∧ EndsInAccord P (execPrintCancel s) ∧ EndsInAccord P (execPrintStatus s) ∧ EndsInAccord P (execPrintMalformed s) := by
  refine ⟨endsInAccord_event h fun x hx => ?_, endsInAccord_event h fun x hx => ?_, endsInAccord_event h fun x hx => ?_,
    endsInAccord_event h fun x hx => ?_, endsInAccord_event h fun x hx => ?_, endsInAccord_event h fun x hx => ?_⟩
  · split
    · exact hx.after_takePrint (head_of_headPrint ‹_›) fun _ => Accord.after_handleOpen
    · exact hx
  · split
    · exact hx.after_print (head_of_headPrint ‹_›) fun _ hd => hd.after_handleData List.mem_cons_self
    · exact hx
  · split
    · exact hx.after_print (head_of_headPrint ‹_›) fun _ => Accord.after_handleClose
    · exact hx
  · split
    · exact hx.after_print (head_of_headPrint ‹_›) fun _ => Accord.after_handleCancel
    · exact hx
  · split
    · exact hx.after_print (head_of_headPrint ‹_›) fun _ => Accord.after_handleStatus
    · exact hx
  · split
    · exact hx.after_print (head_of_headPrint ‹_›) fun _ => Accord.after_sendAnswer
    · exact hx

/-- The events of the supply and of the panel line leave every queue empty, or as it was. -/
theorem endsInAccord_supply (h : Accord P [] s) :
    EndsInAccord P (execPowerOn s) ∧ EndsInAccord P (execPanelResetAsserted s) ∧ EndsInAccord P (execPanelRestart s)
      ∧ ∀ b, EndsInAccord P (execSupplyLoss b s) := by
  refine ⟨endsInAccord_next ?_, endsInAccord_next ?_, endsInAccord_next ?_, fun b => endsInAccord_next ?_⟩
  · split
    · exact Accord.same (s := standStill .held s) (accord_standStill _ _) rfl
    · exact accord_startUp _
  · split
    · exact h.same rfl
    · exact accord_standStill _ _
  · split
    · split
      · exact accord_startUp _
      · exact accord_startUp _
    · exact h.same rfl
    · exact h.same rfl
  · split
    · exact Accord.same (s := standStill .unpowered s) (accord_standStill _ _) rfl
    · exact accord_standStill _ _

/-- Every command keeps the accord. -/
theorem endsInAccord_exec (c : Instr) (h : Accord P [] s) : EndsInAccord P (exec c s) := by
  unfold exec
  cases c with
  | burstRise t dt =>
    refine endsInAccord_next ?_
    split
    · exact h.after_burstRise.after_settle
    · exact h.after_modSeg
  | headerEvent t dt cells =>
    simp only [execHeaderEvent]
    refine endsInAccord_event h fun x hx => ?_
    split
    · exact hx.after_advance.after_feedDecoder
    · exact hx.after_advance
  | burstFall t dt edges cells =>
    exact endsInAccord_bridgingEvent h (fun _ => Accord.after_carrierFalls) fun _ => Accord.after_burstFall
  | jabberCut t edges => exact endsInAccord_event h fun _ => Accord.after_jabberCut
  | continuationFall t dt =>
    simp only [execContinuationFall]
    refine endsInAccord_lineEvent h (fun _ => Accord.after_carrierFalls) fun x hx => ?_
    split
    · exact hx.after_advance.after_modSeg
    · exact hx.after_advance
  | longQuiet t => exact endsInAccord_event h fun _ => Accord.after_longQuiet
  | terminatorEdge t => exact endsInAccord_event h fun _ => Accord.after_terminatorEdge
  | transmitClaim dt => exact endsInAccord_event h fun _ hx => hx.after_advance.after_transmitClaim
  | transmitCompletion dt => exact endsInAccord_event h fun _ hx => hx.after_advance.after_transmitCompletion
  | linkUp p =>
    exact endsInAccord_lineEvent h (fun _ hx => hx.after_modStar rfl) fun _ hx =>
      hx.after_modStar (f := fun x => { x with link := true }) rfl
  | linkDown p => exact endsInAccord_lineEvent h (fun _ hx => hx.after_modStar rfl) fun _ => Accord.after_linkDown
  | frameStart p => exact endsInAccord_lineEvent h (fun _ hx => hx.after_modStar rfl) fun _ => Accord.after_frameStart
  | frameEnd p bytes => exact endsInAccord_bridgingEvent h (fun _ hx => hx.after_modStar rfl) fun _ => Accord.after_frameEnd
  | sendStart p => exact endsInAccord_event h fun _ => Accord.after_sendStart
  | sendCompletion p => exact endsInAccord_event h fun _ => Accord.after_sendCompletion
  | fold =>
    simp only [execFold]
    refine endsInAccord_event h fun x hx => ?_
    split
    · exact hx.after_foldAll
    · exact hx
  | presenceQuery c => exact endsInAccord_event h fun _ => Accord.after_presenceQuery
  | aging c => exact endsInAccord_event h fun _ => Accord.after_aging
  | becomesAbsent c => exact endsInAccord_event h fun _ => Accord.after_becomesAbsent
  | quarantineEnd c => exact endsInAccord_event h fun _ => Accord.after_quarantineEnd
  | idleExpiry q => exact endsInAccord_event h fun _ => Accord.after_idleExpiry
  | formHoldReached q => exact endsInAccord_event h fun _ => Accord.after_formHoldReached
  | alertSend => exact endsInAccord_event h fun _ => Accord.after_alertSend
  | printOpen => exact (endsInAccord_print h).1
  | printData => exact (endsInAccord_print h).2.1
  | printClose => exact (endsInAccord_print h).2.2.1
  | printCancel => exact (endsInAccord_print h).2.2.2.1
  | printStatus => exact (endsInAccord_print h).2.2.2.2.1
  | printMalformed => exact (endsInAccord_print h).2.2.2.2.2
  | statusRead => exact endsInAccord_staged h fun _ _ hx => hx
  | segmentRead dt edges =>
    exact endsInAccord_requestEvent h fun _ hx => hx.after_advance.after_staged fun _ _ => Accord.after_readSegment
  | portRead bytes => exact endsInAccord_staged h fun _ _ => Accord.after_readPort
  | countersRead =>
    refine endsInAccord_staged h fun b x hx => ?_
    unfold readCounters
    split
    · split <;> exact hx
    · split <;> exact hx
  | directoryRead =>
    refine endsInAccord_staged h fun b x hx => ?_
    unfold readDirectory
    split <;> exact hx
  | directoryFind =>
    refine endsInAccord_staged h fun b x hx => ?_
    unfold findStation
    split <;> exact hx
  | queueRead =>
    refine endsInAccord_staged h fun b x hx => ?_
    unfold readQueue
    split <;> exact hx
  | accountRead =>
    refine endsInAccord_staged h fun b x hx => ?_
    unfold readAccount
    split <;> exact hx
  | entryFix => exact endsInAccord_staged h fun _ _ => Accord.after_fixEntry
  | entryRelease => exact endsInAccord_staged h fun _ _ => Accord.after_releaseEntry
  | entrySuspend => exact endsInAccord_staged h fun _ _ hx => hx.after_withEntry fun _ => Accord.after_modEntry hx
  | entryResume =>
    refine endsInAccord_staged h fun _ _ hx => hx.after_withEntry fun _ => ?_
    simp only [done]
    split
    · exact hx
    · exact hx.after_modEntry
  | clearLearned =>
    exact endsInAccord_staged h fun _ _ hx =>
      Accord.after_doneWith (hx.after_foldl fun _ _ h => h.after_removeEntry)
  | segmentSet => exact endsInAccord_staged h fun _ _ hx => hx.after_withPort fun _ => Accord.after_modPort hx
  | segmentForceIsolate dt =>
    exact endsInAccord_requestEvent h fun x hx => Accord.after_staged (s := x.elapse dt) (hx.same rfl) fun _ _ =>
      Accord.after_forceIsolate
  | segmentForceReadmit dt =>
    exact endsInAccord_requestEvent h fun _ hx => hx.after_advance.after_staged fun _ _ => Accord.after_forceReadmit
  | segmentForceExemptOn => exact endsInAccord_staged h fun _ _ hx => hx.after_withPort fun _ => Accord.after_modPort hx
  | segmentForceExemptOff => exact endsInAccord_staged h fun _ _ hx => hx.after_withPort fun _ => Accord.after_modPort hx
  | segmentForceClear => exact endsInAccord_staged h fun _ _ hx => hx.after_withPort fun _ => Accord.after_modPort hx
  | portEnable dt =>
    exact endsInAccord_requestEvent h fun x hx => Accord.after_staged (s := x.elapse dt) (hx.same rfl) fun _ _ =>
      Accord.after_setEnable
  | printerSet => exact endsInAccord_staged h fun _ _ => Accord.after_setPrinter
  | formLoaded =>
    exact endsInAccord_staged h fun _ _ hx => hx.after_withConfigured fun _ => hx.after_modPrinter.after_selectAll.after_done
  | queuePurge =>
    exact endsInAccord_staged h fun _ _ hx => hx.after_withConfigured fun _ =>
      hx.after_removeQueueTickets.after_selectAll.after_doneWith
  | ticketCancel => exact endsInAccord_staged h fun _ _ => Accord.after_cancelTicket
  | accountSnapshot => exact endsInAccord_staged h fun _ _ hx => hx.same rfl
  | alertSet => exact endsInAccord_staged h fun _ _ => Accord.after_setAlerts
  | alertClear => exact endsInAccord_staged h fun _ _ => Accord.after_clearAlerts
  | officePlan => exact endsInAccord_staged h fun _ _ => Accord.after_acceptOffice
  | trunkPlan dt =>
    exact endsInAccord_requestEvent h fun x hx => Accord.after_staged (s := x.elapse dt) (hx.same rfl) fun _ _ =>
      Accord.after_acceptTrunk
  | save => exact endsInAccord_requestEvent h fun _ => Accord.after_takeSave
  | saveCompletion v => exact endsInAccord_event h fun _ => Accord.after_completeSave
  | restartKeep => exact endsInAccord_requestEvent h fun _ => Accord.after_takeRestart
  | restartFactory => exact endsInAccord_requestEvent h fun _ => Accord.after_takeRestart
  | clearCauses => exact endsInAccord_staged h fun _ _ hx => hx.same rfl
  | unknownOperation => exact endsInAccord_requestEvent h fun _ => Accord.after_unknownOperation
  | powerOn => exact (endsInAccord_supply h).1
  | panelResetAsserted => exact (endsInAccord_supply h).2.1
  | panelRestart => exact (endsInAccord_supply h).2.2.1
  | oneSecondTick => exact endsInAccord_event h fun _ => Accord.after_oneSecondTick
  | oneMillisecondTick tick => exact endsInAccord_event h fun _ => Accord.after_oneMillisecondTick
  | closingCarrierFall t dt =>
    refine endsInAccord_lineEvent h (fun _ => Accord.after_carrierFalls) fun x hx => ?_
    unfold closingFall
    split
    · exact hx.after_advance.after_modSeg
    · exact hx.after_advance
  | supplyLoss b => exact (endsInAccord_supply h).2.2.2 b

/-- Every step keeps the accord. -/
theorem Accord.after_step {u : State} (h : Accord P [] s) (hs : step s = .next u) : Accord P [] u := by
  unfold step at hs
  split at hs
  · exact endsInAccord_next h u hs
  · next rest _ => exact endsInAccord_exec _ (Accord.same (t := s.withPending rest) h rfl) u hs

end

/-- Settles O55: between events the accord says what the statement says of counts and, where it held at the start, of
addressing; it is walked through every command. -/
theorem bufferCountsKept : Obligations.BufferCountsKept := by
  intro s s' counts hs
  have kept : Accord (AddressedAsQueued s) [] s' := (accord_nil_iff.2 ⟨counts, id⟩).after_step hs
  exact accord_nil_iff.1 kept

end Sys2Proof.Machine
end

