-- ==== Sys2Proof/Proofs/ResetConditions.lean ====
section
/-!
The state after reset meets the conditions that steps keep: its buffers are free and its queues empty, every code is in the
pool, every port is OPEN and the bridge is not commissioned.
-/

namespace Sys2Proof.Machine

theorem starPort_reset (p : StarNo) : State.reset.starPort p = StarPort.initial := by simp [State.reset, State.starPort]

theorem state_port_reset (q : PortNo) : (State.reset.port q).state = .openMode := by simp [State.reset, State.port]

/-- After reset the buffers agree with the queues: nothing is referred to (R47). -/
theorem accord_reset (P : Prop) : Accord P [] State.reset :=
  accord_of_empty rfl rfl (fun p => by rw [starPort_reset]; rfl) rfl rfl

/-- After reset every queue is empty and every transmitter idle. -/
theorem QueueRule.holds_reset (r : QueueRule) : r.Holds State.reset :=
  r.holds_of_empty rfl (fun p => by rw [starPort_reset]; exact ⟨rfl, rfl⟩) rfl rfl rfl

/-- After reset every code is in the pool, and the store is blank with no SAVE in flight. -/
theorem codesApart_reset : CodesApart State.reset := ⟨.refl _, nofun, nofun⟩

theorem modeStates_reset : ModeStates State.reset := fun q => by rw [state_port_reset]; rfl

theorem adminKept_reset : AdminKept State.reset := nofun

/-- Settles O54. -/
theorem resetMeetsTheConditions : Obligations.ResetMeetsTheConditions := by
  obtain ⟨counts, fits⟩ := accord_nil_iff.1 (accord_reset True)
  exact ⟨counts, fits trivial, codesApart_reset, modeStates_reset, QueueRule.holds_reset .capacity,
    ⟨QueueRule.holds_reset .trunkSilence, fun p => QueueRule.holds_reset (.starSilence p)⟩, adminKept_reset⟩

end Sys2Proof.Machine
end

