-- ==== Sys2Proof/Proofs/Offers.lean ====
section
/-!
What an offer to a transmit queue does, and a frame that the bridge builds (R25, R38, R44, R66): the queue, the counter or the
port that changes, what the buffer holds afterwards, and what stands.
-/

namespace Sys2Proof.Machine

/-! ## Offers to the trunk transmit queue (R25, R27) -/

section
variable {b : BufId} {s : State}

/-- An offer to the trunk transmit queue changes that queue, its counters and the buffers alone. -/
theorem offerTrunk_eq (b : BufId) (s : State) : offerTrunk b s = { s with
    trunk := { s.trunk with queue := (offerTrunk b s).trunk.queue, counters := (offerTrunk b s).trunk.counters },
    bufs := (offerTrunk b s).bufs } := by
  unfold offerTrunk
  split
  · rfl
  · split <;> rfl

theorem trunk_offerTrunk_of_down (down : trunkDown s = true) : (offerTrunk b s).trunk =
    { s.trunk with counters := { s.trunk.counters with trunkDown := bump s.trunk.counters.trunkDown } } := by
  rw [offerTrunk, if_pos down]; rfl

theorem trunk_offerTrunk_of_full (up : trunkDown s = false) (full : 16 ≤ s.trunk.queue.length) : (offerTrunk b s).trunk =
    { s.trunk with counters := { s.trunk.counters with queueFull := bump s.trunk.counters.queueFull } } := by
  rw [offerTrunk, if_neg (by simp [up]), if_pos (by simpa [Config.trunkQueueSize] using full)]; rfl

/-- With room a reference joins at the tail and counts. -/
theorem offerTrunk_of_room (up : trunkDown s = false) (room : s.trunk.queue.length < 16) :
    offerTrunk b s = addRef b { s with trunk := { s.trunk with queue := s.trunk.queue ++ [b] } } := by
  rw [offerTrunk, if_neg (by simp [up]), if_neg (by simpa [Config.trunkQueueSize] using room)]

/-- An offer leaves what the buffers hold. -/
theorem buf_offerTrunk (b v : BufId) (s : State) :
    (offerTrunk b s).buf v = { s.buf v with refs := ((offerTrunk b s).buf v).refs } := by
  unfold offerTrunk
  split
  · rfl
  · split
    · rfl
    · rw [addRef, State.buf_modBuf]; split <;> rfl

end

/-! ## Offers to the star transmit queues (R38) -/

/-- A connected star port that is offered a reference: it joins at the tail, or the full queue counts it. -/
def StarPort.offered (b : BufId) (x : StarPort) : StarPort :=
  if x.queue.length < 16 then { x with queue := x.queue ++ [b] }
  else { x with counters := { x.counters with queueFull := bump x.counters.queueFull } }

theorem StarPort.offered_of_room {b : BufId} {x : StarPort} (room : x.queue.length < 16) :
    x.offered b = { x with queue := x.queue ++ [b] } := if_pos room

theorem StarPort.offered_of_full {b : BufId} {x : StarPort} (full : 16 ≤ x.queue.length) :
    x.offered b = { x with counters := { x.counters with queueFull := bump x.counters.queueFull } } := if_neg (by omega)

section
variable {p v : StarNo} {b : BufId} {s : State}

/-- An offer to a star transmit queue changes the star ports and the buffers alone. -/
theorem offerStar_eq (p : StarNo) (b : BufId) (s : State) :
    offerStar p b s = { s with star := (offerStar p b s).star, bufs := (offerStar p b s).bufs } := by
  unfold offerStar
  split
  · rfl
  · split <;> rfl

theorem offerStars_eq (ps : List StarNo) (b : BufId) (s : State) :
    offerStars ps b s = { s with star := (offerStars ps b s).star, bufs := (offerStars ps b s).bufs } := by
  unfold offerStars
  induction ps generalizing s with
  | nil => rfl
  | cons p ps ih => rw [List.foldl_cons, ih, offerStar_eq]

theorem offerStar_of_cut (cut : starConnected s p = false) : offerStar p b s = s.modStar p (fun x =>
    { x with counters := { x.counters with notConnected := bump x.counters.notConnected } }) := by
  rw [offerStar, if_pos (by simp [cut])]

/-- With room a reference joins at the tail and counts. -/
theorem offerStar_of_room (on : starConnected s p = true) (room : (s.starPort p).queue.length < 16) :
    offerStar p b s = addRef b (s.modStar p (fun x => { x with queue := x.queue ++ [b] })) := by
  rw [offerStar, if_neg (by simp [on]), if_neg (by simpa [Config.starQueueSize] using room)]

/-- An offer to a connected port changes that port alone. -/
theorem starPort_offerStar (on : starConnected s p = true) (v : StarNo) :
    (offerStar p b s).starPort v = if v = p then (s.starPort v).offered b else s.starPort v := by
  by_cases room : (s.starPort p).queue.length < 16
  · rw [offerStar_of_room on room, addRef, State.modBuf_starPort, State.starPort_modStar]
    split
    · next e => rw [e, StarPort.offered_of_room room]
    · rfl
  · rw [offerStar, if_neg (by simp [on]), if_pos (by simpa [Config.starQueueSize] using room), State.starPort_modStar]
    split
    · next e => rw [e, StarPort.offered_of_full (by omega)]
    · rfl

/-- An offer to one port leaves the others. -/
theorem starPort_offerStar_ne (h : v ≠ p) : (offerStar p b s).starPort v = s.starPort v := by
  cases on : starConnected s p with
  | true => rw [starPort_offerStar on, if_neg h]
  | false => rw [offerStar_of_cut on, State.starPort_modStar_ne _ _ h]

/-- An offer leaves what the buffers hold. -/
theorem buf_offerStar (p : StarNo) (b v : BufId) (s : State) :
    (offerStar p b s).buf v = { s.buf v with refs := ((offerStar p b s).buf v).refs } := by
  unfold offerStar
  split
  · rfl
  · split
    · rfl
    · rw [addRef, State.buf_modBuf]; split <;> rfl

theorem buf_offerStars (ps : List StarNo) (b v : BufId) (s : State) :
    (offerStars ps b s).buf v = { s.buf v with refs := ((offerStars ps b s).buf v).refs } := by
  unfold offerStars
  induction ps generalizing s with
  | nil => rfl
  | cons p ps ih => rw [List.foldl_cons, ih, buf_offerStar]

/-- Offers to different connected ports change each of them and no other port. -/
theorem starPort_offerStars {ps : List StarNo} (once : ps.Nodup) (on : ∀ p ∈ ps, starConnected s p = true) (v : StarNo) :
    (offerStars ps b s).starPort v = if v ∈ ps then (s.starPort v).offered b else s.starPort v := by
  unfold offerStars
  induction ps generalizing s with
  | nil => simp
  | cons p ps ih =>
    obtain ⟨apart, once⟩ := List.nodup_cons.1 once
    have onP : starConnected s p = true := on p List.mem_cons_self
    rw [List.foldl_cons, ih once fun q hq => ?_, starPort_offerStar onP]
    · by_cases e : v = p
      · simp [e, apart]
      · simp [e]
    · rw [(onlySends_offerStar p b s).starConnected]
      exact on q (List.mem_cons_of_mem p hq)

/-- An offer releases no reference. -/
theorem refs_le_offerStar (p : StarNo) (b v : BufId) (s : State) : (s.buf v).refs ≤ ((offerStar p b s).buf v).refs := by
  unfold offerStar
  split
  · exact le_rfl
  · split
    · exact le_rfl
    · rw [addRef, State.buf_modBuf]
      split
      · exact Nat.le_succ _
      · exact le_rfl

/-- A buffer that one of the ports has room for gains a reference. -/
theorem refs_lt_offerStars {ps : List StarNo} (member : p ∈ ps) (on : starConnected s p = true)
    (room : (s.starPort p).queue.length < 16) : (s.buf b).refs < ((offerStars ps b s).buf b).refs := by
  have grows : ∀ (l : List StarNo) (x : State), (x.buf b).refs ≤ ((offerStars l b x).buf b).refs := fun l => by
    unfold offerStars
    induction l with
    | nil => exact fun _ => le_rfl
    | cons q l ih => exact fun x => (refs_le_offerStar q b b x).trans (ih _)
  induction ps generalizing s with
  | nil => cases member
  | cons q ps ih =>
    by_cases e : p = q
    · subst e
      refine Nat.lt_of_lt_of_le ?_ (grows ps (offerStar p b s))
      rw [offerStar_of_room on room, addRef, State.buf_modBuf_self]
      exact Nat.lt_succ_self _
    · refine Nat.lt_of_le_of_lt (refs_le_offerStar q b b s)
        (ih ((List.mem_cons.1 member).resolve_left e) ?_ ?_)
      · rwa [(onlySends_offerStar q b s).starConnected]
      · rwa [starPort_offerStar_ne e]

theorem mem_connectedStars : p ∈ connectedStars s ↔ starConnected s p = true := by simp [connectedStars]

theorem nodup_connectedStars (s : State) : (connectedStars s).Nodup := (List.nodup_finRange 8).filter _

/-- Copies go to every connected port but the one excepted (R55, R63, R65). -/
theorem starPort_floodStars (except : Option StarNo) (b : BufId) (v : StarNo) (s : State) :
    (floodStars except b s).starPort v =
      if except = some v ∨ starConnected s v = false then s.starPort v else (s.starPort v).offered b := by
  rw [floodStars, starPort_offerStars ((nodup_connectedStars s).filter _)
    fun p hp => mem_connectedStars.1 (List.mem_filter.1 hp).1]
  simp only [List.mem_filter, mem_connectedStars, bne_iff_ne]
  cases starConnected s v <;> by_cases e : except = some v <;> simp [e]

/-- Copies change the star ports and the buffers alone. -/
theorem floodStars_eq (except : Option StarNo) (b : BufId) (s : State) :
    floodStars except b s = { s with star := (floodStars except b s).star, bufs := (floodStars except b s).bufs } :=
  offerStars_eq _ _ _

end

/-! ## A frame of the bridge's own (R44, R66) -/

/-- A buffer that an event has just taken and written. -/
def Buf.taken (kind : Byte) (payload : List Byte) : Buf :=
  { refs := 1, kind := kind, payload := payload, trunkAddr := none, starAddr := none }

/-- A frame built in buffer `b` and sent to a destination. -/
def sentFrame (kind : Byte) (payload : List Byte) (d : Dest) (b : BufId) (s : State) : State :=
  dropRef b (deliver b d (s.modBuf b fun _ => Buf.taken kind payload))

section
variable {kind : Byte} {payload : List Byte} {d : Dest} {b : BufId} {s : State}

theorem takeBuf_of_free (free : freeBuf s = some b) :
    takeBuf kind payload s = some (b, s.modBuf b fun _ => Buf.taken kind payload) := by
  rw [takeBuf, free]; rfl

/-- What a taken buffer is, and that it was free. -/
theorem takeBuf_eq_some {s1 : State} (h : takeBuf kind payload s = some (b, s1)) :
    freeBuf s = some b ∧ s1 = s.modBuf b fun _ => Buf.taken kind payload := by
  unfold takeBuf at h
  split at h
  · cases h
  · next free => cases h; exact ⟨free, rfl⟩

theorem sendBuilt_of_free (free : freeBuf s = some b) :
    sendBuilt kind payload d s = some (sentFrame kind payload d b s) := by
  rw [sendBuilt, takeBuf_of_free free]; rfl

@[simp] theorem buf_addRef_self (b : BufId) (s : State) :
    (addRef b s).buf b = { s.buf b with refs := (s.buf b).refs + 1 } := by simp [addRef]

/-- A buffer that a queue still refers to at the end of the event keeps the addressing that queues want. -/
theorem buf_dropRef_of_more (more : 1 < (s.buf b).refs) : (dropRef b s).buf b = { s.buf b with
    refs := (s.buf b).refs - 1, trunkAddr := if onTrunkQueue s b then (s.buf b).trunkAddr else none,
    starAddr := if onStarQueue s b then (s.buf b).starAddr else none } := by
  rw [buf_dropRef, if_pos rfl, Buf.released_of_one_lt more]

theorem exists_freeBuf (h : 0 < freeBuffers s) : ∃ b, freeBuf s = some b := by
  have some := freeBuf_isSome s
  rw [decide_eq_true h] at some
  exact Option.isSome_iff_exists.1 some

/-- A frame that is sent changes the trunk transmit queue and its counters, the star ports and the buffers alone. -/
theorem sentFrame_eq (kind : Byte) (payload : List Byte) (d : Dest) (b : BufId) (s : State) :
    sentFrame kind payload d b s = { s with
      trunk := (sentFrame kind payload d b s).trunk, star := (sentFrame kind payload d b s).star,
      bufs := (sentFrame kind payload d b s).bufs } := by
  cases d with
  | trunk c => simp only [sentFrame, deliver]; rw [offerTrunk_eq]; rfl
  | star p x => simp only [sentFrame, deliver]; rw [offerStar_eq]; rfl
  | flood x => simp only [sentFrame, deliver]; rw [offerStars_eq]; rfl
  | nowhere => rfl

theorem onlySends_sentFrame (kind : Byte) (payload : List Byte) (d : Dest) (b : BufId) (s : State) :
    OnlySends s (sentFrame kind payload d b s) :=
  ((onlySends_modBuf b _ s).trans (onlySends_deliver b d _)).trans (onlySends_dropRef b _)

/-! ### To the trunk -/

section
variable {c : DeskCode}

theorem star_sentFrame_trunk : (sentFrame kind payload (.trunk c) b s).star = s.star := by
  simp only [sentFrame, deliver]; rw [offerTrunk_eq]; rfl

theorem trunk_sentFrame_of_down (down : trunkDown s = true) : (sentFrame kind payload (.trunk c) b s).trunk =
    { s.trunk with counters := { s.trunk.counters with trunkDown := bump s.trunk.counters.trunkDown } } :=
  trunk_offerTrunk_of_down (b := b) (s := setTrunkAddr b c bridgeCode (s.modBuf b fun _ => Buf.taken kind payload)) down

theorem trunk_sentFrame_of_full (up : trunkDown s = false) (full : 16 ≤ s.trunk.queue.length) :
    (sentFrame kind payload (.trunk c) b s).trunk =
      { s.trunk with counters := { s.trunk.counters with queueFull := bump s.trunk.counters.queueFull } } :=
  trunk_offerTrunk_of_full (b := b) (s := setTrunkAddr b c bridgeCode (s.modBuf b fun _ => Buf.taken kind payload)) up full

/-- With room the frame joins the trunk transmit queue in a buffer that this queue alone refers to. -/
theorem sentFrame_trunk_of_room (up : trunkDown s = false) (room : s.trunk.queue.length < 16) :
    (sentFrame kind payload (.trunk c) b s).trunk.queue = s.trunk.queue ++ [b]
      ∧ (sentFrame kind payload (.trunk c) b s).buf b =
        { refs := 1, kind := kind, payload := payload, trunkAddr := some { dst := c, src := bridgeCode }, starAddr := none } := by
  let written := setTrunkAddr b c bridgeCode (s.modBuf b fun _ => Buf.taken kind payload)
  let joined := addRef b { written with trunk := { written.trunk with queue := written.trunk.queue ++ [b] } }
  have sent : sentFrame kind payload (.trunk c) b s = dropRef b joined := congrArg _ (offerTrunk_of_room (s := written) up room)
  have fresh : written.buf b = { Buf.taken kind payload with trunkAddr := some { dst := c, src := bridgeCode } } := by
    simp [written, setTrunkAddr]
  have buf : joined.buf b = { written.buf b with refs := (written.buf b).refs + 1 } := buf_addRef_self b _
  have queued : onTrunkQueue joined b = true := onTrunkQueue_iff.2 (by simp [joined, addRef])
  refine ⟨by rw [sent]; rfl, ?_⟩
  rw [sent, buf_dropRef_of_more (by rw [buf, fresh]; exact Nat.one_lt_two), buf, fresh, queued]
  simp [Buf.taken]

end

/-! ### To the star ports -/

section
variable {p : StarNo} {x : StationId}

theorem trunk_sentFrame_star : (sentFrame kind payload (.star p x) b s).trunk = s.trunk := by
  simp only [sentFrame, deliver]; rw [offerStar_eq]; rfl

theorem starPort_sentFrame_ne {v : StarNo} (h : v ≠ p) :
    (sentFrame kind payload (.star p x) b s).starPort v = s.starPort v :=
  starPort_offerStar_ne (b := b)
    (s := setStarAddr b x s.chassis.unitNumber (s.modBuf b fun _ => Buf.taken kind payload)) h

theorem starPort_sentFrame_of_cut (cut : starConnected s p = false) :
    (sentFrame kind payload (.star p x) b s).starPort p = { s.starPort p with counters :=
      { (s.starPort p).counters with notConnected := bump (s.starPort p).counters.notConnected } } := by
  simp only [sentFrame, deliver]
  rw [offerStar_of_cut (s := setStarAddr b x _ (s.modBuf b fun _ => Buf.taken kind payload)) cut, dropRef,
    State.modBuf_starPort, State.starPort_modStar_self]
  rfl

theorem starPort_sentFrame_of_connected (on : starConnected s p = true) :
    (sentFrame kind payload (.star p x) b s).starPort p = (s.starPort p).offered b := by
  have offered := starPort_offerStar (b := b)
    (s := setStarAddr b x s.chassis.unitNumber (s.modBuf b fun _ => Buf.taken kind payload)) on p
  rw [if_pos rfl] at offered
  exact offered

/-- With room the frame goes out in a buffer that the port's queue alone refers to. -/
theorem buf_sentFrame_star_of_room (on : starConnected s p = true) (room : (s.starPort p).queue.length < 16) :
    (sentFrame kind payload (.star p x) b s).buf b =
      { refs := 1, kind := kind, payload := payload, trunkAddr := none,
        starAddr := some { dst := x, src := s.chassis.unitNumber } } := by
  let written := setStarAddr b x s.chassis.unitNumber (s.modBuf b fun _ => Buf.taken kind payload)
  let joined := addRef b (written.modStar p fun y => { y with queue := y.queue ++ [b] })
  have sent : sentFrame kind payload (.star p x) b s = dropRef b joined := congrArg _ (offerStar_of_room (s := written) on room)
  have fresh : written.buf b = { Buf.taken kind payload with starAddr := some { dst := x, src := s.chassis.unitNumber } } := by
    simp [written, setStarAddr]
  have buf : joined.buf b = { written.buf b with refs := (written.buf b).refs + 1 } := buf_addRef_self b _
  have queued : onStarQueue joined b = true := onStarQueue_iff.2 ⟨p, by simp [joined, addRef]⟩
  rw [sent, buf_dropRef_of_more (by rw [buf, fresh]; exact Nat.one_lt_two), buf, fresh, queued]
  simp [Buf.taken]

end

/-! ### To every connected star port -/

section
variable {x : StationId}

theorem trunk_sentFrame_flood : (sentFrame kind payload (.flood x) b s).trunk = s.trunk := by
  simp only [sentFrame, deliver]; rw [offerStars_eq]; rfl

theorem starPort_sentFrame_flood (v : StarNo) : (sentFrame kind payload (.flood x) b s).starPort v =
    if starConnected s v = true then (s.starPort v).offered b else s.starPort v := by
  have offered := starPort_offerStars (b := b)
    (s := setStarAddr b x s.chassis.unitNumber (s.modBuf b fun _ => Buf.taken kind payload)) (nodup_connectedStars s)
    (fun p hp => mem_connectedStars.1 hp) v
  simp only [mem_connectedStars] at offered
  exact offered

/-- Where a port has room the frame goes out in its buffer. -/
theorem buf_sentFrame_flood_of_room {p : StarNo} (on : starConnected s p = true)
    (room : (s.starPort p).queue.length < 16) :
    ((sentFrame kind payload (.flood x) b s).buf b).kind = kind
      ∧ ((sentFrame kind payload (.flood x) b s).buf b).payload = payload
      ∧ ((sentFrame kind payload (.flood x) b s).buf b).starAddr = some { dst := x, src := s.chassis.unitNumber } := by
  let written := setStarAddr b x s.chassis.unitNumber (s.modBuf b fun _ => Buf.taken kind payload)
  have fresh : written.buf b = { Buf.taken kind payload with starAddr := some { dst := x, src := s.chassis.unitNumber } } := by
    simp [written, setStarAddr]
  have more : 1 < ((offerStars (connectedStars s) b written).buf b).refs := by
    have h := refs_lt_offerStars (b := b) (s := written) (mem_connectedStars.2 on) on room
    rwa [fresh] at h
  have queued : onStarQueue (offerStars (connectedStars s) b written) b = true := by
    have offered := starPort_offerStars (b := b) (s := written) (nodup_connectedStars s)
      (fun p hp => mem_connectedStars.1 hp) p
    rw [if_pos (mem_connectedStars.2 on), StarPort.offered_of_room (x := written.starPort p) room] at offered
    exact onStarQueue_iff.2 ⟨p, by simp [offered]⟩
  have sent : sentFrame kind payload (.flood x) b s = dropRef b (offerStars (connectedStars s) b written) := rfl
  rw [sent, buf_dropRef_of_more more, buf_offerStars, fresh, queued]
  exact ⟨rfl, rfl, rfl⟩

end

end

end Sys2Proof.Machine
end

