-- ==== Sys2Proof/Proofs/PresenceQuery.lean ====
section
/-!
The presence query (R95, R97) of a directory that holds one code twice. The command makes every entry under the code QUERIED,
so a second one, ABSENT until then, becomes reachable; the Print Arbiter takes its share of that change, and a ticket that
waits is granted.
-/

namespace Sys2Proof.Machine

/-- Desk 52 on T1, ACTIVE, at the tick that brings its countdown to its query lead. -/
def dueDesk : Entry :=
  { code := 52, place := .trunk 1, origin := .learned, state := .active, admin := false, printerQueue := none, costCentre := 0,
    printClass := 1, presenceLimit := 80, presenceRemaining := 11, broadcastElapsed := 0, strikes := 0, periodMoves := 0,
    periodFaults := 0 }

/-- A printer at desk 200 on T2. -/
def printerDesk : Entry := { dueDesk with code := 200, place := .trunk 2, origin := .fixed, printerQueue := some 0 }

/-- A ticket of desk 52. -/
def deskTicket : Ticket :=
  { number := 1, requester := 52, cls := 1, costCentre := 0, form := 0, label := [], waitAge := 0, bytesFed := 0 }

/-- A running bridge whose directory holds code 52 twice, the second time ABSENT, and a ticket that waits for an idle printer
with credit. -/
def twinDesks : State :=
  { State.reset with dir := { State.reset.dir with entries := [dueDesk, { dueDesk with state := .absent }, printerDesk] } }.modPrinter 0
    fun p => { p with
      code := some 200, enable := true, online := true, credit := 2, state := .idle, waiting := [deskTicket] }

/-- The query of desk 52 leaves no ticket waiting. -/
theorem waiting_presenceQuery_twinDesks :
    ((settle twinDesks (presenceQuery 52 twinDesks)).printer 0).waiting = [] := by decide +kernel

/-- Refutes O18: nothing in the statement keeps codes apart, and in `twinDesks` the second entry under the code that is
queried becomes reachable, so the printer table does not stand. -/
theorem not_presenceIsQueried : ¬ Obligations.PresenceIsQueried := by
  intro h
  obtain ⟨u, ran, -, -, -, -, -, print, -⟩ := h 52 dueDesk twinDesks (by decide) (by decide) (by decide) (by decide +kernel)
    (by decide) (by decide)
  have ran' : exec (.presenceQuery 52) twinDesks = .next (settle twinDesks (presenceQuery 52 twinDesks)) :=
    event_of_running (by decide)
  obtain rfl : settle twinDesks (presenceQuery 52 twinDesks) = u := by
    rw [ran'] at ran
    cases ran
    rfl
  have granted := waiting_presenceQuery_twinDesks
  rw [State.printer, print] at granted
  exact absurd granted (by decide)

end Sys2Proof.Machine
end

