-- ==== Sys2Proof/Proofs/AlertSend.lean ====
section
/-!
ALERT_SEND (R196): the head record as a frame of the bridge's own, by the form of the destination that R66 and R193 resolve.
-/

namespace Sys2Proof.Machine

/-! ## What the command does -/

/-- The Alert Unit once its head record has left the queue, sent or unrouted (R196). -/
def Alerts.headGone (resolved : Bool) (a : Alerts) : Alerts :=
  { a with
    queue := a.queue.tail, sent := if resolved then bump a.sent else a.sent,
    unrouted := if resolved then a.unrouted else bump a.unrouted }

/-- The state once the record `r` has gone out in buffer `b`. -/
def alertSent (r : AlertRecord) (b : BufId) (s : State) : State :=
  { sentFrame kindControl (alertPayload r) (alertDest s) b s with alerts := s.alerts.headGone (resolves (alertDest s) s) }

section
variable {r : AlertRecord} {rest : List AlertRecord} {b : BufId} {s : State}

theorem alertSend_of_full (head : s.alerts.queue = r :: rest) (full : freeBuffers s = 0) : alertSend s = s := by
  simp only [alertSend, head, (sendBuilt_none kindControl (alertPayload r) (alertDest s) s).2 full]

theorem alertSend_of_free (head : s.alerts.queue = r :: rest) (free : freeBuf s = some b) :
    alertSend s = alertSent r b s := by
  have alerts : (sentFrame kindControl (alertPayload r) (alertDest s) b s).alerts = s.alerts := by rw [sentFrame_eq]
  simp only [alertSend, head, sendBuilt_of_free free, popAlert, alertSent, Alerts.headGone, alerts]
  split <;> simp

theorem exec_alertSend_of_full (run : s.isRunning = true) (head : s.alerts.queue = r :: rest) (full : freeBuffers s = 0) :
    exec .alertSend s = .next s := by
  have stands := alertSend_of_full head full
  have ran : exec .alertSend s = .next (alertSend s) :=
    event_of_local run (by rw [stands]) (by rw [stands]) fun p => by rw [stands]
  rw [ran, stands]

theorem exec_alertSend_of_free (run : s.isRunning = true) (head : s.alerts.queue = r :: rest) (free : freeBuf s = some b) :
    exec .alertSend s = .next (alertSent r b s) := by
  have gone := alertSend_of_free head free
  have sends := onlySends_sentFrame kindControl (alertPayload r) (alertDest s) b s
  have ran : exec .alertSend s = .next (alertSend s) := by
    refine event_of_local run ?_ ?_ fun p => ?_ <;> rw [gone]
    · exact congrArg Directory.entries sends.dir
    · exact congrArg Supervision.ports sends.sup
    · exact sends.link p
  rw [ran, gone]

/-- Nothing changes but the Alert Unit and what sending changes. -/
theorem onlySends_alertSent (r : AlertRecord) (b : BufId) (s : State) :
    OnlySends { s with alerts := (alertSent r b s).alerts } (alertSent r b s) := by
  obtain ⟨whole, ports⟩ := onlySends_sentFrame kindControl (alertPayload r) (alertDest s) b s
  exact ⟨congrArg (fun x => { x with alerts := s.alerts.headGone (resolves (alertDest s) s) }) whole, ports⟩

/-! ## By the destination -/

theorem alertSent_nowhere (d : alertDest s = .nowhere) :
    (alertSent r b s).trunk = s.trunk ∧ (alertSent r b s).star = s.star
      ∧ (alertSent r b s).alerts.unrouted = bump s.alerts.unrouted := by
  simp only [alertSent, d]
  exact ⟨rfl, rfl, rfl⟩

theorem alertSent_trunk {c : DeskCode} (d : alertDest s = .trunk c) :
    (alertSent r b s).star = s.star ∧ (alertSent r b s).alerts.sent = bump s.alerts.sent
      ∧ (trunkDown s = true → (alertSent r b s).trunk.queue = s.trunk.queue
        ∧ (alertSent r b s).trunk.counters.trunkDown = bump s.trunk.counters.trunkDown)
      ∧ (trunkDown s = false → 16 ≤ s.trunk.queue.length → (alertSent r b s).trunk.queue = s.trunk.queue
        ∧ (alertSent r b s).trunk.counters.queueFull = bump s.trunk.counters.queueFull)
      ∧ (trunkDown s = false → s.trunk.queue.length < 16 → (alertSent r b s).trunk.queue = s.trunk.queue ++ [b]
        ∧ (alertSent r b s).buf b =
          { refs := 1, kind := kindControl, payload := alertPayload r, trunkAddr := some { dst := c, src := bridgeCode },
            starAddr := none }) := by
  simp only [alertSent, d]
  refine ⟨star_sentFrame_trunk, rfl, fun down => ?_, fun up full => ?_, sentFrame_trunk_of_room⟩
  · rw [trunk_sentFrame_of_down down]; exact ⟨rfl, rfl⟩
  · rw [trunk_sentFrame_of_full up full]; exact ⟨rfl, rfl⟩

theorem alertSent_star {p : StarNo} {x : StationId} (d : alertDest s = .star p x) :
    (alertSent r b s).trunk = s.trunk ∧ (alertSent r b s).alerts.sent = bump s.alerts.sent
      ∧ (∀ v, v ≠ p → (alertSent r b s).starPort v = s.starPort v)
      ∧ (starConnected s p = false → (alertSent r b s).starPort p = { s.starPort p with counters :=
        { (s.starPort p).counters with notConnected := bump (s.starPort p).counters.notConnected } })
      ∧ (starConnected s p = true → 16 ≤ (s.starPort p).queue.length →
        (alertSent r b s).starPort p = { s.starPort p with counters :=
          { (s.starPort p).counters with queueFull := bump (s.starPort p).counters.queueFull } })
      ∧ (starConnected s p = true → (s.starPort p).queue.length < 16 →
        (alertSent r b s).starPort p = { s.starPort p with queue := (s.starPort p).queue ++ [b] }
          ∧ (alertSent r b s).buf b =
            { refs := 1, kind := kindControl, payload := alertPayload r, trunkAddr := none,
              starAddr := some { dst := x, src := s.chassis.unitNumber } }) := by
  simp only [alertSent, d]
  refine ⟨trunk_sentFrame_star, rfl, fun v hv => starPort_sentFrame_ne hv, starPort_sentFrame_of_cut, fun on full => ?_,
    fun on room => ⟨?_, buf_sentFrame_star_of_room on room⟩⟩
  · exact (starPort_sentFrame_of_connected on).trans (StarPort.offered_of_full full)
  · exact (starPort_sentFrame_of_connected on).trans (StarPort.offered_of_room room)

theorem alertSent_flood {x : StationId} (d : alertDest s = .flood x) :
    (alertSent r b s).trunk = s.trunk
      ∧ ((alertSent r b s).alerts.sent = if ∃ p, starConnected s p = true then bump s.alerts.sent else s.alerts.sent)
      ∧ ∀ p, (starConnected s p = false → (alertSent r b s).starPort p = s.starPort p)
        ∧ (starConnected s p = true → 16 ≤ (s.starPort p).queue.length →
          (alertSent r b s).starPort p = { s.starPort p with counters :=
            { (s.starPort p).counters with queueFull := bump (s.starPort p).counters.queueFull } })
        ∧ (starConnected s p = true → (s.starPort p).queue.length < 16 →
          (alertSent r b s).starPort p = { s.starPort p with queue := (s.starPort p).queue ++ [b] }
            ∧ ((alertSent r b s).buf b).kind = kindControl ∧ ((alertSent r b s).buf b).payload = alertPayload r
            ∧ ((alertSent r b s).buf b).starAddr = some { dst := x, src := s.chassis.unitNumber }) := by
  have some_connected : resolves (.flood x) s = true ↔ ∃ p, starConnected s p = true := by
    simp [resolves, connectedStars, List.filter_eq_nil_iff]
  simp only [alertSent, d]
  refine ⟨trunk_sentFrame_flood, ?_, fun p => ⟨fun cut => ?_, fun on full => ?_, fun on room => ⟨?_, ?_⟩⟩⟩
  · simp only [Alerts.headGone, some_connected]
  · exact (starPort_sentFrame_flood p).trans (if_neg (by simp [cut]))
  · exact ((starPort_sentFrame_flood p).trans (if_pos on)).trans (StarPort.offered_of_full full)
  · exact ((starPort_sentFrame_flood p).trans (if_pos on)).trans (StarPort.offered_of_room room)
  · exact buf_sentFrame_flood_of_room on room

/-! ## The destination (R66, R193) -/

theorem alertDest_of_code_known {c : DeskCode} {e : Entry} (dest : s.alerts.config.dest = .code c)
    (found : findEntry s c = some e) : alertDest s = entryDest e := by
  have code : e.code = c := findEntry_code found
  simp only [alertDest, dest, found]
  cases place : e.place with
  | trunk h => simp [Entry.isTrunk, entryDest, place, code]
  | star x h => simp [Entry.isTrunk, place]

theorem alertDest_of_code_unknown {c : DeskCode} (dest : s.alerts.config.dest = .code c) (none : findEntry s c = none) :
    alertDest s = .trunk c := by
  simp only [alertDest, dest, none]

/-- The special IDs: the null ID, the broadcast ID and the part IDs (R51). -/
theorem special_iff (s : State) (x : StationId) : (x = nullId || x = broadcastId || isPartId s x) = true ↔
    x = 0#32 ∨ x = 0xFFFFFFFF#32 ∨ x = s.chassis.unitNumber ∨ x = s.office.base + 240#32 := by
  simp only [isPartId, Bool.or_eq_true, decide_eq_true_iff, beq_iff_eq, or_assoc]
  rfl

theorem inTrunkRange_iff (base x : StationId) : inTrunkRange base x = true ↔ (x - base).toNat < 256 := by simp [inTrunkRange]

theorem isDesk_iff (c : DeskCode) : isDesk c = true ↔ 1 ≤ c.toNat ∧ c.toNat ≤ 239 := by simp [isDesk]

theorem trunkIdDest_eq (s : State) (x : StationId) : trunkIdDest s x =
    if (x - s.office.base).toNat < 256 ∧ 1 ≤ ((x - s.office.base).truncate 8).toNat
        ∧ ((x - s.office.base).truncate 8).toNat ≤ 239 then .trunk ((x - s.office.base).truncate 8) else .nowhere := by
  simp only [trunkIdDest, Bool.and_eq_true, inTrunkRange_iff, isDesk_iff]
  rfl

end

/-- Settles O24, by the form of the alert destination. -/
theorem alertIsSent : Obligations.AlertIsSent := by
  intro r rest s run head told inRange desk special
  refine ⟨exec_alertSend_of_full run head, fun some_free => ?_⟩
  obtain ⟨b, free⟩ := exists_freeBuf some_free
  refine ⟨_, exec_alertSend_of_free run head free, ?_, onlySends_alertSent r b s, fun b' free' => ?_⟩
  · simp only [alertSent, Alerts.headGone, head, List.tail_cons]
  obtain rfl : b = b' := Option.some.inj (free.symm.trans free')
  intro nowhere toTrunk toStar flooded toEntry toTrunkId
  have entry : ∀ e, alertDest s = entryDest e → toEntry e := fun e d =>
    ⟨fun h place => alertSent_trunk (by rw [d, entryDest, place]),
      fun x p place => alertSent_star (by rw [d, entryDest, place]), fun x place => alertSent_nowhere (by rw [d, entryDest, place])⟩
  have trunkId : ∀ x, alertDest s = trunkIdDest s x → toTrunkId x := fun x d =>
    ⟨fun k => alertSent_trunk (by rw [d, trunkIdDest_eq, if_pos k]), fun k => alertSent_nowhere (by rw [d, trunkIdDest_eq, if_neg k])⟩
  refine ⟨fun dest => alertSent_nowhere (by rw [alertDest, dest]), fun c dest => ⟨fun e found => entry e ?_, fun none => ?_⟩,
    fun x dest => ⟨fun e found => entry e ?_, fun none => ⟨fun k => ?_, fun k range => trunkId x ?_, fun k range => ?_⟩⟩,
    fun x dest => ⟨fun e found => entry e ?_, fun none => trunkId x ?_⟩⟩
  · exact alertDest_of_code_known dest found
  · exact alertSent_trunk (alertDest_of_code_unknown dest none)
  · simp only [alertDest, dest, found]
  · exact alertSent_nowhere (by simp only [alertDest, dest, none, if_pos ((special_iff s x).2 k)])
  · simp only [alertDest, dest, none, if_neg (mt (special_iff s x).1 k), if_pos ((inTrunkRange_iff _ x).2 range)]
  · exact alertSent_flood (by simp only [alertDest, dest, none, if_neg (mt (special_iff s x).1 k),
      if_neg (mt (inTrunkRange_iff _ x).1 range)])
  · simp only [alertDest, dest, found]
  · simp only [alertDest, dest, none]

end Sys2Proof.Machine
end

