-- ==== Sys2Proof/Proofs/Learning.lean ====
section
/-!
The Station Directory under learning (Tables 4-4 and 4-5): which entry stands under a code after each operation on the entry
list, and what a suspension, a move and a proxy that gives way leave.
-/

namespace Sys2Proof.Machine

/-! ## The entry list -/

section
variable {s : State} {c d : DeskCode} {e : Entry}

/-- An entry under a code that none had stands under it. -/
theorem findEntry_addEntry_self (h : findEntry s e.code = none) : findEntry (s.addEntry e) e.code = some e := by
  simp only [findEntry, State.addEntry] at h ⊢
  generalize s.dir.entries = l at h ⊢
  induction l with
  | nil => simp [insertEntry]
  | cons x l ih =>
    rw [List.find?_cons] at h
    split at h
    · cases h
    · next other =>
      rw [insertEntry]
      split
      · simp
      · rw [List.find?_cons, other]; exact ih h

theorem findEntry_addEntry_ne (s : State) (h : d ≠ e.code) : findEntry (s.addEntry e) d = findEntry s d := by
  have other : (e.code == d) = false := by simpa using Ne.symm h
  simp only [findEntry, State.addEntry]
  generalize s.dir.entries = l
  induction l with
  | nil => simp [insertEntry, other]
  | cons x l ih =>
    rw [insertEntry]
    split
    · rw [List.find?_cons, other]
    · rw [List.find?_cons, List.find?_cons, ih]

theorem findEntry_dropEntry_self (s : State) (c : DeskCode) : findEntry (s.dropEntry c) c = none := by
  simp [findEntry, State.dropEntry, List.find?_eq_none]

theorem findEntry_dropEntry_ne (s : State) (h : d ≠ c) : findEntry (s.dropEntry c) d = findEntry s d := by
  simp only [findEntry, State.dropEntry, List.find?_filter]
  congr 1
  funext x
  by_cases e : x.code = d <;> simp [e, h]

/-- A proxy code stands in the pool and in the proxy range (R71). -/
theorem mem_pool_of_proxyCode (h : proxyCode s = some c) : c ∈ s.dir.pool := List.mem_of_find?_eq_some h

theorem proxyCode_congr {t : State} (office : t.office = s.office) (dir : t.dir = s.dir) : proxyCode t = proxyCode s := by
  rw [proxyCode, office, dir, proxyCode]

/-- Where codes are apart, an entry that the station-ID index holds is the one under its code. -/
theorem findEntry_of_indexEntry {x : StationId} (h : indexEntry s x = some e) (apart : (s.dir.entries.map Entry.code).Nodup) :
    findEntry s e.code = some e := by
  have member : e ∈ s.dir.entries := List.mem_of_find?_eq_some h
  cases found : findEntry s e.code with
  | none => simpa using List.find?_eq_none.1 found e member
  | some y =>
    exact congrArg some (List.inj_on_of_nodup_map apart (List.mem_of_find?_eq_some found) member (findEntry_code found))

theorem starId?_of_indexEntry {x : StationId} (h : indexEntry s x = some e) : e.starId? = some x := by
  simpa using List.find?_some (p := fun y : Entry => y.starId? == some x) h

/-! ## Setting a flag -/

/-- Setting a flag leaves the directory. -/
@[simp] theorem setFlag_dir (k : AlertKind) (i : Nat) (a : Option Byte) (s : State) : (setFlag k i a s).dir = s.dir :=
  (arbiterOnly_setFlag k i a s).dir

@[simp] theorem findEntry_setFlag (k : AlertKind) (i : Nat) (a : Option Byte) (s : State) (c : DeskCode) :
    findEntry (setFlag k i a s) c = findEntry s c := findEntry_congr (by rw [setFlag_dir]) c

@[simp] theorem setFlag_office (k : AlertKind) (i : Nat) (a : Option Byte) (s : State) : (setFlag k i a s).office = s.office :=
  (arbiterOnly_setFlag k i a s).office

/-- A flag just set is set. -/
theorem isSome_flagOf_setFlag (k : AlertKind) (i : Nat) (a : Option Byte) (s : State) :
    (flagOf (setFlag k i a s) k i).isSome = true := by
  obtain ⟨f, set, -⟩ := flagOf_setFlag_self k i a s
  rw [set]; rfl

/-- A flag of the kinds that replace their detail carries the newest (R192). -/
theorem detail_flagOf_setFlag {k : AlertKind} (h : k.replacesDetail = true) (i : Nat) (a : Option Byte) (s : State) :
    (flagOf (setFlag k i a s) k i).map AlertFlag.detail = some a := by
  cases set : flagOf s k i with
  | none => rw [flagOf_setFlag_of_clear set]; rfl
  | some f => rw [flagOf_setFlag_of_set set, if_pos h]; rfl

/-! ## Suspension and move (R75, R80) -/

theorem takesTimed_of_not_suspended (h : e.isSuspended = false) : e.takesTimed = true := by
  unfold Entry.isSuspended at h
  unfold Entry.takesTimed
  cases state : e.state with
  | suspended w => rw [state] at h; cases h
  | active => rfl
  | queried => rfl
  | absent => rfl

/-- An entry under a timed suspension (R75). -/
def Entry.suspendedFor (why : TimedReason) (seconds : Nat) (e : Entry) : Entry :=
  { e with state := .suspended (.timed why seconds) }

theorem suspendTimed_of_found (why : TimedReason) (found : findEntry s c = some e) (takes : e.takesTimed = true) :
    suspendTimed why c s = setFlag why.flag 0 (some c)
      (s.modEntry c (Entry.suspendedFor why s.office.quarantine)) := by
  simp only [suspendTimed, found, if_pos takes]
  rfl

/-- A timed suspension is on the entry under the code, and its flag is set. -/
theorem suspendTimed_result (why : TimedReason) (found : findEntry s c = some e) (takes : e.takesTimed = true) :
    findEntry (suspendTimed why c s) c = some (e.suspendedFor why s.office.quarantine)
      ∧ (flagOf (suspendTimed why c s) why.flag 0).isSome = true := by
  rw [suspendTimed_of_found why found takes]
  refine ⟨?_, isSome_flagOf_setFlag _ _ _ _⟩
  rw [findEntry_setFlag, findEntry_modEntry_self s c (Entry.suspendedFor why s.office.quarantine) fun _ => rfl, found]
  rfl

theorem findEntry_refresh (found : findEntry s c = some e) : findEntry (refresh c s) c = some e.refreshed := by
  rw [refresh, findEntry_modEntry_self s c Entry.refreshed fun _ => rfl, found]
  rfl

/-- An entry that has moved, before it is judged. -/
def Entry.movedHome (home : SegNo ⊕ StarNo) (e : Entry) : Entry :=
  { e with place := e.place.movedTo home, periodMoves := gain 255 e.periodMoves }

theorem findEntry_movedHome (home : SegNo ⊕ StarNo) (found : findEntry s c = some e) :
    findEntry (s.modEntry c (Entry.movedHome home)) c = some (e.movedHome home) := by
  rw [findEntry_modEntry_self s c (Entry.movedHome home) fun _ => rfl, found]
  rfl

/-- A move by whether it goes beyond the move limit. -/
theorem moveEntry_of_found (home : SegNo ⊕ StarNo) (found : findEntry s c = some e) :
    moveEntry c home s =
      if s.office.moveLimit < (e.movedHome home).periodMoves then
        suspendTimed .duplicate c (s.modEntry c (Entry.movedHome home))
      else refresh c (s.modEntry c (Entry.movedHome home)) := by
  have moved : findEntry (s.modEntry c fun e =>
      { e with place := e.place.movedTo home, periodMoves := gain 255 e.periodMoves }) c = some (e.movedHome home) :=
    findEntry_movedHome home found
  simp only [moveEntry, moved]
  rfl

theorem moveEntry_within {home : SegNo ⊕ StarNo} (found : findEntry s c = some e)
    (few : (e.movedHome home).periodMoves ≤ s.office.moveLimit) :
    findEntry (moveEntry c home s) c = some (e.movedHome home).refreshed := by
  rw [moveEntry_of_found home found, if_neg (Nat.not_lt.2 few), findEntry_refresh (findEntry_movedHome home found)]

theorem moveEntry_beyond {home : SegNo ⊕ StarNo} (found : findEntry s c = some e) (use : e.isSuspended = false)
    (many : s.office.moveLimit < (e.movedHome home).periodMoves) :
    findEntry (moveEntry c home s) c
        = some ((e.movedHome home).suspendedFor .duplicate s.office.quarantine)
      ∧ (flagOf (moveEntry c home s) .duplicate 0).isSome = true := by
  rw [moveEntry_of_found home found, if_pos many]
  exact suspendTimed_result .duplicate (findEntry_movedHome home found) (takesTimed_of_not_suspended (e := e) use)

/-! ## A new entry (R73) -/

theorem findEntry_createLearned_self (place : Place) (h : findEntry s c = none) :
    findEntry (createLearned c place s) c = some (learnedEntry s c place) :=
  findEntry_addEntry_self (e := learnedEntry s c place) h

theorem findEntry_createLearned_ne (place : Place) (h : d ≠ c) : findEntry (createLearned c place s) d = findEntry s d :=
  findEntry_addEntry_ne s h

/-! ## A proxy that gives way (R79) -/

/-- Removing an entry's tickets with answers sets no flag but the arbiter's own. -/
theorem flagOf_removeTicketsOf {k : AlertKind} (hk : k.apartFromPrint) (i : Nat) (c : DeskCode) (s : State) :
    flagOf (removeTicketsOf .tell c s) k i = flagOf s k i := by
  refine flagOf_foldl i _ (fun x q => ?_) _ _
  have waiting : flagOf (((x.printer q).waiting.filter fun t => t.requester == c).foldl
      (fun y t => cancelWaiting .tell q t y) x) k i = flagOf x k i :=
    flagOf_foldl i _ (fun y t => (flagOf_of_onlySends i (onlySends_answerRequester .cancelled q t (dropWaiting q t y))).trans rfl) _ _
  simp only [removeTicketsAt]
  split
  · split
    · exact (flagOf_abandonAndTell hk i q _ _).trans waiting
    · exact waiting
  · exact waiting

/-- A proxy with a code to be had is renumbered to it (R76). -/
theorem displaceProxy_of_proxyCode {n : DeskCode} (code : proxyCode s = some n) (found : findEntry s c = some e) :
    displaceProxy c s = renameRequester c n ((s.dropEntry c).addEntry { e with code := n }) := by
  simp only [displaceProxy, code, renumber, found]

/-- A proxy with no code to be had is removed, and POOL_EMPTY set (R77). -/
theorem displaceProxy_of_none (code : proxyCode s = none) :
    displaceProxy c s = (removeTicketsOf .tell c (setFlag .poolEmpty 0 none s)).dropEntry c := by
  simp only [displaceProxy, code, removeKeepingCode]

/-- What a proxy that gives way leaves: nothing under its code, and under no other code but the one it takes anything new. -/
theorem displaceProxy_renumbered {n : DeskCode} (code : proxyCode s = some n) (found : findEntry s c = some e)
    (apart : n ≠ c) :
    findEntry (displaceProxy c s) c = none ∧ (displaceProxy c s).office = s.office
      ∧ (findEntry s n = none → findEntry (displaceProxy c s) n = some { e with code := n })
      ∧ (∀ d, d ≠ c → d ≠ n → findEntry (displaceProxy c s) d = findEntry s d)
      ∧ ∀ k i, flagOf (displaceProxy c s) k i = flagOf s k i := by
  rw [displaceProxy_of_proxyCode code found]
  have entries : ∀ d, findEntry (renameRequester c n ((s.dropEntry c).addEntry { e with code := n })) d
      = findEntry ((s.dropEntry c).addEntry { e with code := n }) d := fun d => rfl
  simp only [entries]
  refine ⟨?_, rfl, fun clear => ?_, fun d hc hn => ?_, fun k i => rfl⟩
  · rw [findEntry_addEntry_ne _ (show c ≠ n from apart.symm), findEntry_dropEntry_self]
  · exact findEntry_addEntry_self (e := { e with code := n }) ((findEntry_dropEntry_ne s apart).trans clear)
  · rw [findEntry_addEntry_ne _ (show d ≠ n from hn), findEntry_dropEntry_ne s hc]

theorem displaceProxy_removed (code : proxyCode s = none) :
    findEntry (displaceProxy c s) c = none ∧ (displaceProxy c s).office = s.office
      ∧ (∀ d, d ≠ c → findEntry (displaceProxy c s) d = findEntry s d)
      ∧ (flagOf (displaceProxy c s) .poolEmpty 0).isSome = true
      ∧ flagOf (displaceProxy c s) .codeConflict 0 = flagOf s .codeConflict 0 := by
  have tickets := arbiterOnly_removeTicketsOf .tell c (setFlag .poolEmpty 0 none s)
  have pool := flagOf_removeTicketsOf (k := .poolEmpty) ⟨by decide, by decide⟩ 0 c (setFlag .poolEmpty 0 none s)
  have conflict := flagOf_removeTicketsOf (k := .codeConflict) ⟨by decide, by decide⟩ 0 c (setFlag .poolEmpty 0 none s)
  rw [displaceProxy_of_none code]
  generalize removeTicketsOf .tell c (setFlag .poolEmpty 0 none s) = x at tickets pool conflict ⊢
  have flags : ∀ k i, flagOf (x.dropEntry c) k i = flagOf x k i := fun k i => flagOf_congr rfl k i
  refine ⟨findEntry_dropEntry_self x c, tickets.office.trans (setFlag_office ..), fun d hd => ?_, ?_, ?_⟩
  · rw [findEntry_dropEntry_ne x hd, findEntry_congr (s := s) (by rw [tickets.dir, setFlag_dir])]
  · rw [flags, pool]
    exact isSome_flagOf_setFlag _ _ _ _
  · rw [flags, conflict, flagOf_setFlag_ne (.inl (by decide))]

end

end Sys2Proof.Machine
end

