-- ==== Sys2Proof/Proofs/TrunkBridging.lean ====
section
/-!
The bridging of a good trunk frame (R53 to R58): what drops it, what learning makes of its source (Table 4-4), and where it is
placed.
-/

namespace Sys2Proof.Machine

/-- The transmit queues, the star ports and the input queues stand. -/
def QueuesStand (s u : State) : Prop := u.trunk.queue = s.trunk.queue ∧ u.star = s.star ∧ u.inputs = s.inputs

section
variable {t : SegNo} {tr : Bool} {f : TrunkRx} {b : BufId} {s : State} {e : Entry}

theorem TrunkRx.isControlToBridge_iff : f.isControlToBridge = true ↔ f.dst = 240#8 ∧ f.kind = 3#8 := by
  simp [TrunkRx.isControlToBridge, bridgeCode, kindControl]

/-! ## Learning (Table 4-4) -/

theorem learnTrunk_of_unknown {c : DeskCode} (found : findEntry s c = none) :
    learnTrunk t c s = (true, createLearned c (.trunk t) s) := by simp only [learnTrunk, found]

theorem learnTrunk_of_suspended {c : DeskCode} {h : SegNo} (found : findEntry s c = some e) (place : e.place = .trunk h)
    (sus : e.isSuspended = true) : learnTrunk t c s = (true, s) := by
  simp only [learnTrunk, found, place, if_pos sus]

theorem learnTrunk_of_home {c : DeskCode} (found : findEntry s c = some e) (place : e.place = .trunk t)
    (use : e.isSuspended = false) : learnTrunk t c s = (true, refresh c s) := by
  simp [learnTrunk, found, place, use]

theorem learnTrunk_of_moved {c : DeskCode} {h : SegNo} (found : findEntry s c = some e) (place : e.place = .trunk h)
    (use : e.isSuspended = false) (apart : h ≠ t) (origin : e.origin = .learned) :
    learnTrunk t c s = (true, moveEntry c (.inl t) s) := by
  simp [learnTrunk, found, place, use, apart, origin]

theorem learnTrunk_of_fixed_moved {c : DeskCode} {h : SegNo} (found : findEntry s c = some e) (place : e.place = .trunk h)
    (use : e.isSuspended = false) (apart : h ≠ t) (origin : e.origin = .fixed) :
    learnTrunk t c s = (true, suspendTimed .duplicate c s) := by
  simp [learnTrunk, found, place, use, apart, origin]

theorem learnTrunk_of_proxy {c : DeskCode} {x : StationId} {h : Option StarNo} (found : findEntry s c = some e)
    (place : e.place = .star x h) (origin : e.origin = .learned) :
    learnTrunk t c s = (true, createLearned c (.trunk t) (displaceProxy c (setFlag .codeConflict 0 (some c) s))) := by
  simp only [learnTrunk, found, place, origin]

theorem learnTrunk_of_fixed_star {c : DeskCode} {x : StationId} {h : Option StarNo} (found : findEntry s c = some e)
    (place : e.place = .star x h) (origin : e.origin = .fixed) :
    learnTrunk t c s = (false, setFlag .codeConflict 0 (some c) s) := by
  simp only [learnTrunk, found, place, origin]

/-- A station that is new on the trunk (R73). -/
theorem learnTrunk_unknown {c : DeskCode} (found : findEntry s c = none) :
    (learnTrunk t c s).1 = true ∧ findEntry (learnTrunk t c s).2 c = some (learnedEntry s c (.trunk t))
      ∧ (learnTrunk t c s).2.dir.pool = s.dir.pool.filter (fun d => d != c)
      ∧ ∀ d, d ≠ c → findEntry (learnTrunk t c s).2 d = findEntry s d := by
  rw [learnTrunk_of_unknown found]
  exact ⟨rfl, findEntry_createLearned_self _ found, rfl, fun d hd => findEntry_createLearned_ne _ hd⟩

/-- A trunk station that is suspended, at home, or somewhere else (R74, R75, R80). -/
theorem learnTrunk_known {c : DeskCode} {h : SegNo} (found : findEntry s c = some e) (place : e.place = .trunk h) :
    let moved := { e with place := .trunk t, periodMoves := gain 255 e.periodMoves }
    let duplicate := EntryState.suspended (.timed .duplicate s.office.quarantine)
    let l := learnTrunk t c s
    (e.isSuspended = true → l = (true, s))
      ∧ (e.isSuspended = false → h = t →
        l.1 = true ∧ findEntry l.2 c = some { e with presenceRemaining := e.presenceLimit, state := .active })
      ∧ (e.isSuspended = false → h ≠ t → e.origin = .learned →
        l.1 = true
        ∧ (moved.periodMoves ≤ s.office.moveLimit →
          findEntry l.2 c = some { moved with presenceRemaining := e.presenceLimit, state := .active })
        ∧ (s.office.moveLimit < moved.periodMoves →
          findEntry l.2 c = some { moved with state := duplicate } ∧ (flagOf l.2 .duplicate 0).isSome = true))
      ∧ (e.isSuspended = false → h ≠ t → e.origin = .fixed →
        l.1 = true ∧ findEntry l.2 c = some { e with state := duplicate } ∧ (flagOf l.2 .duplicate 0).isSome = true) := by
  intro moved duplicate l
  have arrived : e.movedHome (.inl t) = moved := by simp only [Entry.movedHome, place]; rfl
  refine ⟨learnTrunk_of_suspended found place, fun use home => ?_, fun use apart origin => ?_, fun use apart origin => ?_⟩
  · subst home
    simp only [l, learnTrunk_of_home found place use]
    exact ⟨trivial, findEntry_refresh found⟩
  · simp only [l, learnTrunk_of_moved found place use apart origin]
    refine ⟨trivial, fun few => ?_, fun many => ?_⟩
    · rw [moveEntry_within found (by rw [arrived]; exact few), arrived]
      rfl
    · rw [← arrived]
      exact moveEntry_beyond found use (by rw [arrived]; exact many)
  · simp only [l, learnTrunk_of_fixed_moved found place use apart origin]
    exact ⟨trivial, suspendTimed_result .duplicate found (takesTimed_of_not_suspended use)⟩

/-- A code that a STAR entry holds: FIXED it keeps the code, a proxy gives way (R78, R79). -/
theorem learnTrunk_conflict {c : DeskCode} {x : StationId} {h : Option StarNo} (found : findEntry s c = some e)
    (place : e.place = .star x h) :
    let l := learnTrunk t c s
    (flagOf l.2 .codeConflict 0).map AlertFlag.detail = some (some c)
      ∧ (e.origin = .fixed → l.1 = false ∧ l.2.dir = s.dir)
      ∧ (e.origin = .learned → c ∉ s.dir.pool →
        l.1 = true ∧ findEntry l.2 c = some (learnedEntry s c (.trunk t))
        ∧ (∀ n, proxyCode s = some n → findEntry s n = none →
          findEntry l.2 n = some { e with code := n } ∧ (∀ d, d ≠ c → d ≠ n → findEntry l.2 d = findEntry s d))
        ∧ (proxyCode s = none → (flagOf l.2 .poolEmpty 0).isSome = true
          ∧ (∀ d, d ≠ c → findEntry l.2 d = findEntry s d))) := by
  intro l
  let told := setFlag .codeConflict 0 (some c) s
  have conflict : (flagOf told .codeConflict 0).map AlertFlag.detail = some (some c) := detail_flagOf_setFlag rfl 0 (some c) s
  have known : findEntry told c = some e := (findEntry_setFlag ..).trans found
  have entries : ∀ d, findEntry told d = findEntry s d := findEntry_setFlag _ _ _ s
  have code : proxyCode told = proxyCode s := proxyCode_congr (setFlag_office ..) (setFlag_dir ..)
  have created : ∀ u : State, u.office = s.office → learnedEntry u c (.trunk t) = learnedEntry s c (.trunk t) := fun u hu => by
    rw [learnedEntry, hu, learnedEntry]
  have flags : ∀ (u : State) k, flagOf (createLearned c (.trunk t) u) k 0 = flagOf u k 0 := fun u k => flagOf_congr rfl k 0
  cases origin : e.origin with
  | fixed =>
    have fixed : l = (false, told) := learnTrunk_of_fixed_star found place origin
    rw [fixed]
    exact ⟨conflict, fun _ => ⟨rfl, setFlag_dir ..⟩, nofun⟩
  | learned =>
    have proxy : l = (true, createLearned c (.trunk t) (displaceProxy c told)) := learnTrunk_of_proxy found place origin
    rw [proxy]
    simp only [flags]
    cases free : proxyCode s with
    | some n =>
      by_cases apart : n = c
      · refine ⟨?_, nofun, fun _ hc => absurd (apart ▸ mem_pool_of_proxyCode free) hc⟩
        rw [displaceProxy_of_proxyCode (code.trans free) known]
        exact conflict
      · obtain ⟨gone, office, renumbered, others, stand⟩ := displaceProxy_renumbered (code.trans free) known apart
        refine ⟨by rw [stand]; exact conflict, nofun, fun _ _ => ⟨trivial, ?_, ?_, nofun⟩⟩
        · rw [findEntry_createLearned_self _ gone, created _ (office.trans (setFlag_office ..))]
        · rintro _ ⟨⟩ clear
          refine ⟨?_, fun d hc hn => ?_⟩
          · rw [findEntry_createLearned_ne _ apart, renumbered ((entries n).trans clear), origin]
          · rw [findEntry_createLearned_ne _ hc, others d hc hn, entries]
    | none =>
      obtain ⟨gone, office, others, empty, stand⟩ := displaceProxy_removed (c := c) (code.trans free)
      refine ⟨by rw [stand]; exact conflict, nofun, fun _ _ => ⟨trivial, ?_, nofun, fun _ => ⟨empty, fun d hc => ?_⟩⟩⟩
      · rw [findEntry_createLearned_self _ gone, created _ (office.trans (setFlag_office ..))]
      · rw [findEntry_createLearned_ne _ hc, others d hc, entries]

/-! ## Dispatch (Table 3-2) -/

/-- A frame to the bridge by its kind (R48, R49, R50). -/
theorem dispatch_result (b : BufId) (kind : Byte) (r : Route) (q : PortNo) (s : State) :
    (kind = 3#8 → s.inputs.control.length < 4 →
        (dispatch b kind r q s).inputs.control = s.inputs.control ++ [{ buf := b, route := r }])
      ∧ (kind = 3#8 → 4 ≤ s.inputs.control.length →
        dispatch b kind r q s = { s with inputs := { s.inputs with controlFull := bump s.inputs.controlFull } })
      ∧ (kind = 2#8 → s.inputs.print.length < 8 →
        (dispatch b kind r q s).inputs.print = s.inputs.print ++ [{ buf := b, route := r }])
      ∧ (kind = 2#8 → 8 ≤ s.inputs.print.length →
        dispatch b kind r q s = { s with inputs := { s.inputs with printFull := bump s.inputs.printFull } })
      ∧ (kind = 4#8 → dispatch b kind r q s = s)
      ∧ (kind ≠ 2#8 → kind ≠ 3#8 → kind ≠ 4#8 →
        dispatch b kind r q s = s.modDrops q (fun k => { k with notForPart := bump k.notForPart })) := by
  have control : kind = 3#8 → dispatch b kind r q s = offerControl b r s := fun h => if_pos h
  have print : kind = 2#8 → dispatch b kind r q s = offerPrint b r s := fun h => by subst h; rfl
  refine ⟨fun h room => ?_, fun h full => ?_, fun h room => ?_, fun h full => ?_, fun h => by subst h; rfl, fun h2 h3 h4 => ?_⟩
  · rw [control h, offerControl, if_pos (by exact room)]; rfl
  · rw [control h, offerControl, if_neg (by exact Nat.not_lt.2 full)]
  · rw [print h, offerPrint, if_pos (by exact room)]; rfl
  · rw [print h, offerPrint, if_neg (by exact Nat.not_lt.2 full)]
  · rw [dispatch, if_neg (by exact h3), if_neg (by exact h2), if_neg (by exact h4)]

/-! ## Placement (R55 to R58) -/

/-- Copies leave the addressing that was written (R46). -/
theorem starAddr_floodStars (except : Option StarNo) (b : BufId) (dst src : StationId) (s : State) :
    ((floodStars except b (setStarAddr b dst src s)).buf b).starAddr = some { dst := dst, src := src } := by
  rw [floodStars, buf_offerStars]
  simp [setStarAddr]

/-- A broadcast of a trunk station (R55). -/
theorem placeTrunk_broadcast (b : BufId) (s : State) (dst : f.dst = 0#8) :
    (s.office.trunkToStar = false → placeTrunk t f b s = s)
      ∧ (s.office.trunkToStar = true → placeTrunk t f b s
        = floodStars none b (setStarAddr b broadcastId (idOfDesk s.office.base f.src) s)) := by
  refine ⟨fun off => ?_, fun on => ?_⟩
  · simp [placeTrunk, dst, off]
  · simp [placeTrunk, dst, on]

theorem placeTrunk_bridge (b : BufId) (s : State) (dst : f.dst = 240#8) :
    placeTrunk t f b s = dispatch b f.kind (.segment t f.src) (portOfSeg t) s := by
  simp [placeTrunk, dst, bridgeCode]

/-- A frame for a TRUNK station goes no further (R56). -/
theorem placeTrunk_trunk (b : BufId) (d0 : f.dst ≠ 0#8) (d240 : f.dst ≠ 240#8) (found : findEntry s f.dst = some e)
    (side : e.isTrunk = true) : placeTrunk t f b s = s := by
  have id : e.starId? = none := by
    cases place : e.place with
    | trunk h => rw [Entry.starId?, place]
    | star x h => rw [Entry.isTrunk, place] at side; cases side
  simp only [placeTrunk, if_neg d0, bridgeCode, if_neg d240, found, id]

/-- A frame for a STAR station that cannot be reached (R57). -/
theorem placeTrunk_unreachable (b : BufId) {x : StationId} {h : Option StarNo} (d0 : f.dst ≠ 0#8) (d240 : f.dst ≠ 240#8)
    (found : findEntry s f.dst = some e) (place : e.place = .star x h) (home : deliverableHome s e = none) :
    placeTrunk t f b s = s.modDrops (portOfSeg t) (fun k => { k with unreachable := bump k.unreachable }) := by
  have id : e.starId? = some x := by rw [Entry.starId?, place]
  simp only [placeTrunk, if_neg d0, bridgeCode, if_neg d240, found, id, home]

/-- A frame for a STAR station goes to its home (R57). -/
theorem placeTrunk_delivered (b : BufId) {x : StationId} {h : Option StarNo} {p : StarNo} (d0 : f.dst ≠ 0#8)
    (d240 : f.dst ≠ 240#8) (found : findEntry s f.dst = some e) (place : e.place = .star x h)
    (home : deliverableHome s e = some p) :
    placeTrunk t f b s = offerStar p b (setStarAddr b x (idOfDesk s.office.base f.src) s) := by
  have id : e.starId? = some x := by rw [Entry.starId?, place]
  simp only [placeTrunk, if_neg d0, bridgeCode, if_neg d240, found, id, home]

theorem placeTrunk_unknown (b : BufId) (d0 : f.dst ≠ 0#8) (d240 : f.dst ≠ 240#8) (found : findEntry s f.dst = none) :
    placeTrunk t f b s = if f.dst.toNat ≤ 240 then s
      else s.modDrops (portOfSeg t) (fun k => { k with reserved := bump k.reserved }) := by
  simp only [placeTrunk, if_neg d0, bridgeCode, if_neg d240, found]
  by_cases low : f.dst.toNat ≤ 240
  · rw [if_pos low, if_neg (by omega)]
  · rw [if_neg low, if_pos (by omega)]

/-- Where a STAR entry can be reached (R57, R64). -/
theorem deliverableHome_of_place {x : StationId} {h : Option StarNo} (s : State) (place : e.place = .star x h) :
    (e.isSuspended = true ∨ h = none → deliverableHome s e = none)
      ∧ ∀ p, h = some p → e.isSuspended = false →
        (starConnected s p = false → deliverableHome s e = none)
        ∧ (starConnected s p = true → deliverableHome s e = some p) := by
  refine ⟨?_, ?_⟩
  · rintro (sus | rfl)
    · simp [deliverableHome, sus]
    · simp [deliverableHome, place]
  · rintro p rfl use
    exact ⟨fun cut => by simp [deliverableHome, place, use, cut], fun on => by simp [deliverableHome, place, use, on]⟩

/-- What an offer to one connected star port with room leaves and changes (R38). -/
theorem sendStar_result {p : StarNo} (b : BufId) (dst src : StationId) (on : starConnected s p = true)
    (room : (s.starPort p).queue.length < 16) :
    let u := offerStar p b (setStarAddr b dst src s)
    (u.starPort p).queue = (s.starPort p).queue ++ [b] ∧ (∀ v, v ≠ p → u.starPort v = s.starPort v)
      ∧ (u.buf b).starAddr = some { dst := dst, src := src }
      ∧ u.trunk = s.trunk ∧ u.inputs = s.inputs ∧ u.drops = s.drops := by
  have own := starPort_offerStar (b := b) (s := setStarAddr b dst src s) on p
  rw [if_pos rfl, StarPort.offered_of_room (x := (setStarAddr b dst src s).starPort p) room] at own
  have frame := offerStar_eq p b (setStarAddr b dst src s)
  refine ⟨by rw [own]; rfl, fun v hv => starPort_offerStar_ne (s := setStarAddr b dst src s) hv, ?_, by rw [frame]; rfl,
    by rw [frame]; rfl, by rw [frame]; rfl⟩
  rw [starAddr_offerStar]
  simp [setStarAddr]

/-! ## What drops a frame (R44, R53, R54) -/

theorem bridgeTrunk_of_full (tr : Bool) (full : freeBuffers s = 0) : bridgeTrunk t tr f s =
    (none, s.modDrops (portOfSeg t) (fun k => { k with noBuffer := bump k.noBuffer })) := by
  rw [bridgeTrunk, (takeBuf_none f.kind f.payload s).2 full]

theorem bridgeTrunk_of_taken {s1 : State} (tr : Bool) (taken : takeBuf f.kind f.payload s = some (b, s1)) :
    bridgeTrunk t tr f s = (some b, decideTrunk t tr f b s1) := by
  rw [bridgeTrunk, taken]

theorem decideTrunk_of_badSource (tr : Bool) (b : BufId) (s : State) (bad : isDesk f.src = false) :
    decideTrunk t tr f b s = s.modDrops (portOfSeg t) (fun k => { k with badSource := bump k.badSource }) := by
  simp only [decideTrunk, bad, Bool.not_false, if_true]

theorem decideTrunk_of_truncated (b : BufId) (s : State) (good : isDesk f.src = true) :
    decideTrunk t true f b s = if (f.dst = 240#8 ∧ f.kind = 3#8) ∧ (findEntry s f.src).isSome = true then
      dispatch b f.kind (.segment t f.src) (portOfSeg t) s else s := by
  simp only [decideTrunk, good, Bool.not_true, Bool.false_eq_true, if_false, if_true, Bool.and_eq_true,
    TrunkRx.isControlToBridge_iff]

theorem decideTrunk_of_refused {s1 : State} (b : BufId) (good : isDesk f.src = true)
    (learned : learnTrunk t f.src s = (false, s1)) : decideTrunk t false f b s =
      s1.modDrops (portOfSeg t) (fun k => { k with sourceConflict := bump k.sourceConflict }) := by
  simp [decideTrunk, good, learned]

/-- A frame whose source was learned, by whether that source is suspended (R54). -/
theorem decideTrunk_of_learned {s1 : State} (b : BufId) (good : isDesk f.src = true)
    (learned : learnTrunk t f.src s = (true, s1)) : decideTrunk t false f b s =
      if ((findEntry s1 f.src).map Entry.isSuspended).getD false = true then
        if f.dst = 240#8 ∧ f.kind = 3#8 then dispatch b f.kind (.segment t f.src) (portOfSeg t) s1
        else s1.modDrops (portOfSeg t) (fun k => { k with sourceSuspended := bump k.sourceSuspended })
      else placeTrunk t f b s1 := by
  simp only [decideTrunk, good, learned, Bool.not_true, Bool.false_eq_true, if_false, TrunkRx.isControlToBridge_iff]

/-! ## What a dropped frame leaves -/

theorem drops_modDrops_self (q : PortNo) (k : Drops → Drops) (s : State) :
    (s.modDrops q k).drops[q.val] = k s.drops[q.val] := by rw [State.drops_modDrops, if_pos rfl]

/-- A frame that finds a buffer is decided in the state in which the buffer is taken. -/
theorem exists_taken (f : TrunkRx) (some_free : 0 < freeBuffers s) :
    ∃ b, ∀ t tr, bridgeTrunk t tr f s
      = (some b, decideTrunk t tr f b (s.modBuf b fun _ => Buf.taken f.kind f.payload)) := by
  obtain ⟨b, free⟩ := exists_freeBuf some_free
  exact ⟨b, fun _ tr => bridgeTrunk_of_taken tr (takeBuf_of_free free)⟩

theorem bridgeTrunk_full_result (full : freeBuffers s = 0) :
    let u := (bridgeTrunk t false f s).2
    u.drops[(portOfSeg t).val].noBuffer = bump s.drops[(portOfSeg t).val].noBuffer
      ∧ u.bufs = s.bufs ∧ u.dir = s.dir ∧ QueuesStand s u := by
  simp only [bridgeTrunk_of_full false full, drops_modDrops_self]
  exact ⟨trivial, rfl, rfl, rfl, rfl, rfl⟩

theorem bridgeTrunk_badSource_result (some_free : 0 < freeBuffers s) (bad : isDesk f.src = false) :
    let u := (bridgeTrunk t false f s).2
    u.drops[(portOfSeg t).val].badSource = bump s.drops[(portOfSeg t).val].badSource ∧ u.dir = s.dir ∧ QueuesStand s u := by
  obtain ⟨b, taken⟩ := exists_taken f some_free
  simp only [taken, decideTrunk_of_badSource false b _ bad, drops_modDrops_self]
  exact ⟨rfl, rfl, rfl, rfl, rfl⟩

/-- A source that is suspended, whose frame is no CONTROL frame to the bridge (R54). -/
theorem bridgeTrunk_suspended_result (some_free : 0 < freeBuffers s) (good : isDesk f.src = true)
    (found : findEntry s f.src = some e) (side : e.isTrunk = true) (sus : e.isSuspended = true)
    (other : ¬ (f.dst = 240#8 ∧ f.kind = 3#8)) :
    let u := (bridgeTrunk t false f s).2
    u.drops[(portOfSeg t).val].sourceSuspended = bump s.drops[(portOfSeg t).val].sourceSuspended
      ∧ u.dir = s.dir ∧ QueuesStand s u := by
  obtain ⟨b, taken⟩ := exists_taken f some_free
  have known : findEntry (s.modBuf b fun _ => Buf.taken f.kind f.payload) f.src = some e := found
  obtain ⟨h, place⟩ : ∃ h, e.place = .trunk h := by
    cases place : e.place with
    | trunk h => exact ⟨h, rfl⟩
    | star x h => rw [Entry.isTrunk, place] at side; cases side
  have decided := decideTrunk_of_learned b good (learnTrunk_of_suspended (t := t) known place sus)
  simp only [known, Option.map_some, Option.getD_some, sus, if_true, if_neg other] at decided
  simp only [taken, decided, drops_modDrops_self]
  exact ⟨rfl, rfl, rfl, rfl, rfl⟩

/-- A source whose code a FIXED STAR entry holds (R54, R78). -/
theorem bridgeTrunk_conflict_result (some_free : 0 < freeBuffers s) (good : isDesk f.src = true)
    (found : findEntry s f.src = some e) (side : e.isTrunk = false) (origin : e.origin = .fixed) :
    let u := (bridgeTrunk t false f s).2
    u.drops[(portOfSeg t).val].sourceConflict = bump s.drops[(portOfSeg t).val].sourceConflict
      ∧ u.dir = s.dir ∧ QueuesStand s u := by
  obtain ⟨b, taken⟩ := exists_taken f some_free
  have known : findEntry (s.modBuf b fun _ => Buf.taken f.kind f.payload) f.src = some e := found
  obtain ⟨x, h, place⟩ : ∃ x h, e.place = .star x h := by
    cases place : e.place with
    | trunk h => rw [Entry.isTrunk, place] at side; cases side
    | star x h => exact ⟨x, h, rfl⟩
  obtain ⟨a, flagged, -⟩ := setFlag_eq .codeConflict 0 (some f.src) (s.modBuf b fun _ => Buf.taken f.kind f.payload)
  have refused := learnTrunk_of_fixed_star (t := t) known place origin
  rw [flagged] at refused
  simp only [taken, decideTrunk_of_refused b good refused, drops_modDrops_self]
  exact ⟨rfl, rfl, rfl, rfl, rfl⟩

/-- A truncated frame other than CONTROL of a known station to the bridge (R53). -/
theorem bridgeTrunk_truncated_result (some_free : 0 < freeBuffers s) (good : isDesk f.src = true)
    (other : ¬ ((f.dst = 240#8 ∧ f.kind = 3#8) ∧ (findEntry s f.src).isSome = true)) :
    let cut := (bridgeTrunk t true f s).2
    QueuesStand s cut ∧ cut.dir = s.dir ∧ cut.drops = s.drops := by
  obtain ⟨b, taken⟩ := exists_taken f some_free
  simp only [taken, decideTrunk_of_truncated b _ good]
  rw [if_neg (by exact other)]
  exact ⟨⟨rfl, rfl, rfl⟩, rfl, rfl⟩

/-- A frame that found a buffer and whose source was learned. -/
theorem bridgeTrunk_learned_result {s1 s2 : State} (taken : takeBuf f.kind f.payload s = some (b, s1))
    (good : isDesk f.src = true) (learned : learnTrunk t f.src s1 = (true, s2)) :
    ((∀ e, findEntry s2 f.src = some e → e.isSuspended = false) → (bridgeTrunk t false f s).2 = placeTrunk t f b s2)
      ∧ (f.dst = 240#8 ∧ f.kind = 3#8 → (∃ e, findEntry s2 f.src = some e ∧ e.isSuspended = true) →
        (bridgeTrunk t false f s).2 = dispatch b f.kind (.segment t f.src) (portOfSeg t) s2)
      ∧ (f.dst = 240#8 ∧ f.kind = 3#8 → (findEntry s f.src).isSome = true →
        (bridgeTrunk t true f s).2 = dispatch b f.kind (.segment t f.src) (portOfSeg t) s1) := by
  simp only [bridgeTrunk_of_taken _ taken, decideTrunk_of_learned b good learned, decideTrunk_of_truncated b s1 good]
  refine ⟨fun use => if_neg ?_, fun control sus => ?_, fun control known => if_pos ⟨control, ?_⟩⟩
  · cases found : findEntry s2 f.src with
    | none => simp
    | some e => simp [use e found]
  · obtain ⟨e, found, sus⟩ := sus
    rw [if_pos (by simp [found, sus]), if_pos control]
  · obtain ⟨-, rfl⟩ := takeBuf_eq_some taken
    exact known

/-! ## The obligation -/

/-- A broadcast of a trunk station: what stands, what is written, and each star port (R55). -/
theorem placeTrunk_flooded (b : BufId) (s : State) (dst : f.dst = 0#8) (on : s.office.trunkToStar = true) :
    let u := placeTrunk t f b s
    u.trunk = s.trunk ∧ u.inputs = s.inputs ∧ u.drops = s.drops ∧ u.dir = s.dir
      ∧ (u.buf b).starAddr = some { dst := broadcastId, src := idOfDesk s.office.base f.src }
      ∧ ∀ p, u.starPort p = if starConnected s p = false then s.starPort p else (s.starPort p).offered b := by
  have frame := floodStars_eq none b (setStarAddr b broadcastId (idOfDesk s.office.base f.src) s)
  simp only [(placeTrunk_broadcast b s dst).2 on]
  refine ⟨by rw [frame]; rfl, by rw [frame]; rfl, by rw [frame]; rfl, by rw [frame]; rfl, starAddr_floodStars .., fun p => ?_⟩
  have port := starPort_floodStars none b p (setStarAddr b broadcastId (idOfDesk s.office.base f.src) s)
  simp only [reduceCtorEq, false_or] at port
  exact port

end

/-- Settles O50: the drops by their causes, learning by the place and origin of the entry, the placement by the destination. -/
theorem trunkFrameMayBeDropped : Obligations.TrunkFrameMayBeDropped := by
  intro t f s u cut d d' toControl sameQueues l learned duplicate unreached
  refine ⟨fun full => ?_, fun some_free bad => ?_, fun e some_free good found side sus other => ?_,
    fun e some_free good found side origin => bridgeTrunk_conflict_result some_free good found side origin, fun causes => ?_,
    fun good some_free => bridgeTrunk_truncated_result some_free good, fun full tr => by rw [bridgeTrunk_of_full tr full],
    fun b s1 taken tr => by rw [bridgeTrunk_of_taken tr taken], fun b s1 s2 => bridgeTrunk_learned_result,
    learnTrunk_unknown, fun e h => learnTrunk_known, fun e x h => learnTrunk_conflict, fun b => ?_,
    fun b r q => dispatch_result b f.kind r q s⟩
  · obtain ⟨count, bufs, dir, -⟩ := bridgeTrunk_full_result (t := t) (f := f) full
    exact ⟨count, bufs, dir⟩
  · obtain ⟨count, dir, -⟩ := bridgeTrunk_badSource_result (t := t) some_free bad
    exact ⟨count, dir⟩
  · obtain ⟨count, dir, -⟩ := bridgeTrunk_suspended_result (t := t) some_free good found side sus other
    exact ⟨count, dir⟩
  · by_cases full : freeBuffers s = 0
    · exact (bridgeTrunk_full_result full).2.2.2
    have some_free : 0 < freeBuffers s := Nat.pos_of_ne_zero full
    cases good : isDesk f.src with
    | false => exact (bridgeTrunk_badSource_result some_free good).2.2
    | true =>
      obtain ⟨e, found, side, sus, other⟩ := (causes.resolve_left full).resolve_left (by simp [good])
      exact (bridgeTrunk_suspended_result some_free good found side sus other).2.2
  · refine ⟨fun dst => (placeTrunk_broadcast b s dst).1, placeTrunk_flooded b s, placeTrunk_bridge b s,
      fun d0 d240 => ⟨fun e found => placeTrunk_trunk b d0 d240 found, fun e x h found place => ?_,
        placeTrunk_unknown b d0 d240⟩⟩
    obtain ⟨apart, reached⟩ := deliverableHome_of_place s place
    refine ⟨fun out => placeTrunk_unreachable b d0 d240 found place (apart out),
      fun p home use => ⟨fun cut => placeTrunk_unreachable b d0 d240 found place ((reached p home use).1 cut),
        fun on room => ?_⟩⟩
    simp only [placeTrunk_delivered (t := t) b d0 d240 found place ((reached p home use).2 on)]
    exact sendStar_result b x _ on room

end Sys2Proof.Machine
end

