-- ==== Sys2Proof/Proofs/StarBridging.lean ====
section
/-!
The bridging of a good star frame (R59 to R65): the checks of its source, what learning makes of it (Table 4-5), the broadcast
window, and where the frame is placed (Table 3-4).
-/

namespace Sys2Proof.Machine

section
variable {p : StarNo} {x : StationId} {f : StarRx} {b : BufId} {s : State} {e : Entry}

/-! ## Learning (Table 4-5) -/

theorem learnStar_of_new {c : DeskCode} (unknown : indexEntry s x = none) (code : proxyCode s = some c) :
    learnStar p x s = createLearned c (.star x (some p)) s := by simp only [learnStar, unknown, code]

theorem learnStar_of_no_code (unknown : indexEntry s x = none) (code : proxyCode s = none) :
    learnStar p x s = setFlag .poolEmpty 0 none s := by simp only [learnStar, unknown, code]

theorem learnStar_of_suspended (found : indexEntry s x = some e) (sus : e.isSuspended = true) : learnStar p x s = s := by
  simp only [learnStar, found, if_pos sus]

theorem learnStar_of_home (found : indexEntry s x = some e) (use : e.isSuspended = false)
    (place : e.place = .star x (some p)) : learnStar p x s = refresh e.code s := by
  simp [learnStar, found, use, place]

theorem learnStar_of_unplaced (found : indexEntry s x = some e) (use : e.isSuspended = false)
    (place : e.place = .star x none) :
    learnStar p x s = refresh e.code (s.modEntry e.code fun e => { e with place := e.place.movedTo (.inr p) }) := by
  simp [learnStar, found, use, place]

theorem learnStar_of_moved {h : StarNo} (found : indexEntry s x = some e) (use : e.isSuspended = false)
    (place : e.place = .star x (some h)) (apart : h ≠ p) : learnStar p x s = moveEntry e.code (.inr p) s := by
  simp [learnStar, found, use, place, apart]

/-- A station that is new on the star side takes the first pool code in the proxy range, or finds none (R71, R73, R81). -/
theorem learnStar_unknown (unknown : indexEntry s x = none) :
    let u := learnStar p x s
    (∀ c, proxyCode s = some c → findEntry s c = none →
        findEntry u c = some (learnedEntry s c (.star x (some p))) ∧ u.dir.pool = s.dir.pool.filter (fun d => d != c)
        ∧ (∀ d, d ≠ c → findEntry u d = findEntry s d))
      ∧ ((∀ c ∈ s.dir.pool, inProxyRange s.office c = false) → u.dir = s.dir ∧ (flagOf u .poolEmpty 0).isSome = true) := by
  refine ⟨fun c code clear => ?_, fun out => ?_⟩
  · rw [learnStar_of_new unknown code]
    exact ⟨findEntry_createLearned_self _ clear, rfl, fun d hd => findEntry_createLearned_ne _ hd⟩
  · have code : proxyCode s = none := List.find?_eq_none.2 fun c hc => by simp [out c hc]
    rw [learnStar_of_no_code unknown code]
    exact ⟨setFlag_dir .., isSome_flagOf_setFlag _ _ _ _⟩

/-- A station that the index holds is suspended, at home, of unknown home, or somewhere else (R74, R75, R80). -/
theorem learnStar_known (found : indexEntry s x = some e) (apart : (s.dir.entries.map Entry.code).Nodup) :
    let u := learnStar p x s
    (e.isSuspended = true → u = s)
      ∧ (e.isSuspended = false → e.place = .star x (some p) ∨ e.place = .star x none →
        findEntry u e.code = some
          { e with place := .star x (some p), presenceRemaining := e.presenceLimit, state := .active })
      ∧ (∀ h, e.isSuspended = false → e.place = .star x (some h) → h ≠ p →
        let moved := { e with place := .star x (some p), periodMoves := gain 255 e.periodMoves }
        (moved.periodMoves ≤ s.office.moveLimit →
          findEntry u e.code = some { moved with presenceRemaining := e.presenceLimit, state := .active })
        ∧ (s.office.moveLimit < moved.periodMoves →
          findEntry u e.code = some { moved with state := .suspended (.timed .duplicate s.office.quarantine) }
          ∧ (flagOf u .duplicate 0).isSome = true)) := by
  have known := findEntry_of_indexEntry found apart
  refine ⟨learnStar_of_suspended found, fun use places => ?_, fun h use place away => ?_⟩
  · rcases places with place | place
    · rw [learnStar_of_home found use place, findEntry_refresh known, ← place]
      rfl
    · let arrived : Entry → Entry := fun e => { e with place := e.place.movedTo (.inr p) }
      have moved : findEntry (s.modEntry e.code arrived) e.code = some { e with place := .star x (some p) } := by
        rw [findEntry_modEntry_self s e.code arrived fun _ => rfl, known]
        simp only [Option.map_some, arrived, place]
        rfl
      rw [learnStar_of_unplaced found use place, findEntry_refresh moved]
      rfl
  · intro moved
    have arrived : e.movedHome (.inr p) = moved := by simp only [Entry.movedHome, place]; rfl
    rw [learnStar_of_moved found use place away]
    refine ⟨fun few => ?_, fun many => ?_⟩
    · rw [moveEntry_within known (by rw [arrived]; exact few), arrived]
      rfl
    · rw [← arrived]
      exact moveEntry_beyond known use (by rw [arrived]; exact many)

/-! ## The source (R59, R60) -/

theorem isPartId_iff (s : State) (y : StationId) :
    isPartId s y = true ↔ y = s.chassis.unitNumber ∨ y = s.office.base + 240#32 := by
  simp [isPartId, idOfDesk, bridgeCode]

theorem bridgeStar_of_full (full : freeBuffers s = 0) : bridgeStar p f s =
    (none, s.modDrops (portOfStar p) (fun k => { k with noBuffer := bump k.noBuffer })) := by
  rw [bridgeStar, (takeBuf_none f.kind f.payload s).2 full]

theorem bridgeStar_of_taken {s1 : State} (taken : takeBuf f.kind f.payload s = some (b, s1)) :
    bridgeStar p f s = (some b, decideStar p f b s1) := by
  rw [bridgeStar, taken]

/-- The source checks before learning: special and part IDs, other IDs of the trunk range (R59). -/
theorem decideStar_result (p : StarNo) (f : StarRx) (b : BufId) (s : State) :
    let special := f.src = 0#32 ∨ f.src = 0xFFFFFFFF#32 ∨ f.src = s.chassis.unitNumber ∨ f.src = s.office.base + 240#32
    let inRange := (f.src - s.office.base).toNat < 256
    (special → decideStar p f b s = s.modDrops (portOfStar p) (fun k => { k with badSource := bump k.badSource }))
      ∧ (¬ special → inRange →
        decideStar p f b s = s.modDrops (portOfStar p) (fun k => { k with baseClash := bump k.baseClash }))
      ∧ (¬ special → ¬ inRange → decideStar p f b s = admitStar p f b (learnStar p f.src s)) := by
  refine ⟨fun k => ?_, fun k r => ?_, fun k r => ?_⟩
  · simp only [decideStar, if_pos ((special_iff s f.src).2 k)]
  · simp only [decideStar, if_neg (mt (special_iff s f.src).1 k), if_pos ((inTrunkRange_iff _ _).2 r)]
  · simp only [decideStar, if_neg (mt (special_iff s f.src).1 k), if_neg (mt (inTrunkRange_iff _ _).1 r)]

/-- A suspended source is heard for CONTROL to the bridge alone (R60). -/
theorem admitStar_of_suspended (p : StarNo) (b : BufId) (found : indexEntry s f.src = some e) (sus : e.isSuspended = true) :
    ((f.dst = s.chassis.unitNumber ∨ f.dst = s.office.base + 240#32) ∧ f.kind = 3#8 →
        admitStar p f b s = dispatch b f.kind (.star p f.src) (portOfStar p) s)
      ∧ (¬ ((f.dst = s.chassis.unitNumber ∨ f.dst = s.office.base + 240#32) ∧ f.kind = 3#8) →
        admitStar p f b s = s.modDrops (portOfStar p) (fun k => { k with sourceSuspended := bump k.sourceSuspended })) := by
  have control : (isPartId s f.dst && f.kind == kindControl) = true
      ↔ (f.dst = s.chassis.unitNumber ∨ f.dst = s.office.base + 240#32) ∧ f.kind = 3#8 := by
    rw [Bool.and_eq_true, isPartId_iff, beq_iff_eq]; rfl
  refine ⟨fun k => ?_, fun k => ?_⟩
  · simp only [admitStar, found, if_pos sus, if_pos (control.2 k)]
  · simp only [admitStar, found, if_pos sus, if_neg (mt control.1 k)]

/-- A broadcast of a station in use meets its window (R103, R104). -/
theorem admitStar_of_broadcast (p : StarNo) (b : BufId) (found : indexEntry s f.src = some e) (use : e.inUse = true)
    (dst : f.dst = 0xFFFFFFFF#32) :
    (e.broadcastElapsed < s.office.minSpacing → admitStar p f b s =
        (strike e.code s).modDrops (portOfStar p) (fun k => { k with earlyBroadcast := bump k.earlyBroadcast }))
      ∧ (s.office.minSpacing ≤ e.broadcastElapsed →
        admitStar p f b s = placeStar p f b (s.modEntry e.code (Entry.accepted s.office.forgiveness))) := by
  have window : (decide (f.dst = broadcastId) && e.inUse) = true := by rw [use, dst]; rfl
  have heard : ¬ e.isSuspended = true := by simp [Entry.not_suspended_of_inUse use]
  refine ⟨fun early => ?_, fun late => ?_⟩
  · simp only [admitStar, found, if_neg heard, if_pos window, applyWindow, isEarly, decide_eq_true early, if_true]
  · simp only [admitStar, found, if_neg heard, if_pos window, applyWindow, isEarly, decide_eq_false (Nat.not_lt.2 late),
      Bool.false_eq_true, if_false]

/-- Any other frame goes on to its destination. -/
theorem admitStar_of_other (p : StarNo) (b : BufId)
    (other : ∀ e, indexEntry s f.src = some e → e.isSuspended = false ∧ (f.dst ≠ 0xFFFFFFFF#32 ∨ e.inUse = false)) :
    admitStar p f b s = placeStar p f b s := by
  cases found : indexEntry s f.src with
  | none => simp only [admitStar, found]
  | some e =>
    obtain ⟨use, unbound⟩ := other e found
    have window : ¬ (decide (f.dst = broadcastId) && e.inUse) = true := by
      rw [Bool.and_eq_true, decide_eq_true_iff]
      rintro ⟨dst, inUse⟩
      rcases unbound with k | k
      · exact k dst
      · simp [k] at inUse
    simp only [admitStar, found, if_neg (show ¬ e.isSuspended = true by simp [use]), if_neg window]

/-- A timed suspension changes the directory and the Alert Unit alone. -/
theorem suspendTimed_frame (why : TimedReason) (c : DeskCode) (s : State) :
    suspendTimed why c s = { s with dir := (suspendTimed why c s).dir, alerts := (suspendTimed why c s).alerts } := by
  unfold suspendTimed
  split
  · rfl
  · split
    · obtain ⟨a, flagged, -⟩ := setFlag_eq why.flag 0 (some c)
        (s.modEntry c fun e => { e with state := .suspended (.timed why s.office.quarantine) })
      rw [flagged]
      rfl
    · rfl

/-- A strike changes the directory and the Alert Unit alone (R103, R104). -/
theorem strike_stands (c : DeskCode) (s : State) :
    strike c s = { s with dir := (strike c s).dir, alerts := (strike c s).alerts } := by
  have suspended := suspendTimed_frame .babble c (struck c s)
  unfold strike
  simp only
  split
  · rfl
  · split
    · change (suspendTimed .babble c (struck c s)).modPresence _ = _
      rw [suspended]
      rfl
    · rfl

/-! ## The trunk copy (R62, R63) -/

theorem offerTrunkCopy_of_unknown (q : PortNo) (dst : DeskCode) (b : BufId) (unknown : indexEntry s f.src = none) :
    offerTrunkCopy q dst f b s = s.modDrops q (fun k => { k with noCode := bump k.noCode }) := by
  simp only [offerTrunkCopy, unknown]

theorem offerTrunkCopy_of_long (q : PortNo) (dst : DeskCode) (b : BufId) (found : indexEntry s f.src = some e)
    (long : 500 < f.payload.length) :
    offerTrunkCopy q dst f b s = s.modDrops q (fun k => { k with tooLong := bump k.tooLong }) := by
  simp only [offerTrunkCopy, found]
  exact if_pos long

theorem offerTrunkCopy_of_short (q : PortNo) (dst : DeskCode) (b : BufId) (found : indexEntry s f.src = some e)
    (short : f.payload.length ≤ 500) : offerTrunkCopy q dst f b s = offerTrunk b (setTrunkAddr b dst e.code s) := by
  simp only [offerTrunkCopy, found]
  exact if_neg (Nat.not_lt.2 short)

/-- The trunk copy leaves the star side, and the star addressing of the buffers. -/
theorem star_offerTrunkCopy (q : PortNo) (dst : DeskCode) (f : StarRx) (b : BufId) (s : State) :
    (offerTrunkCopy q dst f b s).star = s.star
      ∧ ((offerTrunkCopy q dst f b s).buf b).starAddr = (s.buf b).starAddr := by
  unfold offerTrunkCopy
  split
  · exact ⟨rfl, rfl⟩
  · next e _ =>
    split
    · exact ⟨rfl, rfl⟩
    · refine ⟨by rw [offerTrunk_eq]; rfl, ?_⟩
      rw [buf_offerTrunk]
      simp [setTrunkAddr]

/-- What the trunk copy comes to where trunk, drop counters, directory and supervision are those of `s`. -/
theorem offerTrunkCopy_result {v : State} (q : PortNo) (dst : DeskCode) (f : StarRx) (b : BufId) (trunk : v.trunk = s.trunk)
    (drops : v.drops = s.drops) (dir : v.dir = s.dir) (sup : v.sup = s.sup) :
    let u := offerTrunkCopy q dst f b v
    (indexEntry s f.src = none →
        u.trunk = s.trunk ∧ u.drops = (s.modDrops q (fun k => { k with noCode := bump k.noCode })).drops)
      ∧ ∀ e, indexEntry s f.src = some e →
        (500 < f.payload.length →
          u.trunk = s.trunk ∧ u.drops = (s.modDrops q (fun k => { k with tooLong := bump k.tooLong })).drops)
        ∧ (f.payload.length ≤ 500 →
          u.drops = s.drops
          ∧ (trunkDown s = true → u.trunk.queue = s.trunk.queue
            ∧ u.trunk.counters.trunkDown = bump s.trunk.counters.trunkDown)
          ∧ (trunkDown s = false → 16 ≤ s.trunk.queue.length → u.trunk.queue = s.trunk.queue
            ∧ u.trunk.counters.queueFull = bump s.trunk.counters.queueFull)
          ∧ (trunkDown s = false → s.trunk.queue.length < 16 → u.trunk.queue = s.trunk.queue ++ [b]
            ∧ (u.buf b).trunkAddr = some { dst := dst, src := e.code })) := by
  have index : indexEntry v f.src = indexEntry s f.src := indexEntry_congr (by rw [dir]) f.src
  have down : trunkDown v = trunkDown s := trunkDown_congr (by rw [sup])
  have counted : ∀ k, (v.modDrops q k).drops = (s.modDrops q k).drops := fun k => by
    rw [State.modDrops, State.modDrops, drops]
  refine ⟨fun unknown => ?_, fun e found => ⟨fun long => ?_, fun short => ?_⟩⟩
  · rw [offerTrunkCopy_of_unknown q dst b (index.trans unknown)]
    exact ⟨trunk, counted _⟩
  · rw [offerTrunkCopy_of_long q dst b (index.trans found) long]
    exact ⟨trunk, counted _⟩
  · rw [offerTrunkCopy_of_short q dst b (index.trans found) short, ← down, ← drops, ← trunk]
    refine ⟨by rw [offerTrunk_eq]; rfl, fun k => ?_, fun up full => ?_, fun up room => ?_⟩
    · rw [trunk_offerTrunk_of_down (s := setTrunkAddr b dst e.code v) k]
      exact ⟨rfl, rfl⟩
    · rw [trunk_offerTrunk_of_full (s := setTrunkAddr b dst e.code v) up full]
      exact ⟨rfl, rfl⟩
    · refine ⟨by rw [offerTrunk_of_room (s := setTrunkAddr b dst e.code v) up room]; rfl, ?_⟩
      rw [buf_offerTrunk]
      simp [setTrunkAddr]

/-! ## Placement (Table 3-4) -/

/-- Copies of a frame to every connected star port but the one it came on. -/
theorem starPort_flood_others (p : StarNo) (b : BufId) (dst src : StationId) (s : State) (v : StarNo) :
    (floodStars (some p) b (setStarAddr b dst src s)).starPort v =
      if v = p ∨ starConnected s v = false then s.starPort v else (s.starPort v).offered b := by
  have port := starPort_floodStars (some p) b v (setStarAddr b dst src s)
  simp only [Option.some.injEq, eq_comm (a := p)] at port
  exact port

theorem placeStar_of_null (p : StarNo) (b : BufId) (s : State) (dst : f.dst = 0#32) :
    placeStar p f b s = s.modDrops (portOfStar p) (fun k => { k with nullDest := bump k.nullDest }) := by
  simp only [placeStar, nullId, if_pos dst]

theorem placeStar_of_part (p : StarNo) (b : BufId) (d0 : f.dst ≠ 0#32) (part : isPartId s f.dst = true) :
    placeStar p f b s = dispatch b f.kind (.star p f.src) (portOfStar p) s := by
  simp only [placeStar, nullId, if_neg d0, if_pos part]

/-- A broadcast goes to the other star ports, and with the plan's leave to the trunk (R63). -/
theorem placeStar_of_broadcast (p : StarNo) (b : BufId) (dst : f.dst = 0xFFFFFFFF#32) (other : ¬ isPartId s f.dst = true) :
    placeStar p f b s = if s.office.starToTrunk = true then
        offerTrunkCopy (portOfStar p) 0#8 f b (floodStars (some p) b (setStarAddr b f.dst f.src s))
      else floodStars (some p) b (setStarAddr b f.dst f.src s) := by
  have d0 : f.dst ≠ 0#32 := by rw [dst]; decide
  have all : f.dst = broadcastId := dst
  simp only [placeStar, nullId, if_neg d0, if_neg other, if_pos all]

/-- An ID of the trunk range stands for a desk, or for none (R62). -/
theorem placeStar_of_range (p : StarNo) (b : BufId) (d0 : f.dst ≠ 0#32) (single : f.dst ≠ 0xFFFFFFFF#32)
    (other : ¬ isPartId s f.dst = true) (range : (f.dst - s.office.base).toNat < 256) :
    placeStar p f b s = if isDesk (deskOfId s.office.base f.dst) = true then
        offerTrunkCopy (portOfStar p) (deskOfId s.office.base f.dst) f b s
      else s.modDrops (portOfStar p) (fun k => { k with reserved := bump k.reserved }) := by
  simp only [placeStar, nullId, broadcastId, if_neg d0, if_neg other, if_neg single,
    if_pos ((inTrunkRange_iff s.office.base f.dst).2 range)]

/-- An ID that the index holds, or any other (R64, R65). -/
theorem placeStar_of_station (p : StarNo) (b : BufId) (d0 : f.dst ≠ 0#32) (single : f.dst ≠ 0xFFFFFFFF#32)
    (other : ¬ isPartId s f.dst = true) (range : ¬ (f.dst - s.office.base).toNat < 256) :
    (∀ e, indexEntry s f.dst = some e → placeStar p f b s = placeIndexed p f b e s)
      ∧ (indexEntry s f.dst = none → placeStar p f b s = floodStars (some p) b (setStarAddr b f.dst f.src s)) := by
  refine ⟨fun e found => ?_, fun unknown => ?_⟩
  · simp only [placeStar, nullId, broadcastId, if_neg d0, if_neg other, if_neg single,
      if_neg (mt (inTrunkRange_iff s.office.base f.dst).1 range), found]
  · simp only [placeStar, nullId, broadcastId, if_neg d0, if_neg other, if_neg single,
      if_neg (mt (inTrunkRange_iff s.office.base f.dst).1 range), unknown]

/-- A station at home on the port of the frame, out of reach, or at a connected home (R64). -/
theorem placeIndexed_result (p : StarNo) (f : StarRx) (b : BufId) (e : Entry) (s : State) :
    let q := portOfStar p
    let u := placeIndexed p f b e s
    let unreached := s.modDrops q (fun k => { k with unreachable := bump k.unreachable })
    (e.homedOn q = true → u = s.modDrops q (fun k => { k with localDest := bump k.localDest }))
      ∧ (e.homedOn q = false → e.isSuspended = true ∨ e.place = .star f.dst none → u = unreached)
      ∧ ∀ h, e.homedOn q = false → e.isSuspended = false → e.place = .star f.dst (some h) →
        (starConnected s h = false → u = unreached)
        ∧ (starConnected s h = true → u = offerStar h b (setStarAddr b f.dst f.src s)) := by
  intro q u unreached
  have unreach : e.homedOn q = false → deliverableHome s e = none → u = unreached := fun away home => by
    have elsewhere : e.homedOn (portOfStar p) = false := away
    simp only [u, placeIndexed, elsewhere, Bool.false_eq_true, if_false, home]
    rfl
  refine ⟨fun here => ?_, fun away out => unreach away ?_, fun h away use place => ⟨fun cut => unreach away ?_, fun on => ?_⟩⟩
  · simp only [u, placeIndexed, q, if_pos here]
  · rcases out with sus | place
    · simp [deliverableHome, sus]
    · exact (deliverableHome_of_place s place).1 (.inr rfl)
  · exact ((deliverableHome_of_place s place).2 h rfl use).1 cut
  · have home := ((deliverableHome_of_place s place).2 h rfl use).2 on
    have elsewhere : e.homedOn (portOfStar p) = false := away
    simp only [u, placeIndexed, elsewhere, Bool.false_eq_true, if_false, home]

/-- A flood: each star port, what is written, and what stands. -/
theorem floodStars_result (p : StarNo) (b : BufId) (dst src : StationId) (s : State) :
    let u := floodStars (some p) b (setStarAddr b dst src s)
    (∀ v, u.starPort v = if v = p ∨ starConnected s v = false then s.starPort v else (s.starPort v).offered b)
      ∧ (u.buf b).starAddr = some { dst := dst, src := src }
      ∧ u.trunk = s.trunk ∧ u.drops = s.drops ∧ u.dir = s.dir ∧ u.sup = s.sup := by
  have frame := floodStars_eq (some p) b (setStarAddr b dst src s)
  exact ⟨starPort_flood_others p b dst src s, starAddr_floodStars .., by rw [frame]; rfl, by rw [frame]; rfl,
    by rw [frame]; rfl, by rw [frame]; rfl⟩

/-- An early broadcast: what stands, and what the strike makes of the entry (R103, R104). -/
theorem admitStar_early_result (p : StarNo) (b : BufId) (found : indexEntry s f.src = some e) (use : e.inUse = true)
    (dst : f.dst = 0xFFFFFFFF#32) (early : e.broadcastElapsed < s.office.minSpacing) :
    let a := admitStar p f b s
    let babble := s.ctl.commissioned = true ∧ s.office.babbleLimit ≤ min (e.strikes + 1) 31
    a.drops = (s.modDrops (portOfStar p) (fun k => { k with earlyBroadcast := bump k.earlyBroadcast })).drops
      ∧ a.star = s.star ∧ a.trunk = s.trunk ∧ a.inputs = s.inputs
      ∧ (findEntry s e.code = some e →
        findEntry a e.code = some { e with
          strikes := min (e.strikes + 1) 31,
          state := if babble then .suspended (.timed .babble s.office.quarantine) else e.state }
        ∧ a.dir.counters = { s.dir.counters with
            strikes := bump s.dir.counters.strikes,
            babbleSuspensions := if babble then bump s.dir.counters.babbleSuspensions
              else s.dir.counters.babbleSuspensions }
        ∧ (babble → (flagOf a .quarantine 0).map AlertFlag.detail = some (some e.code))) := by
  have stands := strike_stands e.code s
  simp only [(admitStar_of_broadcast p b found use dst).1 early]
  refine ⟨?_, by rw [stands]; rfl, by rw [stands]; rfl, by rw [stands]; rfl, fun known => strike_result known use⟩
  rw [State.modDrops, State.modDrops, stands]

end

/-- Settles O51: the source checks, learning by what the index holds, the broadcast window, and each destination of Table 3-4. -/
theorem starStationIsLearned : Obligations.StarStationIsLearned := by
  intro p x s
  refine ⟨learnStar_unknown, fun e => learnStar_known, fun f b src => ?_⟩
  subst src
  intro q base part inRange others onward whole source a u
  have notPart : ∀ {y}, ¬ part y → ¬ isPartId s y = true := mt (isPartId_iff s _).1
  obtain ⟨badSource, baseClash, learned⟩ := decideStar_result p f b s
  refine ⟨bridgeStar_of_full, fun s1 => bridgeStar_of_taken, badSource, baseClash, learned,
    fun e found sus => admitStar_of_suspended p b found sus,
    fun e found use dst => ⟨fun early => admitStar_early_result p b found use dst early,
      (admitStar_of_broadcast p b found use dst).2⟩,
    admitStar_of_other p b, placeStar_of_null p b s,
    fun d0 other => placeStar_of_part p b d0 ((isPartId_iff s _).2 other),
    fun dst other => ?_, fun d0 single other range => ?_, fun d0 single other range => ?_⟩
  case refine_1 =>
    have placed := placeStar_of_broadcast (p := p) b dst (notPart other)
    obtain ⟨ports, addr, trunk, drops, dir, sup⟩ := floodStars_result p b f.dst f.src s
    cases plan : s.office.starToTrunk with
    | false =>
      rw [plan, if_neg Bool.false_ne_true] at placed
      simp only [u, placed]
      exact ⟨ports, addr, fun _ => ⟨trunk, drops⟩, nofun⟩
    | true =>
      rw [plan, if_pos rfl] at placed
      simp only [u, placed]
      obtain ⟨star, kept⟩ := star_offerTrunkCopy (portOfStar p) 0#8 f b (floodStars (some p) b (setStarAddr b f.dst f.src s))
      refine ⟨fun v => ?_, kept.trans addr, nofun, fun _ => offerTrunkCopy_result q 0#8 f b trunk drops dir sup⟩
      rw [State.starPort, star]
      exact ports v
  case refine_2 =>
    intro d
    have placed := placeStar_of_range p b d0 single (notPart other) range
    cases desk : isDesk (deskOfId s.office.base f.dst) with
    | true =>
      rw [desk, if_pos rfl] at placed
      obtain ⟨low, high⟩ := (isDesk_iff d).1 desk
      refine ⟨?_, fun out => ?_, fun _ _ => ?_⟩
      · simp only [u, placed]
        exact (star_offerTrunkCopy ..).1
      · rcases out with zero | above
        · rw [zero] at low
          cases low
        · omega
      · simp only [u, placed]
        exact offerTrunkCopy_result q d f b rfl rfl rfl rfl
    | false =>
      rw [desk, if_neg Bool.false_ne_true] at placed
      refine ⟨by simp only [u, placed]; rfl, fun _ => placed, fun low high => ?_⟩
      exact absurd ((isDesk_iff d).2 ⟨low, high⟩) (by rw [show isDesk d = false from desk]; decide)
  case refine_3 =>
    obtain ⟨known, unknown⟩ := placeStar_of_station (p := p) b d0 single (notPart other) range
    refine ⟨fun e found => ?_, fun absent => ?_⟩
    · simp only [u, known e found]
      obtain ⟨here, out, home⟩ := placeIndexed_result p f b e s
      refine ⟨here, out, fun h away use place => ⟨(home h away use place).1, fun on room => ?_⟩⟩
      rw [(home h away use place).2 on]
      obtain ⟨queue, rest, addr, trunk, -, drops⟩ := sendStar_result b f.dst f.src on room
      exact ⟨queue, rest, addr, trunk, drops⟩
    · simp only [u, unknown absent]
      obtain ⟨ports, addr, trunk, drops, -⟩ := floodStars_result p b f.dst f.src s
      exact ⟨ports, addr, trunk, drops⟩

end Sys2Proof.Machine
end

