-- ==== Sys2Proof/Proofs/DirectoryOrder.lean ====
section
/-!
The order of the Station Directory in the middle of an event (R70, R87): the codes that the event itself has in hand, taken
from an entry and not yet given to another entry or to the pool, are counted besides the keys and the pool. One rule for each
operation on the entry list and the pool says how it moves codes.
-/

namespace Sys2Proof.Machine

/-! ## The codes 1–239 -/

theorem mem_deskCodes {c : DeskCode} : c ∈ deskCodes ↔ isDesk c = true := by
  simp only [deskCodes, isDesk, List.mem_map, List.mem_range'_1, Bool.and_eq_true, decide_eq_true_eq]
  constructor
  · rintro ⟨n, ⟨low, high⟩, rfl⟩
    rw [BitVec.toNat_ofNat]
    omega
  · rintro ⟨low, high⟩
    exact ⟨c.toNat, ⟨low, by omega⟩, by simp⟩

theorem nodup_deskCodes : deskCodes.Nodup := by
  refine List.Nodup.map_on (fun x hx y hy same => ?_) (List.nodup_range' (step := 1))
  have same := congrArg BitVec.toNat same
  simp only [List.mem_range'_1, BitVec.toNat_ofNat] at hx hy same
  omega

/-- Distinct codes with the codes that are left make all of them. -/
theorem perm_deskCodes_of_rest {l : List DeskCode} (once : l.Nodup) (desk : ∀ c ∈ l, isDesk c = true) :
    (l ++ deskCodes.filter (fun c => !l.contains c)).Perm deskCodes := by
  refine (List.perm_ext_iff_of_nodup ?_ nodup_deskCodes).2 fun c => ?_
  · exact once.append (nodup_deskCodes.filter _) fun c here rest => by simp [here] at rest
  · simp only [List.mem_append, List.mem_filter, mem_deskCodes]
    by_cases here : c ∈ l
    · simp [here, desk c here]
    · simp [here]

/-! ## The entry list -/

theorem perm_insertEntry (e : Entry) (l : List Entry) : (insertEntry e l).Perm (e :: l) := by
  induction l with
  | nil => exact .refl _
  | cons x l ih =>
    rw [insertEntry]
    split
    · exact .refl _
    · exact (ih.cons x).trans (.swap e x l)

section
variable {s : State} {c : DeskCode} {e x : Entry}

theorem mem_addEntry : x ∈ (s.addEntry e).dir.entries ↔ x = e ∨ x ∈ s.dir.entries :=
  (perm_insertEntry e s.dir.entries).mem_iff.trans List.mem_cons

theorem mem_dropEntry : x ∈ (s.dropEntry c).dir.entries ↔ x ∈ s.dir.entries ∧ x.code ≠ c := by
  simp [State.dropEntry]

/-- A change under a code leaves the other entries. -/
theorem mem_modEntry_of_ne {f : Entry → Entry} (mem : x ∈ s.dir.entries) (ne : x.code ≠ c) :
    x ∈ (s.modEntry c f).dir.entries := List.mem_map.2 ⟨x, mem, if_neg ne⟩

theorem mem_of_findEntry (found : findEntry s c = some e) : e ∈ s.dir.entries := List.mem_of_find?_eq_some found

theorem findEntry_none_iff : findEntry s c = none ↔ c ∉ s.dir.entries.map Entry.code := by
  simp [findEntry, List.find?_eq_none]

/-- The codes of the other entries, and the one code taken out. -/
theorem perm_codes_dropEntry (apart : (s.dir.entries.map Entry.code).Nodup) (found : findEntry s c = some e) :
    (c :: (s.dropEntry c).dir.entries.map Entry.code).Perm (s.dir.entries.map Entry.code) := by
  have key : c ∈ s.dir.entries.map Entry.code :=
    List.mem_map.2 ⟨e, mem_of_findEntry found, findEntry_code found⟩
  have rest : (s.dropEntry c).dir.entries.map Entry.code = (s.dir.entries.map Entry.code).erase c := by
    rw [apart.erase_eq_filter, List.filter_map]
    rfl
  rw [rest]
  exact (List.perm_cons_erase key).symm

theorem hasAdmin_iff : hasAdmin s = true ↔ ∃ x ∈ s.dir.entries, x.isAdmin = true := by simp [hasAdmin]

theorem fixed_of_isAdmin (admin : x.isAdmin = true) : x.origin = .fixed := by
  simp only [Entry.isAdmin, Bool.and_eq_true, decide_eq_true_eq] at admin
  exact admin.1

/-- Where codes are apart, an admin entry is not under the code of a LEARNED one. -/
theorem code_ne_of_learned (apart : (s.dir.entries.map Entry.code).Nodup) (mem : e ∈ s.dir.entries)
    (learned : e.origin = .learned) (other : x ∈ s.dir.entries) (admin : x.isAdmin = true) : x.code ≠ e.code := by
  intro same
  have fixed := fixed_of_isAdmin admin
  rw [List.inj_on_of_nodup_map apart other mem same, learned] at fixed
  cases fixed

end

/-! ## The order -/

/-- The directory is in order while an event has the codes `held` in hand: every code 1–239 is in hand, or the key of exactly
one entry, or stands once in the pool, what the store holds or is writing keeps codes apart, and under `P` a commissioned
bridge has its admin entry. -/
structure InOrder (P : Prop) (held : List DeskCode) (s : State) : Prop where
  codes : (held ++ (s.dir.entries.map Entry.code ++ s.dir.pool)).Perm deskCodes
  stored : ∀ c, s.chassis.store.content = some c → StoredCodes c
  saved : ∀ v, s.ctl.save = some v → StoredCodes v.copy
  admin : P → AdminKept s

/-- What the order depends on besides the directory. -/
def State.storeFields (s : State) : Option StoredConfig × Option SaveInFlight × Bool :=
  (s.chassis.store.content, s.ctl.save, s.ctl.commissioned)

/-- The fields on which the order depends. -/
def State.directoryFields (s : State) :
    List Entry × List DeskCode × Option StoredConfig × Option SaveInFlight × Bool :=
  (s.dir.entries, s.dir.pool, s.storeFields)

section
variable {P : Prop} {held : List DeskCode} {s t : State}

/-- Between events the order is the condition on codes with the one on the admin entry. -/
theorem inOrder_nil_iff : InOrder P [] s ↔ CodesApart s ∧ (P → AdminKept s) :=
  ⟨fun h => ⟨⟨h.codes, h.stored, h.saved⟩, h.admin⟩, fun ⟨⟨codes, stored, saved⟩, admin⟩ => ⟨codes, stored, saved, admin⟩⟩

/-- The order is kept where codes only change places and an admin entry stays. -/
theorem InOrder.moved {held' : List DeskCode} (h : InOrder P held s)
    (codes : (held' ++ (t.dir.entries.map Entry.code ++ t.dir.pool)).Perm
      (held ++ (s.dir.entries.map Entry.code ++ s.dir.pool)))
    (fields : t.storeFields = s.storeFields)
    (admin : s.ctl.commissioned = true → hasAdmin s = true → hasAdmin t = true) : InOrder P held' t := by
  simp only [State.storeFields, Prod.mk.injEq] at fields
  obtain ⟨store, save, mode⟩ := fields
  exact ⟨codes.trans h.codes, store ▸ h.stored, save ▸ h.saved,
    fun p com => admin (mode ▸ com) (h.admin p (mode ▸ com))⟩

/-- The order depends on the directory, the stored image, the SAVE in flight and the commissioned mark alone. -/
theorem InOrder.same (h : InOrder P held s) (same : t.directoryFields = s.directoryFields) : InOrder P held t := by
  simp only [State.directoryFields, Prod.mk.injEq] at same
  obtain ⟨entries, pool, fields⟩ := same
  exact h.moved (by rw [entries, pool]) fields fun _ admin => by rw [hasAdmin, entries]; exact admin

/-- A list of steps that keep the order keeps it. -/
theorem InOrder.after_foldl {α : Type} {f : State → α → State} {l : List α} (h : InOrder P held s)
    (hf : ∀ s a, InOrder P held s → InOrder P held (f s a)) : InOrder P held (l.foldl f s) := by
  induction l generalizing s with
  | nil => exact h
  | cons a l ih => exact ih (hf s a h)

theorem InOrder.nodup (h : InOrder P held s) : (held ++ (s.dir.entries.map Entry.code ++ s.dir.pool)).Nodup :=
  h.codes.nodup_iff.2 nodup_deskCodes

/-- No two entries have the same code. -/
theorem InOrder.apart (h : InOrder P held s) : (s.dir.entries.map Entry.code).Nodup :=
  h.nodup.of_append_right.of_append_left

/-- A code in the pool is in hand or under an entry nowhere, and stands there once. -/
theorem InOrder.not_mem_of_pool (h : InOrder P held s) {c : DeskCode} (pool : c ∈ s.dir.pool) :
    findEntry s c = none :=
  findEntry_none_iff.2 fun key => List.disjoint_of_nodup_append h.nodup.of_append_right key pool

/-- A code without entry stands in the pool between events. -/
theorem InOrder.mem_pool (h : InOrder P [] s) {c : DeskCode} (desk : isDesk c = true) (free : findEntry s c = none) :
    c ∈ s.dir.pool := by
  have all : c ∈ s.dir.entries.map Entry.code ++ s.dir.pool := h.codes.mem_iff.2 (mem_deskCodes.2 desk)
  exact (List.mem_append.1 all).resolve_left (findEntry_none_iff.1 free)

/-- Changes elsewhere. -/
theorem TrafficOnly.directoryFields (k : TrafficOnly s t) (dir : t.dir = s.dir) :
    t.directoryFields = s.directoryFields := by
  obtain ⟨-, chassis, -, -, -, -, ctl⟩ := (trafficOnly_iff _ _).1 k
  rw [State.directoryFields, State.storeFields, dir, chassis, ctl]
  rfl

theorem InOrder.after_channel (h : InOrder P held s) (k : ChannelOnly s t) : InOrder P held t := by
  obtain ⟨-, -, -, -, -, -, dir, -⟩ := (channelOnly_iff _ _).1 k
  exact h.same (k.traffic.directoryFields dir)

theorem InOrder.after_arbiter (h : InOrder P held s) (k : ArbiterOnly s t) : InOrder P held t := h.after_channel k.channel

theorem InOrder.after_sends (h : InOrder P held s) (k : OnlySends s t) : InOrder P held t := h.after_channel k.channel

/-! ## The operations on entries and pool -/

/-- Entries changed without their codes, origins and admin attributes. -/
theorem InOrder.mapped {f : Entry → Entry} (h : InOrder P held s)
    (hf : ∀ e, (f e).code = e.code ∧ (f e).isAdmin = e.isAdmin)
    (fields : t.directoryFields = (s.dir.entries.map f, s.dir.pool, s.storeFields)) : InOrder P held t := by
  simp only [State.directoryFields, Prod.mk.injEq] at fields
  obtain ⟨entries, pool, fields⟩ := fields
  refine h.moved ?_ fields fun _ admin => ?_
  · have codes : (s.dir.entries.map f).map Entry.code = s.dir.entries.map Entry.code := by
      rw [List.map_map]
      exact List.map_congr_left fun e _ => (hf e).1
    rw [entries, pool, codes]
  · obtain ⟨x, mem, admin⟩ := hasAdmin_iff.1 admin
    exact hasAdmin_iff.2 ⟨f x, entries ▸ List.mem_map_of_mem mem, (hf x).2.trans admin⟩

theorem InOrder.after_modEntry {c : DeskCode} {f : Entry → Entry} (h : InOrder P held s)
    (hf : ∀ e, (f e).code = e.code ∧ (f e).isAdmin = e.isAdmin) : InOrder P held (s.modEntry c f) :=
  h.mapped (f := fun e => if e.code = c then f e else e) (fun e => by split; exacts [hf e, ⟨rfl, rfl⟩]) rfl

/-- An entry taken out of the list leaves its code in the event's hand. -/
theorem InOrder.after_dropEntry {c : DeskCode} {e : Entry} (h : InOrder P held s) (found : findEntry s c = some e)
    (spare : s.ctl.commissioned = true → hasAdmin s = true → ∃ x ∈ s.dir.entries, x.code ≠ c ∧ x.isAdmin = true) :
    InOrder P (c :: held) (s.dropEntry c) := by
  refine h.moved ?_ rfl fun com admin => ?_
  · rw [State.dropEntry_dir_pool, List.cons_append]
    refine List.perm_middle.symm.trans (List.Perm.append_left held ?_)
    rw [← List.cons_append]
    exact (perm_codes_dropEntry h.apart found).append_right _
  · obtain ⟨x, mem, ne, admin⟩ := spare com admin
    exact hasAdmin_iff.2 ⟨x, mem_dropEntry.2 ⟨mem, ne⟩, admin⟩

/-- A LEARNED entry can be taken out at any time. -/
theorem InOrder.after_dropEntry_learned {c : DeskCode} {e : Entry} (h : InOrder P held s)
    (found : findEntry s c = some e) (learned : e.origin = .learned) : InOrder P (c :: held) (s.dropEntry c) := by
  refine h.after_dropEntry found fun _ admin => ?_
  obtain ⟨x, mem, admin⟩ := hasAdmin_iff.1 admin
  exact ⟨x, mem, findEntry_code found ▸ code_ne_of_learned h.apart (mem_of_findEntry found) learned mem admin, admin⟩

/-- A code in hand joins the pool. -/
theorem InOrder.after_toPool {c : DeskCode} (h : InOrder P (c :: held) s) : InOrder P held (s.toPool c) := by
  refine h.moved ?_ rfl fun _ admin => admin
  rw [State.toPool_dir_entries, State.toPool, ← List.append_assoc, ← List.append_assoc, List.cons_append]
  exact (List.perm_append_singleton c _).trans (List.Perm.of_eq (by rw [List.append_assoc]))

theorem hasAdmin_addEntry {e : Entry} (admin : hasAdmin s = true) : hasAdmin (s.addEntry e) = true := by
  obtain ⟨x, mem, admin⟩ := hasAdmin_iff.1 admin
  exact hasAdmin_iff.2 ⟨x, mem_addEntry.2 (.inr mem), admin⟩

/-- An entry that joins the list under a code in hand. -/
theorem InOrder.after_addEntry {e : Entry} (h : InOrder P (e.code :: held) s) : InOrder P held (s.addEntry e) := by
  refine h.moved ?_ rfl fun _ => hasAdmin_addEntry
  have fresh : e.code ∉ s.dir.pool := fun pool =>
    (List.nodup_cons.1 h.nodup).1 (List.mem_append_right _ (List.mem_append_right _ pool))
  have pool : (s.addEntry e).dir.pool = s.dir.pool := by
    refine List.filter_eq_self.2 fun c mem => ?_
    simp only [bne_iff_ne]
    exact fun same => fresh (same ▸ mem)
  rw [pool, List.cons_append]
  exact (List.Perm.append_left held
    (((perm_insertEntry e s.dir.entries).map Entry.code).append_right _)).trans List.perm_middle

/-- An entry that joins the list under a code of the pool. -/
theorem InOrder.after_addEntry_of_pool {e : Entry} (h : InOrder P held s) (mem : e.code ∈ s.dir.pool) :
    InOrder P held (s.addEntry e) := by
  refine h.moved (List.Perm.append_left held ?_) rfl fun _ => hasAdmin_addEntry
  have pool : (s.addEntry e).dir.pool = s.dir.pool.erase e.code :=
    (h.nodup.of_append_right.of_append_right.erase_eq_filter e.code).symm
  rw [pool]
  exact (((perm_insertEntry e s.dir.entries).map Entry.code).append_right _).trans
    (List.perm_middle.symm.trans (List.Perm.append_left _ (List.perm_cons_erase mem).symm))

/-- A new entry under a code that no entry has. -/
theorem InOrder.after_addEntry_free {e : Entry} (h : InOrder P [] s) (desk : isDesk e.code = true)
    (free : findEntry s e.code = none) : InOrder P [] (s.addEntry e) :=
  h.after_addEntry_of_pool (h.mem_pool desk free)

end

end Sys2Proof.Machine
end

