-- ==== Sys2Proof/Proofs/DirectoryWalk.lean ====
section
/-!
The events of the trunk, the star ports, the Presence Monitor and the Supervision Unit keep the directory in order. Most of
them leave every field on which the order depends; learning, suspension, ageing and the fold change entries.
-/

namespace Sys2Proof.Machine

section
variable {P : Prop} {held : List DeskCode} {s : State}

/-! ## Changes to an entry (Section 4.4) -/

theorem InOrder.after_setFlag {k : AlertKind} {i : Nat} {d : Option Byte} (h : InOrder P held s) :
    InOrder P held (setFlag k i d s) := h.after_arbiter (arbiterOnly_setFlag k i d s)

theorem InOrder.after_suspendTimed {why : TimedReason} {c : DeskCode} (h : InOrder P held s) :
    InOrder P held (suspendTimed why c s) := by
  unfold suspendTimed
  split
  · exact h
  · split
    · exact (h.after_modEntry (c := c) (f := Entry.suspendedFor why s.office.quarantine) fun _ => ⟨rfl, rfl⟩).after_setFlag
    · exact h

theorem InOrder.after_refresh {c : DeskCode} (h : InOrder P held s) : InOrder P held (refresh c s) :=
  h.after_modEntry fun _ => ⟨rfl, rfl⟩

theorem InOrder.after_moveEntry {c : DeskCode} {home : SegNo ⊕ StarNo} (h : InOrder P held s) :
    InOrder P held (moveEntry c home s) := by
  have moved := h.after_modEntry (c := c) (f := Entry.movedHome home) fun _ => ⟨rfl, rfl⟩
  simp only [moveEntry]
  split
  · exact moved
  · split
    · exact moved.after_suspendTimed
    · exact moved.after_refresh

theorem InOrder.after_removeTicketsOf {m : TellMode} {c : DeskCode} (h : InOrder P held s) :
    InOrder P held (removeTicketsOf m c s) := h.after_arbiter (arbiterOnly_removeTicketsOf m c s)

theorem InOrder.after_renameRequester {old new : DeskCode} (h : InOrder P held s) :
    InOrder P held (renameRequester old new s) := h.after_arbiter (arbiterOnly_renameRequester old new s)

theorem findEntry_removeTicketsOf (m : TellMode) (c : DeskCode) (s : State) (d : DeskCode) :
    findEntry (removeTicketsOf m c s) d = findEntry s d :=
  findEntry_congr (by rw [(arbiterOnly_removeTicketsOf m c s).dir]) d

/-- A LEARNED entry that is removed leaves its code in the event's hand. -/
theorem InOrder.after_removeKeepingCode {m : TellMode} {c : DeskCode} {e : Entry} (h : InOrder P held s)
    (found : findEntry s c = some e) (learned : e.origin = .learned) : InOrder P (c :: held) (removeKeepingCode m c s) :=
  h.after_removeTicketsOf.after_dropEntry_learned ((findEntry_removeTicketsOf m c s c).trans found) learned

/-- A LEARNED entry that is removed gives its code to the pool (R77). -/
theorem InOrder.after_removeEntry {m : TellMode} {c : DeskCode} {e : Entry} (h : InOrder P held s)
    (found : findEntry s c = some e) (learned : e.origin = .learned) : InOrder P held (removeEntry m c s) :=
  (h.after_removeKeepingCode found learned).after_toPool

/-- A proxy that gives way leaves its code in the event's hand (R79). -/
theorem InOrder.after_displaceProxy {c : DeskCode} {e : Entry} (h : InOrder P held s) (found : findEntry s c = some e)
    (learned : e.origin = .learned) : InOrder P (c :: held) (displaceProxy c s) := by
  cases code : proxyCode s with
  | some n =>
    rw [displaceProxy_of_proxyCode code found]
    exact ((h.after_dropEntry_learned found learned).after_addEntry_of_pool (e := { e with code := n })
      (mem_pool_of_proxyCode code)).after_renameRequester
  | none =>
    simp only [displaceProxy, code]
    exact h.after_setFlag.after_removeKeepingCode ((findEntry_setFlag ..).trans found) learned

/-! ## Learning (Tables 4-4 and 4-5) -/

theorem InOrder.after_learnTrunk {t : SegNo} {c : DeskCode} (h : InOrder P [] s) (desk : isDesk c = true) :
    InOrder P [] (learnTrunk t c s).2 := by
  unfold learnTrunk
  split
  · next free => exact h.after_addEntry_free desk free
  · next e found =>
    split
    · split
      · exact h
      · split
        · exact h.after_refresh
        · split
          · exact h.after_moveEntry
          · exact h.after_suspendTimed
    · next learned =>
      exact (h.after_setFlag.after_displaceProxy ((findEntry_setFlag ..).trans found) learned).after_addEntry
    · exact h.after_setFlag

theorem InOrder.after_learnStar {p : StarNo} {x : StationId} (h : InOrder P [] s) : InOrder P [] (learnStar p x s) := by
  unfold learnStar
  split
  · split
    · exact h
    · split
      · split
        · exact h.after_refresh
        · exact h.after_moveEntry
      · exact (h.after_modEntry (by exact fun _ => ⟨rfl, rfl⟩)).after_refresh
      · exact h
  · split
    · next code => exact h.after_addEntry_of_pool (mem_pool_of_proxyCode code)
    · exact h.after_setFlag

/-! ## The Presence Monitor (Chapter 5) -/

theorem InOrder.after_modPresence {f : PresenceCounters → PresenceCounters} (h : InOrder P held s) :
    InOrder P held (s.modPresence f) := h.same rfl

theorem InOrder.after_presenceQuery {c : DeskCode} (h : InOrder P held s) : InOrder P held (presenceQuery c s) := by
  unfold presenceQuery
  split
  · exact h
  · split
    · have queried := h.after_modEntry (c := c)
        (f := fun e => { e with presenceRemaining := e.presenceRemaining - 1, state := .queried }) fun _ => ⟨rfl, rfl⟩
      simp only
      split
      · next sent => exact (queried.after_sends (onlySends_sendBuilt sent)).after_modPresence
      · exact queried.after_modPresence
    · exact h

theorem InOrder.after_aging {c : DeskCode} (h : InOrder P held s) : InOrder P held (aging c s) := by
  unfold aging
  split
  · exact h
  · next e found =>
    split
    · next due =>
      simp only [Bool.and_eq_true, decide_eq_true_eq] at due
      exact (h.after_removeEntry found due.2).after_modPresence
    · exact h

theorem InOrder.after_becomesAbsent {c : DeskCode} (h : InOrder P held s) : InOrder P held (becomesAbsent c s) := by
  unfold becomesAbsent
  split
  · exact h
  · split
    · have absent := h.after_modEntry (c := c) (f := fun e => { e with presenceRemaining := 0, state := .absent })
        fun _ => ⟨rfl, rfl⟩
      exact absent.after_removeTicketsOf.after_modPresence
    · exact h

theorem InOrder.after_quarantineEnd {c : DeskCode} (h : InOrder P held s) : InOrder P held (quarantineEnd c s) := by
  unfold quarantineEnd
  split
  · exact h
  · split
    · exact (h.after_modEntry (c := c) (f := Entry.resumed) fun _ => ⟨rfl, rfl⟩).after_modPresence
    · exact h

theorem InOrder.after_strike {c : DeskCode} (h : InOrder P held s) : InOrder P held (strike c s) := by
  have struck : InOrder P held (struck c s) :=
    (h.after_modEntry (c := c) (f := Entry.struck) fun _ => ⟨rfl, rfl⟩).after_modPresence
  simp only [strike]
  split
  · exact struck
  · split
    · exact struck.after_suspendTimed.after_modPresence
    · exact struck

theorem InOrder.after_applyWindow {e : Entry} (h : InOrder P held s) : InOrder P held (applyWindow e s).2 := by
  unfold applyWindow
  split
  · exact h.after_strike
  · exact h.after_modEntry fun _ => ⟨rfl, rfl⟩

/-- A 1 s tick takes nothing of an entry but of its countdown and its timer. -/
theorem Entry.plainSecond_keeps (runs : Bool) (e : Entry) :
    (e.plainSecond runs).code = e.code ∧ (e.plainSecond runs).isAdmin = e.isAdmin := by
  unfold Entry.plainSecond
  split
  · split <;> exact ⟨rfl, rfl⟩
  · exact ⟨rfl, rfl⟩
  · exact ⟨rfl, rfl⟩
  all_goals split <;> exact ⟨rfl, rfl⟩

theorem InOrder.after_oneSecondTick (h : InOrder P held s) : InOrder P held (oneSecondTick s) := by
  unfold oneSecondTick presenceSecond printSecond
  split
  · split
    · have taken : InOrder P held { s with chassis := { s.chassis with
          ticks := { s.chassis.ticks with printDue := s.chassis.ticks.printDue - 1 } } } := h.same rfl
      exact (taken.after_foldl fun x q hx => hx.after_arbiter (arbiterOnly_modPrinter q _ x)).after_arbiter
        (arbiterOnly_selectAll _)
    · exact h
  · split
    · exact h.mapped (f := fun e => e.plainSecond (countdownRuns s e)) (fun e => e.plainSecond_keeps _) rfl
    · exact h

theorem InOrder.after_oneMillisecondTick {tick : MsTick} (h : InOrder P held s) :
    InOrder P held (oneMillisecondTick tick s) := by
  have store : (oneMillisecondTick tick s).chassis.store = s.chassis.store := by
    simp only [oneMillisecondTick]
    split <;> rfl
  have fields : (oneMillisecondTick tick s).storeFields = s.storeFields := by
    rw [State.storeFields, store]
    rfl
  refine h.mapped (f := fun e => if tick.reach.presence then { e with broadcastElapsed := gain 65535 e.broadcastElapsed }
    else e) (fun e => by split <;> exact ⟨rfl, rfl⟩) ?_
  rw [State.directoryFields, fields]
  cases reach : tick.reach.presence with
  | true => simp [oneMillisecondTick, reach, Directory.nextMs]
  | false => simp [oneMillisecondTick, reach]

theorem InOrder.after_idleExpiry {q : QueueNo} (h : InOrder P held s) : InOrder P held (idleExpiry q s) := by
  unfold idleExpiry
  split
  · exact h
  · split
    · exact h.after_arbiter (((arbiterOnly_modPrinter q _ s).trans (arbiterOnly_abandonAndTell q _ _)).trans
        (arbiterOnly_selectAll _))
    · exact h

theorem InOrder.after_formHoldReached {q : QueueNo} (h : InOrder P held s) : InOrder P held (formHoldReached q s) := by
  unfold formHoldReached
  split
  · exact h
  · exact h.after_arbiter ((arbiterOnly_modPrinter q _ s).trans (arbiterOnly_selectAll _))

/-! ## The fold (R120) -/

theorem InOrder.after_chargeFault {q : PortNo} {c : DeskCode} (h : InOrder P held s) :
    InOrder P held (chargeFault q c s) :=
  (h.after_modEntry (c := c) (f := fun e => { e with periodFaults := gain 255 e.periodFaults }) fun _ => ⟨rfl, rfl⟩).same rfl

theorem InOrder.after_suspendCulprit {c : DeskCode} (h : InOrder P held s) : InOrder P held (suspendCulprit c s) := by
  unfold suspendCulprit
  split
  · exact h
  · split
    · exact (h.after_suspendTimed (why := .check) (c := c)).same rfl
    · exact h

theorem InOrder.after_culpritStage {q : PortNo} {st : SupState} (h : InOrder P held s) :
    InOrder P held (culpritStage q st s) := by
  unfold culpritStage
  split
  · exact h.after_foldl fun _ _ hx => hx.after_suspendCulprit
  · exact h

/-- The period counts of some entries become 0. -/
theorem InOrder.periodCleared {t : State} {p : Entry → Bool} (h : InOrder P held s)
    (fields : t.directoryFields
      = (s.dir.entries.map (fun e => if p e then e.clearPeriod else e), s.dir.pool, s.storeFields)) :
    InOrder P held t :=
  h.mapped (fun e => by split <;> exact ⟨rfl, rfl⟩) fields

theorem InOrder.after_clearStage {q : PortNo} (h : InOrder P held s) : InOrder P held (clearStage q s) := by
  simp only [clearStage]
  split
  · exact h.periodCleared rfl
  · exact h.periodCleared rfl

theorem InOrder.after_foldPort {q : PortNo} (h : InOrder P held s) : InOrder P held (foldPort q s) := by
  have scored : InOrder P held (s.modPort q (PortRec.scored (foldUtil q s))) := h.same rfl
  have warned : ∀ b : Bool, InOrder P held (if b then setFlag .warning q.val none
      (s.modPort q (PortRec.scored (foldUtil q s))) else s.modPort q (PortRec.scored (foldUtil q s))) := fun b => by
    split
    · exact scored.after_setFlag
    · exact scored
  exact (((warned _).after_channel (channelOnly_verdict q _)).after_channel
    (channelOnly_modPort q _ _)).after_culpritStage.after_clearStage

theorem InOrder.after_foldAll (h : InOrder P held s) : InOrder P held (foldAll s) := by
  have folded : InOrder P held ((List.finRange 12).foldl (fun s q => foldPort q s) s) :=
    h.after_foldl fun _ _ hx => hx.after_foldPort
  unfold foldAll
  generalize (List.finRange 12).foldl (fun s q => foldPort q s) s = x at folded ⊢
  exact folded.periodCleared rfl

/-! ## Bridging (Chapter 3) -/

theorem directoryFields_dispatch (b : BufId) (kind : Byte) (r : Route) (q : PortNo) (s : State) :
    (dispatch b kind r q s).directoryFields = s.directoryFields := by
  unfold dispatch offerControl offerPrint
  split
  · split <;> rfl
  · split
    · split <;> rfl
    · split <;> rfl

theorem InOrder.after_dispatch {b : BufId} {kind : Byte} {r : Route} {q : PortNo} (h : InOrder P held s) :
    InOrder P held (dispatch b kind r q s) := h.same (directoryFields_dispatch b kind r q s)

theorem InOrder.after_modDrops {q : PortNo} {f : Drops → Drops} (h : InOrder P held s) : InOrder P held (s.modDrops q f) :=
  h.same rfl

/-- Copies of a frame whose star addressing was written. -/
theorem InOrder.after_flood {x : Option StarNo} {b : BufId} {dst src : StationId} (h : InOrder P held s) :
    InOrder P held (floodStars x b (setStarAddr b dst src s)) :=
  h.after_sends ((onlySends_setStarAddr b dst src s).trans (onlySends_offerStars _ b _))

theorem InOrder.after_starCopy {p : StarNo} {b : BufId} {dst src : StationId} (h : InOrder P held s) :
    InOrder P held (offerStar p b (setStarAddr b dst src s)) :=
  h.after_sends ((onlySends_setStarAddr b dst src s).trans (onlySends_offerStar p b _))

theorem InOrder.after_placeTrunk {t : SegNo} {f : TrunkRx} {b : BufId} (h : InOrder P held s) :
    InOrder P held (placeTrunk t f b s) := by
  simp only [placeTrunk]
  split
  · split
    · exact h.after_flood
    · exact h
  · split
    · exact h.after_dispatch
    · split
      · split
        · split
          · exact h.after_starCopy
          · exact h.after_modDrops
        · exact h
      · split
        · exact h.after_modDrops
        · exact h

theorem InOrder.after_bridgeTrunk {t : SegNo} {tr : Bool} {f : TrunkRx} (h : InOrder P [] s) :
    InOrder P [] (bridgeTrunk t tr f s).2 := by
  unfold bridgeTrunk
  split
  · exact h.after_modDrops
  · next taken =>
    have h := h.after_sends (onlySends_takeBuf taken)
    simp only [decideTrunk]
    split
    · exact h.after_modDrops
    · next desk =>
      split
      · split
        · exact h.after_dispatch
        · exact h
      · have learned := h.after_learnTrunk (t := t) (c := f.src) (by simpa using desk)
        split
        · next e => rw [e] at learned; exact learned.after_modDrops
        · next e =>
          rw [e] at learned
          split
          · split
            · exact learned.after_dispatch
            · exact learned.after_modDrops
          · exact learned.after_placeTrunk

theorem InOrder.after_offerTrunkCopy {q : PortNo} {dst : DeskCode} {f : StarRx} {b : BufId} (h : InOrder P held s) :
    InOrder P held (offerTrunkCopy q dst f b s) := by
  unfold offerTrunkCopy
  split
  · exact h.after_modDrops
  · split
    · exact h.after_modDrops
    · exact h.after_sends ((onlySends_setTrunkAddr _ _ _ s).trans (onlySends_offerTrunk _ _))

theorem InOrder.after_placeIndexed {p : StarNo} {f : StarRx} {b : BufId} {e : Entry} (h : InOrder P held s) :
    InOrder P held (placeIndexed p f b e s) := by
  simp only [placeIndexed]
  split
  · exact h.after_modDrops
  · split
    · exact h.after_starCopy
    · exact h.after_modDrops

theorem InOrder.after_placeStar {p : StarNo} {f : StarRx} {b : BufId} (h : InOrder P held s) :
    InOrder P held (placeStar p f b s) := by
  simp only [placeStar]
  split
  · exact h.after_modDrops
  · split
    · exact h.after_dispatch
    · split
      · split
        · exact h.after_flood.after_offerTrunkCopy
        · exact h.after_flood
      · split
        · split
          · exact h.after_offerTrunkCopy
          · exact h.after_modDrops
        · split
          · exact h.after_placeIndexed
          · exact h.after_flood

theorem InOrder.after_admitStar {p : StarNo} {f : StarRx} {b : BufId} (h : InOrder P held s) :
    InOrder P held (admitStar p f b s) := by
  simp only [admitStar]
  split
  · exact h.after_placeStar
  · next e _ =>
    split
    · split
      · exact h.after_dispatch
      · exact h.after_modDrops
    · have windowed : InOrder P held (applyWindow e s).2 := h.after_applyWindow
      split
      · split
        · next w => rw [w] at windowed; exact windowed.after_modDrops
        · next w => rw [w] at windowed; exact windowed.after_placeStar
      · exact h.after_placeStar

theorem InOrder.after_bridgeStar {p : StarNo} {f : StarRx} (h : InOrder P [] s) : InOrder P [] (bridgeStar p f s).2 := by
  unfold bridgeStar
  split
  · exact h.after_modDrops
  · next taken =>
    have h := h.after_sends (onlySends_takeBuf taken)
    simp only [decideStar]
    split
    · exact h.after_modDrops
    · split
      · exact h.after_modDrops
      · exact h.after_learnStar.after_admitStar

/-! ## The events of the trunk (Chapter 1) -/

theorem InOrder.after_carrierFalls {t : SegNo} {ph : LinePhase} (h : InOrder P held s) :
    InOrder P held (carrierFalls t ph s) := by
  unfold carrierFalls
  split
  · exact h.same rfl
  · exact h

theorem channelOnly_txCollision (s : State) : ChannelOnly s (txCollision s) := by
  simp only [txCollision]
  split
  · exact ((channelOnly_releaseRepeater s).trans (channelOnly_modTrunkCounters _ _)).trans
      ((channelOnly_modTrunkCounters _ _).trans (channelOnly_popTrunk _))
  · rfl

/-- A rise changes the channels and the clock. -/
theorem channelOnly_burstRise (t : SegNo) (dt : Nat) (s : State) : ChannelOnly (s.advance dt) (burstRise t dt s) := by
  simp only [burstRise, setCarrier, takeRise]
  split
  · refine ChannelOnly.trans ?_ (channelOnly_modSeg t _ _)
    split
    · split <;> rfl
    · split
      · exact (channelOnly_modSeg t _ _).trans (channelOnly_txCollision _)
      · rfl
    · rfl
  · rfl

theorem InOrder.after_headerDecision {t : SegNo} {dst src : DeskCode} (h : InOrder P held s) :
    InOrder P held (headerDecision t dst src s) := by
  have truncated : ∀ x, InOrder P held x → InOrder P held (truncateBurst t x) := fun _ hx => hx.same rfl
  unfold headerDecision
  split
  · exact h
  · next e _ =>
    split
    · exact truncated s h
    · have windowed : InOrder P held (applyWindow e s).2 := h.after_applyWindow
      split
      · split
        · next w => rw [w] at windowed; exact truncated _ windowed
        · next w => rw [w] at windowed; exact windowed
      · exact h

theorem InOrder.after_feedDecoder {t : SegNo} {cells : List Bool} (h : InOrder P held s) :
    InOrder P held (feedDecoder t cells s) := by
  have fed : InOrder P held (s.modSeg t fun g => { g with decoder := g.decoder.feed cells }) := h.same rfl
  simp only [feedDecoder, headerEvent]
  split
  · split
    · exact fed.after_headerDecision
    · exact fed
  · exact fed

theorem channelOnly_cutBurst (t : SegNo) (edges : Nat) (s : State) : ChannelOnly s (cutBurst t edges s) :=
  ((channelOnly_modSeg t _ s).trans (channelOnly_releaseIfHolder t _)).trans (channelOnly_jabberEvent _ _)

theorem InOrder.after_attributeBurst {t : SegNo} {d : Decoder} (h : InOrder P held s) :
    InOrder P held (attributeBurst t d s) := by
  unfold attributeBurst
  split
  · split
    · exact h.after_chargeFault
    · exact h
  · exact h

theorem InOrder.after_handOn {t : SegNo} {c : BurstClass} {d : Decoder} {tr : Bool} (h : InOrder P [] s) :
    InOrder P [] (handOn t c d tr s).2 := by
  cases c with
  | runt => exact h.after_channel (channelOnly_faultEvent _ _ _)
  | garble => exact h.after_channel (channelOnly_faultEvent _ _ _)
  | check => exact (h.after_channel (channelOnly_faultEvent _ _ _)).after_attributeBurst
  | good =>
    have counted : InOrder P [] (goodEvent (portOfSeg t) s) := h.after_channel (channelOnly_goodEvent _ _)
    simp only [handOn]
    split
    · split
      · exact counted.after_bridgeTrunk
      · exact counted
    · exact counted
  | none => exact h
  | inProgress => exact h
  | jabber => exact h
  | abandoned => exact h

theorem InOrder.after_burstFall {t : SegNo} {dt edges : Nat} {cells : List Bool} (h : InOrder P [] s) :
    InOrder P [] (burstFall t dt edges cells s).2 := by
  have later : InOrder P [] (s.advance dt) := h.same rfl
  have fed : InOrder P [] (feedDecoder t cells (s.advance dt)) := later.after_feedDecoder
  simp only [burstFall]
  split
  · split
    · have cut := fed.after_channel (channelOnly_cutBurst t edges _)
      simp only
      split
      · exact cut.same rfl
      · exact cut
    · exact ((fed.after_channel (channelOnly_modSeg t _ _)).after_channel (channelOnly_releaseIfHolder t _)).after_handOn
  · exact later

theorem InOrder.after_jabberCut {t : SegNo} {edges : Nat} (h : InOrder P held s) : InOrder P held (jabberCut t edges s) := by
  unfold jabberCut
  split
  · have later : InOrder P held (s.atJabber t) := h.same rfl
    exact later.after_channel (channelOnly_cutBurst t edges _)
  · exact h

theorem channelOnly_terminatorEdge_any (t : SegNo) (s : State) : ChannelOnly s (terminatorEdge t s) := by
  cases d : (s.seg t).differing with
  | true => exact channelOnly_terminatorEdge d
  | false => simp [terminatorEdge, d, ChannelOnly.refl]

theorem channelOnly_transmitClaim (s : State) : ChannelOnly s (transmitClaim s) := by
  unfold transmitClaim
  split <;> rfl

theorem channelOnly_transmitCompletion (s : State) : ChannelOnly s (transmitCompletion s) := by
  unfold transmitCompletion
  split
  · exact ((channelOnly_releaseRepeater s).trans (channelOnly_popTrunk _)).trans (channelOnly_modTrunkCounters _ _)
  · rfl

theorem channelOnly_longQuiet (t : SegNo) (s : State) : ChannelOnly s (longQuiet t s) := by
  unfold longQuiet
  split <;> rfl

theorem directoryFields_alertSend (s : State) : (alertSend s).directoryFields = s.directoryFields := by
  simp only [alertSend]
  split
  · rfl
  · split
    · rfl
    · next sent =>
      have k := (onlySends_sendBuilt sent).traffic.directoryFields (onlySends_sendBuilt sent).dir
      split <;> exact k

/-! ## The events of the star ports (Chapter 2) -/

theorem channelOnly_linkLossEvent (p : StarNo) (s : State) : ChannelOnly s (linkLossEvent p s) := by
  unfold linkLossEvent
  split
  · exact .refl s
  · exact ((channelOnly_modStar p _ s).trans (channelOnly_setFlag _ _ _ _)).trans (channelOnly_faultEvent _ _ _)

theorem channelOnly_linkDown (p : StarNo) (s : State) : ChannelOnly s (linkDown p s) := by
  simp only [linkDown]
  split
  · refine ChannelOnly.trans ?_ (channelOnly_linkLossEvent p _)
    split
    · exact (channelOnly_modStar p _ s).trans (channelOnly_flushStar p _)
    · exact channelOnly_modStar p _ s
  · exact .refl s

theorem channelOnly_frameStart (p : StarNo) (s : State) : ChannelOnly s (frameStart p s) := by
  unfold frameStart
  split <;> rfl

theorem InOrder.after_attributeFrame {p : StarNo} {store : List Byte} (h : InOrder P held s) :
    InOrder P held (attributeFrame p store s) := by
  unfold attributeFrame
  split
  · exact h.after_chargeFault
  · exact h

theorem InOrder.after_handOnFrame {p : StarNo} {c : StarClass} {store : List Byte} (h : InOrder P [] s) :
    InOrder P [] (handOnFrame p c store s).2 := by
  have counted : InOrder P [] (s.modStar p fun x => { x with counters := x.counters.countClass c }) := h.same rfl
  cases c with
  | runt => exact counted.after_channel (channelOnly_faultEvent _ _ _)
  | check => exact (counted.after_channel (channelOnly_faultEvent _ _ _)).after_attributeFrame
  | good =>
    have counted := counted.after_channel (channelOnly_goodEvent (portOfStar p) _)
    simp only [handOnFrame]
    split
    · exact counted.after_bridgeStar
    · exact counted

theorem InOrder.after_frameEnd {p : StarNo} {bytes : List Byte} (h : InOrder P [] s) :
    InOrder P [] (frameEnd p bytes s).2 := by
  have ended : InOrder P [] (s.modStar p StarPort.abandonRx) := h.same rfl
  simp only [frameEnd]
  split
  · exact h
  · exact ended
  · exact ended.after_handOnFrame

theorem channelOnly_sendStart (p : StarNo) (s : State) : ChannelOnly s (sendStart p s) := by
  simp only [sendStart]
  split
  · rfl
  · split <;> rfl

theorem channelOnly_sendCompletion (p : StarNo) (s : State) : ChannelOnly s (sendCompletion p s) := by
  unfold sendCompletion
  split
  · exact (channelOnly_modStar p _ s).trans (onlySends_dropRef _ _).channel
  · rfl
  · rfl

end

end Sys2Proof.Machine
end

