-- ==== Sys2Proof/Proofs/TicketsRemoved.lean ====
section
/-!
Which tickets an event of the Print Arbiter leaves: none is new but that of an OPEN, and a removal leaves none of those it
removes (R155, R161, R163).
-/

namespace Sys2Proof.Machine

theorem mem_allTickets {s : State} {t : Ticket} : t ∈ allTickets s ↔ ∃ q, t ∈ (s.printer q).tickets := by
  simp only [allTickets, List.mem_flatMap, Vector.mem_toList_iff, Vector.mem_iff_getElem]
  constructor
  · rintro ⟨p, ⟨i, hi, rfl⟩, mem⟩
    exact ⟨⟨i, hi⟩, mem⟩
  · rintro ⟨q, mem⟩
    exact ⟨_, ⟨q.val, q.isLt, rfl⟩, mem⟩

/-! ## No new tickets -/

/-- Every ticket of `u` stood on the same queue in `s`. -/
def TicketsFrom (s u : State) : Prop := ∀ q, (u.printer q).tickets ⊆ (s.printer q).tickets

theorem TicketsFrom.refl (s : State) : TicketsFrom s s := fun _ _ => id

theorem TicketsFrom.trans {s t u : State} (h : TicketsFrom s t) (k : TicketsFrom t u) : TicketsFrom s u :=
  fun q => List.Subset.trans (k q) (h q)

theorem TicketsFrom.of_printers {s u : State} (same : ∀ q, u.printer q = s.printer q) : TicketsFrom s u :=
  fun q => by rw [same q]; exact fun _ => id

theorem TicketsFrom.foldl {α : Type} (f : State → α → State) (hf : ∀ s a, TicketsFrom s (f s a)) (l : List α) (s : State) :
    TicketsFrom s (l.foldl f s) := by
  induction l generalizing s with
  | nil => exact .refl s
  | cons a l ih => exact (hf s a).trans (ih _)

theorem OnlySends.ticketsFrom {s u : State} (h : OnlySends s u) : TicketsFrom s u := .of_printers h.printer

@[simp] theorem setFlag_print (k : AlertKind) (i : Nat) (d : Option Byte) (s : State) : (setFlag k i d s).print = s.print := by
  obtain ⟨a, h, -⟩ := setFlag_eq k i d s
  rw [h]

@[simp] theorem setFlag_printer (k : AlertKind) (i : Nat) (d : Option Byte) (s : State) (q : QueueNo) :
    (setFlag k i d s).printer q = s.printer q := by rw [State.printer, setFlag_print, State.printer]

section
variable {s : State} {q : QueueNo} {t : Ticket}

theorem ticketsFrom_modPrinter {f : Printer → Printer} (hf : (f (s.printer q)).tickets ⊆ (s.printer q).tickets) :
    TicketsFrom s (s.modPrinter q f) := fun v => by
  rw [State.printer_modPrinter]
  split
  · next same => exact same ▸ hf
  · exact fun _ => id

theorem Printer.waiting_subset (p : Printer) : p.waiting ⊆ p.tickets := List.subset_append_right _ _

/-- The tickets of a printer without a grant wait. -/
theorem Printer.tickets_of_grant_none {p : Printer} (h : p.grant = none) : p.tickets = p.waiting := by
  rw [Printer.tickets, h]
  rfl

/-- A printer whose grant has gone has none (R155). -/
theorem Printer.tickets_afterGrant (p : Printer) : ({ p with state := p.afterGrant } : Printer).tickets = p.waiting := by
  refine Printer.tickets_of_grant_none ?_
  simp only [Printer.grant, Printer.afterGrant]
  cases p.enable <;> rfl

/-- The record of a printer whose grant was abandoned (R155). -/
theorem printer_abandoned (flagged : Bool) :
    (endGrant (.abandonment flagged) q t s).printer q
      = { s.printer q with state := (s.printer q).afterGrant } := by
  have ended : ∀ g, (((sendEnding q (breakPayload (queueByte q) t.byte) s).modPrinter q
      (fun p => { p with state := p.afterGrant })).modLive t.costCentre g).printer q
        = { s.printer q with state := (s.printer q).afterGrant } := fun g => by
    rw [State.modLive_printer, State.printer_modPrinter_self, (onlySends_sendEnding _ _ s).printer q]
  simp only [endGrant]
  split
  · rw [setFlag_printer, ended]
  · exact ended _

theorem printer_abandonGrant (m : TellMode) :
    (abandonGrant m q t s).printer q = { s.printer q with state := (s.printer q).afterGrant } := by
  cases m with
  | tell =>
    exact ((onlySends_answerRequester _ q t _).printer q).trans (printer_abandoned true)
  | silent => exact printer_abandoned true

theorem ticketsFrom_endGrant (how : Ending) : TicketsFrom s (endGrant how q t s) := by
  have ended : ∀ payload (f : Printer → Printer) g, (∀ p, (f p).tickets = p.waiting) →
      TicketsFrom s (((sendEnding q payload s).modPrinter q f).modLive t.costCentre g) := fun payload f g hf =>
    ((onlySends_sendEnding q payload s).ticketsFrom.trans
      (ticketsFrom_modPrinter (by rw [hf]; exact Printer.waiting_subset _))).trans (.of_printers fun _ => rfl)
  cases how with
  | completion => exact ended _ _ _ Printer.tickets_afterGrant
  | abandonment flagged =>
    simp only [endGrant]
    split
    · exact (ended _ _ _ Printer.tickets_afterGrant).trans (.of_printers fun _ => setFlag_printer ..)
    · exact ended _ _ _ Printer.tickets_afterGrant

theorem ticketsFrom_abandonAndTell : TicketsFrom s (abandonAndTell q t s) :=
  (ticketsFrom_endGrant _).trans (onlySends_answerRequester _ q t _).ticketsFrom

/-! ## Selection and the arbiter's share of an event -/

/-- A ticket of the waiting list that is granted was a ticket before (R154). -/
theorem ticketsFrom_grantTicket (told : Bool) (waits : t ∈ (s.printer q).waiting) :
    TicketsFrom s (grantTicket told q t s) := by
  have granted : TicketsFrom s (s.modPrinter q fun p =>
      { p with state := .granted t, waiting := p.waiting.erase t, idleRemaining := p.idleLimit }) := by
    refine ticketsFrom_modPrinter fun x mem => Printer.waiting_subset _ ?_
    rcases List.mem_append.1 mem with grant | rest
    · exact (List.mem_singleton.1 grant) ▸ waits
    · exact List.mem_of_mem_erase rest
  simp only [grantTicket]
  split
  · exact granted
  · exact granted.trans (onlySends_answerRequester _ q t _).ticketsFrom

theorem ticketsFrom_awaitForm (f : Fin 16) : TicketsFrom s (awaitForm q f s) := by
  unfold awaitForm
  split
  · exact .refl s
  · exact (ticketsFrom_modPrinter (f := fun p => { p with state := .formWait f }) (Printer.waiting_subset _)).trans
      (.of_printers fun _ => setFlag_printer ..)

/-- The ticket that selection chooses waits (R153). -/
theorem mem_of_choose {p : Printer} {cands : List Ticket} (grant : choose p cands = .grant t) : t ∈ cands := by
  rcases choose_cases p cands with ⟨-, nothing⟩ | ⟨head, first, ⟨-, chosen⟩ | ⟨-, -, y, fits, chosen⟩ | ⟨-, -, chosen⟩⟩
  · rw [nothing] at grant; cases grant
  · rw [chosen] at grant; cases grant; exact List.mem_of_mem_head? first
  · rw [chosen] at grant; cases grant; exact List.mem_of_find?_eq_some fits
  · rw [chosen] at grant; cases grant

theorem ticketsFrom_select (o : Option (QueueNo × Nat)) : TicketsFrom s (select o q s) := by
  unfold select
  split
  · split
    · next grant => exact ticketsFrom_grantTicket _ (List.mem_of_mem_filter (mem_of_choose grant))
    · exact ticketsFrom_awaitForm _
    · exact ticketsFrom_modPrinter (f := fun p => { p with state := .idle }) (Printer.waiting_subset _)
  · exact .refl s

theorem ticketsFrom_endLostGrant : TicketsFrom s (endLostGrant q s) := by
  unfold endLostGrant
  split
  · exact .refl s
  · split
    · exact .refl s
    · exact ticketsFrom_abandonAndTell

theorem ticketsFrom_clearLostCredit (before : State) : TicketsFrom s (clearLostCredit before q s) := by
  unfold clearLostCredit
  split
  · exact ticketsFrom_modPrinter (f := fun p => { p with credit := 0 }) fun _ => id
  · exact .refl s

/-- The arbiter's share of an event makes no ticket. -/
theorem ticketsFrom_settle (before : State) : TicketsFrom s (settle before s) := by
  unfold settle
  split
  · exact .refl s
  · exact ((TicketsFrom.foldl _ (fun _ _ => ticketsFrom_clearLostCredit before) _ s).trans
      (TicketsFrom.foldl _ (fun _ _ => ticketsFrom_endLostGrant) _ _)).trans
        (TicketsFrom.foldl _ (fun _ _ => ticketsFrom_select none) _ _)

/-! ## Removal (R161) -/

theorem printer_cancelWaiting (m : TellMode) (v : QueueNo) :
    (cancelWaiting m q t s).printer v =
      if v = q then { s.printer v with waiting := (s.printer v).waiting.erase t } else s.printer v := by
  cases m with
  | tell =>
    exact ((onlySends_answerRequester .cancelled q t (dropWaiting q t s)).printer v).trans (State.printer_modPrinter ..)
  | silent => exact State.printer_modPrinter ..

theorem ticketsFrom_cancelWaiting (m : TellMode) : TicketsFrom s (cancelWaiting m q t s) := fun v x mem => by
  rw [printer_cancelWaiting] at mem
  split at mem
  · exact (List.mem_append.1 mem).elim (List.mem_append_left _) fun rest =>
      List.mem_append_right _ (List.mem_of_mem_erase rest)
  · exact mem

/-- Tickets cancelled one by one leave the waiting list. -/
theorem waiting_foldl_cancelWaiting (m : TellMode) (l : List Ticket) (s : State) :
    ((l.foldl (fun s t => cancelWaiting m q t s) s).printer q).waiting = (s.printer q).waiting.diff l := by
  induction l generalizing s with
  | nil => rfl
  | cons t l ih =>
    rw [List.foldl_cons, ih, printer_cancelWaiting, if_pos rfl, List.diff_cons]

theorem not_mem_diff_filter {p : Ticket → Bool} {l : List Ticket} (mem : t ∈ l.diff (l.filter p)) : p t = false := by
  refine Bool.eq_false_iff.2 fun picked => ?_
  have left := List.count_pos_iff.2 mem
  rw [List.count_diff, List.count_filter picked, Nat.sub_self] at left
  exact absurd left (Nat.lt_irrefl 0)

theorem ticketsFrom_removeTicketsAt (m : TellMode) (p : Ticket → Bool) : TicketsFrom s (removeTicketsAt m p q s) := by
  have cancelled : TicketsFrom s (((s.printer q).waiting.filter p).foldl (fun s t => cancelWaiting m q t s) s) :=
    TicketsFrom.foldl _ (fun _ _ => ticketsFrom_cancelWaiting m) _ s
  simp only [removeTicketsAt]
  split
  · split
    · cases m with
      | tell => exact cancelled.trans ticketsFrom_abandonAndTell
      | silent => exact cancelled.trans (ticketsFrom_endGrant _)
    · exact cancelled
  · exact cancelled

/-- A removal from one queue leaves there none of the tickets it removes. -/
theorem removeTicketsAt_removes (m : TellMode) (p : Ticket → Bool) :
    ∀ x ∈ ((removeTicketsAt m p q s).printer q).tickets, p x = false := by
  have waiting := waiting_foldl_cancelWaiting (q := q) m ((s.printer q).waiting.filter p) s
  have waits : ∀ x ∈ ((((s.printer q).waiting.filter p).foldl (fun s t => cancelWaiting m q t s) s).printer q).waiting,
      p x = false := fun x mem => not_mem_diff_filter (waiting ▸ mem)
  simp only [removeTicketsAt]
  generalize ((s.printer q).waiting.filter p).foldl (fun s t => cancelWaiting m q t s) s = y at waits
  split
  · next t grant =>
    split
    · rw [printer_abandonGrant, Printer.tickets_afterGrant]
      exact waits
    · next stays =>
      rw [Printer.tickets, grant]
      exact List.forall_mem_cons.2 ⟨Bool.eq_false_iff.2 stays, waits⟩
  · next grant =>
    rw [Printer.tickets_of_grant_none grant]
    exact waits

/-- The removal of an entry's tickets leaves none of them (R161). -/
theorem removeTicketsOf_removes (m : TellMode) (c : DeskCode) (s : State) :
    ∀ x ∈ allTickets (removeTicketsOf m c s), x.requester ≠ c := by
  have each : ∀ (l : List QueueNo) (s : State), ∀ q ∈ l, ∀ x ∈
      ((l.foldl (fun s q => removeTicketsAt m (fun t => t.requester == c) q s) s).printer q).tickets,
      (x.requester == c) = false := by
    intro l
    induction l with
    | nil => exact fun _ _ hq => absurd hq List.not_mem_nil
    | cons a l ih =>
      intro s q hq x mem
      rcases List.mem_cons.1 hq with rfl | later
      · exact removeTicketsAt_removes m _ x (TicketsFrom.foldl _ (fun _ _ => ticketsFrom_removeTicketsAt m _) l _ q mem)
      · exact ih _ q later x mem
  intro x mem
  obtain ⟨q, mem⟩ := mem_allTickets.1 mem
  exact beq_eq_false_iff_ne.1 (each _ s q (List.mem_finRange q) x mem)

end

end Sys2Proof.Machine
end

