-- ==== Sys2Proof/Proofs/EntriesRemoved.lean ====
section
/-!
The requests that remove, suspend and resume entries (R77, R88 to R91): what each makes of the directory, with the Print
Arbiter's share aside.
-/

namespace Sys2Proof.Machine

/-- The Print Arbiter's share beside another directory. -/
theorem ArbiterOnly.withDir {s t : State} (h : ArbiterOnly s t) (d : Directory) :
    ArbiterOnly { s with dir := d } { t with dir := d } := by
  rw [arbiterOnly_iff] at h ⊢
  obtain ⟨h1, h2, h3, h4, h5, h6, -, h8, h9, h10, h11, h12, hs⟩ := h
  exact ⟨h1, h2, h3, h4, h5, h6, rfl, h8, h9, h10, h11, h12, hs⟩

/-- A removed entry leaves the list and its code is the pool's last; the rest is the arbiter's share (R77). -/
theorem arbiterOnly_removeEntry (m : TellMode) (c : DeskCode) (s : State) :
    ArbiterOnly { s with dir := { s.dir with
      entries := s.dir.entries.filter (fun y => y.code != c), pool := s.dir.pool ++ [c] } } (removeEntry m c s) := by
  have share := arbiterOnly_removeTicketsOf m c s
  simp only [removeEntry, removeKeepingCode]
  generalize removeTicketsOf m c s = x at share
  have removed : (x.dropEntry c).toPool c = { x with dir := { s.dir with
      entries := s.dir.entries.filter (fun y => y.code != c), pool := s.dir.pool ++ [c] } } := by
    rw [← share.dir]
    rfl
  rw [removed]
  exact share.withDir _

/-- Entries removed one after another: their codes join the pool in that order. -/
theorem arbiterOnly_removeEntries (m : TellMode) (l : List DeskCode) (s : State) :
    ArbiterOnly { s with dir := { s.dir with
      entries := s.dir.entries.filter (fun y => !l.contains y.code), pool := s.dir.pool ++ l } }
      (l.foldl (fun s c => removeEntry m c s) s) := by
  induction l generalizing s with
  | nil =>
    have all : s.dir.entries.filter (fun y => !([] : List DeskCode).contains y.code) = s.dir.entries :=
      List.filter_eq_self.2 fun _ _ => rfl
    rw [List.append_nil, all]
    exact .refl s
  | cons c l ih =>
    have first := arbiterOnly_removeEntry m c s
    have rest := ih (removeEntry m c s)
    rw [first.dir] at rest
    have entries : s.dir.entries.filter (fun y => !(c :: l).contains y.code)
        = (s.dir.entries.filter (fun y => y.code != c)).filter (fun y => !l.contains y.code) := by
      rw [List.filter_filter]
      congr 1
      funext y
      rw [List.contains_cons, Bool.not_or, Bool.and_comm]
      rfl
    rw [List.foldl_cons, entries, List.append_cons]
    exact (first.withDir _).trans rest

section
variable {s : State}

theorem mem_learnedCodes {c : DeskCode} :
    c ∈ learnedCodes s ↔ ∃ x ∈ s.dir.entries, x.origin = .learned ∧ x.code = c := by
  simp only [learnedCodes, List.mem_map, List.mem_filter, decide_eq_true_eq, and_assoc]

/-- Where codes are apart, the entries that are not under a LEARNED code are the FIXED ones. -/
theorem filter_not_learnedCodes (apart : (s.dir.entries.map Entry.code).Nodup) :
    s.dir.entries.filter (fun y => !(learnedCodes s).contains y.code)
      = s.dir.entries.filter (fun x => decide (x.origin = .fixed)) := by
  refine List.filter_congr fun y mem => ?_
  cases origin : y.origin with
  | learned => simpa using mem_learnedCodes.2 ⟨y, mem, origin, rfl⟩
  | fixed =>
    have other : y.code ∉ learnedCodes s := fun listed => by
      obtain ⟨x, there, learned, same⟩ := mem_learnedCodes.1 listed
      rw [List.inj_on_of_nodup_map apart there mem same, origin] at learned
      cases learned
    simpa using other

/-- CLEAR_LEARNED leaves the FIXED entries, and the codes of the others are the pool's last (R91). -/
theorem arbiterOnly_clearLearned (apart : (s.dir.entries.map Entry.code).Nodup) :
    ArbiterOnly { s with dir := { s.dir with
      entries := s.dir.entries.filter (fun x => decide (x.origin = .fixed)), pool := s.dir.pool ++ learnedCodes s } }
      (clearLearned s).state := by
  have removed := arbiterOnly_removeEntries .tell (learnedCodes s) s
  rw [filter_not_learnedCodes apart] at removed
  exact removed

/-- A request on an entry that is there. -/
theorem withEntry_of_found {c : Byte} {x : Entry} (found : findEntry s c = some x) (desk : isDesk c = true)
    (f : Entry → Reply) : withEntry c s f = f x := by
  rw [withEntry, if_pos desk, found]

theorem releaseEntry_of_passed {c : Byte} {x : Entry} (found : findEntry s c = some x) (desk : isDesk c = true)
    (printer : isPrinterCode s c = false) (spare : s.ctl.commissioned = true → onlyAdmin s c = false) :
    releaseEntry c s = done (removeEntry .tell c s) := by
  have kept : (s.ctl.commissioned && onlyAdmin s c) = false := by
    cases mode : s.ctl.commissioned with
    | true => rw [spare mode, Bool.and_false]
    | false => rfl
  rw [releaseEntry, withEntry_of_found found desk, printer, kept]
  rfl

theorem heldIfFixed_of_learned {c : Byte} {x : Entry} (found : findEntry s c = some x) (learned : x.origin = .learned) :
    heldIfFixed c s = false := by
  rw [heldIfFixed, found]
  simp [learned]

end

/-- A removed entry leaves no ticket behind, and neither does what follows in the event (R77, R161). -/
theorem no_ticket_of_removed (e : InputEntry) (op : Byte) (tag : BitVec 16) (st : Status) (results : List Chunk)
    (m : TellMode) (c : DeskCode) (before s : State) :
    ∀ t ∈ allTickets (answered e op tag st results (settle before (removeEntry m c s))), t.requester ≠ c := by
  have gone := removeTicketsOf_removes m c s
  have later := (ticketsFrom_settle (s := removeEntry m c s) before).trans
    (onlySends_answered e op tag st results _).ticketsFrom
  simp only [removeEntry, removeKeepingCode] at later ⊢
  generalize removeTicketsOf m c s = x at gone later ⊢
  intro t mem
  obtain ⟨q, mem⟩ := mem_allTickets.1 mem
  exact gone t (mem_allTickets.2 ⟨q, later q mem⟩)

/-- A request in its form, from a permitted sender, that no SAVE holds back is answered as its effect says. -/
theorem exec_of_effect {s : State} {e : InputEntry} {op : Byte} {tag : BitVec 16} {params : List Byte}
    (asks : Asks s e op tag params) (allow : permitted e.route s = true) {command : Instr} {α : Type}
    {mine : Request → Bool} {parse : List Byte → Option α} {held : α → State → Bool} {effect : α → State → Reply} {a : α}
    (runs : exec command s = requestEvent (request mine (fun q r => stages false held (parse q.params) effect r)) s)
    (own : mine { op := op, tag := tag, params := params } = true) (parsed : parse params = some a)
    (goes : held a (takeControl e s) = false ∨ s.ctl.save = none) {reply : Reply}
    (comes : effect a (takeControl e s) = reply) :
    exec command s = .next (answered e op tag reply.status reply.results (settle s reply.state)) := by
  subst comes
  exact exec_staged brings_id asks allow runs own parsed goes

/-- Settles O35, request by request. -/
theorem entryReleasedSuspendedResumed : Obligations.EntryReleasedSuspendedResumed := by
  intro e tag c x s allow desk found s1
  have found1 : findEntry s1 c = some x := found
  refine ⟨fun asks free printer spare => ?_, fun asks => ?_, fun asks => ?_⟩
  · refine ⟨_, exec_of_effect asks allow (mine := isOp 10) (parse := oneParam) (held := heldIfFixed)
      (effect := releaseEntry) rfl rfl rfl (free.elim .inr fun learned => .inl (heldIfFixed_of_learned found1 learned))
      (releaseEntry_of_passed found1 desk printer spare), ?_⟩
    have removed := arbiterOnly_removeEntry .tell c s1
    have gone := no_ticket_of_removed e 10#8 tag .done [] .tell c s s1
    simp only [done]
    generalize removeEntry .tell c s1 = y at removed gone ⊢
    exact ⟨gone, removed.trans (arbiterOnly_answered .done [] s y)⟩
  · refine ⟨_, exec_of_effect asks allow (mine := isOp 11) (parse := oneParam) (held := neverHeld)
      (effect := suspendEntry) rfl rfl rfl (.inl rfl) (withEntry_of_found found1 desk _), ?_⟩
    exact arbiterOnly_answered .done [] s (suspendAdmin c s1)
  · have use : x.inUse = true ↔ x.state = .active ∨ x.state = .queried := by
      unfold Entry.inUse
      cases x.state <;> simp
    refine ⟨_, exec_of_effect asks allow (mine := isOp 12) (parse := oneParam) (held := neverHeld)
      (effect := resumeEntry) rfl rfl rfl (.inl rfl) (withEntry_of_found found1 desk _), fun active => ?_, fun idle => ?_⟩
    · rw [if_pos (use.2 active)]
      exact arbiterOnly_answered .done [] s s1
    · rw [if_neg (mt use.1 idle)]
      exact arbiterOnly_answered .done [] s (s1.modEntry c Entry.resumed)

/-- Settles O36. -/
theorem learnedEntriesCleared : Obligations.LearnedEntriesCleared := by
  intro e tag s asks allow apart
  refine ⟨_, exec_of_effect asks allow (mine := isOp 13) (parse := noParams) (held := neverHeld)
    (effect := fun _ => clearLearned) rfl rfl rfl (.inl rfl) rfl, ?_⟩
  exact (arbiterOnly_clearLearned (s := takeControl e s) apart).trans (arbiterOnly_answered .done _ s _)

end Sys2Proof.Machine
end

