-- ==== Sys2Proof/Proofs/EntryFixTests.lean ====
section
/-!
ENTRY_FIX before its effect (R82): the tests of Table 4-7 as one refusal of identities and one of conflicts.
-/

namespace Sys2Proof.Machine

variable {f : FixPlan} {s : State}

/-- Test 2 of Table 4-7 refuses a STAR request for an ID that is special, the unit number, or of the trunk range. -/
theorem fixIdBad_iff : (f.starId?.map (fixIdBad s)).getD false = true ↔ ∃ x h, f.place = .star x h
    ∧ (x = nullId ∨ x = broadcastId ∨ x = s.chassis.unitNumber ∨ inTrunkRange s.office.base x = true) := by
  unfold FixPlan.starId?
  cases f.place with
  | trunk t => simp
  | star x h => simp [fixIdBad, or_assoc]

/-- Tests 3 to 8 of Table 4-7. -/
def FixClash (s : State) (f : FixPlan) : Prop :=
  fixTakesTrunk s f = true ∨ fixIdFixed s f = true ∨ fixWithTickets s f = true ∨ fixQueueTaken s f = true
    ∨ fixPrinterMoved s f = true ∨ (s.ctl.commissioned = true ∧ onlyAdmin s f.code = true ∧ f.admin = false)

theorem fixRefusal_of_badId (bad : (f.starId?.map (fixIdBad s)).getD false = true) :
    fixRefusal s f = some .outOfRange := if_pos bad

/-- Where the identity passes, a request is refused with CONFLICT by any of the other tests, and by nothing else. -/
theorem fixRefusal_of_goodId (good : ¬ (f.starId?.map (fixIdBad s)).getD false = true) :
    (FixClash s f → fixRefusal s f = some .conflict) ∧ (¬ FixClash s f → fixRefusal s f = none) := by
  have last : (s.ctl.commissioned && onlyAdmin s f.code && !f.admin) = true
      ↔ s.ctl.commissioned = true ∧ onlyAdmin s f.code = true ∧ f.admin = false := by
    simp only [Bool.and_eq_true, Bool.not_eq_true', and_assoc]
  rw [fixRefusal, if_neg good, FixClash, ← last]
  simp only [← ite_or]
  exact ⟨fun clash => if_pos clash, fun clear => if_neg clear⟩

theorem isDesk_of_plan {q : FixReq} (plan : q.plan = some f) : isDesk f.code = true := by
  unfold FixReq.plan at plan
  split at plan
  · next desk _ _ => cases plan; exact desk
  · cases plan

end Sys2Proof.Machine
end

