-- ==== Sys2Proof/Proofs/EntryFixEffects.lean ====
section
/-!
The effect of ENTRY_FIX (R83 to R86, R96, R206): how the entry under the requested code is made, by what stood under it, and
how a station moves to it from another code. Beside the directory an ENTRY_FIX changes what commissioning and the Print
Arbiter's share change.
-/

namespace Sys2Proof.Machine

/-! ## What changes beside the directory -/

/-- State `u` differs from `s` at most by its directory and the Print Arbiter's share. -/
def EntriesOnly (s u : State) : Prop := ArbiterOnly { s with dir := u.dir } u

theorem ArbiterOnly.entriesOnly {s u : State} (h : ArbiterOnly s u) : EntriesOnly s u := h.withDir u.dir

theorem entriesOnly_dir (d : Directory) (s : State) : EntriesOnly s { s with dir := d } := ArbiterOnly.refl _

theorem EntriesOnly.trans {s t u : State} (h : EntriesOnly s t) (k : EntriesOnly t u) : EntriesOnly s u :=
  ArbiterOnly.trans (ArbiterOnly.withDir h u.dir) k

theorem EntriesOnly.traffic {s u : State} (h : EntriesOnly s u) : TrafficOnly s u :=
  (trafficOnly_dir u.dir s).trans (ArbiterOnly.traffic h)

section
variable {s : State} {f : FixPlan} {c d : DeskCode} {e old : Entry}

theorem entriesOnly_displaceProxy (c : DeskCode) (s : State) : EntriesOnly s (displaceProxy c s) := by
  unfold displaceProxy
  split
  · unfold renumber
    split
    · exact (ArbiterOnly.refl s).entriesOnly
    · exact (entriesOnly_dir _ s).trans (arbiterOnly_renameRequester _ _ _).entriesOnly
  · exact ((arbiterOnly_setFlag _ _ _ s).trans (arbiterOnly_removeTicketsOf _ _ _)).entriesOnly.trans
      (entriesOnly_dir _ _)

theorem entriesOnly_makeFixed (f : FixPlan) (s : State) : EntriesOnly s (makeFixed f s) := by
  unfold makeFixed
  split
  · exact entriesOnly_dir _ s
  · split
    · exact entriesOnly_dir _ s
    · split
      · exact entriesOnly_dir _ s
      · exact ((entriesOnly_displaceProxy f.code s).trans (arbiterOnly_setFlag _ _ _ _).entriesOnly).trans
          (entriesOnly_dir _ _)

/-! ## The entry under the requested code -/

/-- An entry that is FIXED with the code, the attributes and the presence limit of a request. -/
def FixPlan.Describes (f : FixPlan) (e : Entry) : Prop := e.code = f.code ∧ f.attributes e = e

theorem FixPlan.describes_entry (f : FixPlan) : f.Describes f.entry := ⟨rfl, rfl⟩

theorem FixPlan.describes_update (code : e.code = f.code) : f.Describes (f.update e) := by
  unfold FixPlan.update
  split
  · exact ⟨code, rfl⟩
  · exact f.describes_entry

theorem FixPlan.describes_convert (code : e.code = f.code) : f.Describes (f.convert e) := by
  simp only [FixPlan.convert]
  split <;> exact ⟨code, rfl⟩

/-- An entry that the request describes is an admin entry as the request says. -/
theorem FixPlan.Describes.isAdmin (h : f.Describes e) : e.isAdmin = f.admin := by
  rw [← h.2]
  exact Bool.true_and _

/-- What a station takes with it depends on the request and its old entry alone (R86). -/
theorem FixPlan.Describes.takeOver (h : f.Describes e) (old : Entry) : old.takeOver e = old.takeOver f.entry := by
  obtain ⟨code, attributes⟩ := h
  rw [← attributes]
  simp only [Entry.takeOver, FixPlan.attributes, FixPlan.entry, code]

theorem findEntry_modEntry_of_found {g : Entry → Entry} (found : findEntry s c = some e)
    (hg : ∀ y, y.code = c → (g y).code = c) : findEntry (s.modEntry c g) c = some (g e) := by
  simp only [findEntry, State.modEntry, List.find?_map]
  have same : ((fun y : Entry => y.code == c) ∘ fun y => if y.code = c then g y else y) = fun y : Entry => y.code == c := by
    funext y
    by_cases at_c : y.code = c
    · simp [at_c, hg y at_c]
    · simp [at_c]
  have found' : s.dir.entries.find? (fun y => y.code == c) = some e := found
  rw [same, found', Option.map_some, if_pos (findEntry_code (s := s) found)]

theorem findEntry_modEntry_ne {g : Entry → Entry} (hg : ∀ y, y.code = c → (g y).code = c) (ne : d ≠ c) :
    findEntry (s.modEntry c g) d = findEntry s d := by
  simp only [findEntry, State.modEntry]
  induction s.dir.entries with
  | nil => rfl
  | cons y l ih =>
    rw [List.map_cons, List.find?_cons, List.find?_cons, ih]
    by_cases at_c : y.code = c
    · rw [if_pos at_c, hg y at_c, at_c, beq_eq_false_iff_ne.2 ne.symm]
    · rw [if_neg at_c]

/-- An entry is made where none stood (R83). -/
theorem makeFixed_of_none (free : findEntry s f.code = none) : makeFixed f s = s.addEntry f.entry := by
  simp only [makeFixed, free]

theorem makeFixed_of_fixed (found : findEntry s f.code = some e) (fixed : e.origin = .fixed) :
    makeFixed f s = s.modEntry f.code f.update := by
  simp only [makeFixed, found, fixed]

theorem makeFixed_of_learned (found : findEntry s f.code = some e) (learned : e.origin = .learned)
    (same : sameIdentity e.place f.place = true) : makeFixed f s = s.modEntry f.code f.convert := by
  simp only [makeFixed, found, learned, same, if_true]

/-- The state in which a LEARNED entry of another identity has given way, with the conflict flagged (R84). -/
def givenWay (f : FixPlan) (s : State) : State := setFlag .codeConflict 0 (some f.code) (displaceProxy f.code s)

theorem makeFixed_of_other (found : findEntry s f.code = some e) (learned : e.origin = .learned)
    (other : sameIdentity e.place f.place = false) : makeFixed f s = (givenWay f s).addEntry f.entry := by
  simp [makeFixed, found, learned, other, givenWay]

theorem code_update (y : Entry) (code : y.code = f.code) : (f.update y).code = f.code := (FixPlan.describes_update code).1

theorem code_convert (y : Entry) (code : y.code = f.code) : (f.convert y).code = f.code := (FixPlan.describes_convert code).1

/-- However the entry is made, the request describes it. -/
theorem exists_mem_makeFixed (f : FixPlan) (s : State) : ∃ y ∈ (makeFixed f s).dir.entries, f.Describes y := by
  have changed : ∀ {g : Entry → Entry} {e : Entry}, findEntry s f.code = some e → g e ∈ (s.modEntry f.code g).dir.entries :=
    fun found => List.mem_map.2 ⟨_, mem_of_findEntry found, if_pos (findEntry_code found)⟩
  cases found : findEntry s f.code with
  | none =>
    rw [makeFixed_of_none found]
    exact ⟨f.entry, mem_addEntry.2 (.inl rfl), f.describes_entry⟩
  | some e =>
    have code := findEntry_code found
    cases origin : e.origin with
    | fixed =>
      rw [makeFixed_of_fixed found origin]
      exact ⟨f.update e, changed found, FixPlan.describes_update code⟩
    | learned =>
      cases same : sameIdentity e.place f.place with
      | true =>
        rw [makeFixed_of_learned found origin same]
        exact ⟨f.convert e, changed found, FixPlan.describes_convert code⟩
      | false =>
        rw [makeFixed_of_other found origin same]
        exact ⟨f.entry, mem_addEntry.2 (.inl rfl), f.describes_entry⟩

/-- A code that no entry had (R83). -/
theorem makeFixed_creates (free : findEntry s f.code = none) :
    findEntry (makeFixed f s) f.code = some f.entry
      ∧ (makeFixed f s).dir.pool = s.dir.pool.filter (fun d => d != f.code)
      ∧ ∀ d, d ≠ f.code → findEntry (makeFixed f s) d = findEntry s d := by
  rw [makeFixed_of_none free]
  exact ⟨findEntry_addEntry_self (e := f.entry) free, rfl, fun d ne => findEntry_addEntry_ne s ne⟩

/-- A FIXED entry is updated (R85). -/
theorem makeFixed_updates (found : findEntry s f.code = some e) (fixed : e.origin = .fixed) :
    findEntry (makeFixed f s) f.code = some (f.update e) ∧ (makeFixed f s).dir.pool = s.dir.pool
      ∧ ∀ d, d ≠ f.code → findEntry (makeFixed f s) d = findEntry s d := by
  rw [makeFixed_of_fixed found fixed]
  exact ⟨findEntry_modEntry_of_found found code_update, rfl, fun d ne => findEntry_modEntry_ne code_update ne⟩

/-- A LEARNED entry of the same identity is converted (R84). -/
theorem makeFixed_converts (found : findEntry s f.code = some e) (learned : e.origin = .learned)
    (same : sameIdentity e.place f.place = true) :
    findEntry (makeFixed f s) f.code = some (f.convert e) ∧ (makeFixed f s).dir.pool = s.dir.pool
      ∧ ∀ d, d ≠ f.code → findEntry (makeFixed f s) d = findEntry s d := by
  rw [makeFixed_of_learned found learned same]
  exact ⟨findEntry_modEntry_of_found found code_convert, rfl, fun d ne => findEntry_modEntry_ne code_convert ne⟩

/-- Where the pool does not hold the code of an entry, a proxy that gives way leaves nothing under it. -/
theorem findEntry_givenWay_self (found : findEntry s f.code = some e) (held : f.code ∉ s.dir.pool) :
    findEntry (givenWay f s) f.code = none := by
  rw [givenWay, findEntry_setFlag]
  cases code : proxyCode s with
  | some n => exact (displaceProxy_renumbered code found fun same => held (same ▸ mem_pool_of_proxyCode code)).1
  | none => exact (displaceProxy_removed code).1

/-- A LEARNED entry of another identity gives way to a new one (R84). -/
theorem makeFixed_displaces (found : findEntry s f.code = some e) (learned : e.origin = .learned)
    (other : sameIdentity e.place f.place = false) (held : f.code ∉ s.dir.pool) :
    findEntry (makeFixed f s) f.code = some f.entry
      ∧ ∀ d, d ≠ f.code → findEntry (makeFixed f s) d = findEntry (displaceProxy f.code s) d := by
  rw [makeFixed_of_other found learned other]
  refine ⟨findEntry_addEntry_self (e := f.entry) (findEntry_givenWay_self found held), fun d ne => ?_⟩
  rw [findEntry_addEntry_ne _ ne, givenWay, findEntry_setFlag]

/-- The request describes the entry that then stands under its code. -/
theorem findEntry_makeFixed (f : FixPlan) {s : State} (held : ∀ e, findEntry s f.code = some e → f.code ∉ s.dir.pool) :
    ∃ y, findEntry (makeFixed f s) f.code = some y ∧ f.Describes y := by
  cases found : findEntry s f.code with
  | none => exact ⟨_, (makeFixed_creates found).1, f.describes_entry⟩
  | some e =>
    have code := findEntry_code found
    cases origin : e.origin with
    | fixed => exact ⟨_, (makeFixed_updates found origin).1, FixPlan.describes_update code⟩
    | learned =>
      cases same : sameIdentity e.place f.place with
      | true => exact ⟨_, (makeFixed_converts found origin same).1, FixPlan.describes_convert code⟩
      | false => exact ⟨_, (makeFixed_displaces found origin same (held e found)).1, f.describes_entry⟩

/-- The pool after a proxy has given way to a new entry. -/
theorem pool_makeFixed_of_other (found : findEntry s f.code = some e) (learned : e.origin = .learned)
    (other : sameIdentity e.place f.place = false) (held : f.code ∉ s.dir.pool) :
    (∀ n, proxyCode s = some n → (makeFixed f s).dir.pool = s.dir.pool.filter (fun c => c != n))
      ∧ (proxyCode s = none → (makeFixed f s).dir.pool = s.dir.pool) := by
  have leaves : ∀ l : List DeskCode, l ⊆ s.dir.pool → l.filter (fun c => c != f.code) = l := fun l sub =>
    List.filter_eq_self.2 fun c mem => bne_iff_ne.2 fun same => held (same ▸ sub mem)
  have pool : (makeFixed f s).dir.pool = (displaceProxy f.code s).dir.pool.filter (fun c => c != f.code) := by
    rw [makeFixed_of_other found learned other, ← setFlag_dir .codeConflict 0 (some f.code) (displaceProxy f.code s)]
    rfl
  rw [pool]
  refine ⟨fun n code => ?_, fun code => ?_⟩
  · rw [displaceProxy_of_proxyCode code found]
    exact leaves (s.dir.pool.filter (fun c => c != n)) (List.filter_subset_self _)
  · have stands : (displaceProxy f.code s).dir.pool = s.dir.pool := by
      rw [displaceProxy_of_none code, State.dropEntry_dir_pool, (arbiterOnly_removeTicketsOf _ _ _).dir, setFlag_dir]
    rw [stands]
    exact leaves _ fun _ => id

/-- The flags of a proxy that gave way (R84). -/
theorem flags_makeFixed_of_other (found : findEntry s f.code = some e) (learned : e.origin = .learned)
    (other : sameIdentity e.place f.place = false) :
    (flagOf (makeFixed f s) .codeConflict 0).isSome = true
      ∧ (proxyCode s = none → (flagOf (makeFixed f s) .poolEmpty 0).isSome = true) := by
  have flags : ∀ k, flagOf (makeFixed f s) k 0 = flagOf (givenWay f s) k 0 := fun k => by
    rw [makeFixed_of_other found learned other]
    exact flagOf_congr rfl k 0
  rw [flags, flags, givenWay]
  refine ⟨isSome_flagOf_setFlag _ _ _ _, fun code => ?_⟩
  rw [flagOf_setFlag_ne (.inl (by decide))]
  exact (displaceProxy_removed code).2.2.2.1

/-! ## A station that moves (R86) -/

/-- The old entry of a station is gone, and its code in the pool (R86 step 1). -/
def vacated (old : DeskCode) (s : State) : State := ((renameRequester old setAside s).dropEntry old).toPool old

theorem moveStation_eq (f : FixPlan) (old : Entry) (s : State) : moveStation f old s =
    renameRequester setAside f.code ((makeFixed f (vacated old.code s)).modEntry f.code (Entry.takeOver old)) := rfl

theorem findEntry_moveStation (f : FixPlan) (old : Entry) (s : State) (d : DeskCode) : findEntry (moveStation f old s) d
    = findEntry ((makeFixed f (vacated old.code s)).modEntry f.code (Entry.takeOver old)) d := rfl

theorem findEntry_vacated_self (old : DeskCode) (s : State) : findEntry (vacated old s) old = none :=
  findEntry_dropEntry_self (renameRequester old setAside s) old

theorem findEntry_vacated_ne (old : DeskCode) (s : State) (ne : d ≠ old) : findEntry (vacated old s) d = findEntry s d :=
  findEntry_dropEntry_ne (renameRequester old setAside s) ne

theorem entriesOnly_moveStation (f : FixPlan) (old : Entry) (s : State) : EntriesOnly s (moveStation f old s) := by
  have left : EntriesOnly s (vacated old.code s) :=
    (arbiterOnly_renameRequester _ _ s).entriesOnly.trans (entriesOnly_dir _ _)
  rw [moveStation_eq]
  exact ((left.trans (entriesOnly_makeFixed f _)).trans (entriesOnly_dir _ _)).trans
    (arbiterOnly_renameRequester _ _ _).entriesOnly

/-- A station that has moved has the entry that the request describes, with what it takes over of its old one. -/
theorem moveStation_moves (h : InOrder False [] (vacated old.code s)) :
    findEntry (moveStation f old s) f.code = some (old.takeOver f.entry) := by
  obtain ⟨y, found, describes⟩ := findEntry_makeFixed f (s := vacated old.code s) fun e found pool => by
    rw [h.not_mem_of_pool pool] at found
    cases found
  rw [findEntry_moveStation, findEntry_modEntry_of_found (g := Entry.takeOver old) found fun _ => id, describes.takeOver old]

/-- A station that moves to a code that no entry had. -/
theorem moveStation_to_free (free : findEntry s f.code = none) (ne : old.code ≠ f.code) :
    (moveStation f old s).dir.pool = (s.dir.pool ++ [old.code]).filter (fun c => c != f.code)
      ∧ findEntry (moveStation f old s) old.code = none
      ∧ ∀ d, d ≠ f.code → d ≠ old.code → findEntry (moveStation f old s) d = findEntry s d := by
  obtain ⟨-, pool, others⟩ := makeFixed_creates ((findEntry_vacated_ne old.code s ne.symm).trans free)
  have stands : ∀ d, d ≠ f.code → findEntry (moveStation f old s) d = findEntry (vacated old.code s) d := fun d hd => by
    rw [findEntry_moveStation, findEntry_modEntry_ne (g := Entry.takeOver old) (fun _ => id) hd, others d hd]
  refine ⟨pool, ?_, fun d hd other => ?_⟩
  · rw [stands _ ne, findEntry_vacated_self]
  · rw [stands d hd, findEntry_vacated_ne old.code s other]

/-! ## The effect -/

/-- What ENTRY_FIX makes of a state in which its tests pass, before commissioning. -/
def entryFixed (f : FixPlan) (s : State) : State :=
  match elsewhere s f with
  | some old => moveStation f old s
  | none => makeFixed f s

theorem entryFixed_of_none (nowhere : elsewhere s f = none) : entryFixed f s = makeFixed f s := by
  simp only [entryFixed, nowhere]

theorem entryFixed_of_some (there : elsewhere s f = some old) : entryFixed f s = moveStation f old s := by
  simp only [entryFixed, there]

theorem entriesOnly_entryFixed (f : FixPlan) (s : State) : EntriesOnly s (entryFixed f s) := by
  unfold entryFixed
  split
  · exact entriesOnly_moveStation f _ s
  · exact entriesOnly_makeFixed f s

theorem fixEntry_of_passed {q : FixReq} (plan : q.plan = some f) (passed : fixRefusal s f = none) :
    fixEntry q s = done (commission (entryFixed f s)) := by
  simp only [fixEntry, plan, passed]
  rfl

theorem fixEntry_of_refused {q : FixReq} {st : Status} (plan : q.plan = some f) (refused : fixRefusal s f = some st) :
    fixEntry q s = refuse st s := by
  simp only [fixEntry, plan, refused]

/-- A request for an admin entry leaves one. -/
theorem hasAdmin_entryFixed (admin : f.admin = true) : hasAdmin (entryFixed f s) = true := by
  unfold entryFixed
  split
  · next old _ =>
    obtain ⟨y, mem, describes⟩ := exists_mem_makeFixed f (vacated old.code s)
    refine hasAdmin_iff.2 ⟨old.takeOver y, ?_, describes.isAdmin.trans admin⟩
    exact List.mem_map.2 ⟨y, mem, if_pos describes.1⟩
  · obtain ⟨y, mem, describes⟩ := exists_mem_makeFixed f s
    exact hasAdmin_iff.2 ⟨y, mem, describes.isAdmin.trans admin⟩

/-- The entry that holds the station ID of a request under another code. -/
theorem elsewhere_found (there : elsewhere s f = some old) :
    old.code ≠ f.code ∧ ∃ x, f.starId? = some x ∧ indexEntry s x = some old := by
  obtain ⟨found, ne⟩ := (Option.filter_eq_some_iff).1 there
  obtain ⟨x, id, index⟩ := Option.bind_eq_some_iff.1 found
  exact ⟨bne_iff_ne.1 ne, x, id, index⟩

/-- Such an entry is LEARNED where the tests pass. -/
theorem elsewhere_learned (there : elsewhere s f = some old) (clear : fixIdFixed s f = false) : old.origin = .learned := by
  obtain ⟨ne, x, id, index⟩ := elsewhere_found there
  cases origin : old.origin with
  | learned => rfl
  | fixed =>
    have held : (s.dir.entries.any fun e => e.code != f.code && decide (e.origin = .fixed) && e.starId? == f.starId?)
        = true := by
      refine List.any_eq_true.2 ⟨old, List.mem_of_find?_eq_some index, ?_⟩
      simp [ne, origin, id, starId?_of_indexEntry index]
    rw [fixIdFixed, held, id] at clear
    cases clear

/-- A station's LEARNED entry leaves the directory in order. -/
theorem InOrder.after_vacated {P : Prop} (h : InOrder P [] s) (found : findEntry s c = some e)
    (learned : e.origin = .learned) : InOrder P [] (vacated c s) :=
  (h.after_renameRequester.after_dropEntry_learned (c := c) (e := e) found learned).after_toPool

end

end Sys2Proof.Machine
end

