-- ==== Sys2Proof/Proofs/EntryFixed.lean ====
section
/-!
The obligation on ENTRY_FIX: the request is refused by the first test that holds, or leaves the directory as R83 to R86 say,
completes the conditions of commissioning (R206), and changes nothing else but by the Print Arbiter's share.
-/

namespace Sys2Proof.Machine

/-! ## The request -/

section
variable {s : State} {e : InputEntry} {tag : BitVec 16} {params : List Byte} {f : FixReq} (asks : Asks s e 9#8 tag params)
  (free : Free s e) (parsed : parseFix params = some f)
include asks free parsed

theorem exec_entryFix {reply : Reply} (comes : fixEntry f (takeControl e s) = reply) :
    exec .entryFix s = .next (answered e 9#8 tag reply.status reply.results (settle s reply.state)) :=
  exec_of_effect asks free.1 (mine := isOp 9) (parse := parseFix) (held := alwaysHeld) (effect := fixEntry) rfl rfl parsed
    (.inr free.2) comes

/-- A request that is refused changes nothing but that it is taken and answered. -/
theorem exec_entryFix_refused {st : Status} (comes : fixEntry f (takeControl e s) = refuse st (takeControl e s)) :
    exec .entryFix s = .next (answered e 9#8 tag st [] (takeControl e s)) := by
  rw [exec_entryFix asks free parsed comes]
  exact congrArg (fun x => Host.Outcome.next (answered e 9#8 tag st [] x)) (settle_eq_self rfl rfl fun _ => rfl)

end

/-! ## Commissioning -/

/-- Commissioning sets no flag (R198). -/
theorem flagOf_commission (s : State) (k : AlertKind) (i : Nat) : flagOf (commission s) k i = flagOf s k i := by
  unfold commission
  split
  · obtain ⟨a, backlog, -, flags⟩ := raiseBacklog_eq
      { s with
        ctl := { s.ctl with commissioned := true },
        sup := { s.sup with
          ports := s.sup.ports.map (fun r => if r.state = .openMode then { r with state := .active } else r) } }
    rw [backlog]
    exact flagOf_congr flags k i
  · rfl

theorem commission_dir (s : State) : (commission s).dir = s.dir := by
  obtain ⟨-, -, dir, -⟩ := planStands_commission s
  exact dir

/-- A bridge that is commissioned, or lacks a plan, is not commissioned now (R206). -/
theorem commission_of_unready {s : State}
    (unready : s.ctl.commissioned = true ∨ s.ctl.officeMark = false ∨ s.ctl.trunkMark = false) : commission s = s := by
  refine if_neg ?_
  rcases unready with h | h | h <;> simp [h]

theorem commission_of_ready {s : State} (office : s.ctl.officeMark = true) (trunk : s.ctl.trunkMark = true)
    (admin : hasAdmin s = true) : (commission s).ctl.commissioned = true := by
  obtain ⟨a, e⟩ := commission_eq s
  rw [e, commissionable, office, trunk, admin]
  exact Bool.or_true _

/-! ## What the request leaves -/

section
variable {s u : State} {f : FixPlan} {x old : Entry}

/-- The entry of the same identity that a request leaves (R84, R85, R96): converted and refreshed if it was LEARNED and in
use, and otherwise with its presence remaining held at the new limit. -/
def FixPlan.renewed (f : FixPlan) (x : Entry) : Entry :=
  { x with
    place := match f.place with
      | .trunk t => .trunk t
      | .star _ _ => x.place,
    origin := .fixed, admin := f.admin, printerQueue := f.queue, costCentre := f.costCentre, printClass := f.printClass,
    presenceLimit := f.limit, state := if x.origin = .learned ∧ x.inUse = true then .active else x.state,
    presenceRemaining := if x.origin = .learned ∧ x.inUse = true then f.limit else min x.presenceRemaining f.limit }

/-- The home of an entry of the same identity: the requested segment, or the home it has (R85). -/
theorem rehome_of_same (same : sameIdentity x.place f.place = true) : f.rehome x.place = (f.renewed x).place := by
  unfold FixPlan.rehome FixPlan.renewed
  cases hx : x.place <;> cases hf : f.place <;> simp_all [sameIdentity]

theorem update_of_same (same : sameIdentity x.place f.place = true) (fixed : x.origin = .fixed) :
    f.update x = f.renewed x := by
  rw [FixPlan.update, if_pos same, rehome_of_same same]
  simp [FixPlan.attributes, FixPlan.renewed, fixed]

theorem convert_of_same (same : sameIdentity x.place f.place = true) (learned : x.origin = .learned) :
    f.convert x = f.renewed x := by
  simp only [FixPlan.convert, rehome_of_same same]
  split
  · next use => simp [FixPlan.attributes, FixPlan.renewed, Entry.refreshed, learned, use]
  · next idle => simp [FixPlan.attributes, FixPlan.renewed, learned, idle]

theorem update_of_other (other : sameIdentity x.place f.place = false) : f.update x = f.entry := by
  rw [FixPlan.update, if_neg (Bool.eq_false_iff.1 other)]

/-- An entry of the same identity, of either origin. -/
theorem makeFixed_of_same (found : findEntry s f.code = some x) (same : sameIdentity x.place f.place = true) :
    findEntry (makeFixed f s) f.code = some (f.renewed x) ∧ (makeFixed f s).dir.pool = s.dir.pool
      ∧ ∀ d, d ≠ f.code → findEntry (makeFixed f s) d = findEntry s d := by
  cases origin : x.origin with
  | fixed => exact update_of_same same origin ▸ makeFixed_updates found origin
  | learned => exact convert_of_same same origin ▸ makeFixed_converts found origin same

/-- A proxy that gives way, by whether there is a code for it (R84). -/
theorem makeFixed_of_proxy (found : findEntry s f.code = some x) (learned : x.origin = .learned)
    (other : sameIdentity x.place f.place = false) (held : f.code ∉ s.dir.pool) :
    findEntry (makeFixed f s) f.code = some f.entry ∧ (flagOf (makeFixed f s) .codeConflict 0).isSome = true
      ∧ (∀ n, proxyCode s = some n → findEntry s n = none →
        findEntry (makeFixed f s) n = some { x with code := n }
        ∧ (makeFixed f s).dir.pool = s.dir.pool.filter (fun c => c != n)
        ∧ ∀ d, d ≠ f.code → d ≠ n → findEntry (makeFixed f s) d = findEntry s d)
      ∧ (proxyCode s = none → (flagOf (makeFixed f s) .poolEmpty 0).isSome = true
        ∧ (makeFixed f s).dir.pool = s.dir.pool ∧ ∀ d, d ≠ f.code → findEntry (makeFixed f s) d = findEntry s d) := by
  obtain ⟨made, others⟩ := makeFixed_displaces found learned other held
  obtain ⟨conflict, empty⟩ := flags_makeFixed_of_other found learned other
  obtain ⟨taken, kept⟩ := pool_makeFixed_of_other found learned other held
  refine ⟨made, conflict, fun n code clear => ?_, fun code => ⟨empty code, kept code, fun d ne => ?_⟩⟩
  · have apart : n ≠ f.code := fun same => held (same ▸ mem_pool_of_proxyCode code)
    obtain ⟨-, -, renumbered, stand, -⟩ := displaceProxy_renumbered code found apart
    refine ⟨?_, taken n code, fun d ne hn => ?_⟩
    · rw [others n apart, renumbered clear]
    · rw [others d ne, stand d ne hn]
  · obtain ⟨-, -, stand, -⟩ := displaceProxy_removed (c := f.code) code
    rw [others d ne, stand d ne]

/-- A station's entry under another code leaves it, where the tests pass and codes are apart (R86). -/
theorem inOrder_vacated (apart : CodesApart s) (there : elsewhere s f = some old) (clear : fixIdFixed s f = false) :
    InOrder False [] (vacated old.code s) := by
  have h : InOrder False [] s := inOrder_nil_iff.2 ⟨apart, False.elim⟩
  obtain ⟨-, x, -, index⟩ := elsewhere_found there
  exact h.after_vacated (findEntry_of_indexEntry index h.apart) (elsewhere_learned there clear)

/-- The control marks stand where only entries change. -/
theorem EntriesOnly.marks (h : EntriesOnly s u) : u.ctl = { s.ctl with answerLost := u.ctl.answerLost } := by
  obtain ⟨-, -, -, -, -, -, ctl⟩ := (trafficOnly_iff _ _).1 h.traffic
  exact ctl

/-- What a request whose tests pass leaves beside the directory, after commissioning and the arbiter's share. -/
theorem entryFixed_share (share : ArbiterOnly (commission (entryFixed f s)) u) :
    (s.ctl.officeMark = true → s.ctl.trunkMark = true → f.admin = true → u.ctl.commissioned = true)
      ∧ (s.ctl.commissioned = true ∨ s.ctl.officeMark = false ∨ s.ctl.trunkMark = false →
        ArbiterOnly { s with dir := u.dir } u) := by
  have only := entriesOnly_entryFixed f s
  have marks := only.marks
  obtain ⟨-, -, -, -, -, -, -, -, -, -, -, ctl, -⟩ := (arbiterOnly_iff _ _).1 share
  refine ⟨fun office trunk admin => ?_, fun unready => ?_⟩
  · rw [ctl]
    exact commission_of_ready (by rw [marks]; exact office) (by rw [marks]; exact trunk) (hasAdmin_entryFixed admin)
  · rw [commission_of_unready (by rw [marks]; exact unready)] at share
    exact only.trans share.entriesOnly

end

/-- Settles O34, test by test and then by what stands under the requested code. -/
theorem entryFixCreates : Obligations.EntryFixCreates := by
  intro e tag params f s asks free parsed refused
  have refuses : ∀ {st}, fixEntry f (takeControl e s) = refuse st (takeControl e s) → refused st :=
    fun comes => exec_entryFix_refused asks free parsed comes
  refine ⟨fun noPlan => refuses (by simp only [fixEntry, noPlan]), fun pl plan => ?_⟩
  intro badId clash created
  have bad : (pl.starId?.map (fixIdBad (takeControl e s))).getD false = true ↔ badId := fixIdBad_iff
  refine ⟨fun hb => refuses (fixEntry_of_refused plan (fixRefusal_of_badId (bad.2 hb))), fun good hc =>
    refuses (fixEntry_of_refused plan ((fixRefusal_of_goodId (mt bad.1 good)).1 hc)), fun good clear => ?_⟩
  have passed := (fixRefusal_of_goodId (mt bad.1 good)).2 clear
  have share := arbiterOnly_answered (e := e) (op := 9#8) (tag := tag) .done [] s
    (commission (entryFixed pl (takeControl e s)))
  have flags : ∀ k : AlertKind, k.apartFromPrint → flagOf (answered e 9#8 tag .done [] (settle s
      (commission (entryFixed pl (takeControl e s))))) k 0 = flagOf (entryFixed pl (takeControl e s)) k 0 := fun k hk =>
    (flagOf_answered hk 0 .done [] s _).trans (flagOf_commission _ k 0)
  refine ⟨_, exec_entryFix asks free parsed (fixEntry_of_passed plan passed), ?_⟩
  simp only [done]
  generalize answered _ _ _ _ _ _ = u at share flags ⊢
  have dir : u.dir = (entryFixed pl (takeControl e s)).dir := share.dir.trans (commission_dir _)
  have entries : ∀ d, findEntry u d = findEntry (entryFixed pl (takeControl e s)) d :=
    findEntry_congr (congrArg Directory.entries dir)
  have made : elsewhere s pl = none → entryFixed pl (takeControl e s) = makeFixed pl (takeControl e s) :=
    fun nowhere => entryFixed_of_none (s := takeControl e s) nowhere
  have marks := entryFixed_share share
  simp only [entries, dir, flags .codeConflict ⟨by decide, by decide⟩, flags .poolEmpty ⟨by decide, by decide⟩]
  refine ⟨fun none nowhere => ?_, fun x found nowhere => ?_, fun old there apart => ?_, marks.1,
    fun unready => dir ▸ marks.2 unready⟩
  · rw [made nowhere]
    exact makeFixed_creates (s := takeControl e s) none
  · rw [made nowhere]
    refine ⟨fun same => makeFixed_of_same (s := takeControl e s) found same, fun other fixed => ?_, fun other learned held =>
      makeFixed_of_proxy (s := takeControl e s) found learned other held⟩
    have update := makeFixed_updates (s := takeControl e s) found fixed
    rw [update_of_other other] at update
    exact update
  · have order : InOrder False [] (vacated old.code (takeControl e s)) :=
      inOrder_vacated (s := takeControl e s) apart there (by
        cases h : fixIdFixed s pl with
        | true => exact absurd (.inr (.inl h)) clear
        | false => exact h)
    rw [entryFixed_of_some (s := takeControl e s) there]
    exact ⟨moveStation_moves order, fun none => moveStation_to_free (s := takeControl e s) none
      (elsewhere_found there).1⟩

end Sys2Proof.Machine
end

