-- ==== Sys2Proof/Proofs/DirectoryRequests.lean ====
section
/-!
Requests, print messages and resets keep the directory in order (R70, R87). The requests on entries move codes; a SAVE copies
the FIXED entries and a reset loads such a copy; the other requests and the print messages leave the directory.
-/

namespace Sys2Proof.Machine

section
variable {P : Prop} {s : State} {f : FixPlan} {old : Entry}

/-! ## How a request is taken -/

theorem InOrder.after_takeControl {e : InputEntry} (h : InOrder P [] s) : InOrder P [] (takeControl e s) := h.same rfl

theorem InOrder.after_sendControl {route : Route} {payload : List Byte} (h : InOrder P [] s) :
    InOrder P [] (sendControl route payload s) := h.after_sends (onlySends_sendControl route payload s)

theorem InOrder.after_settle {before : State} (h : InOrder P [] s) : InOrder P [] (settle before s) :=
  h.after_arbiter (arbiterOnly_settle before s)

theorem InOrder.after_answerRequest {before : State} {q : Request} {route : Route} {reply : Reply}
    (h : InOrder P [] reply.state) : InOrder P [] (answerRequest before q route reply) :=
  h.after_arbiter (arbiterOnly_answerRequest before q route reply)

/-- The stages of a request keep the order if its effect does. -/
theorem InOrder.after_stages {α : Type} {read : Bool} {held : α → State → Bool} {params : Option α}
    {effect : α → State → Reply} {route : Route} (h : InOrder P [] s) (he : ∀ a, InOrder P [] (effect a s).state) :
    InOrder P [] (stages read held params effect route s).state := by
  unfold stages
  split
  · exact h
  · split
    · exact h.same rfl
    · split
      · exact h.same rfl
      · exact he _

/-- A request whose parameters are judged by its stages keeps the order if its effect does. -/
theorem InOrder.after_staged {α : Type} {mine : Request → Bool} {read : Bool} {held : α → State → Bool}
    {parse : Request → Option α} {effect : α → State → Reply} (h : InOrder P [] s)
    (he : ∀ a x, InOrder P [] x → InOrder P [] (effect a x).state) :
    InOrder P [] (request mine (fun q route => stages read held (parse q) effect route) s) := by
  unfold request
  split
  · exact h
  · split
    · exact h
    · split
      · exact (h.after_takeControl.after_stages fun a => he a _ h.after_takeControl).after_answerRequest
      · exact h

theorem InOrder.after_withPort {b : Byte} {g : PortNo → Reply} (h : InOrder P [] s)
    (hg : ∀ q, InOrder P [] (g q).state) : InOrder P [] (withPort b s g).state := by
  unfold withPort
  split
  · exact hg _
  · exact h

theorem InOrder.after_withQueue {b : Byte} {g : QueueNo → Reply} (h : InOrder P [] s)
    (hg : ∀ q, InOrder P [] (g q).state) : InOrder P [] (withQueue b s g).state := by
  unfold withQueue
  split
  · exact hg _
  · exact h

theorem InOrder.after_withConfigured {b : Byte} {g : QueueNo → Reply} (h : InOrder P [] s)
    (hg : ∀ q, InOrder P [] (g q).state) : InOrder P [] (withConfigured b s g).state :=
  h.after_withQueue fun q => by
    split
    · exact hg q
    · exact h

theorem InOrder.after_withEntry {c : Byte} {g : Entry → Reply} (h : InOrder P [] s)
    (hg : ∀ e, findEntry s c = some e → InOrder P [] (g e).state) : InOrder P [] (withEntry c s g).state := by
  unfold withEntry
  split
  · split
    · next found => exact hg _ found
    · exact h
  · exact h

/-! ## Requests on entries (R83 to R91) -/

/-- A bridge is commissioned only with an admin entry (R206). -/
theorem InOrder.after_commission (h : InOrder P [] s) : InOrder P [] (commission s) := by
  obtain ⟨a, eq⟩ := commission_eq s
  rw [eq]
  refine ⟨h.codes, h.stored, h.saved, fun p com => ?_⟩
  rcases Bool.or_eq_true_iff.1 com with was | now
  · exact h.admin p was
  · exact (Bool.and_eq_true_iff.1 now).2

/-- An admin entry that is not the only one has another beside it. -/
theorem spare_of_not_onlyAdmin {c : DeskCode} (admin : hasAdmin s = true) (more : onlyAdmin s c = false) :
    ∃ x ∈ s.dir.entries, x.code ≠ c ∧ x.isAdmin = true := by
  obtain ⟨x, mem, admin⟩ := hasAdmin_iff.1 admin
  by_cases here : x.code = c
  · have one : (s.dir.entries.any fun e => e.code == c && e.isAdmin) = true :=
      List.any_eq_true.2 ⟨x, mem, by simp [here, admin]⟩
    rw [onlyAdmin, one, Bool.true_and, Bool.not_eq_false'] at more
    simpa using more
  · exact ⟨x, mem, here, admin⟩

/-- The request describes an admin entry, or there is another one. -/
def FixPlan.LeavesAdmin (f : FixPlan) (s : State) : Prop :=
  f.admin = true ∨ ∃ x ∈ s.dir.entries, x.code ≠ f.code ∧ x.isAdmin = true

/-- An entry changed to one that the request describes. -/
theorem InOrder.after_modFixed {e : Entry} {g : Entry → Entry} (h : InOrder P [] s) (found : findEntry s f.code = some e)
    (hg : ∀ y, y.code = f.code → f.Describes (g y))
    (spare : s.ctl.commissioned = true → hasAdmin s = true → f.LeavesAdmin s) :
    InOrder P [] (s.modEntry f.code g) := by
  have codes : (s.modEntry f.code g).dir.entries.map Entry.code = s.dir.entries.map Entry.code := by
    rw [State.modEntry, List.map_map]
    refine List.map_congr_left fun y _ => ?_
    rw [Function.comp_apply]
    split
    · next here => exact (hg y here).1.trans here.symm
    · rfl
  refine h.moved (by rw [codes]; exact .refl _) rfl fun com admin => hasAdmin_iff.2 ?_
  rcases spare com admin with admin | ⟨x, mem, ne, admin⟩
  · have code := findEntry_code found
    exact ⟨g e, List.mem_map.2 ⟨e, mem_of_findEntry found, if_pos code⟩, (hg e code).isAdmin.trans admin⟩
  · exact ⟨x, mem_modEntry_of_ne mem ne, admin⟩

theorem InOrder.after_makeFixed (h : InOrder P [] s) (desk : isDesk f.code = true)
    (spare : s.ctl.commissioned = true → hasAdmin s = true → f.LeavesAdmin s) : InOrder P [] (makeFixed f s) := by
  cases found : findEntry s f.code with
  | none =>
    rw [makeFixed_of_none found]
    exact h.after_addEntry_free (e := f.entry) desk found
  | some e =>
    cases origin : e.origin with
    | fixed =>
      rw [makeFixed_of_fixed found origin]
      exact h.after_modFixed found (fun _ => FixPlan.describes_update) spare
    | learned =>
      cases same : sameIdentity e.place f.place with
      | true =>
        rw [makeFixed_of_learned found origin same]
        exact h.after_modFixed found (fun _ => FixPlan.describes_convert) spare
      | false =>
        rw [makeFixed_of_other found origin same]
        exact (h.after_displaceProxy found origin).after_setFlag.after_addEntry (e := f.entry)

/-- A station moves; no admin entry is among those that change, for its old entry is LEARNED (R86). -/
theorem InOrder.after_moveStation (h : InOrder P [] s) (desk : isDesk f.code = true)
    (spare : s.ctl.commissioned = true → hasAdmin s = true → f.LeavesAdmin s) (found : findEntry s old.code = some old)
    (learned : old.origin = .learned) : InOrder P [] (moveStation f old s) := by
  have left : InOrder P [] (vacated old.code s) := h.after_vacated found learned
  have spare' : (vacated old.code s).ctl.commissioned = true → hasAdmin (vacated old.code s) = true →
      f.LeavesAdmin (vacated old.code s) := fun com admin => by
    obtain ⟨a, mem, admin⟩ := hasAdmin_iff.1 admin
    have there : hasAdmin s = true := hasAdmin_iff.2 ⟨a, List.mem_of_mem_filter mem, admin⟩
    exact (spare com there).imp_right fun ⟨x, mem, ne, admin⟩ =>
      have other := code_ne_of_learned h.apart (mem_of_findEntry found) learned mem admin
      ⟨x, mem_dropEntry.2 ⟨mem, other⟩, ne, admin⟩
  rw [moveStation_eq]
  exact ((left.after_makeFixed desk spare').after_modEntry (f := Entry.takeOver old)
    fun _ => ⟨rfl, rfl⟩).after_renameRequester

/-- Where the tests pass, none of tests 3 to 8 of Table 4-7 refuses. -/
theorem not_fixClash_of_passed (passed : fixRefusal s f = none) : ¬ FixClash s f := fun clash => by
  by_cases bad : (f.starId?.map (fixIdBad s)).getD false = true
  · rw [fixRefusal_of_badId bad] at passed
    cases passed
  · rw [(fixRefusal_of_goodId bad).1 clash] at passed
    cases passed

theorem leavesAdmin_of_passed (passed : fixRefusal s f = none) (com : s.ctl.commissioned = true)
    (admin : hasAdmin s = true) : f.LeavesAdmin s := by
  have clear := not_fixClash_of_passed passed
  simp only [FixClash, not_or, not_and, Bool.not_eq_false] at clear
  obtain ⟨-, -, -, -, -, kept⟩ := clear
  cases only : onlyAdmin s f.code with
  | true => exact .inl (kept com only)
  | false => exact .inr (spare_of_not_onlyAdmin admin only)

theorem InOrder.after_entryFixed (h : InOrder P [] s) (desk : isDesk f.code = true) (passed : fixRefusal s f = none) :
    InOrder P [] (entryFixed f s) := by
  have clear := not_fixClash_of_passed passed
  unfold entryFixed
  split
  · next old there =>
    obtain ⟨-, x, -, index⟩ := elsewhere_found there
    exact h.after_moveStation desk (leavesAdmin_of_passed passed) (findEntry_of_indexEntry index h.apart)
      (elsewhere_learned there (Bool.eq_false_iff.2 fun fixed => clear (.inr (.inl fixed))))
  · exact h.after_makeFixed desk (leavesAdmin_of_passed passed)

theorem InOrder.after_fixEntry {q : FixReq} (h : InOrder P [] s) : InOrder P [] (fixEntry q s).state := by
  cases plan : q.plan with
  | none =>
    simp only [fixEntry, plan]
    exact h
  | some f =>
    cases passed : fixRefusal s f with
    | some st =>
      rw [fixEntry_of_refused plan passed]
      exact h
    | none =>
      rw [fixEntry_of_passed plan passed]
      exact (h.after_entryFixed (isDesk_of_plan plan) passed).after_commission

/-- The only admin entry of a commissioned bridge is not released (R87, R88). -/
theorem InOrder.after_releaseEntry {c : Byte} (h : InOrder P [] s) : InOrder P [] (releaseEntry c s).state := by
  refine h.after_withEntry fun e found => ?_
  split
  · exact h
  · split
    · exact h
    · next kept =>
      have spare : s.ctl.commissioned = true → hasAdmin s = true → ∃ x ∈ s.dir.entries, x.code ≠ c ∧ x.isAdmin = true :=
        fun com admin => spare_of_not_onlyAdmin admin (by simpa [com] using kept)
      have share := arbiterOnly_removeTicketsOf .tell c s
      obtain ⟨-, -, -, -, -, -, dir, -, -, -, -, ctl, -⟩ := (arbiterOnly_iff _ _).1 share
      have removed : InOrder P [c] (removeKeepingCode .tell c s) := by
        refine (h.after_arbiter share).after_dropEntry ((findEntry_removeTicketsOf .tell c s c).trans found) ?_
        rw [hasAdmin, dir, ctl]
        exact spare
      exact removed.after_toPool

/-- The codes of the LEARNED entries stand at the end of the pool, those of the FIXED ones with their entries (R91). -/
theorem perm_codes_clearLearned (s : State) :
    ((s.dir.entries.filter (fun x => decide (x.origin = .fixed))).map Entry.code ++ (s.dir.pool ++ learnedCodes s)).Perm
      (s.dir.entries.map Entry.code ++ s.dir.pool) := by
  have learned : s.dir.entries.filter (fun x => decide (x.origin = .learned))
      = s.dir.entries.filter (fun x => !decide (x.origin = .fixed)) :=
    List.filter_congr fun x _ => by cases x.origin <;> rfl
  have parts := (List.filter_append_perm (fun x : Entry => decide (x.origin = .fixed)) s.dir.entries).map Entry.code
  rw [List.map_append, ← learned] at parts
  refine (List.perm_append_comm.append_left _).trans ?_
  rw [← List.append_assoc]
  exact parts.append_right _

/-- The FIXED entries stay, and the admin entry is one of them (R91). -/
theorem InOrder.after_clearLearned (h : InOrder P [] s) : InOrder P [] (clearLearned s).state := by
  refine InOrder.after_arbiter (h.moved ?_ ?_ fun _ admin => ?_) (arbiterOnly_clearLearned h.apart)
  · exact perm_codes_clearLearned s
  · rfl
  · obtain ⟨x, mem, admin⟩ := hasAdmin_iff.1 admin
    exact hasAdmin_iff.2 ⟨x, List.mem_filter.2 ⟨mem, decide_eq_true (fixed_of_isAdmin admin)⟩, admin⟩

theorem InOrder.after_resumeEntry {c : Byte} (h : InOrder P [] s) : InOrder P [] (resumeEntry c s).state := by
  refine h.after_withEntry fun e _ => ?_
  simp only [done]
  split
  · exact h
  · exact h.after_modEntry fun _ => ⟨rfl, rfl⟩

/-! ## Requests on ports, printers, accounts and alerts -/

theorem InOrder.after_setEnable {x : Byte × Bool} (h : InOrder P [] s) : InOrder P [] (setEnable x s).state := by
  refine h.after_withPort fun q => ?_
  have written : InOrder P [] (writeEnable q x.2 s) := by
    unfold writeEnable
    split <;> exact h.same rfl
  exact written.after_channel (channelOnly_actOnEnable q _ _ _)

theorem InOrder.after_forceIsolate {b : Byte} (h : InOrder P [] s) : InOrder P [] (forceIsolate b s).state := by
  refine h.after_withPort fun q => ?_
  split
  · exact h
  · exact h
  all_goals exact h.after_channel (channelOnly_holdByOrder q s)

theorem InOrder.after_forceReadmit {b : Byte} (h : InOrder P [] s) : InOrder P [] (forceReadmit b s).state := by
  refine h.after_withPort fun q => ?_
  split
  · exact h
  · exact h.after_channel (channelOnly_readmitByOrder q s)
  · exact h.after_channel (channelOnly_readmitByOrder q s)
  · exact h.after_channel (channelOnly_readmitByOrder q s)
  · exact h
  · exact h

theorem InOrder.after_acceptOffice {p : OfficePlan} (h : InOrder P [] s) : InOrder P [] (acceptOffice p s).state := by
  unfold acceptOffice
  split
  · exact h
  · have start : InOrder P [] { s with office := p, ctl := { s.ctl with officeMark := true } } := h.same rfl
    simp only [done]
    exact (start.after_foldl fun x _ hx => hx.after_channel (channelOnly_actOnEnable _ _ _ x)).after_commission

theorem InOrder.after_acceptTrunk {p : TrunkReq} (h : InOrder P [] s) : InOrder P [] (acceptTrunk p s).state := by
  have start : InOrder P [] { s with segPlans := p.plans, ctl := { s.ctl with trunkMark := true } } := h.same rfl
  simp only [acceptTrunk, done]
  have staged := start.after_foldl (l := List.finRange 4) fun x t hx =>
    hx.same (t := x.modPort (portOfSeg t) (PortRec.stage p.settings)) rfl
  exact (staged.after_foldl fun x _ hx => hx.after_channel (channelOnly_actOnEnable _ _ _ x)).after_commission

theorem InOrder.after_modPrinter {q : QueueNo} {g : Printer → Printer} (h : InOrder P [] s) :
    InOrder P [] (s.modPrinter q g) := h.same rfl

theorem InOrder.after_selectAll (h : InOrder P [] s) : InOrder P [] (selectAll s) :=
  h.after_arbiter (arbiterOnly_selectAll s)

theorem InOrder.after_enableQueue {q : QueueNo} {old new : Bool} (h : InOrder P [] s) :
    InOrder P [] (enableQueue q old new s) := by
  unfold enableQueue
  split
  · exact h.after_modPrinter.after_arbiter (arbiterOnly_removeQueueTickets q _)
  all_goals exact h.same rfl

theorem InOrder.after_setPrinter {p : PrinterReq} (h : InOrder P [] s) : InOrder P [] (setPrinter p s).state := by
  refine h.after_withQueue fun q => ?_
  split
  · exact h
  · simp only [done]
    exact h.after_modPrinter.after_enableQueue.after_selectAll

theorem InOrder.after_cancelTicket {x : Byte × Byte} (h : InOrder P [] s) : InOrder P [] (cancelTicket x s).state := by
  refine h.after_withQueue fun q => ?_
  split
  · exact h
  · next t _ =>
    simp only [done]
    refine InOrder.after_selectAll ?_
    split
    · exact h.after_arbiter (arbiterOnly_abandonAndTell q t s)
    · exact h.after_arbiter (arbiterOnly_cancelWaiting .tell q t s)

theorem InOrder.after_formLoaded {x : Byte × Byte} (h : InOrder P [] s) : InOrder P [] (formLoaded x s).state := by
  refine h.after_withConfigured fun q => ?_
  simp only [done]
  exact h.after_modPrinter.after_selectAll

theorem InOrder.after_purgeQueue {b : Byte} (h : InOrder P [] s) : InOrder P [] (purgeQueue b s).state := by
  refine h.after_withConfigured fun q => ?_
  simp only [doneWith]
  exact (h.after_arbiter (arbiterOnly_removeQueueTickets q s)).after_selectAll

theorem InOrder.after_setAlerts {c : AlertConfig} (h : InOrder P [] s) : InOrder P [] (setAlerts c s).state := by
  unfold setAlerts
  split
  · exact h
  · exact h.same rfl

theorem InOrder.after_clearAlerts {items : List (AlertKind × Byte)} (h : InOrder P [] s) :
    InOrder P [] (clearAlerts items s).state := by
  unfold clearAlerts
  split
  · exact h
  · exact h.same rfl

theorem InOrder.after_readSegment {edges : Nat} {b : Byte} (h : InOrder P [] s) :
    InOrder P [] (readSegment edges b s).state := by
  unfold readSegment
  split
  · exact h
  · split
    · exact h.same rfl
    · exact h

theorem InOrder.after_readPort {bytes : List Byte} {b : Byte} (h : InOrder P [] s) :
    InOrder P [] (readPort bytes b s).state := by
  unfold readPort
  split
  · exact h
  · split
    · exact h
    · simp only [noteBytes]
      split
      · exact h.same rfl
      · exact h

theorem InOrder.after_unknownOperation (h : InOrder P [] s) : InOrder P [] (unknownOperation s) := by
  unfold unknownOperation
  split
  · exact h
  · split
    · exact h.same rfl
    · split
      · exact h
      · exact InOrder.after_answerRequest h.after_takeControl

/-! ## SAVE (R173 to R175) -/

/-- The entries that a SAVE copies are FIXED ones of the directory, in its order. -/
theorem sublist_codes_stored (l : List Entry) :
    ((l.filterMap Entry.stored).map FixedEntry.code).Sublist (l.map Entry.code) := by
  induction l with
  | nil => exact .refl _
  | cons e l ih =>
    cases origin : e.origin with
    | learned =>
      rw [List.filterMap_cons_none (by simp only [Entry.stored, origin])]
      exact ih.cons _
    | fixed =>
      have kept : ∃ f, e.stored = some f ∧ f.code = e.code := by
        simp only [Entry.stored, origin]
        exact ⟨_, rfl, rfl⟩
      obtain ⟨f, stored, code⟩ := kept
      rw [List.filterMap_cons_some stored, List.map_cons, List.map_cons, code]
      exact ih.cons_cons _

theorem InOrder.storedCodes_currentConfig (h : InOrder P [] s) : StoredCodes (currentConfig s) := by
  have codes := sublist_codes_stored s.dir.entries
  refine ⟨h.apart.sublist codes, fun f mem => mem_deskCodes.1 (h.codes.subset ?_)⟩
  exact List.mem_append_right [] (List.mem_append_left _ (codes.subset (List.mem_map_of_mem mem)))

theorem InOrder.after_startSave {tag : BitVec 16} {route : Route} (h : InOrder P [] s) :
    InOrder P [] (startSave tag route s) := by
  have copied := h.storedCodes_currentConfig
  refine ⟨h.codes, fun c content => ?_, fun v saving => ?_, h.admin⟩
  · cases content
    exact copied
  · cases saving
    exact copied

theorem InOrder.after_takeSave (h : InOrder P [] s) : InOrder P [] (takeSave s) := by
  unfold takeSave
  split
  · exact h
  · next e _ _ =>
    split
    · exact h
    · next q _ =>
      split
      · have staged : InOrder P [] (stages false alwaysHeld (noParams q.params)
            (fun _ s => done (startSave q.tag e.route s)) e.route (takeControl e s)).state :=
          h.after_takeControl.after_stages fun _ => h.after_takeControl.after_startSave
        simp only
        split
        · exact staged
        · exact staged.after_answerRequest
      · exact h

theorem InOrder.after_completeSave {verified : Bool} (h : InOrder P [] s) : InOrder P [] (completeSave verified s) := by
  unfold completeSave
  split
  · exact h
  · next v saving =>
    have copied := h.saved v saving
    have ended : InOrder P [] { s with ctl := { s.ctl with save := none } } := ⟨h.codes, h.stored, nofun, h.admin⟩
    simp only
    split
    · refine InOrder.after_sendControl ⟨h.codes, fun c content => ?_, nofun, h.admin⟩
      cases content
      exact copied
    · exact ended.after_setFlag.after_sendControl

/-! ## Print messages (Section 7.4) -/

theorem InOrder.after_handleOpen {q : QueueNo} {form : Fin 16} {label : List Byte} {route : Route} (h : InOrder P [] s) :
    InOrder P [] (handleOpen q form label route s) := by
  unfold handleOpen
  split
  · refine InOrder.after_sends ?_ (onlySends_sendAnswer ..)
    refine InOrder.after_arbiter ?_ (arbiterOnly_selectFor ..)
    exact h.same rfl
  · exact h
  · refine InOrder.after_selectAll (InOrder.after_sends ?_ (onlySends_sendAnswer ..))
    exact h.same rfl

theorem InOrder.after_handleData {q : QueueNo} {n : Byte} {bytes : List Byte} {b : BufId} {route : Route}
    (h : InOrder P [] s) : InOrder P [] (handleData q n bytes b route s) := by
  unfold handleData
  split
  · exact h.after_sends (onlySends_sendAnswer ..)
  · exact h.after_sends (onlySends_sendAnswer ..)
  · next d _ =>
    have fed : InOrder P [] (deliver b d (s.modBuf b fun x => { x with payload := feedPayload (queueByte q) n bytes })) :=
      InOrder.after_sends (s := s.modBuf b _) (h.same rfl) (onlySends_deliver b d _)
    exact fed.same rfl

theorem InOrder.after_handleClose {q : QueueNo} {n : Byte} {route : Route} (h : InOrder P [] s) :
    InOrder P [] (handleClose q n route s) := by
  unfold handleClose
  split
  · exact h.after_sends (onlySends_sendAnswer ..)
  · split
    · exact (h.after_arbiter (arbiterOnly_endGrant ..)).after_sends (onlySends_sendAnswer ..)
    · exact (h.after_arbiter (arbiterOnly_dropWaiting ..)).after_sends (onlySends_sendAnswer ..)

theorem InOrder.after_handleCancel {q : QueueNo} {n : Byte} {route : Route} (h : InOrder P [] s) :
    InOrder P [] (handleCancel q n route s) := by
  unfold handleCancel
  split
  · exact h.after_sends (onlySends_sendAnswer ..)
  · split
    · exact (h.after_arbiter (arbiterOnly_endGrant ..)).after_sends (onlySends_sendAnswer ..)
    · exact (h.after_arbiter (arbiterOnly_dropWaiting ..)).after_sends (onlySends_sendAnswer ..)

theorem InOrder.after_handleStatus {online : Bool} {form : Fin 16} {credit : Nat} {route : Route} (h : InOrder P [] s) :
    InOrder P [] (handleStatus online form credit route s) := by
  unfold handleStatus
  split
  · exact h.after_sends (onlySends_sendAnswer ..)
  · simp only
    split
    · exact h.after_modPrinter
    · exact h.after_modPrinter.after_setFlag

theorem InOrder.after_takePrint {e : InputEntry} {g : State → State} (h : InOrder P [] s)
    (hg : ∀ x, InOrder P [] x → InOrder P [] (g x)) : InOrder P [] (takePrint e g s) := by
  have popped : InOrder P [] (popPrint s) := h.same rfl
  exact (hg _ popped).after_sends (onlySends_dropRef e.buf _)

/-! ## Resets (Section 11.1) -/

/-- A stored configuration that keeps codes apart is loaded in order, commissioned only with its admin entry (R205). -/
theorem inOrder_loadConfig {c : StoredConfig} (fault : Bool) (loads : StoredCodes c)
    (stored : ∀ c, s.chassis.store.content = some c → StoredCodes c) : InOrder P [] (loadConfig c fault s) := by
  refine ⟨?_, stored, nofun, fun _ com => ?_⟩
  · have entries : (loadConfig c fault s).dir.entries.map Entry.code = c.fixed.map FixedEntry.code :=
      (List.map_map ..).trans (List.map_congr_left fun _ _ => rfl)
    have pool : (loadConfig c fault s).dir.pool
        = deskCodes.filter (fun x => !(c.fixed.map FixedEntry.code).contains x) := by
      refine List.filter_congr fun x _ => ?_
      rw [List.contains_eq_any_beq, List.any_map]
      congr 2
      funext f
      exact BEq.comm
    rw [entries, pool]
    refine perm_deskCodes_of_rest loads.1 fun x mem => ?_
    obtain ⟨f, fixed, rfl⟩ := List.mem_map.1 mem
    exact loads.2 f fixed
  · obtain ⟨f, mem, admin⟩ := List.any_eq_true.1 (Bool.and_eq_true_iff.1 com).2
    exact hasAdmin_iff.2 ⟨f.load, List.mem_map_of_mem mem, admin⟩

theorem content_of_valid {i : StoreImage} {c : StoredConfig} (valid : i.judge = .valid c) : i.content = some c := by
  unfold StoreImage.judge at valid
  split at valid
  · cases valid
  · split at valid
    · next content => cases valid; exact content
    · cases valid

theorem storedCodes_default : StoredCodes StoredConfig.default := ⟨.nil, nofun⟩

/-- A start-up leaves the directory in order whatever it was before (R202). -/
theorem inOrder_startUp (stored : ∀ c, s.chassis.store.content = some c → StoredCodes c) : InOrder P [] (startUp s) := by
  unfold startUp
  split
  · next c valid => exact inOrder_loadConfig false (stored c (content_of_valid valid)) stored
  · exact inOrder_loadConfig false storedCodes_default stored
  · exact inOrder_loadConfig true storedCodes_default stored

theorem inOrder_standStill (m : RunState) (stored : ∀ c, s.chassis.store.content = some c → StoredCodes c) :
    InOrder P [] (standStill m s) := ⟨.refl _, stored, nofun, nofun⟩

theorem InOrder.after_takeRestart {factory : Bool} {mine : Request → Bool} (h : InOrder P [] s) :
    InOrder P [] (takeRestart factory mine s) := by
  unfold takeRestart
  split
  · exact h
  · next e _ _ =>
    split
    · exact h
    · next q _ =>
      split
      · have staged : InOrder P [] (stages false alwaysHeld (restartKind q.params) (fun _ s => done s) e.route
            (takeControl e s)).state := h.after_takeControl.after_stages fun _ => h.after_takeControl
        simp only
        split
        · split
          · exact inOrder_startUp nofun
          · exact inOrder_startUp staged.stored
        · exact staged.after_answerRequest
      · exact h

end

end Sys2Proof.Machine
end

