-- ==== Sys2Proof/Proofs/DirectoryKept.lean ====
section
/-!
The two obligations on what every step keeps of the directory: every command keeps it in order, so every step does (R70, R87).
-/

namespace Sys2Proof.Machine

/-- The directory is in order in the state that a command answers. -/
def EndsInOrder (P : Prop) (o : Host.Outcome State Fault Refusal) : Prop := ∀ u, o = .next u → InOrder P [] u

section
variable {P : Prop} {s : State}

theorem endsInOrder_next (h : InOrder P [] s) : EndsInOrder P (.next s) := by
  rintro u ⟨⟩
  exact h

/-! ## How a command is taken -/

theorem InOrder.ends_event {f : State → State} (h : InOrder P [] s) (hf : ∀ x, InOrder P [] x → InOrder P [] (f x)) :
    EndsInOrder P (event f s) := by
  refine endsInOrder_next ?_
  split
  · exact (hf s h).after_settle
  · exact h

/-- An event that leaves the directory. -/
theorem InOrder.ends_channelEvent {f : State → State} (h : InOrder P [] s) (hf : ∀ x, ChannelOnly x (f x)) :
    EndsInOrder P (event f s) := h.ends_event fun x hx => hx.after_channel (hf x)

theorem InOrder.ends_lineEvent {m f : State → State} (h : InOrder P [] s) (hm : ∀ x, InOrder P [] x → InOrder P [] (m x))
    (hf : ∀ x, InOrder P [] x → InOrder P [] (f x)) : EndsInOrder P (lineEvent m f s) := by
  refine endsInOrder_next ?_
  split
  · exact (hf _ (hm s h)).after_settle
  · exact hm s h

theorem InOrder.ends_bridgingEvent {m : State → State} {f : State → Option BufId × State} (h : InOrder P [] s)
    (hm : ∀ x, InOrder P [] x → InOrder P [] (m x)) (hf : ∀ x, InOrder P [] x → InOrder P [] (f x).2) :
    EndsInOrder P (bridgingEvent m f s) := by
  refine endsInOrder_next ?_
  split
  · exact (hf _ (hm s h)).after_settle.after_sends (onlySends_endHold _ _)
  · exact hm s h

theorem InOrder.ends_requestEvent {f : State → State} (h : InOrder P [] s)
    (hf : ∀ x, InOrder P [] x → InOrder P [] (f x)) : EndsInOrder P (requestEvent f s) := by
  refine endsInOrder_next ?_
  split
  · exact hf s h
  · exact h

/-- A request judged by its stages. -/
theorem InOrder.ends_staged {α : Type} {mine : Request → Bool} {read : Bool} {held : α → State → Bool}
    {parse : Request → Option α} {effect : α → State → Reply} (h : InOrder P [] s)
    (he : ∀ a x, InOrder P [] x → InOrder P [] (effect a x).state) :
    EndsInOrder P (requestEvent (request mine (fun q route => stages read held (parse q) effect route)) s) :=
  h.ends_requestEvent fun _ hx => hx.after_staged he

/-- A print message taken from the head of its queue, handled and followed by selection. -/
theorem InOrder.after_print {e : InputEntry} {f : State → State} (h : InOrder P [] s)
    (hf : ∀ x, InOrder P [] x → InOrder P [] (f x)) : InOrder P [] (takePrint e (fun x => selectAll (f x)) s) :=
  h.after_takePrint fun x hx => (hf x hx).after_selectAll

/-! ## The commands -/

theorem InOrder.ends_print (h : InOrder P [] s) :
    EndsInOrder P (execPrintOpen s) ∧ EndsInOrder P (execPrintData s) ∧ EndsInOrder P (execPrintClose s)
      ∧ EndsInOrder P (execPrintCancel s) ∧ EndsInOrder P (execPrintStatus s) ∧ EndsInOrder P (execPrintMalformed s) := by
  refine ⟨h.ends_event fun x hx => ?_, h.ends_event fun x hx => ?_, h.ends_event fun x hx => ?_,
    h.ends_event fun x hx => ?_, h.ends_event fun x hx => ?_, h.ends_event fun x hx => ?_⟩
  · split
    · exact hx.after_takePrint fun _ => InOrder.after_handleOpen
    · exact hx
  · split
    · exact hx.after_print fun _ => InOrder.after_handleData
    · exact hx
  · split
    · exact hx.after_print fun _ => InOrder.after_handleClose
    · exact hx
  · split
    · exact hx.after_print fun _ => InOrder.after_handleCancel
    · exact hx
  · split
    · exact hx.after_print fun _ => InOrder.after_handleStatus
    · exact hx
  · split
    · exact hx.after_print fun _ hy => hy.after_sends (onlySends_sendAnswer ..)
    · exact hx

/-- What a standstill or a start-up makes of the directory is in order; what else the supply and the panel line do leaves
it. -/
theorem InOrder.ends_supply (h : InOrder P [] s) :
    EndsInOrder P (execPowerOn s) ∧ EndsInOrder P (execPanelResetAsserted s) ∧ EndsInOrder P (execPanelRestart s)
      ∧ ∀ b, EndsInOrder P (execSupplyLoss b s) := by
  refine ⟨endsInOrder_next ?_, endsInOrder_next ?_, endsInOrder_next ?_, fun b => endsInOrder_next ?_⟩
  · split
    · exact InOrder.same (s := standStill .held s) (inOrder_standStill _ h.stored) rfl
    · exact inOrder_startUp h.stored
  · split
    · exact h.same rfl
    · exact inOrder_standStill _ h.stored
  · split
    · split
      · exact inOrder_startUp h.stored
      · exact inOrder_startUp h.stored
    · exact h.same rfl
    · exact h.same rfl
  · split
    · exact ⟨.refl _, nofun, nofun, nofun⟩
    · exact inOrder_standStill _ h.stored

/-- Every command keeps the directory in order. -/
theorem InOrder.ends_exec (c : Instr) (h : InOrder P [] s) : EndsInOrder P (exec c s) := by
  obtain ⟨opened, data, close, cancel, status, malformed⟩ := h.ends_print
  obtain ⟨on, asserted, released, loss⟩ := h.ends_supply
  unfold exec
  cases c with
  | burstRise t dt =>
    refine endsInOrder_next ?_
    split
    · exact (InOrder.after_channel (s := s.advance dt) (h.same rfl) (channelOnly_burstRise t dt s)).after_settle
    · exact h.same rfl
  | headerEvent t dt cells =>
    refine h.ends_event fun x hx => ?_
    split
    · exact InOrder.after_feedDecoder (s := x.advance dt) (hx.same rfl)
    · exact hx.same rfl
  | burstFall t dt edges cells =>
    exact h.ends_bridgingEvent (fun _ => InOrder.after_carrierFalls) fun _ => InOrder.after_burstFall
  | jabberCut t edges => exact h.ends_event fun _ => InOrder.after_jabberCut
  | continuationFall t dt =>
    refine h.ends_lineEvent (fun _ => InOrder.after_carrierFalls) fun x hx => ?_
    split <;> exact hx.same rfl
  | longQuiet t => exact h.ends_channelEvent (channelOnly_longQuiet t)
  | terminatorEdge t => exact h.ends_channelEvent (channelOnly_terminatorEdge_any t)
  | transmitClaim dt =>
    exact h.ends_event fun x hx => InOrder.after_channel (s := x.advance dt) (hx.same rfl) (channelOnly_transmitClaim _)
  | transmitCompletion dt =>
    exact h.ends_event fun x hx =>
      InOrder.after_channel (s := x.advance dt) (hx.same rfl) (channelOnly_transmitCompletion _)
  | linkUp p => exact h.ends_lineEvent (fun _ hx => hx.same rfl) fun _ hx => hx.same rfl
  | linkDown p => exact h.ends_lineEvent (fun _ hx => hx.same rfl) fun x hx => hx.after_channel (channelOnly_linkDown p x)
  | frameStart p =>
    exact h.ends_lineEvent (fun _ hx => hx.same rfl) fun x hx => hx.after_channel (channelOnly_frameStart p x)
  | frameEnd p bytes => exact h.ends_bridgingEvent (fun _ hx => hx.same rfl) fun _ => InOrder.after_frameEnd
  | sendStart p => exact h.ends_channelEvent (channelOnly_sendStart p)
  | sendCompletion p => exact h.ends_channelEvent (channelOnly_sendCompletion p)
  | fold =>
    refine h.ends_event fun x hx => ?_
    split
    · exact hx.after_foldAll
    · exact hx
  | presenceQuery c => exact h.ends_event fun _ => InOrder.after_presenceQuery
  | aging c => exact h.ends_event fun _ => InOrder.after_aging
  | becomesAbsent c => exact h.ends_event fun _ => InOrder.after_becomesAbsent
  | quarantineEnd c => exact h.ends_event fun _ => InOrder.after_quarantineEnd
  | idleExpiry q => exact h.ends_event fun _ => InOrder.after_idleExpiry
  | formHoldReached q => exact h.ends_event fun _ => InOrder.after_formHoldReached
  | alertSend => exact h.ends_event fun x hx => hx.same (directoryFields_alertSend x)
  | printOpen => exact opened
  | printData => exact data
  | printClose => exact close
  | printCancel => exact cancel
  | printStatus => exact status
  | printMalformed => exact malformed
  | statusRead => exact h.ends_staged fun _ _ hx => hx
  | segmentRead dt edges =>
    exact h.ends_requestEvent fun x hx => InOrder.after_staged (s := x.advance dt) (hx.same rfl) fun _ _ =>
      InOrder.after_readSegment
  | portRead bytes => exact h.ends_staged fun _ _ => InOrder.after_readPort
  | countersRead =>
    refine h.ends_staged fun b x hx => ?_
    unfold readCounters
    split
    · split <;> exact hx
    · split <;> exact hx
  | directoryRead =>
    refine h.ends_staged fun b x hx => ?_
    unfold readDirectory
    split <;> exact hx
  | directoryFind =>
    refine h.ends_staged fun b x hx => ?_
    unfold findStation
    split <;> exact hx
  | queueRead =>
    refine h.ends_staged fun b x hx => ?_
    unfold readQueue
    split <;> exact hx
  | accountRead =>
    refine h.ends_staged fun b x hx => ?_
    unfold readAccount
    split <;> exact hx
  | entryFix => exact h.ends_staged fun _ _ => InOrder.after_fixEntry
  | entryRelease => exact h.ends_staged fun _ _ => InOrder.after_releaseEntry
  | entrySuspend =>
    exact h.ends_staged fun _ _ hx => hx.after_withEntry fun _ _ => InOrder.after_modEntry hx fun _ => ⟨rfl, rfl⟩
  | entryResume => exact h.ends_staged fun _ _ => InOrder.after_resumeEntry
  | clearLearned => exact h.ends_staged fun _ _ => InOrder.after_clearLearned
  | segmentSet => exact h.ends_staged fun _ _ hx => hx.after_withPort fun _ => hx.same rfl
  | segmentForceIsolate dt =>
    exact h.ends_requestEvent fun x hx => InOrder.after_staged (s := x.elapse dt) (hx.same rfl) fun _ _ =>
      InOrder.after_forceIsolate
  | segmentForceReadmit dt =>
    exact h.ends_requestEvent fun x hx => InOrder.after_staged (s := x.advance dt) (hx.same rfl) fun _ _ =>
      InOrder.after_forceReadmit
  | segmentForceExemptOn => exact h.ends_staged fun _ _ hx => hx.after_withPort fun _ => hx.same rfl
  | segmentForceExemptOff => exact h.ends_staged fun _ _ hx => hx.after_withPort fun _ => hx.same rfl
  | segmentForceClear => exact h.ends_staged fun _ _ hx => hx.after_withPort fun _ => hx.same rfl
  | portEnable dt =>
    exact h.ends_requestEvent fun x hx => InOrder.after_staged (s := x.elapse dt) (hx.same rfl) fun _ _ =>
      InOrder.after_setEnable
  | printerSet => exact h.ends_staged fun _ _ => InOrder.after_setPrinter
  | formLoaded => exact h.ends_staged fun _ _ => InOrder.after_formLoaded
  | queuePurge => exact h.ends_staged fun _ _ => InOrder.after_purgeQueue
  | ticketCancel => exact h.ends_staged fun _ _ => InOrder.after_cancelTicket
  | accountSnapshot => exact h.ends_staged fun _ _ hx => hx.same rfl
  | alertSet => exact h.ends_staged fun _ _ => InOrder.after_setAlerts
  | alertClear => exact h.ends_staged fun _ _ => InOrder.after_clearAlerts
  | officePlan => exact h.ends_staged fun _ _ => InOrder.after_acceptOffice
  | trunkPlan dt =>
    exact h.ends_requestEvent fun x hx => InOrder.after_staged (s := x.elapse dt) (hx.same rfl) fun _ _ =>
      InOrder.after_acceptTrunk
  | save => exact h.ends_requestEvent fun _ => InOrder.after_takeSave
  | saveCompletion v => exact h.ends_event fun _ => InOrder.after_completeSave
  | restartKeep => exact h.ends_requestEvent fun _ => InOrder.after_takeRestart
  | restartFactory => exact h.ends_requestEvent fun _ => InOrder.after_takeRestart
  | clearCauses => exact h.ends_staged fun _ _ hx => hx.same rfl
  | unknownOperation => exact h.ends_requestEvent fun _ => InOrder.after_unknownOperation
  | powerOn => exact on
  | panelResetAsserted => exact asserted
  | panelRestart => exact released
  | oneSecondTick => exact h.ends_event fun _ => InOrder.after_oneSecondTick
  | oneMillisecondTick tick => exact h.ends_event fun _ => InOrder.after_oneMillisecondTick
  | closingCarrierFall t dt =>
    refine h.ends_lineEvent (fun _ => InOrder.after_carrierFalls) fun x hx => ?_
    unfold closingFall
    split <;> exact hx.same rfl
  | supplyLoss b => exact loss b

/-- Every step keeps the directory in order. -/
theorem InOrder.after_step {u : State} (h : InOrder P [] s) (hs : step s = .next u) : InOrder P [] u := by
  unfold step at hs
  split at hs
  · exact endsInOrder_next h u hs
  · next rest _ => exact InOrder.ends_exec _ (InOrder.same (t := s.withPending rest) h rfl) u hs

end

/-- Settles O56: the order of the codes walked through every command. -/
theorem codesKeptApart : Obligations.CodesKeptApart := fun _ _ apart hs =>
  (inOrder_nil_iff.1 (InOrder.after_step (P := False) (inOrder_nil_iff.2 ⟨apart, False.elim⟩) hs)).1

/-- Settles O60: the same walk with the admin entry, which every removal, move and change spares. -/
theorem adminEntryKept : Obligations.AdminEntryKept := fun _ _ apart kept hs =>
  (inOrder_nil_iff.1 (InOrder.after_step (P := True) (inOrder_nil_iff.2 ⟨apart, fun _ => kept⟩) hs)).2 trivial

end Sys2Proof.Machine
end

