-- ==== Sys2Proof/Proofs/CountdownEnds.lean ====
section
/-!
The commands of the thresholds that the Presence Monitor's 1 s tick reaches, but for the query: the end of a countdown (R99,
R100) and of a timed suspension (R106), with the Print Arbiter's share aside.
-/

namespace Sys2Proof.Machine

/-- The Print Arbiter's share beside a count of the Presence Monitor. -/
theorem ArbiterOnly.modPresence {s t : State} (h : ArbiterOnly s t) (f : PresenceCounters → PresenceCounters) :
    ArbiterOnly (s.modPresence f) (t.modPresence f) := by
  have counted : t.modPresence f = { t with dir := (s.modPresence f).dir } := by
    rw [State.modPresence, State.modPresence, h.dir]
  rw [counted]
  exact h.withDir _

/-- The directory's part of a removal leaves the printers to the removal of the tickets (R77). -/
theorem removeEntry_print (m : TellMode) (c : DeskCode) (s : State) :
    (removeEntry m c s).print = (removeTicketsOf m c s).print := by
  rw [removeEntry, removeKeepingCode, State.toPool_print, State.dropEntry_print]

/-- What follows the removal of an entry's tickets in an event brings none of them back (R161). -/
theorem no_ticket_after_removal {m : TellMode} {c : DeskCode} {y z : State} (before : State)
    (same : z.print = (removeTicketsOf m c y).print) : ∀ t ∈ allTickets (settle before z), t.requester ≠ c := by
  intro t mem
  obtain ⟨q, mem⟩ := mem_allTickets.1 mem
  have there := ticketsFrom_settle before q mem
  rw [State.printer, same] at there
  exact removeTicketsOf_removes m c y t (mem_allTickets.2 ⟨q, there⟩)

section
variable {s : State} {c : DeskCode} {e : Entry} (found : findEntry s c = some e)
include found

/-- The last second of a LEARNED entry removes it (R99). -/
theorem aging_of_due (runs : countdownRuns s e = true) (ends : e.tickEnds = true) (learned : e.origin = .learned) :
    aging c s = (removeEntry .silent c s).modPresence (fun p => { p with agedOut := bump p.agedOut }) := by
  simp only [aging, found, runs, ends, learned, decide_true, Bool.and_true, if_true]

/-- The last second of a FIXED entry makes it ABSENT (R100). -/
theorem becomesAbsent_of_due (runs : countdownRuns s e = true) (ends : e.tickEnds = true) (fixed : e.origin = .fixed) :
    becomesAbsent c s =
      (removeTicketsOf .silent c (s.modEntry c (fun e => { e with presenceRemaining := 0, state := .absent }))).modPresence
        (fun p => { p with wentAbsent := bump p.wentAbsent }) := by
  simp only [becomesAbsent, found, runs, ends, fixed, decide_true, Bool.and_true, if_true]

theorem quarantineEnd_of_due (ends : e.timerEnds = true) :
    quarantineEnd c s =
      (s.modEntry c Entry.resumed).modPresence (fun p => { p with quarantineEnded := bump p.quarantineEnded }) := by
  simp only [quarantineEnd, found, ends, if_true]

end

/-- Settles O19: each of the two removals of tickets, counted and settled. -/
theorem countdownEnds : Obligations.CountdownEnds := by
  intro c e s run found use home last
  have runs : countdownRuns s e = true := by rw [countdownRuns, use, home]; rfl
  have ends : e.tickEnds = true := decide_eq_true last
  refine ⟨fun learned => ⟨_, event_of_running run, ?_⟩, fun fixed => ⟨_, event_of_running run, ?_⟩⟩
  · rw [aging_of_due found runs ends learned]
    exact ⟨no_ticket_after_removal s ((State.modPresence_print _ _).trans (removeEntry_print .silent c s)),
      ((arbiterOnly_removeEntry .silent c s).modPresence _).trans (arbiterOnly_settle s _)⟩
  · rw [becomesAbsent_of_due found runs ends fixed]
    exact ⟨no_ticket_after_removal s (State.modPresence_print _ _),
      ((arbiterOnly_removeTicketsOf .silent c _).modPresence _).trans (arbiterOnly_settle s _)⟩

/-- Settles O20. -/
theorem quarantineEnds : Obligations.QuarantineEnds := by
  intro c e why n s run found suspended last
  have ends : e.timerEnds = true := by
    rw [Entry.timerEnds, suspended]
    exact decide_eq_true last
  refine ⟨_, event_of_running run, ?_⟩
  rw [quarantineEnd_of_due found ends]
  exact arbiterOnly_settle s _

end Sys2Proof.Machine
end

