-- ==== Sys2Proof/Proofs/SecondTick.lean ====
section
/-!
The 1 s tick as the Presence Monitor or the Print Arbiter takes it (R95, R105, R143, R158, R208), and what the selection at
the end of the arbiter's tick leaves of the printers.
-/

namespace Sys2Proof.Machine

/-! ## The Presence Monitor -/

/-- A 1 s tick takes nothing of an entry by which its station is reachable. -/
theorem Entry.plainSecond_station (runs : Bool) (e : Entry) :
    (e.plainSecond runs).code = e.code ∧ (e.plainSecond runs).place = e.place ∧ (e.plainSecond runs).inUse = e.inUse := by
  refine ⟨(e.plainSecond_keeps runs).1, ?_⟩
  unfold Entry.plainSecond Entry.inUse
  cases state : e.state with
  | suspended why =>
    cases why with
    | admin => simp [state]
    | timed r n => by_cases ends : e.timerEnds = true <;> simp [state, ends]
  | absent => simp [state]
  | active | queried => simp only; split <;> simp [state]

/-- An entry at a 1 s tick that is left to a threshold's own command, or counts down (R95, R105). -/
theorem Entry.plainSecond_eq (s : State) (e : Entry) : e.plainSecond (countdownRuns s e) =
    match e.state with
    | .suspended (.timed why n) => if n ≤ 1 then e else { e with state := .suspended (.timed why (n - 1)) }
    | .suspended .admin => e
    | .absent => e
    | .active => if homeConnected s e = true ∧ max 5 (e.presenceLimit / 8) + 1 < e.presenceRemaining
        then { e with presenceRemaining := e.presenceRemaining - 1 } else e
    | .queried => if homeConnected s e = true ∧ 1 < e.presenceRemaining
        then { e with presenceRemaining := e.presenceRemaining - 1 } else e := by
  cases state : e.state with
  | suspended why =>
    cases why with
    | admin => simp only [Entry.plainSecond, state]
    | timed why n => simp only [Entry.plainSecond, Entry.timerEnds, state, decide_eq_true_eq]
  | absent => simp only [Entry.plainSecond, state]
  | active =>
    have counts : (countdownRuns s e && !e.tickEnds && !e.tickQueries) = true ↔
        homeConnected s e = true ∧ max 5 (e.presenceLimit / 8) + 1 < e.presenceRemaining := by
      rw [Bool.and_assoc, countdownRuns, Entry.inUse, state, Bool.true_and, Bool.and_eq_true]
      refine and_congr_right fun _ => ?_
      simp [Entry.tickQueries, Entry.tickEnds, Entry.queryLead, state]
      omega
    simp only [Entry.plainSecond, state, counts]
  | queried =>
    have counts : (countdownRuns s e && !e.tickEnds && !e.tickQueries) = true ↔
        homeConnected s e = true ∧ 1 < e.presenceRemaining := by
      simp [countdownRuns, Entry.inUse, Entry.tickQueries, Entry.tickEnds, state]
    simp only [Entry.plainSecond, state, counts]

/-- A 1 s tick that the Presence Monitor has been given is taken, by a change of every entry (R208). -/
def State.presenceTaken (f : Entry → Entry) (s : State) : State :=
  { s with
    chassis := { s.chassis with ticks := { s.chassis.ticks with presenceDue := s.chassis.ticks.presenceDue - 1 } },
    dir := { s.dir with entries := s.dir.entries.map f } }

theorem presenceSecond_of_due {s : State} (due : 0 < s.chassis.ticks.presenceDue) :
    presenceSecond s = s.presenceTaken fun e => e.plainSecond (countdownRuns s e) := if_pos due

/-- A block that has been given no tick takes none (R208). -/
theorem presenceSecond_of_none {s : State} (noneDue : s.chassis.ticks.presenceDue = 0) : presenceSecond s = s :=
  if_neg (noneDue ▸ Nat.lt_irrefl 0)

/-- A tick of the Presence Monitor leaves the Print Arbiter nothing to do. -/
theorem settle_presenceSecond (s : State) : settle s (presenceSecond s) = presenceSecond s := by
  by_cases due : 0 < s.chassis.ticks.presenceDue
  · rw [presenceSecond_of_due due]
    exact settle_of_entries (fun e => e.plainSecond (countdownRuns s e)) (fun e => e.plainSecond_station _) rfl rfl
      fun _ => rfl
  · rw [presenceSecond_of_none (Nat.eq_zero_of_not_pos due)]
    exact settle_of_onlySends (.refl s)

/-! ## Selection and the printers -/

section
variable {s : State} {q : QueueNo}

theorem printer_grantTicket (told : Bool) (t : Ticket) (v : QueueNo) :
    (grantTicket told q t s).printer v = (granting q t s).printer v := by
  cases told with
  | true => rfl
  | false => exact (onlySends_answerRequester .granted q t (granting q t s)).printer v

/-- Selection for a printer changes no other, and brings none to its waiting list (R153, R154). -/
theorem printer_select (o : Option (QueueNo × Nat)) (q : QueueNo) (s : State) :
    ∃ p : Printer, p.waiting ⊆ (s.printer q).waiting ∧
      ∀ v, (select o q s).printer v = if v = q then p else s.printer v := by
  have only : ∀ f : Printer → Printer, ∀ v,
      (s.modPrinter q f).printer v = if v = q then f (s.printer q) else s.printer v := fun f v => by
    rw [State.printer_modPrinter]
    split
    · next same => rw [same]
    · rfl
  have stands : ∀ v, s.printer v = if v = q then s.printer q else s.printer v := fun v => by
    split
    · next same => rw [same]
    · rfl
  unfold select
  split
  · split
    · next t _ => exact ⟨_, List.erase_subset, fun v => (printer_grantTicket _ t v).trans (only _ v)⟩
    · next f _ =>
      unfold awaitForm
      split
      · exact ⟨_, List.Subset.refl _, stands⟩
      · exact ⟨{ s.printer q with state := .formWait f }, List.Subset.refl _,
          fun v => (setFlag_printer ..).trans (only _ v)⟩
    · exact ⟨{ s.printer q with state := .idle }, List.Subset.refl _, only _⟩
  · exact ⟨_, List.Subset.refl _, stands⟩

/-- Whether a printer is eligible depends on its code, its marks and its state, and on what is reachable. -/
theorem eligible_congr {u : State} (hd : u.dir.entries = s.dir.entries) (hp : u.sup.ports = s.sup.ports)
    (hl : ∀ p, (u.starPort p).link = (s.starPort p).link) (code : (u.printer q).code = (s.printer q).code)
    (enable : (u.printer q).enable = (s.printer q).enable) (online : (u.printer q).online = (s.printer q).online)
    (state : (u.printer q).state = (s.printer q).state) : eligible u q = eligible s q := by
  have entry : printerEntry u q = printerEntry s q := by
    have lookup : findEntry u = findEntry s := funext (findEntry_congr hd)
    rw [printerEntry, printerEntry, code, lookup]
  have same : entryReachable u = entryReachable s := by
    funext e
    rw [entryReachable, entryReachable, homeConnected_congr hp hl]
  simp only [eligible, Printer.configured, printerReachable, entry, same, code, enable, online, state]

/-- Selection leaves a printer that is not eligible (R153). -/
theorem printer_foldl_select (o : Option (QueueNo × Nat)) (l : List QueueNo) (unable : eligible s q = false) :
    (l.foldl (fun s v => select o v s) s).printer q = s.printer q := by
  induction l generalizing s with
  | nil => rfl
  | cons a l ih =>
    have share := arbiterOnly_select o a s
    have first : (select o a s).printer q = s.printer q := by
      by_cases same : q = a
      · rw [← same, select_of_not_eligible unable]
      · obtain ⟨p, -, others⟩ := printer_select o a s
        rw [others, if_neg same]
    have still : eligible (select o a s) q = false :=
      (eligible_congr (by rw [share.dir]) (by rw [share.sup]) share.link (by rw [first]) (by rw [first]) (by rw [first])
        (by rw [first])).trans unable
    rw [List.foldl_cons, ih still, first]

/-- Selection brings no ticket to a waiting list. -/
theorem waiting_foldl_select (o : Option (QueueNo × Nat)) (l : List QueueNo) (s : State) (q : QueueNo) :
    ((l.foldl (fun s v => select o v s) s).printer q).waiting ⊆ (s.printer q).waiting := by
  induction l generalizing s with
  | nil => exact List.Subset.refl _
  | cons a l ih =>
    obtain ⟨p, fewer, others⟩ := printer_select o a s
    refine List.Subset.trans (ih (select o a s)) ?_
    rw [others]
    split
    · next same => exact same ▸ fewer
    · exact List.Subset.refl _

/-- A change made to one printer after another. -/
theorem printer_foldl_modPrinter (f : QueueNo → Printer → Printer) {l : List QueueNo} (once : l.Nodup) (s : State)
    (q : QueueNo) : (l.foldl (fun x v => x.modPrinter v (f v)) s).printer q =
      if q ∈ l then f q (s.printer q) else s.printer q := by
  induction l generalizing s with
  | nil => rfl
  | cons a l ih =>
    obtain ⟨new, once⟩ := List.nodup_cons.1 once
    rw [List.foldl_cons, ih once, State.printer_modPrinter]
    by_cases same : q = a
    · simp [same, new]
    · simp [same]

end

/-! ## The Print Arbiter -/

/-- A 1 s tick that the Print Arbiter has been given is taken (R208). -/
def State.printTaken (s : State) : State :=
  { s with chassis := { s.chassis with ticks := { s.chassis.ticks with printDue := s.chassis.ticks.printDue - 1 } } }

/-- The printers at a 1 s tick, before the selection at its end (R143, R158). -/
def State.printersSecond (s : State) : State :=
  (List.finRange 6).foldl (fun x q => x.modPrinter q (Printer.plainSecond (formHoldDue s q))) s.printTaken

theorem printSecond_of_due {s : State} (due : 0 < s.chassis.ticks.printDue) :
    printSecond s = selectAll s.printersSecond := if_pos due

theorem arbiterOnly_printersSecond (s : State) : ArbiterOnly s.printTaken s.printersSecond :=
  ArbiterOnly.foldl _ (fun x q => arbiterOnly_modPrinter q _ x) _ _

theorem printer_printersSecond (s : State) (q : QueueNo) :
    s.printersSecond.printer q = (s.printer q).plainSecond (formHoldDue s q) := by
  rw [State.printersSecond, printer_foldl_modPrinter (fun v => Printer.plainSecond (formHoldDue s v)) (List.nodup_finRange 6),
    if_pos (List.mem_finRange q)]
  rfl

/-- A 1 s tick makes no printer eligible and none ineligible before selection. -/
theorem eligible_printersSecond (s : State) (q : QueueNo) : eligible s.printersSecond q = eligible s q := by
  have share := arbiterOnly_printersSecond s
  refine eligible_congr ?_ ?_ share.link ?_ ?_ ?_ ?_
  · rw [share.dir]; rfl
  · rw [share.sup]; rfl
  all_goals rw [printer_printersSecond]; rfl

/-- The waiting list of a printer at a 1 s tick (R143). -/
theorem waiting_plainSecond (s : State) (q : QueueNo) :
    ((s.printer q).plainSecond (formHoldDue s q)).waiting = (s.printer q).waiting.map fun t =>
      if (candidates s q).head? = some t ∧ t.waitAge + 1 = (s.printer q).formHold then t
      else { t with waitAge := min (t.waitAge + 1) 65535 } := by
  have due : ∀ t, formHoldDue s q = some t ↔
      (candidates s q).head? = some t ∧ t.waitAge + 1 = (s.printer q).formHold := fun t => by
    rw [formHoldDue, Option.filter_eq_some_iff, beq_iff_eq]
  simp only [Printer.plainSecond, due]
  rfl

/-- The idle remaining of a printer at a 1 s tick (R158). -/
theorem idleRemaining_plainSecond (due : Option Ticket) (p : Printer) :
    (p.plainSecond due).idleRemaining =
      if p.grant.isSome = true ∧ p.online = true ∧ 1 < p.idleRemaining then p.idleRemaining - 1 else p.idleRemaining := by
  have counts : (p.grant.isSome && p.online && !p.idleEnds) = true ↔
      p.grant.isSome = true ∧ p.online = true ∧ 1 < p.idleRemaining := by
    cases granted : p.grant.isSome <;> cases online : p.online <;> simp [Printer.idleEnds, granted, online]
  simp only [Printer.plainSecond, counts]

/-- A tick changes the idle remaining and the waiting list of a printer alone. -/
theorem Printer.plainSecond_frame (due : Option Ticket) (p : Printer) :
    p.plainSecond due = { p with
      idleRemaining := (p.plainSecond due).idleRemaining, waiting := (p.plainSecond due).waiting } := rfl

/-- Settles O21: the Presence Monitor's tick leaves the arbiter nothing, and selection after the Print Arbiter's tick takes
from waiting lists and leaves what is not eligible. -/
theorem secondTickCounts : Obligations.SecondTickCounts := by
  intro s run k aged idle
  have taken : exec .oneSecondTick s = .next (settle s (oneSecondTick s)) := event_of_running run
  refine ⟨fun first due => ?_, fun behind => ?_, fun noneHere noneThere => ?_⟩
  · rw [taken, oneSecondTick, if_neg (Nat.not_lt.2 first), settle_presenceSecond, presenceSecond_of_due due]
    exact congrArg (fun f => Host.Outcome.next (s.presenceTaken f)) (funext (Entry.plainSecond_eq s))
  · have before := arbiterOnly_printersSecond s
    have share := before.trans (arbiterOnly_selectAll s.printersSecond)
    have settled : settle s (selectAll s.printersSecond) = selectAll s.printersSecond :=
      settle_eq_self (congrArg Directory.entries share.dir) (congrArg Supervision.ports share.sup) share.link
    rw [taken, oneSecondTick, if_pos behind, printSecond_of_due (Nat.zero_lt_of_lt behind), settled]
    refine ⟨_, rfl, fun q unable => ?_, fun q t mem => ?_, share⟩
    · rw [selectAll, selectFor, printer_foldl_select none _ ((eligible_printersSecond s q).trans unable),
        printer_printersSecond, Printer.plainSecond_frame, idleRemaining_plainSecond, waiting_plainSecond]
    · have waits := waiting_foldl_select none (List.finRange 6) s.printersSecond q mem
      rw [printer_printersSecond, waiting_plainSecond] at waits
      exact waits
  · rw [taken, oneSecondTick, if_neg (by rw [noneHere, noneThere]; exact Nat.lt_irrefl 0), settle_presenceSecond,
      presenceSecond_of_none noneHere]

end Sys2Proof.Machine
end

