-- ==== Sys2Proof/Proofs/Modes.lean ====
section
/-!
The supervision states that each mode of the bridge allows (R109, R112, R138): what the condition depends on, the operations
that leave it, and the operations of the Supervision Unit that move a port, each into a state that its mode allows.
-/

namespace Sys2Proof.Machine

/-! ## The condition -/

/-- The states that a port can have in a bridge that is commissioned, or is not (R109, R112, R138). -/
def SupState.Fits (commissioned : Bool) : SupState → Prop
  | .off | .held => True
  | .openMode => commissioned = false
  | .active | .isolated | .probation => commissioned = true

/-- Every port is in a state that the mode of the bridge allows. -/
structure InMode (s : State) : Prop where
  fits : ∀ q, (s.port q).state.Fits s.ctl.commissioned

theorem inMode_iff {s : State} : InMode s ↔ ModeStates s := by
  have each : (∀ q, (s.port q).state.Fits s.ctl.commissioned) ↔ ModeStates s := by
    refine forall_congr' fun q => ?_
    cases (s.port q).state <;> rfl
  exact ⟨fun h => each.1 h.fits, fun h => ⟨each.2 h⟩⟩

/-- What the condition depends on: the state of each port, and the commissioned mark. -/
def State.modes (s : State) : (PortNo → SupState) × Bool := (fun q => (s.port q).state, s.ctl.commissioned)

section
variable {s t : State}

theorem InMode.same (h : InMode s) (same : t.modes = s.modes) : InMode t := by
  obtain ⟨ports, mode⟩ := Prod.mk.inj same
  refine ⟨fun q => ?_⟩
  rw [mode, show (t.port q).state = (s.port q).state from congrFun ports q]
  exact h.fits q

/-- A port that moves takes a state that the mode allows. -/
theorem InMode.moved (h : InMode s) (mode : t.ctl.commissioned = s.ctl.commissioned)
    (ports : ∀ q, (t.port q).state = (s.port q).state ∨ (t.port q).state.Fits s.ctl.commissioned) : InMode t := by
  refine ⟨fun q => ?_⟩
  rw [mode]
  rcases ports q with same | fits
  · rw [same]; exact h.fits q
  · exact fits

/-- A port under a verdict tells that the bridge is commissioned (R112). -/
theorem InMode.commissioned_of (h : InMode s) {q : PortNo}
    (judged : (s.port q).state = .active ∨ (s.port q).state = .isolated ∨ (s.port q).state = .probation) :
    s.ctl.commissioned = true := by
  have fits := h.fits q
  rcases judged with e | e | e
  all_goals rw [e] at fits; exact fits

theorem InMode.commissioned_of_triggerable (h : InMode s) {q : PortNo}
    (trigger : (s.port q).triggerable = true) : s.ctl.commissioned = true :=
  h.commissioned_of (((PortRec.triggerable_iff _).1 trigger).1.imp_right .inr)

/-- A list of steps that each keep the condition keeps it. -/
theorem InMode.after_foldl {α : Type} {f : State → α → State} {l : List α} (h : InMode s)
    (hf : ∀ x a, InMode x → InMode (f x a)) : InMode (l.foldl f s) := by
  induction l generalizing s with
  | nil => exact h
  | cons a l ih => exact ih (hf s a h)

/-! ## What leaves the modes -/

theorem TrafficOnly.commissioned (h : TrafficOnly s t) : t.ctl.commissioned = s.ctl.commissioned := by
  obtain ⟨-, -, -, -, -, -, ctl⟩ := (trafficOnly_iff s t).1 h
  rw [ctl]

/-- Traffic that leaves the supervision records leaves the modes. -/
theorem TrafficOnly.modes (h : TrafficOnly s t) (sup : t.sup = s.sup) : t.modes = s.modes := by
  simp only [State.modes, State.port, sup, h.commissioned]

theorem ArbiterOnly.modes (h : ArbiterOnly s t) : t.modes = s.modes := h.traffic.modes h.sup

theorem OnlySends.modes (h : OnlySends s t) : t.modes = s.modes := h.arbiter.modes

/-- A port's record changed in other fields than its state. -/
theorem modes_modPort {q : PortNo} {f : PortRec → PortRec} (still : ∀ r, (f r).state = r.state) (s : State) :
    (s.modPort q f).modes = s.modes := by
  refine Prod.ext (funext fun p => ?_) rfl
  show ((s.modPort q f).port p).state = (s.port p).state
  rw [State.port_modPort]
  split
  · exact still _
  · rfl

theorem modes_foldl {α : Type} {f : State → α → State} (hf : ∀ x a, (f x a).modes = x.modes) (l : List α) (s : State) :
    (l.foldl f s).modes = s.modes := foldl_keeps f State.modes hf l s

theorem modes_setFlag (k : AlertKind) (i : Nat) (d : Option Byte) (s : State) : (setFlag k i d s).modes = s.modes :=
  (arbiterOnly_setFlag k i d s).modes

theorem modes_suspendTimed (why : TimedReason) (c : DeskCode) (s : State) : (suspendTimed why c s).modes = s.modes :=
  (trafficOnly_suspendTimed why c s).modes (offersOnly_suspendTimed why c s).1

theorem modes_applyWindow (e : Entry) (s : State) : (applyWindow e s).2.modes = s.modes :=
  (trafficOnly_applyWindow e s).modes (offersOnly_applyWindow e s).1

theorem modes_displaceProxy (c : DeskCode) (s : State) : (displaceProxy c s).modes = s.modes :=
  (trafficOnly_displaceProxy c s).modes (channelsStand_displaceProxy c s).1

theorem modes_bridgeTrunk (t : SegNo) (tr : Bool) (f : TrunkRx) (s : State) : (bridgeTrunk t tr f s).2.modes = s.modes :=
  (trafficOnly_bridgeTrunk t tr f s).modes (channelsStand_bridgeTrunk t tr f s).1

theorem modes_bridgeStar (p : StarNo) (f : StarRx) (s : State) : (bridgeStar p f s).2.modes = s.modes :=
  (trafficOnly_bridgeStar p f s).modes (offersOnly_bridgeStar p f s).1

theorem modes_removeEntry (m : TellMode) (c : DeskCode) (s : State) : (removeEntry m c s).modes = s.modes :=
  (arbiterOnly_removeEntry m c s).modes

/-! ## The Supervision Unit's moves (R124, R128, R130, R133, R134, R137) -/

theorem InMode.after_setPortState {q : PortNo} {new : SupState} (h : InMode s)
    (fits : new.Fits s.ctl.commissioned) : InMode (setPortState q new s) := by
  refine h.moved (channelOnly_setPortState q new s).traffic.commissioned fun p => ?_
  rw [port_setPortState]
  split
  · exact .inr fits
  · exact .inl rfl

theorem InMode.after_isolatePort {q : PortNo} (h : InMode s) (mode : s.ctl.commissioned = true) :
    InMode (isolatePort q s) := by
  refine h.moved (channelOnly_isolatePort q s).traffic.commissioned fun p => ?_
  rw [port_isolatePort]
  split
  · exact .inr mode
  · exact .inl rfl

/-- A trigger isolates only a port under a verdict, so only in a commissioned bridge (R112). -/
theorem InMode.after_trigger {q : PortNo} {more : Bool} (h : InMode s) :
    InMode (if (s.port q).triggerable && more then isolatePort q s else s) := by
  split
  · next trigger => exact h.after_isolatePort (h.commissioned_of_triggerable (Bool.and_eq_true_iff.1 trigger).1)
  · exact h

theorem InMode.after_faultEvent {k : FaultKind} {q : PortNo} (h : InMode s) : InMode (faultEvent k q s) :=
  InMode.after_trigger (h.same (modes_modPort (PortRec.count_state k) s))

theorem InMode.after_terminatorTrigger {q : PortNo} (h : InMode s) : InMode (terminatorTrigger q s) := by
  have trigger := h.after_trigger (q := q) (more := true)
  rwa [Bool.and_true] at trigger

theorem InMode.after_jabberEvent {q : PortNo} (h : InMode s) : InMode (jabberEvent q s) :=
  InMode.after_terminatorTrigger (h.same (modes_modPort (f := PortRec.lifted) (fun _ => rfl) s))

theorem InMode.after_readmitPort {q : PortNo} (h : InMode s) (mode : s.ctl.commissioned = true) :
    InMode (readmitPort q s) := by
  have cleared : InMode (s.modPort q fun r => { r with clean := 0, readmissions := bump r.readmissions }) :=
    h.same (modes_modPort (by exact fun _ => rfl) s)
  exact (cleared.after_setPortState (new := .active) mode).same (modes_setFlag ..)

/-- A verdict judges the ports of a commissioned bridge alone (R124). -/
theorem InMode.after_verdict {q : PortNo} (h : InMode s) : InMode (verdict q s) := by
  have counted : ∀ f : PortRec → PortRec, (∀ r, (f r).state = r.state) → InMode (s.modPort q f) :=
    fun f still => h.same (modes_modPort still s)
  simp only [verdict]
  split
  · next state =>
    split
    · exact h.after_isolatePort (h.commissioned_of (.inl state))
    · exact h
  · next state =>
    have mode := h.commissioned_of (.inr (.inr state))
    split
    · split
      · exact (counted _ (by exact fun _ => rfl)).after_readmitPort mode
      · exact (counted _ (by exact fun _ => rfl)).after_isolatePort mode
    · exact counted _ fun _ => rfl
  · next state =>
    have mode := h.commissioned_of (.inr (.inl state))
    split
    · split
      · exact counted _ fun _ => rfl
      · refine InMode.after_setPortState ((counted _ ?_).same (modes_modPort ?_ _)) mode
        · exact fun _ => rfl
        · exact fun _ => rfl
    · exact counted _ fun _ => rfl
  · exact h
  · exact h
  · exact h

theorem modes_suspendCulprit (c : DeskCode) (s : State) : (suspendCulprit c s).modes = s.modes := by
  unfold suspendCulprit
  split
  · rfl
  · split
    · exact modes_suspendTimed .check c s
    · rfl

theorem modes_culpritStage (q : PortNo) (old : SupState) (s : State) : (culpritStage q old s).modes = s.modes := by
  unfold culpritStage
  split
  · exact modes_foldl (fun x c => modes_suspendCulprit c x) _ s
  · rfl

theorem modes_clearStage (q : PortNo) (s : State) : (clearStage q s).modes = s.modes := by
  have cleared : (s.modPort q fun r => r.clearCounts.adopt).modes = s.modes :=
    modes_modPort (fun r => r.clearCounts.adopt_state) s
  unfold clearStage
  split
  · exact cleared
  · exact cleared

theorem PortRec.scored_state (u : Option Nat) (r : PortRec) : (r.scored u).state = r.state := PortRec.warn_state _

theorem InMode.after_foldPort {q : PortNo} (h : InMode s) : InMode (foldPort q s) := by
  have scored : InMode (s.modPort q (PortRec.scored (foldUtil q s))) :=
    h.same (modes_modPort (PortRec.scored_state _) s)
  simp only [foldPort]
  refine InMode.same (InMode.after_verdict ?_) (((modes_clearStage q _).trans (modes_culpritStage q _ _)).trans
    (modes_modPort (cleanStage_state _ _) _))
  split
  · exact scored.same (modes_setFlag ..)
  · exact scored

theorem InMode.after_foldAll (h : InMode s) : InMode (foldAll s) := by
  have folded : InMode ((List.finRange 12).foldl (fun x q => foldPort q x) s) :=
    h.after_foldl fun _ _ hx => hx.after_foldPort
  unfold foldAll
  generalize (List.finRange 12).foldl (fun x q => foldPort q x) s = x at folded ⊢
  exact folded.same rfl

/-- Entering service, a port takes the state of service of its mode (R134, R137). -/
theorem fits_serviceState (s : State) : (serviceState s).Fits s.ctl.commissioned := by
  unfold serviceState
  cases mode : s.ctl.commissioned <;> rfl

theorem InMode.after_readmitByOrder {q : PortNo} (h : InMode s) : InMode (readmitByOrder q s) :=
  InMode.after_setPortState (h.same (modes_modPort (f := PortRec.restored) (fun _ => rfl) s)) (fits_serviceState s)

theorem InMode.after_holdByOrder {q : PortNo} (h : InMode s) : InMode (holdByOrder q s) :=
  InMode.after_setPortState (h.same (modes_modPort (f := PortRec.stopTimers) (fun _ => rfl) s)) trivial

/-- A port acts on its enable by going OFF or by entering service (R137). -/
theorem InMode.after_actOnEnable {q : PortNo} {old new : Bool} (h : InMode s) :
    InMode (actOnEnable q old new s) := by
  cases old <;> cases new
  · exact h
  · refine InMode.after_setPortState (h.same (modes_modPort ?_ s)) (fits_serviceState s)
    exact fun _ => rfl
  · refine InMode.after_setPortState (h.same (modes_modPort ?_ s)) trivial
    exact fun _ => rfl
  · exact h

theorem modes_writeEnable (q : PortNo) (on : Bool) (s : State) : (writeEnable q on s).modes = s.modes := by
  unfold writeEnable
  split <;> rfl

/-- Commissioning leaves no port OPEN (R138). -/
theorem PortRec.fits_commissioned (r : PortRec) : r.commissioned.state.Fits true := by
  unfold PortRec.commissioned
  split
  · rfl
  · next ne =>
    cases state : r.state with
    | openMode => exact absurd state ne
    | off => trivial
    | held => trivial
    | active => rfl
    | isolated => rfl
    | probation => rfl

theorem InMode.after_commission (h : InMode s) : InMode (commission s) := by
  have mode : (commission s).ctl.commissioned = (s.ctl.commissioned || commissionable s) := by
    obtain ⟨a, eq⟩ := commission_eq s
    rw [eq]
  refine ⟨fun q => ?_⟩
  have fits := h.fits q
  rw [port_commission, mode]
  cases fresh : s.ctl.commissioned with
  | true => rw [fresh] at fits; exact fits
  | false =>
    rw [fresh] at fits
    cases commissionable s with
    | false => exact fits
    | true => exact PortRec.fits_commissioned _

/-! ## Resets (R140) -/

theorem inMode_loadConfig (c : StoredConfig) (fault : Bool) (s : State) : InMode (loadConfig c fault s) := by
  refine ⟨fun q => ?_⟩
  have port : (loadConfig c fault s).port q = loadPort (loadsCommissioned c) (c.enable q) c.ports[q.val] :=
    Vector.getElem_ofFn _
  rw [port]
  show SupState.Fits (loadsCommissioned c)
    (if !c.enable q then .off else if loadsCommissioned c then .active else .openMode)
  cases c.enable q with
  | false => trivial
  | true => cases loadsCommissioned c <;> rfl

theorem inMode_startUp (s : State) : InMode (startUp s) := by
  obtain ⟨c, fault, load⟩ := startUp_eq_loadConfig s
  rw [load]
  exact inMode_loadConfig c fault s

/-- The ports of a part that stands still are OFF. -/
theorem inMode_standStill (m : RunState) (s : State) : InMode (standStill m s) := by
  refine ⟨fun q => ?_⟩
  have off : (standStill m s).port q = PortRec.initial := Vector.getElem_replicate _
  rw [off]
  trivial

end

end Sys2Proof.Machine
end

