-- ==== Sys2Proof/Proofs/ModeSteps.lean ====
section
/-!
The events of every block and the effects of the requests keep the states of the ports within the mode of the bridge. Most
of them leave the modes as they stand; the events that hand a fault to the Supervision Unit, the fold, the requests on ports
and the plans move ports by the operations of the Supervision Unit.
-/

namespace Sys2Proof.Machine

section
variable {s : State}

/-! ## The events of the trunk (Chapter 1) -/

theorem modes_carrierFalls (t : SegNo) (ph : LinePhase) (s : State) : (carrierFalls t ph s).modes = s.modes := by
  unfold carrierFalls
  split <;> rfl

theorem modes_popTrunk (s : State) : (popTrunk s).modes = s.modes := by
  unfold popTrunk
  split <;> rfl

theorem modes_burstRise (t : SegNo) (dt : Nat) (s : State) : (burstRise t dt s).modes = s.modes := by
  simp only [burstRise, takeRise]
  split
  · split
    · split <;> rfl
    · split
      · simp only [txCollision]
        split
        · exact modes_popTrunk _
        · rfl
      · rfl
    · rfl
  · rfl

theorem modes_headerDecision (t : SegNo) (dst src : DeskCode) (s : State) :
    (headerDecision t dst src s).modes = s.modes := by
  unfold headerDecision
  split
  · rfl
  · next e _ =>
    split
    · rfl
    · have windowed := modes_applyWindow e s
      split
      · split
        · next w => rw [w] at windowed; exact windowed
        · next w => rw [w] at windowed; exact windowed
      · rfl

theorem modes_feedDecoder (t : SegNo) (cells : List Bool) (s : State) : (feedDecoder t cells s).modes = s.modes := by
  simp only [feedDecoder, headerEvent]
  split
  · split
    · exact modes_headerDecision ..
    · rfl
  · rfl

theorem modes_releaseIfHolder (t : SegNo) (s : State) : (releaseIfHolder t s).modes = s.modes := by
  unfold releaseIfHolder
  split <;> rfl

theorem modes_chargeFault (q : PortNo) (c : DeskCode) (s : State) : (chargeFault q c s).modes = s.modes := by
  refine (modes_modPort ?_ _).trans rfl
  exact fun _ => rfl

theorem modes_goodEvent (q : PortNo) (s : State) : (goodEvent q s).modes = s.modes := by
  refine modes_modPort ?_ s
  exact fun _ => rfl

theorem modes_attributeBurst (t : SegNo) (d : Decoder) (s : State) : (attributeBurst t d s).modes = s.modes := by
  unfold attributeBurst
  split
  · split
    · exact modes_chargeFault ..
    · rfl
  · rfl

theorem InMode.after_handOn {t : SegNo} {c : BurstClass} {d : Decoder} {tr : Bool} (h : InMode s) :
    InMode (handOn t c d tr s).2 := by
  cases c with
  | runt => exact h.after_faultEvent
  | garble => exact h.after_faultEvent
  | check => exact h.after_faultEvent.same (modes_attributeBurst ..)
  | good =>
    have counted : InMode (goodEvent (portOfSeg t) s) := h.same (modes_goodEvent ..)
    simp only [handOn]
    split
    · split
      · exact counted.same (modes_bridgeTrunk ..)
      · exact counted
    · exact counted
  | none => exact h
  | inProgress => exact h
  | jabber => exact h
  | abandoned => exact h

theorem InMode.after_cutBurst {t : SegNo} {edges : Nat} (h : InMode s) : InMode (cutBurst t edges s) :=
  InMode.after_jabberEvent (h.same (modes_releaseIfHolder t (s.modSeg t (Segment.cut edges))))

theorem InMode.after_burstFall {t : SegNo} {dt edges : Nat} {cells : List Bool} (h : InMode s) :
    InMode (burstFall t dt edges cells s).2 := by
  have fed : InMode (feedDecoder t cells (s.advance dt)) := h.same (modes_feedDecoder t cells (s.advance dt))
  simp only [burstFall]
  split
  · split
    · have cut := fed.after_cutBurst (t := t) (edges := edges)
      simp only
      split
      · exact cut.same rfl
      · exact cut
    · exact InMode.after_handOn (fed.same (modes_releaseIfHolder t (State.modSeg _ t _)))
  · exact h.same rfl

theorem InMode.after_jabberCut {t : SegNo} {edges : Nat} (h : InMode s) : InMode (jabberCut t edges s) := by
  unfold jabberCut
  split
  · exact InMode.after_cutBurst (s := s.atJabber t) (h.same rfl)
  · exact h

theorem InMode.after_terminatorEdge {t : SegNo} (h : InMode s) : InMode (terminatorEdge t s) := by
  have turned : InMode (terminatorTurned t s) := h.same rfl
  have flagged : InMode (terminatorFlagged t s) := turned.same (modes_setFlag ..)
  cases d : (s.seg t).differing with
  | false => simpa only [terminatorEdge, d, Bool.not_false, if_true] using h
  | true =>
    by_cases still : (s.port (portOfSeg t)).state = .off ∨ edgeIgnored t s
    · rw [terminatorEdge_ignored d still]
      exact turned
    · obtain ⟨on, acts⟩ := not_or.1 still
      rw [terminatorEdge_acts d on acts]
      split
      · exact flagged.after_terminatorTrigger
      · exact flagged

theorem modes_transmitClaim (s : State) : (transmitClaim s).modes = s.modes := by
  unfold transmitClaim
  split <;> rfl

theorem modes_transmitCompletion (s : State) : (transmitCompletion s).modes = s.modes := by
  unfold transmitCompletion
  split
  · exact modes_popTrunk (releaseRepeater s)
  · rfl

theorem modes_longQuiet (t : SegNo) (s : State) : (longQuiet t s).modes = s.modes := by
  unfold longQuiet
  split <;> rfl

/-! ## The events of the star ports (Chapter 2) -/

/-- A lost link is a fault event of a port that is not OFF (R32). -/
theorem InMode.after_linkDown {p : StarNo} (h : InMode s) : InMode (linkDown p s) := by
  have loss : ∀ x : State, InMode x → InMode (linkLossEvent p x) := fun x hx => by
    have flagged : (setFlag .linkDown p.val none (x.modStar p StarPort.abandonRx)).modes = x.modes := modes_setFlag ..
    unfold linkLossEvent
    split
    · exact hx
    · exact (hx.same flagged).after_faultEvent
  simp only [linkDown]
  split
  · refine loss _ ?_
    split
    · exact h.same (onlySends_dropRefs _ (State.modStar _ p _)).modes
    · exact h.same rfl
  · exact h

theorem modes_frameStart (p : StarNo) (s : State) : (frameStart p s).modes = s.modes := by
  unfold frameStart
  split <;> rfl

theorem InMode.after_handOnFrame {p : StarNo} {c : StarClass} {store : List Byte} (h : InMode s) :
    InMode (handOnFrame p c store s).2 := by
  have counted : InMode (s.modStar p fun x => { x with counters := x.counters.countClass c }) := h.same rfl
  cases c with
  | runt => exact counted.after_faultEvent
  | check =>
    simp only [handOnFrame, attributeFrame]
    split
    · exact counted.after_faultEvent.same (modes_chargeFault ..)
    · exact counted.after_faultEvent
  | good =>
    have good := counted.same (modes_goodEvent (portOfStar p) _)
    simp only [handOnFrame]
    split
    · exact good.same (modes_bridgeStar ..)
    · exact good

theorem InMode.after_frameEnd {p : StarNo} {bytes : List Byte} (h : InMode s) : InMode (frameEnd p bytes s).2 := by
  have ended : InMode (s.modStar p StarPort.abandonRx) := h.same rfl
  simp only [frameEnd]
  split
  · exact h
  · exact ended
  · exact ended.after_handOnFrame

theorem modes_sendStart (p : StarNo) (s : State) : (sendStart p s).modes = s.modes := by
  simp only [sendStart]
  split
  · rfl
  · split <;> rfl

theorem modes_sendCompletion (p : StarNo) (s : State) : (sendCompletion p s).modes = s.modes := by
  unfold sendCompletion
  split <;> rfl

/-! ## The ticks and what they bring (Chapters 5 and 7), and alerts (Chapter 10) -/

theorem modes_modPresence (f : PresenceCounters → PresenceCounters) (s : State) : (s.modPresence f).modes = s.modes := rfl

theorem modes_selectAll (s : State) : (selectAll s).modes = s.modes := (arbiterOnly_selectAll s).modes

theorem modes_presenceQuery (c : DeskCode) (s : State) : (presenceQuery c s).modes = s.modes := by
  unfold presenceQuery
  split
  · rfl
  · split
    · simp only
      split
      · next sent => exact (onlySends_sendBuilt sent).modes
      · rfl
    · rfl

theorem modes_aging (c : DeskCode) (s : State) : (aging c s).modes = s.modes := by
  unfold aging
  split
  · rfl
  · split
    · exact (modes_modPresence ..).trans (modes_removeEntry .silent c s)
    · rfl

theorem modes_becomesAbsent (c : DeskCode) (s : State) : (becomesAbsent c s).modes = s.modes := by
  unfold becomesAbsent
  split
  · rfl
  · split
    · exact (modes_modPresence ..).trans (arbiterOnly_removeTicketsOf .silent c (s.modEntry c _)).modes
    · rfl

theorem modes_quarantineEnd (c : DeskCode) (s : State) : (quarantineEnd c s).modes = s.modes := by
  unfold quarantineEnd
  split
  · rfl
  · split <;> rfl

theorem modes_oneSecondTick (s : State) : (oneSecondTick s).modes = s.modes := by
  unfold oneSecondTick presenceSecond printSecond
  split
  · split
    · exact (modes_selectAll _).trans (arbiterOnly_printersSecond s).modes
    · rfl
  · split <;> rfl

theorem modes_oneMillisecondTick (tick : MsTick) (s : State) : (oneMillisecondTick tick s).modes = s.modes := by
  have ports : (oneMillisecondTick tick s).sup.ports = s.sup.ports := by
    simp only [oneMillisecondTick]
    split <;> rfl
  simp only [State.modes, State.port, ports]
  rfl

theorem modes_idleExpiry (q : QueueNo) (s : State) : (idleExpiry q s).modes = s.modes := by
  unfold idleExpiry
  split
  · rfl
  · split
    · exact (modes_selectAll _).trans (arbiterOnly_abandonAndTell q _ (s.modPrinter q _)).modes
    · rfl

theorem modes_formHoldReached (q : QueueNo) (s : State) : (formHoldReached q s).modes = s.modes := by
  unfold formHoldReached
  split
  · rfl
  · exact modes_selectAll (s.modPrinter q _)

theorem modes_alertSend (s : State) : (alertSend s).modes = s.modes := by
  simp only [alertSend]
  split
  · rfl
  · split
    · rfl
    · next sent =>
      have same := (onlySends_sendBuilt sent).modes
      split <;> exact same

/-! ## Print messages (Section 7.4) -/

theorem modes_sendAnswer (d : Dest) (a : PrintAnswer) (q n : Byte) (s : State) : (sendAnswer d a q n s).modes = s.modes :=
  (onlySends_sendAnswer d a q n s).modes

theorem modes_handleOpen (q : QueueNo) (form : Fin 16) (label : List Byte) (r : Route) (s : State) :
    (handleOpen q form label r s).modes = s.modes := by
  unfold handleOpen
  split
  · exact (modes_sendAnswer ..).trans (arbiterOnly_selectFor ..).modes
  · rfl
  · exact (modes_selectAll _).trans (modes_sendAnswer ..)

theorem modes_handleData (q : QueueNo) (n : Byte) (bytes : List Byte) (b : BufId) (r : Route) (s : State) :
    (handleData q n bytes b r s).modes = s.modes := by
  unfold handleData
  split
  · exact modes_sendAnswer ..
  · exact modes_sendAnswer ..
  · next d _ => exact (onlySends_deliver b d (s.modBuf b _)).modes

theorem modes_handleClose (q : QueueNo) (n : Byte) (r : Route) (s : State) : (handleClose q n r s).modes = s.modes := by
  unfold handleClose
  split
  · exact modes_sendAnswer ..
  · split
    · exact (modes_sendAnswer ..).trans (arbiterOnly_endGrant ..).modes
    · exact (modes_sendAnswer ..).trans (arbiterOnly_dropWaiting ..).modes

theorem modes_handleCancel (q : QueueNo) (n : Byte) (r : Route) (s : State) : (handleCancel q n r s).modes = s.modes := by
  unfold handleCancel
  split
  · exact modes_sendAnswer ..
  · split
    · exact (modes_sendAnswer ..).trans (arbiterOnly_endGrant ..).modes
    · exact (modes_sendAnswer ..).trans (arbiterOnly_dropWaiting ..).modes

theorem modes_handleStatus (online : Bool) (form : Fin 16) (credit : Nat) (r : Route) (s : State) :
    (handleStatus online form credit r s).modes = s.modes := by
  unfold handleStatus
  split
  · exact modes_sendAnswer ..
  · simp only
    split
    · rfl
    · exact modes_setFlag ..

/-! ## How a request is taken (Section 9.2) -/

theorem InMode.after_answerRequest {before : State} {q : Request} {r : Route} {reply : Reply} (h : InMode reply.state) :
    InMode (answerRequest before q r reply) := h.same (arbiterOnly_answerRequest before q r reply).modes

/-- The stages of a request keep the ports within their mode if its effect does. -/
theorem InMode.after_stages {α : Type} {read : Bool} {held : α → State → Bool} {params : Option α}
    {effect : α → State → Reply} {r : Route} (h : InMode s) (he : ∀ a, InMode (effect a s).state) :
    InMode (stages read held params effect r s).state := by
  unfold stages
  split
  · exact h
  · split
    · exact h.same rfl
    · split
      · exact h.same rfl
      · exact he _

theorem InMode.after_staged {α : Type} {mine : Request → Bool} {read : Bool} {held : α → State → Bool}
    {parse : Request → Option α} {effect : α → State → Reply} (h : InMode s)
    (he : ∀ a x, InMode x → InMode (effect a x).state) :
    InMode (request mine (fun q r => stages read held (parse q) effect r) s) := by
  unfold request
  split
  · exact h
  · next e _ _ =>
    split
    · exact h
    · split
      · have taken : InMode (takeControl e s) := h.same rfl
        exact (taken.after_stages fun a => he a _ taken).after_answerRequest
      · exact h

theorem InMode.after_withPort {b : Byte} {g : PortNo → Reply} (h : InMode s) (hg : ∀ q, InMode (g q).state) :
    InMode (withPort b s g).state := by
  unfold withPort
  split
  · exact hg _
  · exact h

theorem modes_withQueue {b : Byte} {g : QueueNo → Reply} (hg : ∀ q, (g q).state.modes = s.modes) :
    (withQueue b s g).state.modes = s.modes := by
  unfold withQueue
  split
  · exact hg _
  · rfl

theorem modes_withConfigured {b : Byte} {g : QueueNo → Reply} (hg : ∀ q, (g q).state.modes = s.modes) :
    (withConfigured b s g).state.modes = s.modes :=
  modes_withQueue fun q => by
    split
    · exact hg q
    · rfl

theorem modes_withEntry {c : Byte} {g : Entry → Reply} (hg : ∀ e, (g e).state.modes = s.modes) :
    (withEntry c s g).state.modes = s.modes := by
  unfold withEntry
  split
  · split
    · exact hg _
    · rfl
  · rfl

/-! ## Requests that may commission the bridge (R83 to R86, R184, R185, R206) -/

theorem modes_makeFixed (f : FixPlan) (s : State) : (makeFixed f s).modes = s.modes := by
  unfold makeFixed
  split
  · rfl
  · split
    · rfl
    · split
      · rfl
      · exact (modes_setFlag ..).trans (modes_displaceProxy ..)

theorem InMode.after_fixEntry {q : FixReq} (h : InMode s) : InMode (fixEntry q s).state := by
  unfold fixEntry
  split
  · exact h
  · split
    · exact h
    · refine InMode.after_commission (h.same ?_)
      split
      · exact modes_makeFixed _ (State.toPool (State.dropEntry (renameRequester _ _ s) _) _)
      · exact modes_makeFixed ..

theorem InMode.after_acceptOffice {p : OfficePlan} (h : InMode s) : InMode (acceptOffice p s).state := by
  unfold acceptOffice
  split
  · exact h
  · have start : InMode (s.takeOffice p) := h.same rfl
    exact InMode.after_commission (start.after_foldl fun _ _ hx => hx.after_actOnEnable)

theorem InMode.after_acceptTrunk {p : TrunkReq} (h : InMode s) : InMode (acceptTrunk p s).state := by
  have start : InMode (s.takeTrunk p) :=
    InMode.after_foldl (h.same rfl) fun x t hx => hx.same (modes_modPort (f := PortRec.stage p.settings) (fun _ => rfl) x)
  exact InMode.after_commission (start.after_foldl fun _ _ hx => hx.after_actOnEnable)

/-! ## Requests on ports (R133, R134, R137) -/

theorem InMode.after_forceIsolate {b : Byte} (h : InMode s) : InMode (forceIsolate b s).state := by
  refine h.after_withPort fun q => ?_
  split
  · exact h
  · exact h
  all_goals exact h.after_holdByOrder

theorem InMode.after_forceReadmit {b : Byte} (h : InMode s) : InMode (forceReadmit b s).state := by
  refine h.after_withPort fun q => ?_
  split
  · exact h
  · exact h.after_readmitByOrder
  · exact h.after_readmitByOrder
  · exact h.after_readmitByOrder
  · exact h
  · exact h

theorem InMode.after_setEnable {x : Byte × Bool} (h : InMode s) : InMode (setEnable x s).state :=
  h.after_withPort fun q => InMode.after_actOnEnable (h.same (modes_writeEnable q x.2 s))

/-! ## The other requests -/

theorem modes_releaseEntry (c : Byte) (s : State) : (releaseEntry c s).state.modes = s.modes :=
  modes_withEntry fun _ => by
    split
    · rfl
    · split
      · rfl
      · exact modes_removeEntry .tell c s

theorem modes_resumeEntry (c : Byte) (s : State) : (resumeEntry c s).state.modes = s.modes :=
  modes_withEntry fun e => by
    simp only [done]
    split <;> rfl

theorem modes_clearLearned (s : State) : (clearLearned s).state.modes = s.modes :=
  modes_foldl (fun x c => modes_removeEntry .tell c x) _ s

theorem modes_enableQueue (q : QueueNo) (old new : Bool) (s : State) : (enableQueue q old new s).modes = s.modes := by
  cases old <;> cases new
  · rfl
  · rfl
  · exact (arbiterOnly_removeQueueTickets q (s.modPrinter q _)).modes
  · rfl

theorem modes_setPrinter (p : PrinterReq) (s : State) : (setPrinter p s).state.modes = s.modes :=
  modes_withQueue fun q => by
    split
    · rfl
    · simp only [done, modes_selectAll]
      exact modes_enableQueue q _ _ (s.modPrinter q _)

theorem modes_formLoaded (x : Byte × Byte) (s : State) : (formLoaded x s).state.modes = s.modes :=
  modes_withConfigured fun q => by
    simp only [done, modes_selectAll]
    rfl

theorem modes_purgeQueue (b : Byte) (s : State) : (purgeQueue b s).state.modes = s.modes :=
  modes_withConfigured fun q => by
    simp only [doneWith, modes_selectAll]
    exact (arbiterOnly_removeQueueTickets q s).modes

theorem modes_cancelTicket (x : Byte × Byte) (s : State) : (cancelTicket x s).state.modes = s.modes :=
  modes_withQueue fun q => by
    split
    · rfl
    · next t _ =>
      simp only [done, modes_selectAll]
      split
      · exact (arbiterOnly_abandonAndTell q t s).modes
      · exact (arbiterOnly_cancelWaiting .tell q t s).modes

theorem modes_setAlerts (c : AlertConfig) (s : State) : (setAlerts c s).state.modes = s.modes := by
  unfold setAlerts
  split <;> rfl

theorem modes_clearAlerts (items : List (AlertKind × Byte)) (s : State) : (clearAlerts items s).state.modes = s.modes := by
  unfold clearAlerts
  split <;> rfl

theorem modes_readSegment (edges : Nat) (b : Byte) (s : State) : (readSegment edges b s).state.modes = s.modes := by
  unfold readSegment
  split
  · rfl
  · split <;> rfl

theorem modes_readPort (bytes : List Byte) (b : Byte) (s : State) : (readPort bytes b s).state.modes = s.modes := by
  unfold readPort
  split
  · rfl
  · split
    · rfl
    · simp only [noteBytes]
      split <;> rfl

theorem InMode.after_unknownOperation (h : InMode s) : InMode (unknownOperation s) := by
  unfold unknownOperation
  split
  · exact h
  · split
    · exact h.same rfl
    · split
      · exact h
      · exact InMode.after_answerRequest (h.same rfl)

/-! ## SAVE and RESTART (R186, R187, R207) -/

theorem InMode.after_takeSave (h : InMode s) : InMode (takeSave s) := by
  unfold takeSave
  split
  · exact h
  · next e _ _ =>
    split
    · exact h
    · next q _ =>
      split
      · have staged : InMode (stages false alwaysHeld (noParams q.params)
            (fun _ s => done (startSave q.tag e.route s)) e.route (takeControl e s)).state :=
          InMode.after_stages (h.same rfl) fun _ => h.same rfl
        simp only
        split
        · exact staged
        · exact staged.after_answerRequest
      · exact h

theorem modes_completeSave (verified : Bool) (s : State) : (completeSave verified s).modes = s.modes := by
  unfold completeSave
  split
  · rfl
  · simp only
    split
    · exact (onlySends_sendControl ..).modes
    · exact (onlySends_sendControl ..).modes.trans (modes_setFlag ..)

theorem InMode.after_takeRestart {factory : Bool} {mine : Request → Bool} (h : InMode s) :
    InMode (takeRestart factory mine s) := by
  unfold takeRestart
  split
  · exact h
  · next e _ _ =>
    split
    · exact h
    · next q _ =>
      split
      · simp only
        split
        · split
          · exact inMode_startUp _
          · exact inMode_startUp _
        · refine InMode.after_answerRequest (InMode.after_stages (h.same rfl) fun _ => ?_)
          exact h.same rfl
      · exact h

end

end Sys2Proof.Machine
end

