-- ==== Sys2Proof/Proofs/ModesKept.lean ====
section
/-!
The obligation on the states of the ports (R109, R112, R138): every command keeps them within the mode of the bridge, so
every step does.
-/

namespace Sys2Proof.Machine

/-- The ports are within the mode of the bridge in the state that a command answers. -/
def EndsInMode (o : Host.Outcome State Fault Refusal) : Prop := ∀ u, o = .next u → InMode u

section
variable {s : State}

theorem endsInMode_next (h : InMode s) : EndsInMode (.next s) := by
  rintro u ⟨⟩
  exact h

/-! ## How a command is taken -/

theorem InMode.after_settle {before : State} (h : InMode s) : InMode (settle before s) :=
  h.same (arbiterOnly_settle before s).modes

theorem InMode.ends_event {f : State → State} (h : InMode s) (hf : ∀ x, InMode x → InMode (f x)) :
    EndsInMode (event f s) := by
  refine endsInMode_next ?_
  split
  · exact (hf s h).after_settle
  · exact h

/-- An event that leaves the modes. -/
theorem InMode.ends_plainEvent {f : State → State} (h : InMode s) (hf : ∀ x, (f x).modes = x.modes) :
    EndsInMode (event f s) := h.ends_event fun x hx => hx.same (hf x)

theorem InMode.ends_lineEvent {m f : State → State} (h : InMode s) (hm : ∀ x, (m x).modes = x.modes)
    (hf : ∀ x, InMode x → InMode (f x)) : EndsInMode (lineEvent m f s) := by
  refine endsInMode_next ?_
  split
  · exact (hf _ (h.same (hm s))).after_settle
  · exact h.same (hm s)

theorem InMode.ends_bridgingEvent {m : State → State} {f : State → Option BufId × State} (h : InMode s)
    (hm : ∀ x, (m x).modes = x.modes) (hf : ∀ x, InMode x → InMode (f x).2) : EndsInMode (bridgingEvent m f s) := by
  refine endsInMode_next ?_
  split
  · exact (hf _ (h.same (hm s))).after_settle.same (onlySends_endHold _ _).modes
  · exact h.same (hm s)

theorem InMode.ends_requestEvent {f : State → State} (h : InMode s) (hf : ∀ x, InMode x → InMode (f x)) :
    EndsInMode (requestEvent f s) := by
  refine endsInMode_next ?_
  split
  · exact hf s h
  · exact h

/-- A request judged by its stages. -/
theorem InMode.ends_staged {α : Type} {mine : Request → Bool} {read : Bool} {held : α → State → Bool}
    {parse : Request → Option α} {effect : α → State → Reply} (h : InMode s)
    (he : ∀ a x, InMode x → InMode (effect a x).state) :
    EndsInMode (requestEvent (request mine (fun q r => stages read held (parse q) effect r)) s) :=
  h.ends_requestEvent fun _ hx => hx.after_staged he

/-- A request whose effect leaves the modes. -/
theorem InMode.ends_plainRequest {α : Type} {mine : Request → Bool} {read : Bool} {held : α → State → Bool}
    {parse : Request → Option α} {effect : α → State → Reply} (h : InMode s)
    (he : ∀ a x, (effect a x).state.modes = x.modes) :
    EndsInMode (requestEvent (request mine (fun q r => stages read held (parse q) effect r)) s) :=
  h.ends_staged fun a x hx => hx.same (he a x)

/-- A request that changes one port's record in other fields than its state (R131, R135, R136). -/
theorem InMode.after_record {b : Byte} {f : PortRec → PortRec} (h : InMode s) (still : ∀ r, (f r).state = r.state) :
    InMode (withPort b s fun q => done (s.modPort q f)).state :=
  h.after_withPort fun _ => h.same (modes_modPort still s)

/-- A print message taken from the head of its queue. -/
theorem modes_takePrint {e : InputEntry} {f : State → State} (hf : ∀ x, (f x).modes = x.modes) (s : State) :
    (takePrint e f s).modes = s.modes := (onlySends_dropRef e.buf _).modes.trans (hf (popPrint s))

/-- A print message handled and followed by selection. -/
theorem modes_print {e : InputEntry} {f : State → State} (hf : ∀ x, (f x).modes = x.modes) (s : State) :
    (takePrint e (fun x => selectAll (f x)) s).modes = s.modes :=
  modes_takePrint (fun x => (modes_selectAll _).trans (hf x)) s

/-! ## The commands -/

theorem InMode.ends_print (h : InMode s) :
    EndsInMode (execPrintOpen s) ∧ EndsInMode (execPrintData s) ∧ EndsInMode (execPrintClose s)
      ∧ EndsInMode (execPrintCancel s) ∧ EndsInMode (execPrintStatus s) ∧ EndsInMode (execPrintMalformed s) := by
  refine ⟨h.ends_plainEvent fun x => ?_, h.ends_plainEvent fun x => ?_, h.ends_plainEvent fun x => ?_,
    h.ends_plainEvent fun x => ?_, h.ends_plainEvent fun x => ?_, h.ends_plainEvent fun x => ?_⟩
  · split
    · exact modes_takePrint (modes_handleOpen _ _ _ _) x
    · rfl
  · split
    · exact modes_print (modes_handleData _ _ _ _ _) x
    · rfl
  · split
    · exact modes_print (modes_handleClose _ _ _) x
    · rfl
  · split
    · exact modes_print (modes_handleCancel _ _ _) x
    · rfl
  · split
    · exact modes_print (modes_handleStatus _ _ _ _) x
    · rfl
  · split
    · exact modes_print (modes_sendAnswer _ _ _ _) x
    · rfl

/-- A start-up sets every port by its enable and its mode, and the ports of a part that stands still are OFF. -/
theorem InMode.ends_supply (h : InMode s) :
    EndsInMode (execPowerOn s) ∧ EndsInMode (execPanelResetAsserted s) ∧ EndsInMode (execPanelRestart s)
      ∧ ∀ b, EndsInMode (execSupplyLoss b s) := by
  refine ⟨endsInMode_next ?_, endsInMode_next ?_, endsInMode_next ?_, fun b => endsInMode_next ?_⟩
  · split
    · exact (inMode_standStill .held s).same rfl
    · exact inMode_startUp _
  · split
    · exact h.same rfl
    · exact inMode_standStill _ _
  · split
    · split
      · exact inMode_startUp _
      · exact inMode_startUp _
    · exact h.same rfl
    · exact h.same rfl
  · split
    · exact (inMode_standStill .unpowered s).same rfl
    · exact inMode_standStill _ _

/-- Every command keeps the ports within the mode of the bridge. -/
theorem InMode.ends_exec (c : Instr) (h : InMode s) : EndsInMode (exec c s) := by
  obtain ⟨opened, data, close, cancel, status, malformed⟩ := h.ends_print
  obtain ⟨on, asserted, released, loss⟩ := h.ends_supply
  unfold exec
  cases c with
  | burstRise t dt =>
    refine endsInMode_next ?_
    split
    · exact (h.same (modes_burstRise t dt s)).after_settle
    · exact h.same rfl
  | headerEvent t dt cells =>
    refine h.ends_plainEvent fun x => ?_
    split
    · exact modes_feedDecoder t cells (x.advance dt)
    · rfl
  | burstFall t dt edges cells =>
    exact h.ends_bridgingEvent (modes_carrierFalls t .burst) fun _ => InMode.after_burstFall
  | jabberCut t edges => exact h.ends_event fun _ => InMode.after_jabberCut
  | continuationFall t dt =>
    refine h.ends_lineEvent (modes_carrierFalls t .continuation) fun x hx => ?_
    split <;> exact hx.same rfl
  | longQuiet t => exact h.ends_plainEvent (modes_longQuiet t)
  | terminatorEdge t => exact h.ends_event fun _ => InMode.after_terminatorEdge
  | transmitClaim dt => exact h.ends_plainEvent fun x => modes_transmitClaim (x.advance dt)
  | transmitCompletion dt => exact h.ends_plainEvent fun x => modes_transmitCompletion (x.advance dt)
  | linkUp p => exact h.ends_lineEvent (fun _ => rfl) fun _ hx => hx.same rfl
  | linkDown p => exact h.ends_lineEvent (fun _ => rfl) fun _ => InMode.after_linkDown
  | frameStart p => exact h.ends_lineEvent (fun _ => rfl) fun x hx => hx.same (modes_frameStart p x)
  | frameEnd p bytes => exact h.ends_bridgingEvent (fun _ => rfl) fun _ => InMode.after_frameEnd
  | sendStart p => exact h.ends_plainEvent (modes_sendStart p)
  | sendCompletion p => exact h.ends_plainEvent (modes_sendCompletion p)
  | fold =>
    refine h.ends_event fun x hx => ?_
    split
    · exact hx.after_foldAll
    · exact hx
  | presenceQuery c => exact h.ends_plainEvent (modes_presenceQuery c)
  | aging c => exact h.ends_plainEvent (modes_aging c)
  | becomesAbsent c => exact h.ends_plainEvent (modes_becomesAbsent c)
  | quarantineEnd c => exact h.ends_plainEvent (modes_quarantineEnd c)
  | idleExpiry q => exact h.ends_plainEvent (modes_idleExpiry q)
  | formHoldReached q => exact h.ends_plainEvent (modes_formHoldReached q)
  | alertSend => exact h.ends_plainEvent modes_alertSend
  | printOpen => exact opened
  | printData => exact data
  | printClose => exact close
  | printCancel => exact cancel
  | printStatus => exact status
  | printMalformed => exact malformed
  | statusRead => exact h.ends_plainRequest fun _ _ => rfl
  | segmentRead dt edges =>
    exact h.ends_requestEvent fun x hx => InMode.after_staged (s := x.advance dt) (hx.same rfl) fun b y hy =>
      hy.same (modes_readSegment edges b y)
  | portRead bytes => exact h.ends_plainRequest (modes_readPort bytes)
  | countersRead =>
    refine h.ends_plainRequest fun b x => ?_
    unfold readCounters
    split
    · split <;> rfl
    · split <;> rfl
  | directoryRead =>
    refine h.ends_plainRequest fun b x => ?_
    unfold readDirectory
    split <;> rfl
  | directoryFind =>
    refine h.ends_plainRequest fun b x => ?_
    unfold findStation
    split <;> rfl
  | queueRead =>
    refine h.ends_plainRequest fun b x => ?_
    unfold readQueue
    split <;> rfl
  | accountRead =>
    refine h.ends_plainRequest fun b x => ?_
    unfold readAccount
    split <;> rfl
  | entryFix => exact h.ends_staged fun _ _ => InMode.after_fixEntry
  | entryRelease => exact h.ends_plainRequest modes_releaseEntry
  | entrySuspend => exact h.ends_plainRequest fun _ _ => modes_withEntry fun _ => rfl
  | entryResume => exact h.ends_plainRequest modes_resumeEntry
  | clearLearned => exact h.ends_plainRequest fun _ => modes_clearLearned
  | segmentSet => exact h.ends_staged fun a _ hx => hx.after_record (f := PortRec.stage a.2) fun _ => rfl
  | segmentForceIsolate dt =>
    exact h.ends_requestEvent fun x hx => InMode.after_staged (s := x.elapse dt) (hx.same rfl) fun _ _ =>
      InMode.after_forceIsolate
  | segmentForceReadmit dt =>
    exact h.ends_requestEvent fun x hx => InMode.after_staged (s := x.advance dt) (hx.same rfl) fun _ _ =>
      InMode.after_forceReadmit
  | segmentForceExemptOn => exact h.ends_staged fun _ _ hx => hx.after_record fun _ => rfl
  | segmentForceExemptOff => exact h.ends_staged fun _ _ hx => hx.after_record fun _ => rfl
  | segmentForceClear => exact h.ends_staged fun _ _ hx => hx.after_record (f := PortRec.wiped) fun _ => rfl
  | portEnable dt =>
    exact h.ends_requestEvent fun x hx => InMode.after_staged (s := x.elapse dt) (hx.same rfl) fun _ _ =>
      InMode.after_setEnable
  | printerSet => exact h.ends_plainRequest modes_setPrinter
  | formLoaded => exact h.ends_plainRequest modes_formLoaded
  | queuePurge => exact h.ends_plainRequest modes_purgeQueue
  | ticketCancel => exact h.ends_plainRequest modes_cancelTicket
  | accountSnapshot => exact h.ends_plainRequest fun _ _ => rfl
  | alertSet => exact h.ends_plainRequest modes_setAlerts
  | alertClear => exact h.ends_plainRequest modes_clearAlerts
  | officePlan => exact h.ends_staged fun _ _ => InMode.after_acceptOffice
  | trunkPlan dt =>
    exact h.ends_requestEvent fun x hx => InMode.after_staged (s := x.elapse dt) (hx.same rfl) fun _ _ =>
      InMode.after_acceptTrunk
  | save => exact h.ends_requestEvent fun _ => InMode.after_takeSave
  | saveCompletion v => exact h.ends_plainEvent (modes_completeSave v)
  | restartKeep => exact h.ends_requestEvent fun _ => InMode.after_takeRestart
  | restartFactory => exact h.ends_requestEvent fun _ => InMode.after_takeRestart
  | clearCauses => exact h.ends_plainRequest fun _ _ => rfl
  | unknownOperation => exact h.ends_requestEvent fun _ => InMode.after_unknownOperation
  | powerOn => exact on
  | panelResetAsserted => exact asserted
  | panelRestart => exact released
  | oneSecondTick => exact h.ends_plainEvent modes_oneSecondTick
  | oneMillisecondTick tick => exact h.ends_plainEvent (modes_oneMillisecondTick tick)
  | closingCarrierFall t dt =>
    refine h.ends_lineEvent (modes_carrierFalls t .closing) fun x hx => ?_
    unfold closingFall
    split <;> exact hx.same rfl
  | supplyLoss b => exact loss b

/-- Every step keeps the ports within the mode of the bridge. -/
theorem InMode.after_step {u : State} (h : InMode s) (hs : step s = .next u) : InMode u := by
  unfold step at hs
  split at hs
  · exact endsInMode_next h u hs
  · next rest _ => exact InMode.ends_exec _ (InMode.same (t := s.withPending rest) h rfl) u hs

end

/-- Settles O57: the modes walked through every command. -/
theorem modeStatesKept : Obligations.ModeStatesKept := fun _ _ h hs =>
  inMode_iff.1 ((inMode_iff.2 h).after_step hs)

end Sys2Proof.Machine
end

