-- ==== Sys2Proof/Proofs/FaultEvents.lean ====
section
/-!
The fault event of a port: the count, and the immediate trigger of the running score (R110 to R112, R128).
-/

namespace Sys2Proof.Machine

/-- A trigger of the running score isolates the port: it is ACTIVE or PROBATION, not exempt, and its running score stands
at the isolate threshold or above (R112). -/
def PortRec.TriggersByScore (r : PortRec) : Prop :=
  (r.state = .active ∨ r.state = .probation) ∧ r.exempt = false ∧ r.current.isolate ≤ r.running

/-- The fault event by whether the counted record triggers. -/
theorem faultEvent_of_trigger {k : FaultKind} {q : PortNo} {s : State} (h : ((s.port q).count k).TriggersByScore) :
    faultEvent k q s = isolatePort q (s.modPort q (PortRec.count k)) := by
  obtain ⟨state, exempt, score⟩ := h
  refine if_pos ?_
  rw [State.port_modPort_self, Bool.and_eq_true, PortRec.triggerable_iff, decide_eq_true_eq]
  exact ⟨⟨state, exempt⟩, score⟩

theorem faultEvent_of_no_trigger {k : FaultKind} {q : PortNo} {s : State} (h : ¬ ((s.port q).count k).TriggersByScore) :
    faultEvent k q s = s.modPort q (PortRec.count k) := by
  refine if_neg fun trigger => h ?_
  rw [State.port_modPort_self, Bool.and_eq_true, PortRec.triggerable_iff, decide_eq_true_eq] at trigger
  obtain ⟨⟨state, exempt⟩, score⟩ := trigger
  exact ⟨state, exempt, score⟩

/-- A change of one port's record is the placing of the changed record. -/
theorem State.modPort_eq_const (s : State) (q : PortNo) (f : PortRec → PortRec) :
    s.modPort q f = s.modPort q (fun _ => f (s.port q)) := rfl

/-- An isolation leaves PORT_ISOLATED set for its port (R128). -/
theorem flagOf_isolatePort_self (q : PortNo) (s : State) : (flagOf (isolatePort q s) .portIsolated q.val).isSome = true := by
  rw [isolatePort]
  exact isSome_flagOf_setFlag _ _ _ _

/-- Settles O15. -/
theorem faultEventMayIsolate : Obligations.FaultEventMayIsolate := by
  intro k q s
  refine ⟨fun h => ?_, fun h => (faultEvent_of_no_trigger h).trans (s.modPort_eq_const q _)⟩
  have run := faultEvent_of_trigger h
  have record : (faultEvent k q s).port q = ((s.port q).count k).afterIsolation := by
    rw [run, port_isolatePort, if_pos rfl, State.port_modPort_self]
  have flag := flagOf_isolatePort_self q (s.modPort q (PortRec.count k))
  rw [← run] at flag
  rw [record]
  exact ⟨rfl, rfl, rfl, rfl, rfl, rfl, flag, fun v apart => port_faultEvent_ne k apart s⟩

end Sys2Proof.Machine
end

