-- ==== Sys2Proof/Proofs/Staging.lean ====
section
/-!
SEGMENT_SET: the nine settings, clamped with the thresholds as a pair, wait on their port for its fold (R131).
-/

namespace Sys2Proof.Machine

theorem parseSegmentSet_cons {rest : List Byte} {v : Settings} (parsed : settingsOf rest = some v) (b : Byte) :
    parseSegmentSet (b :: rest) = some (b, v.clamped) := by
  rw [parseSegmentSet, parsed]
  rfl

/-- The thresholds are clamped as a pair: the warning threshold keeps below the isolate threshold (R131). -/
theorem Settings.clamped_thresholds (v : Settings) :
    1 ≤ v.clamped.warn ∧ v.clamped.warn < v.clamped.isolate ∧ v.clamped.isolate ≤ 1023 := by
  simp only [Settings.clamped, clamp]
  omega

section
variable {s : State} {e : InputEntry} {tag : BitVec 16} {params : List Byte}

/-- SEGMENT_SET in its form, from a permitted sender, comes to its effect and the answer. -/
theorem exec_segmentSet {x : Byte × Settings} (asks : Asks s e 14#8 tag params) (free : Free s e)
    (parsed : parseSegmentSet params = some x) :
    let reply := setSegment x (takeControl e s)
    exec .segmentSet s = .next (answered e 14#8 tag reply.status reply.results (settle s reply.state)) :=
  exec_staged brings_id asks free.1 (command := .segmentSet) (mine := isOp 14) (parse := parseSegmentSet)
    (held := alwaysHeld) (effect := setSegment) rfl rfl parsed (.inr free.2)

end

/-- A change of a port's record that keeps its state leaves the arbiter no share. -/
theorem settle_modPort_of_state {before s : State} {q : PortNo} {f : PortRec → PortRec}
    (still : ∀ r, (f r).state = r.state)
    (entries : s.dir.entries = before.dir.entries) (ports : ∀ r, s.port r = before.port r)
    (links : ∀ p, (s.starPort p).link = (before.starPort p).link) : settle before (s.modPort q f) = s.modPort q f := by
  refine settle_of_states entries (fun r => ?_) links
  rw [State.port_modPort, ← ports r]
  split
  · exact still _
  · rfl

/-- Settles O37. -/
theorem settingsAreStaged : Obligations.SettingsAreStaged := by
  intro e tag q rest v s asks free parsed
  refine ⟨?_, v.clamped_thresholds⟩
  rw [exec_segmentSet asks free (parseSegmentSet_cons parsed _)]
  have effect : setSegment (BitVec.ofNat 8 q.val, v.clamped) (takeControl e s)
      = done ((takeControl e s).modPort q (PortRec.stage v.clamped)) := withPort_port q _ _
  have share : settle s ((takeControl e s).modPort q (PortRec.stage v.clamped))
      = (takeControl e s).modPort q (PortRec.stage v.clamped) :=
    settle_modPort_of_state (fun _ => rfl) rfl (fun _ => rfl) fun _ => rfl
  rw [effect]
  exact congrArg (fun x => Host.Outcome.next (answered e 14#8 tag .done [] x)) share

end Sys2Proof.Machine
end

