-- ==== Sys2Proof/Proofs/StartUpLoad.lean ====
section
/-!
The start-up load (R140, R202): what each judgement of the image gives, and the state of every port after it.
-/

namespace Sys2Proof.Machine

/-! ## The three judgements of the image -/

theorem startUp_of_blank {s : State} (h : s.chassis.store.judge = .blank) :
    startUp s = loadConfig StoredConfig.default false s := by
  rw [startUp, h]

theorem startUp_of_invalid {s : State} (h : s.chassis.store.judge = .invalid) :
    startUp s = loadConfig StoredConfig.default true s := by
  rw [startUp, h]

theorem startUp_of_valid {s : State} {c : StoredConfig} (h : s.chassis.store.judge = .valid c) :
    startUp s = loadConfig c false s := by
  rw [startUp, h]

/-- A loaded configuration is commissioned with its mark and a FIXED admin entry (R202). -/
theorem loadsCommissioned_iff (c : StoredConfig) :
    loadsCommissioned c = true ↔ c.commissioned = true ∧ ∃ f ∈ c.fixed, f.admin = true := by
  rw [loadsCommissioned, Bool.and_eq_true, List.any_eq_true]

/-! ## The ports after a load -/

section
variable (c : StoredConfig) (fault : Bool) (s : State) (q : PortNo)

theorem port_loadConfig : (loadConfig c fault s).port q = loadPort (loadsCommissioned c) (c.enable q) c.ports[q.val] :=
  Vector.getElem_ofFn _

theorem portEnabled_loadConfig : portEnabled (loadConfig c fault s) q = c.enable q := rfl

/-- Every port is OFF, ACTIVE or OPEN by its enable and the commissioned mark, with nothing held against it (R140). -/
theorem port_state_loadConfig : ((loadConfig c fault s).port q).state =
    if portEnabled (loadConfig c fault s) q = false then .off
    else if (loadConfig c fault s).ctl.commissioned then .active else .openMode := by
  rw [port_loadConfig, portEnabled_loadConfig, loadPort]
  cases c.enable q with
  | false => rfl
  | true => rfl

end

/-- Settles O49. -/
theorem startUpLoadsTheStore : Obligations.StartUpLoadsTheStore := by
  intro s
  refine ⟨fun blank => ?_, fun invalid => ?_, fun c valid => ?_, fun q => ?_, startUp_acct s, ?_, startUp_isRunning s⟩
  · rw [startUp_of_blank blank]
    exact ⟨rfl, rfl, rfl⟩
  · rw [startUp_of_invalid invalid]
    exact ⟨rfl, rfl, rfl⟩
  · rw [startUp_of_valid valid]
    exact ⟨rfl, rfl, rfl, loadsCommissioned_iff c⟩
  · obtain ⟨c, fault, load⟩ := startUp_eq_loadConfig s
    rw [load]
    refine ⟨port_state_loadConfig c fault s q, ?_⟩
    rw [port_loadConfig]
    exact ⟨rfl, rfl⟩
  · rw [startUp_chassis]

end Sys2Proof.Machine
end

