-- ==== Sys2Proof/Proofs/PortVerdict.lean ====
section
/-!
The fold of one port as a function of its record: the verdict by the port's state (R124, R128, R130), and the record after
all nine stages (R120 to R127).
-/

namespace Sys2Proof.Machine

/-! ## The verdict on a record -/

/-- The record of a port readmitted at the end of its probation (R130). -/
def PortRec.readmitted (r : PortRec) : PortRec :=
  { r with state := .active, probationRemaining := 0, clean := 0, readmissions := bump r.readmissions }

/-- The record of a port after the verdict of its fold (R124). -/
def PortRec.judged (restarts : Bool) (r : PortRec) : PortRec :=
  match r.state with
  | .active => if r.exempt = false ∧ r.current.isolate ≤ r.score then r.afterIsolation else r
  | .probation =>
    if r.probationRemaining - 1 = 0 then
      if r.exempt = true ∨ r.score < r.current.warn then r.readmitted else r.afterIsolation
    else { r with probationRemaining := r.probationRemaining - 1 }
  | .isolated =>
    if r.holdRemaining - 1 = 0 then
      if restarts then { r with holdRemaining := r.holdLength }
      else { r with state := .probation, holdRemaining := r.holdRemaining - 1, probationRemaining := r.current.probation }
    else { r with holdRemaining := r.holdRemaining - 1 }
  | .openMode | .held | .off => r

section
variable {restarts : Bool} {r : PortRec}

theorem PortRec.judged_of_active (h : r.state = .active) :
    r.judged restarts = if r.exempt = false ∧ r.current.isolate ≤ r.score then r.afterIsolation else r := by
  simp only [PortRec.judged, h]

theorem PortRec.judged_of_probation (h : r.state = .probation) :
    r.judged restarts = if r.probationRemaining - 1 = 0 then
        if r.exempt = true ∨ r.score < r.current.warn then r.readmitted else r.afterIsolation
      else { r with probationRemaining := r.probationRemaining - 1 } := by
  simp only [PortRec.judged, h]

theorem PortRec.judged_of_isolated (h : r.state = .isolated) :
    r.judged restarts = if r.holdRemaining - 1 = 0 then
        if restarts then { r with holdRemaining := r.holdLength }
        else { r with
          state := .probation, holdRemaining := r.holdRemaining - 1, probationRemaining := r.current.probation }
      else { r with holdRemaining := r.holdRemaining - 1 } := by
  simp only [PortRec.judged, h]

theorem PortRec.judged_of_standing (h : r.state = .openMode ∨ r.state = .held ∨ r.state = .off) :
    r.judged restarts = r := by
  rcases h with h | h | h <;> simp only [PortRec.judged, h]

/-- What a verdict changes of a record. -/
theorem PortRec.judged_eq (restarts : Bool) (r : PortRec) : r.judged restarts = { r with
    state := (r.judged restarts).state, k := (r.judged restarts).k, holdLength := (r.judged restarts).holdLength,
    holdRemaining := (r.judged restarts).holdRemaining, probationRemaining := (r.judged restarts).probationRemaining,
    clean := (r.judged restarts).clean, isolations := (r.judged restarts).isolations,
    readmissions := (r.judged restarts).readmissions } := by
  cases state : r.state with
  | active => rw [PortRec.judged_of_active state]; split <;> rfl
  | probation =>
    rw [PortRec.judged_of_probation state]
    split
    · split <;> rfl
    · rfl
  | isolated =>
    rw [PortRec.judged_of_isolated state]
    split
    · split <;> rfl
    · rfl
  | openMode => rw [PortRec.judged_of_standing (.inl state)]
  | held => rw [PortRec.judged_of_standing (.inr (.inl state))]
  | off => rw [PortRec.judged_of_standing (.inr (.inr state))]

end

/-! ## The verdict on the state -/

/-- A verdict counts on the port's record, and may isolate or readmit the port or put it in probation. -/
theorem verdict_induction {P : State → Prop} {q : PortNo} {s : State} (same : P s) (counted : ∀ f, P (s.modPort q f))
    (isolated : ∀ x, P x → P (isolatePort q x)) (readmitted : ∀ x, P x → P (readmitPort q x))
    (probation : ∀ f g, P (setPortState q .probation ((s.modPort q f).modPort q g))) : P (verdict q s) := by
  simp only [verdict]
  split
  · split
    · exact isolated _ same
    · exact same
  · split
    · split
      · exact readmitted _ (counted _)
      · exact isolated _ (counted _)
    · exact counted _
  · split
    · split
      · exact counted _
      · exact probation _ _
    · exact counted _
  all_goals exact same

theorem port_readmitPort (q r : PortNo) (s : State) : (readmitPort q s).port r =
    if r = q then { s.port r with state := .active, clean := 0, readmissions := bump (s.port r).readmissions }
    else s.port r := by
  rw [readmitPort, (arbiterOnly_setFlag _ _ _ _).port, port_setPortState, State.port_modPort]
  split <;> rfl

theorem verdict_of_standing {q : PortNo} {s : State}
    (h : (s.port q).state = .openMode ∨ (s.port q).state = .held ∨ (s.port q).state = .off) : verdict q s = s := by
  rcases h with h | h | h <;> simp only [verdict, h]

/-- The record of the port that is folded, after its verdict. -/
theorem port_verdict_self (q : PortNo) (s : State) : (verdict q s).port q = (s.port q).judged (holdRestarts q s) := by
  cases state : (s.port q).state with
  | active =>
    rw [PortRec.judged_of_active state]
    simp only [verdict, state, Bool.and_eq_true, Bool.not_eq_true', decide_eq_true_eq]
    split
    · rw [port_isolatePort, if_pos rfl]
    · rfl
  | probation =>
    rw [PortRec.judged_of_probation state]
    simp only [verdict, state, Bool.or_eq_true, decide_eq_true_eq]
    split
    · next last =>
      split
      · rw [port_readmitPort, if_pos rfl, State.port_modPort_self, last]; rfl
      · rw [port_isolatePort, if_pos rfl, State.port_modPort_self]; rfl
    · rw [State.port_modPort_self, ← state]
  | isolated =>
    rw [PortRec.judged_of_isolated state]
    simp only [verdict, state]
    split
    · split
      · rw [State.port_modPort_self, ← state]
      · rw [port_setPortState, if_pos rfl, State.port_modPort_self, State.port_modPort_self]
    · rw [State.port_modPort_self, ← state]
  | openMode => rw [verdict_of_standing (.inl state), PortRec.judged_of_standing (.inl state)]
  | held => rw [verdict_of_standing (.inr (.inl state)), PortRec.judged_of_standing (.inr (.inl state))]
  | off => rw [verdict_of_standing (.inr (.inr state)), PortRec.judged_of_standing (.inr (.inr state))]

/-- A hold restarts on a segment that is unterminated under the LOSS action ISOLATE and not exempt (R124). -/
theorem holdRestarts_iff (q : PortNo) (s : State) : holdRestarts q s = true ↔
    ∃ t : SegNo, q = portOfSeg t ∧ (s.seg t).unterminated = true ∧ (s.segPlans[t.val]).loss = .isolate
      ∧ (s.port q).exempt = false := by
  rcases port_cases q with ⟨t, rfl⟩ | ⟨p, rfl⟩
  · simp only [holdRestarts, splitPort_portOfSeg, Bool.and_eq_true, decide_eq_true_eq, Bool.not_eq_true', portOfSeg_inj,
      and_assoc, exists_eq_left']
  · simp only [holdRestarts, splitPort_portOfStar, Bool.false_eq_true, portOfStar_ne_portOfSeg, false_and, exists_false]

/-! ## The nine stages on a record -/

/-- The record of a port after its fold, by its utilisation and by whether its hold restarts (R120). -/
def PortRec.folded (u : Option Nat) (restarts : Bool) (r : PortRec) : PortRec :=
  (cleanStage (decide (r.state = .active)) (addition u r) ((r.scored u).judged restarts)).clearCounts.adopt

theorem PortRec.warn_eq (r : PortRec) : r.warn = { r with
    warning := if r.current.warn ≤ r.score then true else if r.score < r.current.warn / 2 then false else r.warning } := by
  unfold PortRec.warn
  split
  · rfl
  · split <;> rfl

theorem PortRec.scored_eq (u : Option Nat) (r : PortRec) : r.scored u = { r with
    lastU := u, score := min 1023 (decayed r.score + addition u r), warning := (r.scored u).warning } := by
  rw [PortRec.scored, PortRec.warn_eq]

theorem cleanStage_eq (was : Bool) (a : Nat) (r : PortRec) :
    cleanStage was a r = { r with k := (cleanStage was a r).k, clean := (cleanStage was a r).clean } := by
  unfold cleanStage
  split
  · split
    · split <;> rfl
    · rfl
  · rfl

theorem PortRec.adopt_eq (r : PortRec) :
    r.adopt = { r with current := if r.pending then r.staged else r.current, pending := false } := by
  unfold PortRec.adopt
  split
  · rfl
  · next h => rw [← Bool.eq_false_iff.2 h]

/-- A fold scores a port, judges it, keeps its clean count, clears its counts and adopts its settings. -/
theorem PortRec.folded_eq (u : Option Nat) (restarts : Bool) (r : PortRec) :
    let x := (r.scored u).judged restarts
    let y := cleanStage (decide (r.state = .active)) (addition u r) x
    r.folded u restarts = { r.scored u with
      state := x.state, k := y.k, holdLength := x.holdLength, holdRemaining := x.holdRemaining,
      probationRemaining := x.probationRemaining, clean := y.clean, isolations := x.isolations,
      readmissions := x.readmissions, nRunt := 0, nGarble := 0, nCheck := 0, nLink := 0, nGood := 0, attributed := 0,
      current := if r.pending then r.staged else r.current, pending := false } := by
  have judged := PortRec.judged_eq restarts (r.scored u)
  have scored := PortRec.scored_eq u r
  simp only [PortRec.folded]
  rw [PortRec.adopt_eq, cleanStage_eq, judged, scored]
  rfl

end Sys2Proof.Machine
end

