-- ==== Sys2Proof/Proofs/PortFolds.lean ====
section
/-!
FOLD (R119 to R122, R127): what the fold of one port leaves to the folds of the others, so that every port is scored from the
state at the expiry of the period timer.
-/

namespace Sys2Proof.Machine

/-! ## What a port's fold leaves to the others -/

/-- State `u` differs from `s` by traffic at most, with the clock, the period, the input queues, the drop counters, the
records of the ports other than `q`, and their segments but for the drive, as they stand. -/
structure LeavesOthers (q : PortNo) (s u : State) : Prop where
  traffic : TrafficOnly s u
  chassis : u.chassis = s.chassis
  inputs : u.inputs = s.inputs
  drops : u.drops = s.drops
  period : u.sup.period = s.sup.period
  port : ∀ p, p ≠ q → u.port p = s.port p
  seg : ∀ t, q ≠ portOfSeg t → (s.seg t).DriveOnly (u.seg t)

section
variable {q p : PortNo} {s t u : State}

theorem LeavesOthers.refl (q : PortNo) (s : State) : LeavesOthers q s s :=
  ⟨.refl s, rfl, rfl, rfl, rfl, fun _ _ => rfl, fun _ _ => .refl _⟩

theorem LeavesOthers.trans (h : LeavesOthers q s t) (k : LeavesOthers q t u) : LeavesOthers q s u :=
  ⟨h.traffic.trans k.traffic, k.chassis.trans h.chassis, k.inputs.trans h.inputs, k.drops.trans h.drops,
    k.period.trans h.period, fun p apart => (k.port p apart).trans (h.port p apart),
    fun v apart => (h.seg v apart).trans (k.seg v apart)⟩

theorem LeavesOthers.of_channelOnly (h : ChannelOnly s u) (port : ∀ p, p ≠ q → u.port p = s.port p)
    (seg : ∀ t, q ≠ portOfSeg t → (s.seg t).DriveOnly (u.seg t)) : LeavesOthers q s u := by
  obtain ⟨-, -, -, chassis, inputs, drops, period, -, -⟩ := h.planStands
  exact ⟨h.traffic, chassis, inputs, drops, period, port, seg⟩

theorem leavesOthers_modPort (q : PortNo) (f : PortRec → PortRec) (s : State) : LeavesOthers q s (s.modPort q f) :=
  .of_channelOnly (channelOnly_modPort q f s) (fun _ apart => State.port_modPort_ne s f apart) fun _ _ => .refl _

theorem ArbiterOnly.leavesOthers (h : ArbiterOnly s u) : LeavesOthers q s u :=
  .of_channelOnly h.channel (fun p _ => h.port p) fun t _ => by rw [h.seg]; exact .refl _

theorem leavesOthers_setFlag (k : AlertKind) (i : Nat) (d : Option Byte) (s : State) : LeavesOthers q s (setFlag k i d s) :=
  (arbiterOnly_setFlag k i d s).leavesOthers

theorem leavesOthers_setPortState (q : PortNo) (new : SupState) (s : State) : LeavesOthers q s (setPortState q new s) :=
  .of_channelOnly (channelOnly_setPortState q new s) (fun p apart => by rw [port_setPortState, if_neg apart])
    fun _ apart => seg_setPortState_ne apart new s

theorem leavesOthers_isolatePort (q : PortNo) (s : State) : LeavesOthers q s (isolatePort q s) :=
  ((leavesOthers_modPort q _ s).trans (leavesOthers_setPortState q _ _)).trans (leavesOthers_setFlag ..)

theorem leavesOthers_readmitPort (q : PortNo) (s : State) : LeavesOthers q s (readmitPort q s) :=
  ((leavesOthers_modPort q _ s).trans (leavesOthers_setPortState q _ _)).trans (leavesOthers_setFlag ..)

/-! ## The stages of a port's fold -/

/-- Stages 1 to 5 of a port's fold: its score, and the WARNING alert where the warning flag rises (R121 to R123). -/
def scoreStage (q : PortNo) (s : State) : State :=
  let s1 := s.modPort q (PortRec.scored (foldUtil q s))
  if (s1.port q).warning && !(s.port q).warning then setFlag .warning q.val none s1 else s1

/-- The state that stage 8 of a port's fold is given: scored, judged and with its clean count kept. -/
def judgedStage (q : PortNo) (s : State) : State :=
  (verdict q (scoreStage q s)).modPort q
    (cleanStage (decide ((s.port q).state = .active)) (addition (foldUtil q s) (s.port q)))

theorem foldPort_eq (q : PortNo) (s : State) :
    foldPort q s = clearStage q (culpritStage q (s.port q).state (judgedStage q s)) := rfl

theorem arbiterOnly_scoreStage (q : PortNo) (s : State) :
    ArbiterOnly (s.modPort q (PortRec.scored (foldUtil q s))) (scoreStage q s) := by
  unfold scoreStage
  simp only
  split
  · exact arbiterOnly_setFlag ..
  · exact .refl _

theorem leavesOthers_scoreStage (q : PortNo) (s : State) : LeavesOthers q s (scoreStage q s) :=
  (leavesOthers_modPort q _ s).trans (arbiterOnly_scoreStage q s).leavesOthers

theorem leavesOthers_verdict (q : PortNo) (s : State) : LeavesOthers q s (verdict q s) :=
  verdict_induction (.refl q s) (fun f => leavesOthers_modPort q f s)
    (fun x h => h.trans (leavesOthers_isolatePort q x)) (fun x h => h.trans (leavesOthers_readmitPort q x))
    fun f g => ((leavesOthers_modPort q f s).trans (leavesOthers_modPort q g _)).trans (leavesOthers_setPortState q _ _)

theorem leavesOthers_judgedStage (q : PortNo) (s : State) : LeavesOthers q s (judgedStage q s) :=
  ((leavesOthers_scoreStage q s).trans (leavesOthers_verdict q _)).trans (leavesOthers_modPort q _ _)

/-- Culprit attribution changes the directory, the Alert Unit and its own counter alone (R126). -/
theorem suspendCulprit_frame (c : DeskCode) (s : State) : suspendCulprit c s = { s with
    dir := (suspendCulprit c s).dir, alerts := (suspendCulprit c s).alerts,
    sup := { s.sup with checkSuspensions := (suspendCulprit c s).sup.checkSuspensions } } := by
  unfold suspendCulprit
  split
  · rfl
  · split
    · have frame := suspendTimed_frame .check c s
      rw [frame]
    · rfl

/-- The entries under a list of codes are suspended as culprits. -/
def suspendCulprits (codes : List DeskCode) (s : State) : State := codes.foldl (fun x c => suspendCulprit c x) s

/-- The codes of a port's culprits, in the order of the directory (R126). -/
def culpritCodes (q : PortNo) (s : State) : List DeskCode :=
  (s.dir.entries.filter (isCulprit q s.office.faultLimit (s.port q).attributed)).map Entry.code

theorem culpritStage_eq (q : PortNo) (old : SupState) (s : State) : culpritStage q old s =
    if s.ctl.commissioned && (decide (old = .active) || decide (old = .probation)) then
      suspendCulprits (culpritCodes q s) s
    else s := rfl

theorem suspendCulprits_frame (codes : List DeskCode) (s : State) : suspendCulprits codes s = { s with
    dir := (suspendCulprits codes s).dir, alerts := (suspendCulprits codes s).alerts,
    sup := { s.sup with checkSuspensions := (suspendCulprits codes s).sup.checkSuspensions } } := by
  induction codes generalizing s with
  | nil => rfl
  | cons c codes ih =>
    have rest := ih (suspendCulprit c s)
    rw [suspendCulprit_frame] at rest
    rw [suspendCulprits, List.foldl_cons, suspendCulprit_frame]
    exact rest

theorem culpritStage_frame (q : PortNo) (old : SupState) (s : State) : culpritStage q old s = { s with
    dir := (culpritStage q old s).dir, alerts := (culpritStage q old s).alerts,
    sup := { s.sup with checkSuspensions := (culpritStage q old s).sup.checkSuspensions } } := by
  rw [culpritStage_eq]
  split
  · exact suspendCulprits_frame _ s
  · rfl

theorem leavesOthers_culpritStage (q : PortNo) (old : SupState) (s : State) : LeavesOthers q s (culpritStage q old s) := by
  have traffic := trafficOnly_culpritStage q old s
  rw [culpritStage_frame] at traffic ⊢
  exact ⟨traffic, rfl, rfl, rfl, rfl, fun _ _ => rfl, fun _ _ => .refl _⟩

theorem port_culpritStage (q p : PortNo) (old : SupState) (s : State) : (culpritStage q old s).port p = s.port p := by
  rw [culpritStage_frame]
  rfl

theorem port_clearStage (q p : PortNo) (s : State) :
    (clearStage q s).port p = if p = q then (s.port p).clearCounts.adopt else s.port p := by
  have cleared : (clearStage q s).port p = (s.modPort q fun r => r.clearCounts.adopt).port p := by
    unfold clearStage
    split <;> rfl
  rw [cleared, State.port_modPort]

theorem leavesOthers_clearStage (q : PortNo) (s : State) : LeavesOthers q s (clearStage q s) := by
  have traffic := trafficOnly_clearStage q s
  have port : ∀ p, p ≠ q → (clearStage q s).port p = s.port p := fun p apart => by rw [port_clearStage, if_neg apart]
  rcases port_cases q with ⟨t, rfl⟩ | ⟨p, rfl⟩
  · simp only [clearStage, splitPort_portOfSeg] at traffic port ⊢
    refine ⟨traffic, rfl, rfl, rfl, rfl, port, fun v apart => ?_⟩
    rw [State.seg_modSeg_ne _ _ fun e => apart (by rw [e])]
    exact .refl _
  · simp only [clearStage, splitPort_portOfStar] at traffic port ⊢
    exact ⟨traffic, rfl, rfl, rfl, rfl, port, fun _ _ => .refl _⟩

theorem leavesOthers_foldPort (q : PortNo) (s : State) : LeavesOthers q s (foldPort q s) := by
  rw [foldPort_eq]
  exact ((leavesOthers_judgedStage q s).trans (leavesOthers_culpritStage q _ _)).trans (leavesOthers_clearStage q _)

/-! ## The record of the port that is folded -/

theorem port_scoreStage_self (q : PortNo) (s : State) : (scoreStage q s).port q = (s.port q).scored (foldUtil q s) := by
  rw [(arbiterOnly_scoreStage q s).port, State.port_modPort_self]

/-- The score changes nothing that a restart of the hold goes by. -/
theorem holdRestarts_scoreStage (q : PortNo) (s : State) : holdRestarts q (scoreStage q s) = holdRestarts q s := by
  have record := port_scoreStage_self q s
  have exempt : ((scoreStage q s).port q).exempt = (s.port q).exempt := by rw [record, PortRec.scored_eq]
  have share := arbiterOnly_scoreStage q s
  have seg : (scoreStage q s).seg = s.seg := funext share.seg
  simp only [holdRestarts, exempt, seg, share.segPlans]
  rfl

theorem port_judgedStage_self (q : PortNo) (s : State) : (judgedStage q s).port q =
    cleanStage (decide ((s.port q).state = .active)) (addition (foldUtil q s) (s.port q))
      (((s.port q).scored (foldUtil q s)).judged (holdRestarts q s)) := by
  rw [judgedStage, State.port_modPort_self, port_verdict_self, holdRestarts_scoreStage, port_scoreStage_self]

/-- The record of a port after its fold (R120). -/
theorem port_foldPort_self (q : PortNo) (s : State) :
    (foldPort q s).port q = (s.port q).folded (foldUtil q s) (holdRestarts q s) := by
  rw [foldPort_eq, port_clearStage, if_pos rfl, port_culpritStage, port_judgedStage_self]
  rfl

/-! ## The folds of all ports -/

theorem Segment.DriveOnly.settleBusy {g h : Segment} (d : g.DriveOnly h) (now : Nat) :
    (h.settleBusy now).busy = (g.settleBusy now).busy := by
  have busy : h.busy = g.busy := by rw [d.eq]
  have busyFrom : h.busyFrom = g.busyFrom := by rw [d.eq]
  have carrier : h.inCarrier = g.inCarrier := by rw [Segment.inCarrier, d.phase]; rfl
  simp only [Segment.settleBusy_eq, carrier, busy, busyFrom]

/-- What a port's fold goes by stands through the fold of another. -/
theorem LeavesOthers.foldPort (h : LeavesOthers p s u) (apart : q ≠ p) :
    (Machine.foldPort q u).port q = (Machine.foldPort q s).port q := by
  have record := h.port q apart
  obtain ⟨-, -, -, plans, -⟩ := (trafficOnly_iff s u).1 h.traffic
  have same : foldUtil q u = foldUtil q s ∧ holdRestarts q u = holdRestarts q s := by
    rcases port_cases q with ⟨t, rfl⟩ | ⟨v, rfl⟩
    · have seg := h.seg t apart.symm
      simp only [foldUtil, holdRestarts, splitPort_portOfSeg, h.chassis, h.period, seg.settleBusy, seg.unterminated, plans,
        record, and_self]
    · simp only [foldUtil, holdRestarts, splitPort_portOfStar, and_self]
  obtain ⟨util, restarts⟩ := same
  rw [port_foldPort_self, port_foldPort_self, record, util, restarts]

/-- The folds of a list of ports leave the input queues and the drop counters. -/
theorem folds_stand (l : List PortNo) (s : State) :
    (l.foldl (fun x q => Machine.foldPort q x) s).inputs = s.inputs
    ∧ (l.foldl (fun x q => Machine.foldPort q x) s).drops = s.drops :=
  ⟨foldl_keeps _ State.inputs (fun x q => (leavesOthers_foldPort q x).inputs) l s,
    foldl_keeps _ State.drops (fun x q => (leavesOthers_foldPort q x).drops) l s⟩

theorem port_folds_of_notMem {l : List PortNo} (out : q ∉ l) (s : State) :
    (l.foldl (fun x q => Machine.foldPort q x) s).port q = s.port q := by
  induction l generalizing s with
  | nil => rfl
  | cons p l ih =>
    obtain ⟨apart, out⟩ := not_or.1 (mt List.mem_cons.2 out)
    rw [List.foldl_cons, ih out, (leavesOthers_foldPort p s).port q apart]

/-- Every port that is folded once is folded as it would be alone. -/
theorem port_folds_of_mem {l : List PortNo} (once : l.Nodup) (mem : q ∈ l) (s : State) :
    (l.foldl (fun x q => Machine.foldPort q x) s).port q = (Machine.foldPort q s).port q := by
  induction l generalizing s with
  | nil => exact absurd mem List.not_mem_nil
  | cons p l ih =>
    obtain ⟨fresh, once⟩ := List.nodup_cons.1 once
    rw [List.foldl_cons]
    by_cases same : q = p
    · subst same
      exact port_folds_of_notMem fresh _
    · rw [ih once ((List.mem_cons.1 mem).resolve_left same), (leavesOthers_foldPort p s).foldPort same]

end

end Sys2Proof.Machine
end

