-- ==== Sys2Proof/Proofs/PeriodFold.lean ====
section
/-!
FOLD as an equation of the state, and every port's score, counts and settings after it (R119 to R122, R127).
-/

namespace Sys2Proof.Machine

/-! ## The arithmetic of a fold -/

/-- The weighted fault count of a port after the relief that its utilisation brings GARBLE; a load threshold of 100 grants
none (R122). -/
def PortRec.relievedTally (u : Option Nat) (r : PortRec) : Nat :=
  match u with
  | some x => if r.current.loadThreshold < 100 ∧ r.current.loadThreshold ≤ x then
      r.rawTally - r.current.wGarble * r.nGarble / 2 else r.rawTally
  | none => r.rawTally

theorem relieved_iff (threshold u : Nat) : relieved threshold u = true ↔ threshold < 100 ∧ threshold ≤ u := by
  rw [relieved, Bool.and_eq_true, decide_eq_true_eq, decide_eq_true_eq]

/-- A port in service adds its tally. -/
theorem addition_of_counting {r : PortRec} (h : r.state = .openMode ∨ r.state = .active ∨ r.state = .probation)
    (u : Option Nat) : addition u r = r.relievedTally u := by
  cases u with
  | none => rcases h with h | h | h <;> simp only [addition, h, PortRec.relievedTally]
  | some x => rcases h with h | h | h <;> simp only [addition, h, PortRec.relievedTally, relieved_iff]

theorem addition_of_idle {r : PortRec} (h : r.state = .isolated ∨ r.state = .held ∨ r.state = .off) (u : Option Nat) :
    addition u r = 0 := by
  rcases h with h | h | h <;> simp only [addition, h]

/-- The addition of a fold: ISOLATED, HELD and OFF add nothing (R122). -/
theorem addition_eq (u : Option Nat) (r : PortRec) : addition u r =
    if r.state = .isolated ∨ r.state = .held ∨ r.state = .off then 0 else r.relievedTally u := by
  split
  · next idle => exact addition_of_idle idle u
  · next idle =>
    refine addition_of_counting ?_ u
    cases state : r.state <;> simp [state] at idle ⊢

theorem PortRec.folded_score (u : Option Nat) (restarts : Bool) (r : PortRec) :
    (r.folded u restarts).score = min 1023 (decayed r.score + addition u r) := by
  rw [PortRec.folded_eq, PortRec.scored_eq]

/-- The counts, the utilisation and the settings of a port after its fold (R121, R127). -/
theorem PortRec.folded_period (u : Option Nat) (restarts : Bool) (r : PortRec) :
    let v := r.folded u restarts
    v.nRunt = 0 ∧ v.nGarble = 0 ∧ v.nCheck = 0 ∧ v.nLink = 0 ∧ v.nGood = 0 ∧ v.attributed = 0 ∧ v.lastU = u
    ∧ v.pending = false ∧ v.current = (if r.pending then r.staged else r.current) ∧ v.staged = r.staged
    ∧ v.exempt = r.exempt := by
  intro v
  have eq : v = r.folded u restarts := rfl
  rw [PortRec.folded_eq, PortRec.scored_eq] at eq
  rw [eq]
  exact ⟨rfl, rfl, rfl, rfl, rfl, rfl, rfl, rfl, rfl, rfl, rfl⟩

/-! ## The whole fold -/

/-- The end of the fold, after the folds of the twelve ports: entries with unknown home, the period and its timer. -/
def periodEnds (office : OfficePlan) (s : State) : State :=
  { s with
    dir := { s.dir with entries := s.dir.entries.map (fun e => if e.homeUnknown then e.clearPeriod else e) },
    sup := { s.sup with period := office.period, timer := periodMs office.period } }

theorem foldAll_eq (s : State) :
    foldAll s = periodEnds s.office ((List.finRange 12).foldl (fun x q => foldPort q x) s) := by
  have traffic := TrafficOnly.foldl (fun x q => foldPort q x) (fun x q => trafficOnly_foldPort q x) (List.finRange 12) s
  obtain ⟨-, -, office, -⟩ := (trafficOnly_iff _ _).1 traffic
  unfold foldAll
  generalize (List.finRange 12).foldl (fun x q => foldPort q x) s = folded at office ⊢
  rw [← office]
  rfl

/-- Every port's record after the fold is that of its own fold (R120). -/
theorem port_foldAll (s : State) (q : PortNo) :
    (foldAll s).port q = (s.port q).folded (foldUtil q s) (holdRestarts q s) := by
  rw [foldAll_eq, ← port_foldPort_self, ← port_folds_of_mem (List.nodup_finRange 12) (List.mem_finRange q) s]
  generalize (List.finRange 12).foldl (fun x q => foldPort q x) s = folded
  rfl

theorem foldAll_stands (s : State) : (foldAll s).inputs = s.inputs ∧ (foldAll s).drops = s.drops := by
  obtain ⟨inputs, drops⟩ := folds_stand (List.finRange 12) s
  rw [foldAll_eq]
  generalize (List.finRange 12).foldl (fun x q => foldPort q x) s = folded at inputs drops ⊢
  exact ⟨inputs, drops⟩

theorem exec_fold {s : State} (run : s.isRunning = true) (due : s.sup.timer = 0) :
    exec .fold s = .next (settle s (foldAll s)) := by
  show event (fun s => if s.sup.timer = 0 then foldAll s else s) s = _
  rw [event_of_running run, if_pos due]

/-- Settles O16. -/
theorem foldScoresEveryPort : Obligations.FoldScoresEveryPort := by
  intro s run due
  have share := arbiterOnly_settle s (foldAll s)
  have ends : (foldAll s).sup.period = s.office.period ∧ (foldAll s).sup.timer = (s.office.period + 1) * 50 := by
    rw [foldAll_eq]
    exact ⟨rfl, rfl⟩
  obtain ⟨inputs, drops⟩ := foldAll_stands s
  refine ⟨_, exec_fold run due, ?_, ?_, ?_, fun q => ?_⟩
  · rw [share.sup, ends.1]
  · rw [share.sup, ends.2]
  · rw [foldAll_eq]
    generalize (List.finRange 12).foldl (fun x q => foldPort q x) s = folded
    rfl
  · have record := (share.port q).trans (port_foldAll s q)
    obtain ⟨runt, garble, check, link, good, attributed, util, period⟩ :=
      PortRec.folded_period (foldUtil q s) (holdRestarts q s) (s.port q)
    have score := PortRec.folded_score (foldUtil q s) (holdRestarts q s) (s.port q)
    rw [addition_eq] at score
    rw [← record] at runt garble check link good attributed util period score
    obtain ⟨pending, current, staged, exempt⟩ := period
    exact ⟨score, runt, garble, check, link, good, attributed, util, pending, current, staged, exempt,
      (trafficOnly_foldAll s).trans share.traffic, share.inputs.trans inputs, share.drops.trans drops⟩

end Sys2Proof.Machine
end

