-- ==== Sys2Proof/Proofs/Culprits.lean ====
section
/-!
Culprit attribution in the fold of a port (R126, R127): which entries it suspends, what it leaves of the others, and the
flags that a fold sets and keeps.
-/

namespace Sys2Proof.Machine

/-! ## Flags that stay set -/

/-- Every flag set in `s` is set in `u`. -/
structure FlagsStay (s u : State) : Prop where
  isSome : ∀ k i, (flagOf s k i).isSome = true → (flagOf u k i).isSome = true

section
variable {s t u : State}

theorem FlagsStay.trans (h : FlagsStay s t) (k : FlagsStay t u) : FlagsStay s u :=
  ⟨fun a i set => k.isSome a i (h.isSome a i set)⟩

theorem FlagsStay.of_alerts (h : u.alerts = s.alerts) : FlagsStay s u :=
  ⟨fun k i set => by rwa [flagOf_congr (s := s) (by rw [h])]⟩

theorem FlagsStay.refl (s : State) : FlagsStay s s := .of_alerts rfl

theorem flagsStay_setFlag (k : AlertKind) (i : Nat) (d : Option Byte) (s : State) : FlagsStay s (setFlag k i d s) := by
  refine ⟨fun k' i' set => ?_⟩
  by_cases same : k = k' ∧ i = i'
  · obtain ⟨rfl, rfl⟩ := same
    exact isSome_flagOf_setFlag ..
  · rwa [flagOf_setFlag_ne (not_and_or.1 same)]

theorem flagsStay_modPort (q : PortNo) (f : PortRec → PortRec) (s : State) : FlagsStay s (s.modPort q f) := .of_alerts rfl

theorem flagsStay_setPortState (q : PortNo) (new : SupState) (s : State) : FlagsStay s (setPortState q new s) :=
  .of_alerts (alerts_setPortState q new s)

theorem flagsStay_isolatePort (q : PortNo) (s : State) : FlagsStay s (isolatePort q s) :=
  ((flagsStay_modPort q _ s).trans (flagsStay_setPortState q _ _)).trans (flagsStay_setFlag ..)

theorem flagsStay_readmitPort (q : PortNo) (s : State) : FlagsStay s (readmitPort q s) :=
  ((flagsStay_modPort q _ s).trans (flagsStay_setPortState q _ _)).trans (flagsStay_setFlag ..)

theorem flagsStay_verdict (q : PortNo) (s : State) : FlagsStay s (verdict q s) :=
  verdict_induction (.refl s) (fun f => flagsStay_modPort q f s) (fun x h => h.trans (flagsStay_isolatePort q x))
    (fun x h => h.trans (flagsStay_readmitPort q x))
    fun f g => ((flagsStay_modPort q f s).trans (flagsStay_modPort q g _)).trans (flagsStay_setPortState q _ _)

theorem flagsStay_suspendTimed (why : TimedReason) (c : DeskCode) (s : State) : FlagsStay s (suspendTimed why c s) := by
  unfold suspendTimed
  split
  · exact .refl s
  · split
    · refine .trans ?_ (flagsStay_setFlag ..)
      exact .of_alerts rfl
    · exact .refl s

theorem flagsStay_suspendCulprit (c : DeskCode) (s : State) : FlagsStay s (suspendCulprit c s) := by
  unfold suspendCulprit
  split
  · exact .refl s
  · split
    · exact (flagsStay_suspendTimed .check c s).trans (.of_alerts rfl)
    · exact .refl s

theorem flagsStay_suspendCulprits (codes : List DeskCode) (s : State) : FlagsStay s (suspendCulprits codes s) := by
  induction codes generalizing s with
  | nil => exact .refl s
  | cons c codes ih => exact (flagsStay_suspendCulprit c s).trans (ih _)

theorem flagsStay_culpritStage (q : PortNo) (old : SupState) (s : State) : FlagsStay s (culpritStage q old s) := by
  rw [culpritStage_eq]
  split
  · exact flagsStay_suspendCulprits _ s
  · exact .refl s

theorem flagsStay_clearStage (q : PortNo) (s : State) : FlagsStay s (clearStage q s) := by
  refine .of_alerts ?_
  unfold clearStage
  split <;> rfl

theorem flagsStay_after_scoreStage (q : PortNo) (s : State) : FlagsStay (scoreStage q s) (foldPort q s) :=
  (((flagsStay_verdict q _).trans (flagsStay_modPort q _ _)).trans (flagsStay_culpritStage q _ (judgedStage q s))).trans
    (flagsStay_clearStage q _)

end

/-! ## The suspension of a culprit -/

/-- An entry that its share of a port's faults suspends, unless an administrator has suspended it (R75, R126). -/
def Entry.asCulprit (seconds : Nat) (e : Entry) : Entry := if e.takesTimed then e.suspendedFor .check seconds else e

theorem Entry.takesTimed_iff (e : Entry) : e.takesTimed = true ↔ e.state ≠ .suspended .admin := by
  unfold Entry.takesTimed
  cases e.state with
  | suspended why => cases why <;> simp
  | active => simp
  | queried => simp
  | absent => simp

theorem Entry.asCulprit_asCulprit (seconds : Nat) (e : Entry) :
    (e.asCulprit seconds).asCulprit seconds = e.asCulprit seconds := by
  unfold Entry.asCulprit
  split
  · rfl
  · rfl

section
variable {s : State} {c d : DeskCode} {e : Entry}

/-- A culprit is suspended for CHECK and counted, and its flag is set. -/
theorem suspendCulprit_of_takes (found : findEntry s c = some e) (takes : e.takesTimed = true) :
    suspendCulprit c s = { suspendTimed .check c s with
      sup := { (suspendTimed .check c s).sup with
        checkSuspensions := bump (suspendTimed .check c s).sup.checkSuspensions } } := by
  simp only [suspendCulprit, found, if_pos takes]

theorem suspendCulprit_of_admin (found : findEntry s c = some e) (admin : ¬ e.takesTimed = true) :
    suspendCulprit c s = s := by
  simp only [suspendCulprit, found, if_neg admin]

theorem suspendCulprit_of_unknown (unknown : findEntry s c = none) : suspendCulprit c s = s := by
  simp only [suspendCulprit, unknown]

theorem findEntry_suspendCulprit_self (s : State) (c : DeskCode) :
    findEntry (suspendCulprit c s) c = (findEntry s c).map (Entry.asCulprit s.office.quarantine) := by
  cases found : findEntry s c with
  | none => rw [suspendCulprit_of_unknown found, found]; rfl
  | some e =>
    rw [Option.map_some, Entry.asCulprit]
    split
    · next takes =>
      rw [suspendCulprit_of_takes found takes]
      exact (suspendTimed_result .check found takes).1
    · next admin => rw [suspendCulprit_of_admin found admin, found]

theorem findEntry_suspendCulprit_ne (apart : d ≠ c) (s : State) : findEntry (suspendCulprit c s) d = findEntry s d := by
  cases found : findEntry s c with
  | none => rw [suspendCulprit_of_unknown found]
  | some e =>
    by_cases takes : e.takesTimed = true
    · rw [suspendCulprit_of_takes found takes, suspendTimed_of_found .check found takes]
      have flagged := findEntry_setFlag TimedReason.check.flag 0 (some c)
        (s.modEntry c (Entry.suspendedFor .check s.office.quarantine)) d
      have other := findEntry_modEntry_ne (s := s) (g := Entry.suspendedFor .check s.office.quarantine) (fun _ => id) apart
      exact flagged.trans other
    · rw [suspendCulprit_of_admin found takes]

theorem suspendCulprit_office (c : DeskCode) (s : State) : (suspendCulprit c s).office = s.office := by
  rw [suspendCulprit_frame]

/-! ## The suspensions of a list of culprits -/

theorem findEntry_suspendCulprits_of_notMem {codes : List DeskCode} (out : c ∉ codes) (s : State) :
    findEntry (suspendCulprits codes s) c = findEntry s c := by
  induction codes generalizing s with
  | nil => rfl
  | cons d codes ih =>
    obtain ⟨apart, out⟩ := not_or.1 (mt List.mem_cons.2 out)
    exact (ih out _).trans (findEntry_suspendCulprit_ne apart s)

/-- However often its code is listed, a culprit is suspended once. -/
theorem findEntry_suspendCulprits_of_mem {codes : List DeskCode} (mem : c ∈ codes) (s : State) :
    findEntry (suspendCulprits codes s) c = (findEntry s c).map (Entry.asCulprit s.office.quarantine) := by
  induction codes generalizing s with
  | nil => exact absurd mem List.not_mem_nil
  | cons d codes ih =>
    show findEntry (suspendCulprits codes (suspendCulprit d s)) c = _
    have head : c = d → findEntry (suspendCulprit d s) c = (findEntry s c).map (Entry.asCulprit s.office.quarantine) := by
      rintro rfl
      exact findEntry_suspendCulprit_self s c
    by_cases later : c ∈ codes
    · rw [ih later, suspendCulprit_office]
      by_cases same : c = d
      · rw [head same, Option.map_map]
        exact Option.map_congr fun e _ => e.asCulprit_asCulprit _
      · rw [findEntry_suspendCulprit_ne same]
    · rw [findEntry_suspendCulprits_of_notMem later, head ((List.mem_cons.1 mem).resolve_right later)]

/-- The suspension of a culprit leaves QUARANTINE set (R75, R126). -/
theorem flagOf_suspendCulprits {codes : List DeskCode} (mem : c ∈ codes) (found : findEntry s c = some e)
    (takes : e.takesTimed = true) : (flagOf (suspendCulprits codes s) .quarantine 0).isSome = true := by
  induction codes generalizing s with
  | nil => exact absurd mem List.not_mem_nil
  | cons d codes ih =>
    show (flagOf (suspendCulprits codes (suspendCulprit d s)) .quarantine 0).isSome = true
    by_cases same : c = d
    · subst same
      refine (flagsStay_suspendCulprits codes _).isSome _ _ ?_
      rw [suspendCulprit_of_takes found takes]
      exact (suspendTimed_result .check found takes).2
    · exact ih ((List.mem_cons.1 mem).resolve_left same) ((findEntry_suspendCulprit_ne same s).trans found)

end

/-! ## The culprits of a port -/

section
variable {q : PortNo} {s : State} {c : DeskCode} {e : Entry}

/-- An entry carries at least half of the attributed faults of the port it is homed on, and reaches the fault limit
(R126). -/
def CarriesFaults (q : PortNo) (s : State) (e : Entry) : Prop :=
  e.homedOn q = true ∧ s.office.faultLimit ≤ e.periodFaults ∧ (s.port q).attributed ≤ 2 * e.periodFaults

/-- Culprits are sought while commissioned, on a port that the fold finds ACTIVE or in PROBATION (R126). -/
def SeeksCulprits (q : PortNo) (s : State) : Prop :=
  s.ctl.commissioned = true ∧ ((s.port q).state = .active ∨ (s.port q).state = .probation)

theorem isCulprit_iff (q : PortNo) (s : State) (e : Entry) :
    isCulprit q s.office.faultLimit (s.port q).attributed e = true ↔ CarriesFaults q s e := by
  simp only [isCulprit, Bool.and_eq_true, decide_eq_true_eq, and_assoc, CarriesFaults]

/-- Where codes are apart, a code is a culprit's by the entry under it. -/
theorem mem_culpritCodes (apart : (s.dir.entries.map Entry.code).Nodup) (found : findEntry s c = some e) :
    c ∈ culpritCodes q s ↔ CarriesFaults q s e := by
  have member : e ∈ s.dir.entries := List.mem_of_find?_eq_some found
  simp only [culpritCodes, List.mem_map, List.mem_filter, isCulprit_iff]
  constructor
  · rintro ⟨x, ⟨mem, carries⟩, code⟩
    rwa [← List.inj_on_of_nodup_map apart mem member (code.trans (findEntry_code found).symm)]
  · exact fun carries => ⟨e, ⟨member, carries⟩, findEntry_code found⟩

/-! ## The entries after the fold of a port -/

/-- The period counts of an entry after the fold of a port (R127). -/
def Entry.periodEnded (q : PortNo) (e : Entry) : Entry := if e.homedOn q then e.clearPeriod else e

theorem Entry.periodEnded_eq (q : PortNo) (e : Entry) : e.periodEnded q = { e with
    periodFaults := if e.homedOn q then 0 else e.periodFaults,
    periodMoves := if e.homedOn q then 0 else e.periodMoves } := by
  unfold Entry.periodEnded
  split <;> rfl

theorem findEntry_clearStage (q : PortNo) (s : State) (c : DeskCode) :
    findEntry (clearStage q s) c = (findEntry s c).map (Entry.periodEnded q) := by
  have entries : (clearStage q s).dir.entries = s.dir.entries.map (Entry.periodEnded q) := by
    unfold clearStage
    split <;> rfl
  have code : ∀ e : Entry, (e.periodEnded q).code = e.code := fun e => by rw [Entry.periodEnded_eq]
  simp only [findEntry, entries, List.find?_map, Function.comp_def, code]

theorem channelOnly_judgedStage (q : PortNo) (s : State) : ChannelOnly s (judgedStage q s) :=
  (((channelOnly_modPort q _ s).trans (arbiterOnly_scoreStage q s).channel).trans (channelOnly_verdict q _)).trans
    (channelOnly_modPort q _ _)

theorem attributed_judgedStage (q : PortNo) (s : State) :
    ((judgedStage q s).port q).attributed = (s.port q).attributed := by
  rw [port_judgedStage_self, cleanStage_eq, PortRec.judged_eq, PortRec.scored_eq]

/-- The fold seeks the culprits that the state at the fold names. -/
theorem culpritCodes_judgedStage (q : PortNo) (s : State) : culpritCodes q (judgedStage q s) = culpritCodes q s := by
  obtain ⟨office, -, dir, -⟩ := (channelOnly_judgedStage q s).planStands
  rw [culpritCodes, culpritCodes, office, dir, attributed_judgedStage]

theorem commissioned_judgedStage (q : PortNo) (s : State) : (judgedStage q s).ctl.commissioned = s.ctl.commissioned :=
  (channelOnly_judgedStage q s).traffic.commissioned

theorem findEntry_judgedStage (q : PortNo) (s : State) (c : DeskCode) :
    findEntry (judgedStage q s) c = findEntry s c := by
  obtain ⟨-, -, dir, -⟩ := (channelOnly_judgedStage q s).planStands
  exact findEntry_congr (by rw [dir]) c

theorem foldPort_of_seeking (seeks : SeeksCulprits q s) :
    foldPort q s = clearStage q (suspendCulprits (culpritCodes q s) (judgedStage q s)) := by
  rw [foldPort_eq, culpritStage_eq, culpritCodes_judgedStage, commissioned_judgedStage, if_pos]
  simpa only [SeeksCulprits, Bool.and_eq_true, Bool.or_eq_true, decide_eq_true_eq] using seeks

theorem foldPort_of_not_seeking (seeks : ¬ SeeksCulprits q s) : foldPort q s = clearStage q (judgedStage q s) := by
  rw [foldPort_eq, culpritStage_eq, commissioned_judgedStage, if_neg]
  simpa only [SeeksCulprits, Bool.and_eq_true, Bool.or_eq_true, decide_eq_true_eq] using seeks

section
variable (apart : (s.dir.entries.map Entry.code).Nodup) (found : findEntry s c = some e)
include apart found

/-- A culprit of the port is suspended for CHECK, unless it is suspended for ADMIN, and its period ends. -/
theorem findEntry_foldPort_of_culprit (seeks : SeeksCulprits q s) (carries : CarriesFaults q s e) :
    findEntry (foldPort q s) c = some ((e.asCulprit s.office.quarantine).periodEnded q) := by
  obtain ⟨office, -⟩ := (channelOnly_judgedStage q s).planStands
  rw [foldPort_of_seeking seeks, findEntry_clearStage,
    findEntry_suspendCulprits_of_mem ((mem_culpritCodes apart found).2 carries), findEntry_judgedStage, office, found]
  rfl

/-- The fold leaves every other entry but for the end of its period. -/
theorem findEntry_foldPort_of_spared (spared : ¬ (SeeksCulprits q s ∧ CarriesFaults q s e)) :
    findEntry (foldPort q s) c = some (e.periodEnded q) := by
  by_cases seeks : SeeksCulprits q s
  · have out : c ∉ culpritCodes q s := fun mem => spared ⟨seeks, (mem_culpritCodes apart found).1 mem⟩
    rw [foldPort_of_seeking seeks, findEntry_clearStage, findEntry_suspendCulprits_of_notMem out, findEntry_judgedStage,
      found]
    rfl
  · rw [foldPort_of_not_seeking seeks, findEntry_clearStage, findEntry_judgedStage, found]
    rfl

/-- The suspension of a culprit sets QUARANTINE (R75). -/
theorem flagOf_foldPort_of_culprit (seeks : SeeksCulprits q s) (carries : CarriesFaults q s e)
    (takes : e.takesTimed = true) : (flagOf (foldPort q s) .quarantine 0).isSome = true := by
  rw [foldPort_of_seeking seeks]
  exact (flagsStay_clearStage q _).isSome _ _
    (flagOf_suspendCulprits ((mem_culpritCodes apart found).2 carries) ((findEntry_judgedStage q s c).trans found) takes)

end

end

end Sys2Proof.Machine
end

