-- ==== Sys2Proof/Proofs/FoldVerdict.lean ====
section
/-!
The verdict of a port's fold, row by row of its state (R124), and the stages beside it: the warning and its alert (R123),
the clean count (R125) and the culprits (R126).
-/

namespace Sys2Proof.Machine

/-! ## The rows of the verdict -/

section
variable {b : Bool} {r : PortRec}

/-- A port isolated by its fold takes its next hold (R128). -/
def PortRec.IsolatedFrom (r v : PortRec) : Prop :=
  v.state = .isolated ∧ v.k = min (r.k + 1) 6 ∧ v.holdLength = r.current.baseHold * 2 ^ (min (r.k + 1) 6 - 1)
    ∧ v.holdRemaining = v.holdLength ∧ v.probationRemaining = 0 ∧ v.clean = 0 ∧ v.isolations = bump r.isolations

theorem PortRec.isolatedFrom_afterIsolation (r : PortRec) : r.IsolatedFrom r.afterIsolation :=
  ⟨rfl, rfl, rfl, rfl, rfl, rfl, rfl⟩

theorem PortRec.judged_active_state (h : r.state = .active) :
    (r.judged b).state = if r.exempt = false ∧ r.current.isolate ≤ r.score then .isolated else .active := by
  rw [PortRec.judged_of_active h]
  split
  · rfl
  · exact h

theorem PortRec.judged_at_threshold (h : r.state = .active) (exempt : r.exempt = false)
    (score : r.current.isolate ≤ r.score) : r.IsolatedFrom (r.judged b) := by
  rw [PortRec.judged_of_active h, if_pos ⟨exempt, score⟩]
  exact r.isolatedFrom_afterIsolation

theorem PortRec.judged_active_of_below (h : r.state = .active) (below : r.exempt = true ∨ r.score < r.current.isolate) :
    r.judged b = r := by
  refine (PortRec.judged_of_active h).trans (if_neg fun isolates => ?_)
  obtain ⟨exempt, score⟩ := isolates
  rcases below with exempted | below
  · simp [exempt] at exempted
  · omega

theorem PortRec.judged_hold_runs (h : r.state = .isolated) (more : 2 ≤ r.holdRemaining) :
    (r.judged b).state = .isolated ∧ (r.judged b).holdRemaining = r.holdRemaining - 1 := by
  rw [PortRec.judged_of_isolated h, if_neg (by omega)]
  exact ⟨h, rfl⟩

theorem PortRec.judged_hold_ends (h : r.state = .isolated) (last : r.holdRemaining = 1) :
    (r.judged false).state = .probation ∧ (r.judged false).probationRemaining = r.current.probation := by
  rw [PortRec.judged_of_isolated h, last, if_pos rfl]
  exact ⟨rfl, rfl⟩

theorem PortRec.judged_hold_restarts (h : r.state = .isolated) (last : r.holdRemaining = 1) :
    (r.judged true).state = .isolated ∧ (r.judged true).holdRemaining = r.holdLength := by
  rw [PortRec.judged_of_isolated h, last, if_pos rfl, if_pos rfl]
  exact ⟨h, rfl⟩

theorem PortRec.judged_probation_runs (h : r.state = .probation) (more : 2 ≤ r.probationRemaining) :
    (r.judged b).state = .probation ∧ (r.judged b).probationRemaining = r.probationRemaining - 1
      ∧ (r.judged b).k = r.k := by
  rw [PortRec.judged_of_probation h, if_neg (by omega)]
  exact ⟨h, rfl, rfl⟩

theorem PortRec.judged_probation_ends (h : r.state = .probation) (last : r.probationRemaining = 1) :
    r.judged b = if r.exempt = true ∨ r.score < r.current.warn then r.readmitted else r.afterIsolation := by
  rw [PortRec.judged_of_probation h, last, if_pos rfl]

theorem PortRec.judged_probation_ends_state (h : r.state = .probation) (last : r.probationRemaining = 1) :
    (r.judged b).state = if r.exempt = true ∨ r.score < r.current.warn then .active else .isolated := by
  rw [PortRec.judged_probation_ends h last]
  split <;> rfl

theorem PortRec.judged_readmits (h : r.state = .probation) (last : r.probationRemaining = 1)
    (quiet : r.exempt = true ∨ r.score < r.current.warn) :
    (r.judged b).k = r.k ∧ (r.judged b).clean = 0 ∧ (r.judged b).readmissions = bump r.readmissions := by
  rw [PortRec.judged_probation_ends h last, if_pos quiet]
  exact ⟨rfl, rfl, rfl⟩

theorem PortRec.judged_fails_probation (h : r.state = .probation) (last : r.probationRemaining = 1)
    (exempt : r.exempt = false) (score : r.current.warn ≤ r.score) : r.IsolatedFrom (r.judged b) := by
  rw [PortRec.judged_probation_ends h last, if_neg]
  · exact r.isolatedFrom_afterIsolation
  · rintro (exempted | below)
    · simp [exempt] at exempted
    · omega

/-! ## The warning and the clean count -/

variable {u : Option Nat}

/-- The warning flag follows the new score, with half of its threshold to fall (R123). -/
theorem PortRec.folded_warning (u : Option Nat) (b : Bool) (r : PortRec) : (r.folded u b).warning =
    if r.current.warn ≤ (r.folded u b).score then true
    else if (r.folded u b).score < r.current.warn / 2 then false else r.warning := by
  rw [PortRec.folded_score]
  have warning : (r.folded u b).warning = (r.scored u).warning := by rw [PortRec.folded_eq]
  rw [warning, PortRec.scored, PortRec.warn_eq]

/-- The score that a fold judges is the one it leaves. -/
theorem PortRec.scored_score (u : Option Nat) (b : Bool) (r : PortRec) : (r.scored u).score = (r.folded u b).score := by
  rw [PortRec.folded_eq]

/-- What a fold makes of k and of the clean count, by the record that stage 6 leaves (R125). -/
theorem PortRec.folded_clean (u : Option Nat) (b : Bool) (r : PortRec) :
    let y := cleanStage (decide (r.state = .active)) (addition u r) ((r.scored u).judged b)
    (r.folded u b).clean = y.clean ∧ (r.folded u b).k = y.k := by
  rw [PortRec.folded_eq]
  exact ⟨rfl, rfl⟩

theorem PortRec.clean_of_addition (added : addition u r ≠ 0) : (r.folded u b).clean = 0 := by
  rw [(r.folded_clean u b).1, cleanStage, if_neg added]

/-- A clean fold of an ACTIVE port below its isolate threshold counts, and forgives k at the clean limit (R125). -/
theorem PortRec.clean_of_active (none : addition u r = 0) (h : r.state = .active)
    (below : r.exempt = true ∨ (r.folded u b).score < r.current.isolate) :
    (r.clean + 1 < r.current.cleanLimit → (r.folded u b).clean = r.clean + 1 ∧ (r.folded u b).k = r.k)
    ∧ (r.current.cleanLimit ≤ r.clean + 1 → (r.folded u b).clean = 0 ∧ (r.folded u b).k = 0) := by
  have state : (r.scored u).state = .active := (r.scored_state u).trans h
  have stays : (r.scored u).judged b = r.scored u := by
    refine PortRec.judged_active_of_below state ?_
    rw [PortRec.scored_score u b, PortRec.scored_eq]
    exact below
  have folded := r.folded_clean u b
  rw [stays, h, none, PortRec.scored_eq] at folded
  simp only [cleanStage, decide_true, if_true] at folded
  constructor
  · intro short
    rwa [if_neg (by omega)] at folded
  · intro reached
    rwa [if_pos reached] at folded

/-- A clean fold leaves the count and k of a port that is OPEN, HELD or OFF (R125). -/
theorem PortRec.clean_of_standing (none : addition u r = 0)
    (h : r.state = .openMode ∨ r.state = .held ∨ r.state = .off) :
    (r.folded u b).clean = r.clean ∧ (r.folded u b).k = r.k := by
  have state : (r.scored u).state = .openMode ∨ (r.scored u).state = .held ∨ (r.scored u).state = .off := by
    rwa [r.scored_state u]
  have inactive : r.state ≠ .active := by rcases h with h | h | h <;> simp [h]
  have folded := r.folded_clean u b
  rw [PortRec.judged_of_standing state, none, decide_eq_false inactive, PortRec.scored_eq] at folded
  exact folded

end

/-- The rise of the warning flag sets the WARNING alert of the port, and the rest of the fold keeps it (R123). -/
theorem flagOf_foldPort_of_warning {q : PortNo} {s : State} (clear : (s.port q).warning = false)
    (score : (s.port q).current.warn ≤ ((foldPort q s).port q).score) :
    (flagOf (foldPort q s) .warning q.val).isSome = true := by
  have rises : ((s.port q).scored (foldUtil q s)).warning = true := by
    rw [port_foldPort_self, PortRec.folded_score] at score
    rw [PortRec.scored, PortRec.warn_eq]
    exact if_pos score
  refine (flagsStay_after_scoreStage q s).isSome _ _ ?_
  have scored : scoreStage q s = setFlag .warning q.val none (s.modPort q (PortRec.scored (foldUtil q s))) :=
    if_pos (by rw [State.port_modPort_self, rises, clear]; rfl)
  rw [scored]
  exact isSome_flagOf_setFlag ..

/-- Settles O17. -/
theorem foldReachesItsVerdict : Obligations.FoldReachesItsVerdict := by
  intro q s
  have judged := port_verdict_self q s
  have folded := port_foldPort_self q s
  have restarts := holdRestarts_iff q s
  simp only [← restarts, judged, Bool.not_eq_true]
  refine ⟨PortRec.judged_active_state, PortRec.judged_at_threshold, PortRec.judged_hold_runs, fun h last ends => ?_,
    fun h last again => ?_, PortRec.judged_probation_runs, PortRec.judged_probation_ends_state, PortRec.judged_readmits,
    PortRec.judged_fails_probation, verdict_of_standing, ?_, flagOf_foldPort_of_warning, fun added => ?_,
    fun none h below => ?_, fun none h => ?_, (leavesOthers_foldPort q s).port, fun c e apart found => ⟨?_, ?_⟩⟩
  · rw [ends]
    exact PortRec.judged_hold_ends h last
  · rw [again]
    exact PortRec.judged_hold_restarts h last
  · rw [folded]
    exact PortRec.folded_warning ..
  · rw [folded]
    exact PortRec.clean_of_addition added
  · rw [folded] at below ⊢
    exact PortRec.clean_of_active none h below
  · rw [folded]
    exact PortRec.clean_of_standing none h
  · rintro ⟨commissioned, state, carries⟩ free
    have takes := e.takesTimed_iff.2 free
    refine ⟨?_, flagOf_foldPort_of_culprit apart found ⟨commissioned, state⟩ carries takes⟩
    rw [findEntry_foldPort_of_culprit apart found ⟨commissioned, state⟩ carries, Entry.asCulprit, if_pos takes,
      Entry.periodEnded_eq]
    rfl
  · intro spared
    rw [← Entry.periodEnded_eq]
    by_cases culprit : SeeksCulprits q s ∧ CarriesFaults q s e
    · obtain ⟨⟨commissioned, state⟩, carries⟩ := culprit
      have admin := spared.resolve_left fun innocent => innocent ⟨commissioned, state, carries⟩
      have bound : ¬ e.takesTimed = true := fun takes => e.takesTimed_iff.1 takes admin
      rw [findEntry_foldPort_of_culprit apart found ⟨commissioned, state⟩ carries, Entry.asCulprit, if_neg bound]
    · exact findEntry_foldPort_of_spared apart found culprit

end Sys2Proof.Machine
end

