-- ==== Sys2Proof/Proofs/SelectionKept.lean ====
section
/-!
What selection leaves (R153, R154). What it sends stands behind what was queued, in buffers that were free (`SendsBehind`).
Of a printer's record its state, its waiting list and its idle remaining change, with the same tickets; accounts stand, and
every flag but FORM_CHANGE (`SelectionOnly`).
-/

namespace Sys2Proof.Machine

/-! ## Transmit queues that grow -/

/-- From `s` to `u` the transmit queues grow at their tails, and no buffer but `b` is touched. -/
structure GrowsWith (b : BufId) (s u : State) : Prop where
  trunk : s.trunk.queue <+: u.trunk.queue
  star : ∀ p, (s.starPort p).queue <+: (u.starPort p).queue
  buf : ∀ v, v ≠ b → u.buf v = s.buf v

section
variable {b : BufId} {s t u : State}

theorem GrowsWith.refl (b : BufId) (s : State) : GrowsWith b s s :=
  ⟨List.prefix_rfl, fun _ => List.prefix_rfl, fun _ _ => rfl⟩

theorem GrowsWith.trans (h : GrowsWith b s t) (k : GrowsWith b t u) : GrowsWith b s u :=
  ⟨h.trunk.trans k.trunk, fun p => (h.star p).trans (k.star p), fun v ne => (k.buf v ne).trans (h.buf v ne)⟩

theorem growsWith_modBuf (b : BufId) (f : Buf → Buf) (s : State) : GrowsWith b s (s.modBuf b f) :=
  ⟨List.prefix_rfl, fun _ => List.prefix_rfl, fun _ ne => State.buf_modBuf_ne s f ne⟩

/-- A star port that is changed grows where its queue does. -/
theorem growsWith_modStar (b : BufId) (p : StarNo) (f : StarPort → StarPort) (s : State)
    (hf : (s.starPort p).queue <+: (f (s.starPort p)).queue) : GrowsWith b s (s.modStar p f) := by
  refine ⟨List.prefix_rfl, fun v => ?_, fun _ _ => rfl⟩
  rw [State.starPort_modStar]
  split
  · next same => exact same ▸ hf
  · exact List.prefix_rfl

theorem growsWith_modTrunkCounters (b : BufId) (f : TrunkCounters → TrunkCounters) (s : State) :
    GrowsWith b s (s.modTrunkCounters f) := ⟨List.prefix_rfl, fun _ => List.prefix_rfl, fun _ _ => rfl⟩

theorem growsWith_offerTrunk (b : BufId) (s : State) : GrowsWith b s (offerTrunk b s) := by
  unfold offerTrunk
  split
  · exact growsWith_modTrunkCounters b _ s
  · split
    · exact growsWith_modTrunkCounters b _ s
    · refine GrowsWith.trans (t := { s with trunk := { s.trunk with queue := s.trunk.queue ++ [b] } }) ?_
        (growsWith_modBuf b _ _)
      exact ⟨List.prefix_append .., fun _ => List.prefix_rfl, fun _ _ => rfl⟩

theorem growsWith_offerStar (p : StarNo) (b : BufId) (s : State) : GrowsWith b s (offerStar p b s) := by
  unfold offerStar
  split
  · exact growsWith_modStar b p _ s List.prefix_rfl
  · split
    · exact growsWith_modStar b p _ s List.prefix_rfl
    · exact (growsWith_modStar b p _ s (List.prefix_append ..)).trans (growsWith_modBuf b _ _)

theorem growsWith_offerStars (ps : List StarNo) (b : BufId) (s : State) : GrowsWith b s (offerStars ps b s) := by
  unfold offerStars
  induction ps generalizing s with
  | nil => exact .refl b s
  | cons p ps ih => exact (growsWith_offerStar p b s).trans (ih _)

theorem growsWith_deliver (b : BufId) (d : Dest) (s : State) : GrowsWith b s (deliver b d s) := by
  cases d with
  | trunk c => exact (growsWith_modBuf b _ s).trans (growsWith_offerTrunk b _)
  | star p x => exact (growsWith_modBuf b _ s).trans (growsWith_offerStar p b _)
  | flood x => exact (growsWith_modBuf b _ s).trans (growsWith_offerStars _ b _)
  | nowhere => exact .refl b s

theorem growsWith_sentFrame (kind : Byte) (payload : List Byte) (d : Dest) (b : BufId) (s : State) :
    GrowsWith b s (sentFrame kind payload d b s) :=
  ((growsWith_modBuf b _ s).trans (growsWith_deliver b d _)).trans (growsWith_modBuf b _ _)

end

/-! ## Frames that stand behind -/

/-- What is sent from `s` to `u` stands behind what was queued, in buffers that were free. -/
structure SendsBehind (s u : State) : Prop where
  trunk : s.trunk.queue <+: u.trunk.queue
  star : ∀ p, (s.starPort p).queue <+: (u.starPort p).queue
  buf : ∀ b, (s.buf b).refs ≠ 0 → u.buf b = s.buf b

section
variable {s t u : State}

/-- A change elsewhere in the state. -/
theorem SendsBehind.of_eq (trunk : u.trunk = s.trunk) (star : u.star = s.star) (bufs : u.bufs = s.bufs) :
    SendsBehind s u := by
  refine ⟨by rw [trunk], fun p => ?_, fun b _ => ?_⟩
  · rw [State.starPort, State.starPort, star]
  · rw [State.buf, bufs, State.buf]

theorem SendsBehind.trans (h : SendsBehind s t) (k : SendsBehind t u) : SendsBehind s u := by
  refine ⟨h.trunk.trans k.trunk, fun p => (h.star p).trans (k.star p), fun b used => ?_⟩
  have same := h.buf b used
  exact (k.buf b (by rwa [same])).trans same

/-- The buffer that is taken was free. -/
theorem refs_of_freeBuf {b : BufId} (free : freeBuf s = some b) : (s.buf b).refs = 0 := by
  simpa using List.find?_some free

theorem sendsBehind_sendBuilt {kind : Byte} {payload : List Byte} {d : Dest} (sent : sendBuilt kind payload d s = some u) :
    SendsBehind s u := by
  cases free : freeBuf s with
  | none => simp [sendBuilt, takeBuf, free] at sent
  | some b =>
    rw [sendBuilt_of_free free] at sent
    cases sent
    have grows := growsWith_sentFrame kind payload d b s
    exact ⟨grows.trunk, grows.star, fun v used => grows.buf v fun same => used (same ▸ refs_of_freeBuf free)⟩

theorem sendsBehind_sendAnswer (d : Dest) (a : PrintAnswer) (q n : Byte) (s : State) :
    SendsBehind s (sendAnswer d a q n s) := by
  unfold sendAnswer
  split
  · next sent => exact sendsBehind_sendBuilt sent
  · exact .of_eq rfl rfl rfl

theorem sendsBehind_setFlag (k : AlertKind) (i : Nat) (d : Option Byte) (s : State) : SendsBehind s (setFlag k i d s) := by
  obtain ⟨a, set, -⟩ := setFlag_eq k i d s
  rw [set]
  exact .of_eq rfl rfl rfl

theorem SendsBehind.foldl {α : Type} (f : State → α → State) (hf : ∀ s a, SendsBehind s (f s a)) (l : List α) (s : State) :
    SendsBehind s (l.foldl f s) := by
  induction l generalizing s with
  | nil => exact .of_eq rfl rfl rfl
  | cons a l ih => exact (hf s a).trans (ih _)

theorem sendsBehind_modPrinter (q : QueueNo) (f : Printer → Printer) (s : State) : SendsBehind s (s.modPrinter q f) :=
  .of_eq rfl rfl rfl

/-- What selection sends stands behind what was queued (R154). -/
theorem sendsBehind_select (o : Option (QueueNo × Nat)) (q : QueueNo) (s : State) : SendsBehind s (select o q s) := by
  unfold select
  split
  · split
    · unfold grantTicket
      simp only
      split
      · exact sendsBehind_modPrinter q _ s
      · exact (sendsBehind_modPrinter q _ s).trans (sendsBehind_sendAnswer ..)
    · unfold awaitForm
      split
      · exact .of_eq rfl rfl rfl
      · exact (sendsBehind_modPrinter q _ s).trans (sendsBehind_setFlag ..)
    · exact sendsBehind_modPrinter q _ s
  · exact .of_eq rfl rfl rfl

theorem sendsBehind_selectAll (s : State) : SendsBehind s (selectAll s) :=
  SendsBehind.foldl _ (fun s q => sendsBehind_select none q s) _ s

end

/-! ## The relation -/

/-- State `u` differs from `s` at most by what selection can change. -/
structure SelectionOnly (s u : State) : Prop where
  share : ArbiterOnly s u
  acct : u.acct = s.acct
  print : u.print = { s.print with
    printers := u.print.printers, answerLost := u.print.answerLost, endingLost := u.print.endingLost }
  printer : ∀ v, u.printer v = { s.printer v with
    state := (u.printer v).state, waiting := (u.printer v).waiting, idleRemaining := (u.printer v).idleRemaining }
  stands : ∀ v, (s.printer v).state.selectable = false → u.printer v = s.printer v
  tickets : ∀ v, (u.printer v).tickets.Perm (s.printer v).tickets
  flag : ∀ k i, k ≠ .formChange → flagOf u k i = flagOf s k i
  stay : FlagsStay s u

theorem SelectionOnly.trans {s t u : State} (h : SelectionOnly s t) (k : SelectionOnly t u) : SelectionOnly s u where
  share := h.share.trans k.share
  acct := k.acct.trans h.acct
  print := by
    have first := h.print
    have second := k.print
    rw [first] at second
    exact second
  printer v := by
    have first := h.printer v
    have second := k.printer v
    rw [first] at second
    exact second
  stands v still := by
    have same := h.stands v still
    exact (k.stands v (by rwa [same])).trans same
  tickets v := (k.tickets v).trans (h.tickets v)
  flag a i other := (k.flag a i other).trans (h.flag a i other)
  stay := h.stay.trans k.stay

/-- What only sends is within what selection can change. -/
theorem OnlySends.selection {s u : State} (sends : OnlySends s u) : SelectionOnly s u where
  share := sends.arbiter
  acct := sends.acct
  print := by rw [sends.print]
  printer v := by rw [sends.printer]
  stands v _ := sends.printer v
  tickets v := by rw [sends.printer]
  flag k i _ := flagOf_of_onlySends i sends
  stay := .of_alerts sends.alerts

theorem SelectionOnly.refl (s : State) : SelectionOnly s s := (OnlySends.refl s).selection

/-- A list of steps within what selection can change. -/
theorem SelectionOnly.foldl {α : Type} (f : State → α → State) (hf : ∀ s a, SelectionOnly s (f s a)) (l : List α)
    (s : State) : SelectionOnly s (l.foldl f s) := by
  induction l generalizing s with
  | nil => exact .refl s
  | cons a l ih => exact (hf s a).trans (ih _)

/-! ## The operations of selection -/

section
variable {s : State} {q : QueueNo} {t : Ticket}

theorem selectionOnly_sendAnswer (d : Dest) (a : PrintAnswer) (q n : Byte) (s : State) :
    SelectionOnly s (sendAnswer d a q n s) := (onlySends_sendAnswer d a q n s).selection

/-- A printer in a state in which selection may act, given another state and the same tickets. -/
theorem selectionOnly_modPrinter {f : Printer → Printer} (able : (s.printer q).state.selectable = true)
    (fields : ∀ p, f p = { p with state := (f p).state, waiting := (f p).waiting, idleRemaining := (f p).idleRemaining })
    (tickets : (f (s.printer q)).tickets.Perm (s.printer q).tickets) : SelectionOnly s (s.modPrinter q f) where
  share := arbiterOnly_modPrinter q f s
  acct := rfl
  print := rfl
  printer v := by
    rw [State.printer_modPrinter]
    split
    · exact fields _
    · rfl
  stands v still := by
    refine State.printer_modPrinter_ne s f ?_
    rintro rfl
    rw [able] at still
    cases still
  tickets v := by
    rw [State.printer_modPrinter]
    split
    · next same => exact same ▸ tickets
    · exact .refl _
  flag _ _ _ := rfl
  stay := .of_alerts rfl

theorem selectionOnly_setFormChange (i : Nat) (d : Option Byte) (s : State) :
    SelectionOnly s (setFlag .formChange i d s) where
  share := arbiterOnly_setFlag _ i d s
  acct := by
    obtain ⟨a, set, -⟩ := setFlag_eq .formChange i d s
    rw [set]
  print := by rw [setFlag_print]
  printer v := by rw [setFlag_printer]
  stands v _ := setFlag_printer ..
  tickets v := by rw [setFlag_printer]
  flag k j other := flagOf_setFlag_ne (.inl other.symm) d s
  stay := flagsStay_setFlag ..

/-- A printer in which selection may act has no grant, so its tickets wait. -/
theorem Printer.tickets_of_selectable {p : Printer} (able : p.state.selectable = true) : p.tickets = p.waiting :=
  Printer.tickets_of_grant_none (p.selectable_iff.1 able).2

theorem selectionOnly_grantTicket (told : Bool) (able : (s.printer q).state.selectable = true)
    (waits : t ∈ (s.printer q).waiting) : SelectionOnly s (grantTicket told q t s) := by
  have granted : SelectionOnly s (s.modPrinter q fun p =>
      { p with state := .granted t, waiting := p.waiting.erase t, idleRemaining := p.idleLimit }) := by
    refine selectionOnly_modPrinter able (fun _ => rfl) ?_
    rw [Printer.tickets_of_selectable able]
    exact (List.perm_cons_erase waits).symm
  simp only [grantTicket]
  split
  · exact granted
  · exact granted.trans (selectionOnly_sendAnswer ..)

theorem selectionOnly_awaitForm (f : Fin 16) (able : (s.printer q).state.selectable = true) :
    SelectionOnly s (awaitForm q f s) := by
  unfold awaitForm
  split
  · exact .refl s
  · refine (selectionOnly_modPrinter able (fun _ => rfl) ?_).trans (selectionOnly_setFormChange ..)
    rw [Printer.tickets_of_selectable able]
    exact .refl _

theorem selectionOnly_select (o : Option (QueueNo × Nat)) (q : QueueNo) (s : State) : SelectionOnly s (select o q s) := by
  unfold select
  split
  · next eligible =>
    have able : (s.printer q).state.selectable = true := (Bool.and_eq_true_iff.1 eligible).2
    split
    · next grant =>
      exact selectionOnly_grantTicket _ able (List.mem_of_mem_filter (mem_of_choose grant))
    · exact selectionOnly_awaitForm _ able
    · refine selectionOnly_modPrinter able (fun _ => rfl) ?_
      rw [Printer.tickets_of_selectable able]
      exact .refl _
  · exact .refl s

theorem selectionOnly_selectFor (o : Option (QueueNo × Nat)) (s : State) : SelectionOnly s (selectFor o s) :=
  SelectionOnly.foldl _ (fun s q => selectionOnly_select o q s) _ s

theorem selectionOnly_selectAll (s : State) : SelectionOnly s (selectAll s) := selectionOnly_selectFor none s

end

end Sys2Proof.Machine
end

