-- ==== Sys2Proof/Proofs/TicketsCounted.lean ====
section
/-!
The tickets of the pool as the sum over the queues, and what the endings of a grant and the removal of a waiting ticket make
of printers, accounts and flags (R142, R151, R152, R155, R172): exactly one ticket leaves.
-/

namespace Sys2Proof.Machine

/-! ## The number of tickets -/

theorem ticketCount_eq_sum (s : State) : ticketCount s = ∑ q : QueueNo, (s.printer q).tickets.length := by
  have listed : s.print.printers.toList = List.ofFn s.printer := by
    refine List.ext_getElem (by simp) fun i _ _ => ?_
    simp only [Vector.getElem_toList, List.getElem_ofFn, State.printer]
  rw [ticketCount, allTickets, List.length_flatMap, listed, List.map_ofFn, List.sum_ofFn]
  rfl

/-- Where one queue's tickets change, the pool changes by as many. -/
theorem ticketCount_of_others {s u : State} {q : QueueNo}
    (others : ∀ v, v ≠ q → (u.printer v).tickets.length = (s.printer v).tickets.length) :
    ticketCount u + (s.printer q).tickets.length = ticketCount s + (u.printer q).tickets.length := by
  have rest : ∑ v ∈ Finset.univ.erase q, (u.printer v).tickets.length
      = ∑ v ∈ Finset.univ.erase q, (s.printer v).tickets.length :=
    Finset.sum_congr rfl fun v mem => others v (Finset.ne_of_mem_erase mem)
  rw [ticketCount_eq_sum, ticketCount_eq_sum, ← Finset.add_sum_erase _ _ (Finset.mem_univ q), rest,
    ← Finset.add_sum_erase _ (fun v => (s.printer v).tickets.length) (Finset.mem_univ q)]
  omega

theorem SelectionOnly.ticketCount {s u : State} (h : SelectionOnly s u) : ticketCount u = ticketCount s := by
  rw [ticketCount_eq_sum, ticketCount_eq_sum]
  exact Finset.sum_congr rfl fun v _ => (h.tickets v).length_eq

/-! ## One ticket leaves -/

/-- From `s` to `u` ticket `t` leaves queue `q`, and no other ticket leaves or joins a queue. -/
structure TicketLeaves (q : QueueNo) (t : Ticket) (s u : State) : Prop where
  own : (s.printer q).tickets.Perm (t :: (u.printer q).tickets)
  others : ∀ v, v ≠ q → (u.printer v).tickets.Perm (s.printer v).tickets

section
variable {q : QueueNo} {t : Ticket} {s u w : State}

theorem TicketLeaves.trans_selection (h : TicketLeaves q t s u) (k : SelectionOnly u w) : TicketLeaves q t s w :=
  ⟨h.own.trans ((k.tickets q).symm.cons t), fun v other => (k.tickets v).trans (h.others v other)⟩

theorem TicketLeaves.ticketCount (h : TicketLeaves q t s u) : Machine.ticketCount u + 1 = Machine.ticketCount s := by
  have moved := ticketCount_of_others fun v other => (h.others v other).length_eq
  have fewer := h.own.length_eq
  rw [List.length_cons] at fewer
  omega

/-- Where numbers are distinct, no ticket of the queue carries the number of the one that left. -/
theorem TicketLeaves.number_ne (h : TicketLeaves q t s u) (distinct : ((s.printer q).tickets.map Ticket.number).Nodup) :
    ∀ y ∈ (u.printer q).tickets, y.number ≠ t.number := by
  rw [(h.own.map Ticket.number).nodup_iff, List.map_cons, List.nodup_cons] at distinct
  exact fun y mem same => distinct.1 (same ▸ List.mem_map_of_mem mem)

theorem Printer.tickets_of_granted {p : Printer} (granted : p.grant = some t) : p.tickets = t :: p.waiting := by
  rw [Printer.tickets, granted]
  rfl

/-- When the grant leaves, the tickets that waited are left. -/
theorem TicketLeaves.left_of_granted (h : TicketLeaves q t s u) (granted : (s.printer q).grant = some t) :
    (u.printer q).tickets.Perm (s.printer q).waiting := by
  have own := h.own
  rw [Printer.tickets_of_granted granted] at own
  exact own.cons_inv.symm

end

/-! ## Endings of a grant -/

/-- The ending's part in the printer's record (R155). -/
def Ending.record (how : Ending) (p : Printer) : Printer :=
  match how with
  | .completion => { p with state := p.afterGrant, completed := bump p.completed }
  | .abandonment _ => { p with state := p.afterGrant }

/-- The ending's part in the account of the ticket's cost centre (R172). -/
def Ending.account : Ending → CostSet → CostSet
  | .completion => CostSet.addCompleted
  | .abandonment _ => CostSet.addAbandoned

/-- The message that tells the printer (R157). -/
def Ending.message (q : QueueNo) (t : Ticket) : Ending → List Byte
  | .completion => endPayload (queueByte q) t.byte t.bytesFed
  | .abandonment _ => breakPayload (queueByte q) t.byte

/-- The ending sets JOB_ABANDONED. -/
def Ending.flagged : Ending → Bool
  | .completion => false
  | .abandonment flagged => flagged

/-- The end of a grant before the flag: told to the printer, recorded and counted. -/
def ended (how : Ending) (q : QueueNo) (t : Ticket) (s : State) : State :=
  ((sendEnding q (how.message q t) s).modPrinter q how.record).modLive t.costCentre how.account

theorem endGrant_eq (how : Ending) (q : QueueNo) (t : Ticket) (s : State) :
    endGrant how q t s =
      if how.flagged then setFlag .jobAbandoned (q.val + 1) (some t.byte) (ended how q t s) else ended how q t s := by
  cases how <;> rfl

theorem tickets_record (how : Ending) (p : Printer) : (how.record p).tickets = p.waiting := by
  cases how with
  | completion => exact Printer.tickets_afterGrant p
  | abandonment => exact Printer.tickets_afterGrant p

@[simp] theorem setFlag_acct (k : AlertKind) (i : Nat) (d : Option Byte) (s : State) : (setFlag k i d s).acct = s.acct := by
  obtain ⟨a, set, -⟩ := setFlag_eq k i d s
  rw [set]

section
variable (how : Ending) (q : QueueNo) (t : Ticket) (s : State)

theorem printer_endGrant (v : QueueNo) :
    (endGrant how q t s).printer v = if v = q then how.record (s.printer v) else s.printer v := by
  have counted : (ended how q t s).printer v = if v = q then how.record (s.printer v) else s.printer v := by
    rw [ended, State.modLive_printer, State.printer_modPrinter, (onlySends_sendEnding q _ s).printer]
  rw [endGrant_eq]
  split
  · rw [setFlag_printer, counted]
  · exact counted

theorem acct_endGrant : (endGrant how q t s).acct = (s.modLive t.costCentre how.account).acct := by
  have counted : (ended how q t s).acct = (s.modLive t.costCentre how.account).acct := by
    have sent := (onlySends_sendEnding q (how.message q t) s).acct
    simp only [ended, State.modLive, State.modPrinter_acct, sent]
  rw [endGrant_eq]
  split
  · rw [setFlag_acct, counted]
  · exact counted

/-- The ending is counted to the ticket's cost centre, and to no other (R172). -/
theorem live_endGrant (cc : Fin 16) :
    (endGrant how q t s).acct.live[cc.val] =
      if cc = t.costCentre then how.account s.acct.live[cc.val] else s.acct.live[cc.val] := by
  simp only [acct_endGrant]
  exact State.live_modLive s t.costCentre cc how.account

/-- Only an abandonment that is flagged sets JOB_ABANDONED, and no ending another flag (R155). -/
theorem flagOf_endGrant (k : AlertKind) (i : Nat) (other : how.flagged = false ∨ k ≠ .jobAbandoned) :
    flagOf (endGrant how q t s) k i = flagOf s k i := by
  have sent : flagOf (sendEnding q (how.message q t) s) k i = flagOf s k i :=
    flagOf_of_onlySends i (onlySends_sendEnding q (how.message q t) s)
  have counted : flagOf (ended how q t s) k i = flagOf s k i := sent
  rw [endGrant_eq]
  split
  · next flagged =>
    rw [flagOf_setFlag_ne (.inl ((other.resolve_left (by simp [flagged])).symm)), counted]
  · exact counted

theorem isSome_flagOf_endGrant : (flagOf (endGrant (.abandonment true) q t s) .jobAbandoned (q.val + 1)).isSome = true := by
  rw [endGrant_eq]
  exact isSome_flagOf_setFlag ..

end

section
variable {q : QueueNo} {t : Ticket} {s : State}

theorem ticketLeaves_endGrant (how : Ending) (granted : (s.printer q).grant = some t) :
    TicketLeaves q t s (endGrant how q t s) := by
  refine ⟨?_, fun v other => ?_⟩
  · rw [printer_endGrant, if_pos rfl, tickets_record, Printer.tickets_of_granted granted]
  · rw [printer_endGrant, if_neg other]

/-- A ticket of the queue that is not its grant waits. -/
theorem mem_waiting_of_not_granted (mem : t ∈ (s.printer q).tickets) (waits : (s.printer q).grant ≠ some t) :
    t ∈ (s.printer q).waiting :=
  (List.mem_append.1 mem).resolve_left fun grant => waits (Option.mem_toList.1 grant)

theorem ticketLeaves_dropWaiting (mem : t ∈ (s.printer q).tickets) (waits : (s.printer q).grant ≠ some t) :
    TicketLeaves q t s (dropWaiting q t s) := by
  refine ⟨?_, fun v other => ?_⟩
  · rw [dropWaiting, State.printer_modPrinter_self]
    exact ((List.perm_cons_erase (mem_waiting_of_not_granted mem waits)).append_left _).trans List.perm_middle
  · rw [dropWaiting, State.printer_modPrinter_ne _ _ other]

/-- What stands at the end of an event in which the grant `t` of queue `q` ended. -/
structure JobEnded (how : Ending) (q : QueueNo) (t : Ticket) (s u : State) : Prop where
  leaves : TicketLeaves q t s u
  live : ∀ cc : Fin 16, u.acct.live[cc.val] =
    if cc = t.costCentre then how.account s.acct.live[cc.val] else s.acct.live[cc.val]
  completed : (u.printer q).completed = (how.record (s.printer q)).completed
  flag : ∀ k i, k ≠ .formChange → how.flagged = false ∨ k ≠ .jobAbandoned → flagOf u k i = flagOf s k i
  flagged : how = .abandonment true → (flagOf u .jobAbandoned (q.val + 1)).isSome = true
  share : ArbiterOnly s u

theorem jobEnded_of_endGrant {u : State} {how : Ending} (granted : (s.printer q).grant = some t)
    (later : SelectionOnly (endGrant how q t s) u) : JobEnded how q t s u where
  leaves := (ticketLeaves_endGrant how granted).trans_selection later
  live cc := by
    have live := live_endGrant how q t s cc
    rwa [← later.acct] at live
  completed := by rw [later.printer, printer_endGrant, if_pos rfl]
  flag k i notForm other := (later.flag k i notForm).trans (flagOf_endGrant how q t s k i other)
  flagged abandoned := by
    subst abandoned
    exact later.stay.isSome _ _ (isSome_flagOf_endGrant q t s)
  share := (arbiterOnly_endGrant how q t s).trans later.share

theorem JobEnded.live_own {u : State} {how : Ending} (h : JobEnded how q t s u) :
    u.acct.live[t.costCentre.val] = how.account s.acct.live[t.costCentre.val] := by rw [h.live, if_pos rfl]

theorem JobEnded.live_other {u : State} {how : Ending} (h : JobEnded how q t s u) (cc : Fin 16) (other : cc ≠ t.costCentre) :
    u.acct.live[cc.val] = s.acct.live[cc.val] := by rw [h.live, if_neg other]

/-- A job that is abandoned with its requester told, and the selection after it (R158, R166). -/
theorem jobEnded_of_abandonAndTell (granted : (s.printer q).grant = some t) :
    JobEnded (.abandonment true) q t s (selectAll (abandonAndTell q t s)) :=
  jobEnded_of_endGrant granted ((selectionOnly_sendAnswer ..).trans (selectionOnly_selectAll _))

end

end Sys2Proof.Machine
end

