-- ==== Sys2Proof/Proofs/PrintTimers.lean ====
section
/-!
The two thresholds of the Print Arbiter's 1 s tick (R143, R153, R158): the idle expiry is an ending of the grant, and the
form hold is read at the one place of selection where its printer is selected for.
-/

namespace Sys2Proof.Machine

/-! ## Selection for one printer among all -/

section
variable {o : Option (QueueNo × Nat)} {q : QueueNo} {s x : State}

/-- Selection for other printers leaves a printer. -/
theorem printer_foldl_select_ne {l : List QueueNo} (other : q ∉ l) (s : State) :
    (l.foldl (fun s v => select o v s) s).printer q = s.printer q := by
  induction l generalizing s with
  | nil => rfl
  | cons a l ih =>
    obtain ⟨ne, other⟩ := List.ne_and_not_mem_of_not_mem_cons other
    obtain ⟨p, -, others⟩ := printer_select o a s
    rw [List.foldl_cons, ih other, others, if_neg ne]

/-- In the selection for every printer, each is selected for once, with its record as it was before. -/
theorem selectFor_at (o : Option (QueueNo × Nat)) (q : QueueNo) (s : State) :
    ∃ x, SelectionOnly s x ∧ x.printer q = s.printer q ∧ SelectionOnly (select o q x) (selectFor o s)
      ∧ (selectFor o s).printer q = (select o q x).printer q := by
  obtain ⟨before, after, parts⟩ := List.append_of_mem (List.mem_finRange q)
  have once := List.nodup_finRange 6
  rw [parts] at once
  have notBefore : q ∉ before := fun mem => List.disjoint_of_nodup_append once mem List.mem_cons_self
  have notAfter : q ∉ after := (List.nodup_cons.1 (List.nodup_append.1 once).2.1).1
  have step := fun s v => selectionOnly_select o v s
  refine ⟨before.foldl (fun s v => select o v s) s, SelectionOnly.foldl _ step before s,
    printer_foldl_select_ne notBefore s, ?_⟩
  rw [selectFor, parts, List.foldl_append, List.foldl_cons]
  exact ⟨SelectionOnly.foldl _ step after _, printer_foldl_select_ne notAfter _⟩

theorem candidates_of_share (share : ArbiterOnly s x) (same : x.printer q = s.printer q) :
    candidates x q = candidates s q := by
  simp only [candidates, same, share.reachable]

theorem eligible_of_share (share : ArbiterOnly s x) (same : x.printer q = s.printer q) : eligible x q = eligible s q :=
  eligible_congr (by rw [share.dir]) (by rw [share.sup]) share.link (by rw [same]) (by rw [same]) (by rw [same])
    (by rw [same])

theorem state_awaitForm (q : QueueNo) (f : Fin 16) (s : State) : ((awaitForm q f s).printer q).state = .formWait f := by
  unfold awaitForm
  split
  · assumption
  · rw [setFlag_printer, State.printer_modPrinter_self]

/-- A printer that did not wait for the form sets FORM_CHANGE (R153). -/
theorem flagOf_awaitForm {f : Fin 16} (new : (s.printer q).state ≠ .formWait f) :
    (flagOf (awaitForm q f s) .formChange (q.val + 1)).isSome = true := by
  rw [awaitForm, if_neg new]
  exact isSome_flagOf_setFlag ..

/-- An eligible printer whose head candidate has waited for the form-hold limit, with a form that is not loaded, waits for
that form after selection (R153 case 3). -/
theorem selectAll_of_old_head {head : Ticket} (able : eligible s q = true) (first : (candidates s q).head? = some head)
    (form : head.form ≠ (s.printer q).loadedForm) (old : (s.printer q).formHold ≤ head.waitAge) :
    ((selectAll s).printer q).state = .formWait head.form
      ∧ ((s.printer q).state ≠ .formWait head.form →
        (flagOf (selectAll s) .formChange (q.val + 1)).isSome = true) := by
  obtain ⟨x, before, same, after, record⟩ := selectFor_at none q s
  have chosen : select none q x = awaitForm q head.form x := by
    refine select_of_old_head ((eligible_of_share before.share same).trans able) ?_ (by rwa [same]) (.inl (by rwa [same]))
    rw [candidates_of_share before.share same, first]
  rw [chosen] at after record
  refine ⟨?_, fun new => after.stay.isSome _ _ (flagOf_awaitForm (by rwa [same]))⟩
  rw [selectAll, record, state_awaitForm]

end

/-! ## The thresholds -/

section
variable {q : QueueNo} {t : Ticket} {s : State}

theorem idleExpiry_of_due (granted : (s.printer q).state = .granted t) (online : (s.printer q).online = true)
    (last : (s.printer q).idleRemaining ≤ 1) :
    idleExpiry q s = selectAll (abandonAndTell q t (s.modPrinter q fun p => { p with idleRemaining := 0 })) := by
  have grant := Printer.grant_of_granted granted
  have ends : (s.printer q).idleEnds = true := by simp [Printer.idleEnds, grant, online, last]
  simp only [idleExpiry, grant, ends, if_true]

/-- One ticket of a queue one second older. -/
def State.aged (q : QueueNo) (t : Ticket) (s : State) : State :=
  s.modPrinter q fun p => { p with waiting := p.waiting.map fun x => if x = t then x.older else x }

theorem formHoldReached_of_due (first : (candidates s q).head? = some t) (due : t.waitAge + 1 = (s.printer q).formHold) :
    formHoldReached q s = selectAll (s.aged q t) := by
  have found : formHoldDue s q = some t := by simp [formHoldDue, first, due]
  simp only [formHoldReached, found, State.aged]

/-- Age leaves the candidates of a queue and their order. -/
theorem candidates_aged (q : QueueNo) (t : Ticket) (s : State) :
    candidates (s.aged q t) q = (candidates s q).map fun x => if x = t then x.older else x := by
  have share : ArbiterOnly s (s.aged q t) := arbiterOnly_modPrinter q _ s
  have asks : ∀ x : Ticket, (if x = t then x.older else x).requester = x.requester := fun x => by split <;> rfl
  have waiting : ((s.aged q t).printer q).waiting = (s.printer q).waiting.map fun x => if x = t then x.older else x := by
    rw [State.aged, State.printer_modPrinter_self]
  simp only [candidates, waiting, List.filter_map, share.reachable]
  congr 1
  exact List.filter_congr fun x _ => by rw [Function.comp_apply, asks]

theorem eligible_aged (q : QueueNo) (t : Ticket) (s : State) : eligible (s.aged q t) q = eligible s q := by
  have record : ((s.aged q t).printer q)
      = { s.printer q with waiting := (s.printer q).waiting.map fun x => if x = t then x.older else x } :=
    State.printer_modPrinter_self ..
  refine eligible_congr rfl rfl (fun _ => rfl) ?_ ?_ ?_ ?_ <;> rw [record]

end

/-- An idle expiry abandons the job (R158): what the ending leaves, with the idle remaining of its printer aside. -/
theorem jobEnded_of_idleExpiry {q : QueueNo} {t : Ticket} {s : State} (granted : (s.printer q).state = .granted t)
    (online : (s.printer q).online = true) (last : (s.printer q).idleRemaining ≤ 1) :
    ∃ x, ArbiterOnly s x ∧ x.acct = s.acct ∧ x.printer q = { s.printer q with idleRemaining := 0 }
      ∧ JobEnded (.abandonment true) q t x (idleExpiry q s) := by
  have record : (s.modPrinter q fun p => { p with idleRemaining := 0 }).printer q
      = { s.printer q with idleRemaining := 0 } := State.printer_modPrinter_self ..
  refine ⟨_, arbiterOnly_modPrinter q _ s, rfl, record, ?_⟩
  rw [idleExpiry_of_due granted online last]
  exact jobEnded_of_abandonAndTell (by rw [record]; exact Printer.grant_of_granted granted)

/-- Settles O23: the idle expiry by what the ending leaves, the form hold by what selection does at its printer. -/
theorem printTimersRun : Obligations.PrintTimersRun := by
  intro q t s run
  refine ⟨fun granted online last unique => ?_, fun rest able cands due small form => ?_⟩
  · obtain ⟨x, before, acct, record, job⟩ := jobEnded_of_idleExpiry granted online last
    have grant : (x.printer q).grant = some t := by rw [record]; exact Printer.grant_of_granted granted
    have share := before.trans job.share
    have ran : exec (.idleExpiry q) s = .next (settle s (idleExpiry q s)) := event_of_running run
    rw [settle_of_arbiterOnly share] at ran
    have left := job.leaves.left_of_granted grant
    have own := job.live_own
    have others := job.live_other
    have completed := job.completed
    simp only [acct] at own others
    rw [record] at left completed
    exact ⟨_, ran, fun y mem => unique y (left.mem_iff.1 mem), own, others, job.flagged rfl, completed, share⟩
  · have first : (candidates s q).head? = some t := by rw [cands]; rfl
    have head : (candidates (s.aged q t) q).head? = some t.older := by
      rw [candidates_aged, List.head?_map, first, Option.map_some, if_pos rfl]
    have record : (s.aged q t).printer q
        = { s.printer q with waiting := (s.printer q).waiting.map fun x => if x = t then x.older else x } :=
      State.printer_modPrinter_self ..
    have old : ((s.aged q t).printer q).formHold ≤ t.older.waitAge := by
      simp only [record, Ticket.older, gain]
      omega
    obtain ⟨state, flag⟩ := selectAll_of_old_head ((eligible_aged q t s).trans able) head (by rw [record]; exact form) old
    have chosen := selectionOnly_selectAll (s.aged q t)
    have share : ArbiterOnly s (selectAll (s.aged q t)) := (arbiterOnly_modPrinter q _ s).trans chosen.share
    have ran : exec (.formHoldReached q) s = .next (settle s (formHoldReached q s)) := event_of_running run
    rw [formHoldReached_of_due first due, settle_of_arbiterOnly share] at ran
    rw [record] at flag
    exact ⟨_, ran, state, flag, chosen.acct, share⟩

end Sys2Proof.Machine
end

