-- ==== Sys2Proof/Proofs/PrintMessages.lean ====
section
/-!
The print messages that name a ticket, and STATUS (R148, R150 to R152): how a message is taken, what refuses it, and what the
handling of a ticket of the sender's own leaves.
-/

namespace Sys2Proof.Machine

/-! ## How a message is taken -/

section
variable {e : InputEntry} {s : State}

/-- A message that is taken, handled within the arbiter's share and released leaves nothing to settle (R145). -/
theorem settle_takePrint {f : State → State} (share : ArbiterOnly (popPrint s) (f (popPrint s))) :
    settle s (takePrint e f s) = dropRef e.buf (f (popPrint s)) := by
  have whole : ArbiterOnly (popPrint s) (takePrint e f s) := share.trans (onlySends_dropRef e.buf _).arbiter
  exact settle_eq_self (congrArg Directory.entries whole.dir) (congrArg Supervision.ports whole.sup) whole.link

/-- An answer of the arbiter, the selection after it, and the release of the message (R145, R153). -/
def printReplied (e : InputEntry) (q : QueueNo) (n : Byte) (a : PrintAnswer) (s : State) : State :=
  dropRef e.buf (selectAll (sendAnswer (routeDest e.route) a (queueByte q) n s))

theorem selectionOnly_printReplied (e : InputEntry) (q : QueueNo) (n : Byte) (a : PrintAnswer) (s : State) :
    SelectionOnly s (printReplied e q n a s) :=
  ((selectionOnly_sendAnswer ..).trans (selectionOnly_selectAll _)).trans (onlySends_dropRef e.buf _).selection

/-- A message whose handling is one answer to the state `y`. -/
theorem settle_printReplied {f : State → State} {q : QueueNo} {n : Byte} {a : PrintAnswer} {y : State}
    (handled : f (popPrint s) = sendAnswer (routeDest e.route) a (queueByte q) n y) (share : ArbiterOnly (popPrint s) y) :
    settle s (takePrint e (fun s => selectAll (f s)) s) = printReplied e q n a y := by
  rw [settle_takePrint] <;> rw [handled]
  · rfl
  · exact (share.trans (onlySends_sendAnswer ..).arbiter).trans (arbiterOnly_selectAll _)

end

/-! ## The ticket that a message names -/

section
variable {q : QueueNo} {n : Byte} {r : Route} {t : Ticket} {why : RefuseReason} {s : State}

/-- The sender's entry is the ticket's requester (R148). -/
def Owns (s : State) (r : Route) (t : Ticket) : Prop := ∃ x, senderOf s r = some x ∧ x.code = t.requester

theorem ownsTicket_iff : ownsTicket s r t = true ↔ Owns s r t := by
  unfold ownsTicket Owns
  cases senderOf s r <;> simp

theorem ownTicket_of_none (none : findTicket s q n = none) : ownTicket q n r s = .error .noSuch := by
  simp only [ownTicket, none]

theorem ownTicket_of_other (found : findTicket s q n = some t) (other : ¬ Owns s r t) :
    ownTicket q n r s = .error .notYours := by
  simp only [ownTicket, found, if_neg (mt ownsTicket_iff.1 other)]

theorem ownTicket_of_own (found : findTicket s q n = some t) (own : Owns s r t) : ownTicket q n r s = .ok t := by
  simp only [ownTicket, found, if_pos (ownsTicket_iff.2 own)]

theorem mem_of_findTicket (found : findTicket s q n = some t) : t ∈ (s.printer q).tickets :=
  List.mem_of_find?_eq_some found

theorem number_of_findTicket (found : findTicket s q n = some t) : t.number = n.toNat := by
  simpa using List.find?_some found

/-- The grant is the first ticket of its queue. -/
theorem findTicket_of_granted (granted : (s.printer q).grant = some t) (number : t.number = n.toNat) :
    findTicket s q n = some t := by
  rw [findTicket, Printer.tickets_of_granted granted, List.find?_cons_of_pos (by simpa using number)]

theorem isGrant_iff : isGrant s q t = true ↔ (s.printer q).grant = some t := beq_iff_eq

theorem isGrant_of_waiting (waits : (s.printer q).grant ≠ some t) : isGrant s q t = false :=
  Bool.eq_false_iff.2 (mt isGrant_iff.1 waits)

/-! ## CLOSE and CANCEL -/

theorem handleClose_of_refused (refused : ownTicket q n r s = .error why) :
    handleClose q n r s = sendAnswer (routeDest r) (.refused why) (queueByte q) n s := by
  simp only [handleClose, refused]

theorem handleClose_of_granted (own : ownTicket q n r s = .ok t) (granted : (s.printer q).grant = some t) :
    handleClose q n r s = sendAnswer (routeDest r) .closed (queueByte q) n (endGrant .completion q t s) := by
  simp only [handleClose, own, isGrant_iff.2 granted, if_true]

theorem handleClose_of_waiting (own : ownTicket q n r s = .ok t) (waits : (s.printer q).grant ≠ some t) :
    handleClose q n r s = sendAnswer (routeDest r) .cancelled (queueByte q) n (dropWaiting q t s) := by
  simp only [handleClose, own, isGrant_of_waiting waits, Bool.false_eq_true, if_false]

theorem handleCancel_of_refused (refused : ownTicket q n r s = .error why) :
    handleCancel q n r s = sendAnswer (routeDest r) (.refused why) (queueByte q) n s := by
  simp only [handleCancel, refused]

theorem handleCancel_of_granted (own : ownTicket q n r s = .ok t) (granted : (s.printer q).grant = some t) :
    handleCancel q n r s = sendAnswer (routeDest r) .abandoned (queueByte q) n (endGrant (.abandonment false) q t s) := by
  simp only [handleCancel, own, isGrant_iff.2 granted, if_true]

theorem handleCancel_of_waiting (own : ownTicket q n r s = .ok t) (waits : (s.printer q).grant ≠ some t) :
    handleCancel q n r s = sendAnswer (routeDest r) .cancelled (queueByte q) n (dropWaiting q t s) := by
  simp only [handleCancel, own, isGrant_of_waiting waits, Bool.false_eq_true, if_false]

/-! ## DATA -/

theorem judgeData_of_refused (refused : ownTicket q n r s = .error why) : judgeData q n r s = .refuse why := by
  unfold ownTicket at refused
  unfold judgeData
  split at refused
  · next none => cases refused; rfl
  · next found =>
    split at refused
    · cases refused
    · next other => cases refused; simp only [other, Bool.not_false, if_true]

/-- What keeps the sender's ticket from being fed (R148). -/
theorem judgeData_of_wait (found : findTicket s q n = some t) (own : Owns s r t)
    (unfit : (s.printer q).grant ≠ some t ∨ ∃ w, printerEntry s q = some w
      ∧ ((s.printer q).credit = 0 ∨ (s.printer q).online = false ∨ roomToward (entryDest w) s = false)) :
    judgeData q n r s = .wait := by
  have mine := ownsTicket_iff.2 own
  by_cases granted : (s.printer q).grant = some t
  · obtain ⟨w, entry, short⟩ := unfit.resolve_left (not_not_intro granted)
    have holds : ((s.printer q).credit = 0 || !(s.printer q).online || !roomToward (entryDest w) s) = true := by
      simpa [or_assoc] using short
    simp only [judgeData, found, mine, isGrant_iff.2 granted, entry, Bool.not_true, Bool.false_eq_true, if_false, holds,
      if_true]
  · simp only [judgeData, found, mine, isGrant_of_waiting granted, Bool.not_true, Bool.not_false, Bool.false_eq_true,
      if_false, if_true]

theorem judgeData_of_feed {w : Entry} (granted : (s.printer q).grant = some t) (number : t.number = n.toNat)
    (own : Owns s r t) (entry : printerEntry s q = some w) (credit : 0 < (s.printer q).credit)
    (online : (s.printer q).online = true) (room : roomToward (entryDest w) s = true) :
    judgeData q n r s = .feed t (entryDest w) := by
  have holds : ((s.printer q).credit = 0 || !(s.printer q).online || !roomToward (entryDest w) s) = false := by
    simp [online, room, Nat.ne_of_gt credit]
  simp only [judgeData, findTicket_of_granted granted number, ownsTicket_iff.2 own, isGrant_iff.2 granted, entry,
    Bool.not_true, Bool.false_eq_true, if_false, holds]

theorem handleData_of_refused {bytes : List Byte} {b : BufId} (refused : ownTicket q n r s = .error why) :
    handleData q n bytes b r s = sendAnswer (routeDest r) (.refused why) (queueByte q) n s := by
  simp only [handleData, judgeData_of_refused refused]

theorem handleData_of_wait {bytes : List Byte} {b : BufId} (wait : judgeData q n r s = .wait) :
    handleData q n bytes b r s = sendAnswer (routeDest r) .wait (queueByte q) n s := by
  simp only [handleData, wait]

end

/-! ## The commands -/

section
variable {e : InputEntry} {q : QueueNo} {n : Byte} {bytes : List Byte} {t : Ticket} {why : RefuseReason} {s : State}
  (run : s.isRunning = true)
include run

section
variable (head : headPrint s = some (e, .close q n))
include head

theorem exec_printClose : exec .printClose s
    = .next (settle s (takePrint e (fun s => selectAll (handleClose q n e.route s)) s)) := by
  have ran : exec .printClose s = execPrintClose s := rfl
  rw [ran, execPrintClose, event_of_running run]
  simp only [head]

theorem exec_printClose_of_refused (refused : ownTicket q n e.route s = .error why) :
    exec .printClose s = .next (printReplied e q n (.refused why) (popPrint s)) :=
  (exec_printClose run head).trans
    (congrArg _ (settle_printReplied (handleClose_of_refused (s := popPrint s) refused) (.refl _)))

theorem exec_printClose_of_granted (own : ownTicket q n e.route s = .ok t) (granted : (s.printer q).grant = some t) :
    exec .printClose s = .next (printReplied e q n .closed (endGrant .completion q t (popPrint s))) :=
  (exec_printClose run head).trans
    (congrArg _ (settle_printReplied (handleClose_of_granted (s := popPrint s) own granted) (arbiterOnly_endGrant ..)))

theorem exec_printClose_of_waiting (own : ownTicket q n e.route s = .ok t) (waits : (s.printer q).grant ≠ some t) :
    exec .printClose s = .next (printReplied e q n .cancelled (dropWaiting q t (popPrint s))) :=
  (exec_printClose run head).trans
    (congrArg _ (settle_printReplied (handleClose_of_waiting (s := popPrint s) own waits) (arbiterOnly_dropWaiting ..)))

end

section
variable (head : headPrint s = some (e, .cancel q n))
include head

theorem exec_printCancel : exec .printCancel s
    = .next (settle s (takePrint e (fun s => selectAll (handleCancel q n e.route s)) s)) := by
  have ran : exec .printCancel s = execPrintCancel s := rfl
  rw [ran, execPrintCancel, event_of_running run]
  simp only [head]

theorem exec_printCancel_of_refused (refused : ownTicket q n e.route s = .error why) :
    exec .printCancel s = .next (printReplied e q n (.refused why) (popPrint s)) :=
  (exec_printCancel run head).trans
    (congrArg _ (settle_printReplied (handleCancel_of_refused (s := popPrint s) refused) (.refl _)))

theorem exec_printCancel_of_granted (own : ownTicket q n e.route s = .ok t) (granted : (s.printer q).grant = some t) :
    exec .printCancel s = .next (printReplied e q n .abandoned (endGrant (.abandonment false) q t (popPrint s))) :=
  (exec_printCancel run head).trans
    (congrArg _ (settle_printReplied (handleCancel_of_granted (s := popPrint s) own granted) (arbiterOnly_endGrant ..)))

theorem exec_printCancel_of_waiting (own : ownTicket q n e.route s = .ok t) (waits : (s.printer q).grant ≠ some t) :
    exec .printCancel s = .next (printReplied e q n .cancelled (dropWaiting q t (popPrint s))) :=
  (exec_printCancel run head).trans
    (congrArg _ (settle_printReplied (handleCancel_of_waiting (s := popPrint s) own waits) (arbiterOnly_dropWaiting ..)))

end

section
variable (head : headPrint s = some (e, .data q n bytes))
include head

theorem exec_printData : exec .printData s
    = .next (settle s (takePrint e (fun s => selectAll (handleData q n bytes e.buf e.route s)) s)) := by
  have ran : exec .printData s = execPrintData s := rfl
  rw [ran, execPrintData, event_of_running run]
  simp only [head]

theorem exec_printData_of_refused (refused : ownTicket q n e.route s = .error why) :
    exec .printData s = .next (printReplied e q n (.refused why) (popPrint s)) :=
  (exec_printData run head).trans
    (congrArg _ (settle_printReplied (handleData_of_refused (s := popPrint s) refused) (.refl _)))

theorem exec_printData_of_wait (wait : judgeData q n e.route s = .wait) :
    exec .printData s = .next (printReplied e q n .wait (popPrint s)) :=
  (exec_printData run head).trans
    (congrArg _ (settle_printReplied (handleData_of_wait (s := popPrint s) wait) (.refl _)))

end

end

/-- The job that is told its end by an answer, with the selection and the release after it. -/
theorem jobEnded_of_printReplied {e : InputEntry} {q : QueueNo} {n : Byte} {a : PrintAnswer} {how : Ending} {t : Ticket}
    {s : State} (granted : (s.printer q).grant = some t) :
    JobEnded how q t s (printReplied e q n a (endGrant how q t s)) :=
  jobEnded_of_endGrant granted (selectionOnly_printReplied ..)

section
variable {e : InputEntry} {q : QueueNo} {n : Byte} {a : PrintAnswer} {t : Ticket} {s u : State}
  (mem : t ∈ (s.printer q).tickets) (waits : (s.printer q).grant ≠ some t)

/-- What stands at the end of an event in which the waiting ticket `t` of queue `q` was removed (R151, R152). -/
structure TicketDropped (q : QueueNo) (t : Ticket) (s u : State) : Prop where
  leaves : TicketLeaves q t s u
  acct : u.acct = s.acct
  completed : (u.printer q).completed = (s.printer q).completed
  flag : ∀ k i, k ≠ .formChange → flagOf u k i = flagOf s k i
  share : ArbiterOnly s u

include mem waits

theorem ticketDropped_of_dropWaiting (later : SelectionOnly (dropWaiting q t s) u) : TicketDropped q t s u where
  leaves := (ticketLeaves_dropWaiting mem waits).trans_selection later
  acct := later.acct
  completed := by rw [later.printer, dropWaiting, State.printer_modPrinter_self]
  flag := later.flag
  share := (arbiterOnly_dropWaiting q t s).trans later.share

theorem ticketDropped_of_printReplied : TicketDropped q t s (printReplied e q n a (dropWaiting q t s)) :=
  ticketDropped_of_dropWaiting mem waits (selectionOnly_printReplied ..)

end

/-- Settles O28, message by message. -/
theorem closeCompletesTheJob : Obligations.CloseCompletesTheJob := by
  intro e q n s run taken replied mine refusals
  refine ⟨fun head => ⟨⟨fun none => ?_, fun t found other => ?_⟩, fun t granted number own unique => ?_,
    fun t found waits own => ?_⟩, fun head => ⟨fun none => ?_, fun t found other => ?_⟩,
    fun bytes head => ⟨⟨fun none => ?_, fun t found other => ?_⟩, fun t found own unfit => ?_⟩⟩
  · exact exec_printClose_of_refused run head (ownTicket_of_none none)
  · exact exec_printClose_of_refused run head (ownTicket_of_other found other)
  · have grant := Printer.grant_of_granted granted
    have own := ownTicket_of_own (findTicket_of_granted grant number) own
    have job := jobEnded_of_printReplied (e := e) (n := n) (a := .closed) (how := .completion) (s := popPrint s) grant
    have left := job.leaves.left_of_granted grant
    exact ⟨_, exec_printClose_of_granted run head own grant, job.completed, job.live_own, job.live_other,
      fun y mem => unique y (left.mem_iff.1 mem), job.leaves.ticketCount, job.share⟩
  · have own := ownTicket_of_own found own
    have dropped := ticketDropped_of_printReplied (e := e) (n := n) (a := .cancelled) (s := popPrint s)
      (mem_of_findTicket found) waits
    exact ⟨_, exec_printClose_of_waiting run head own waits, rfl, dropped.acct, dropped.completed,
      dropped.leaves.ticketCount, fun distinct => number_of_findTicket found ▸ dropped.leaves.number_ne distinct,
      dropped.share⟩
  · exact exec_printCancel_of_refused run head (ownTicket_of_none none)
  · exact exec_printCancel_of_refused run head (ownTicket_of_other found other)
  · exact exec_printData_of_refused run head (ownTicket_of_none none)
  · exact exec_printData_of_refused run head (ownTicket_of_other found other)
  · exact exec_printData_of_wait run head (judgeData_of_wait found own unfit)

/-- Settles O29: a granted ticket and a waiting one. -/
theorem cancelRemovesTheTicket : Obligations.CancelRemovesTheTicket := by
  intro e q n t x s run head found sender requester distinct
  have own := ownTicket_of_own found ⟨x, sender, requester⟩
  have number := number_of_findTicket found
  by_cases grant : (s.printer q).grant = some t
  · have job := jobEnded_of_printReplied (e := e) (n := n) (a := .abandoned) (how := .abandonment false) (s := popPrint s)
      grant
    exact ⟨_, exec_printCancel_of_granted run head own grant, number ▸ job.leaves.number_ne distinct,
      job.leaves.ticketCount, fun _ => job.live_own, fun waits => absurd grant waits,
      job.flag _ _ (by decide) (.inl rfl), job.completed, job.share⟩
  · have dropped := ticketDropped_of_printReplied (e := e) (n := n) (a := .cancelled) (s := popPrint s)
      (mem_of_findTicket found) grant
    exact ⟨_, exec_printCancel_of_waiting run head own grant, number ▸ dropped.leaves.number_ne distinct,
      dropped.leaves.ticketCount, fun granted => absurd granted grant, fun _ => dropped.acct,
      dropped.flag _ _ (by decide), dropped.completed, dropped.share⟩

end Sys2Proof.Machine
end

