-- ==== Sys2Proof/Proofs/PrinterReports.lean ====
section
/-!
STATUS (R150): the record of the printer that reports, and what selection makes of it.
-/

namespace Sys2Proof.Machine

section
variable {e : InputEntry} {q : QueueNo} {online : Bool} {form : Fin 16} {credit : Nat} {r : Route} {s : State}

/-- What a printer's report makes of the state: its record, and the flag of an offline one (R150). -/
def State.reported (q : QueueNo) (online : Bool) (form : Fin 16) (credit : Nat) (s : State) : State :=
  if online then s.modPrinter q (Printer.report online form credit)
  else setFlag .printerOffline (q.val + 1) none (s.modPrinter q (Printer.report online form credit))

theorem handleStatus_of_printer (sender : printerOf s r = some q) :
    handleStatus online form credit r s = s.reported q online form credit := by
  simp only [handleStatus, sender, State.reported]

theorem handleStatus_of_other (sender : printerOf s r = none) :
    handleStatus online form credit r s = sendAnswer (routeDest r) (.refused .notYours) 0 0 s := by
  simp only [handleStatus, sender]

theorem arbiterOnly_reported (q : QueueNo) (online : Bool) (form : Fin 16) (credit : Nat) (s : State) :
    ArbiterOnly s (s.reported q online form credit) := by
  unfold State.reported
  split
  · exact arbiterOnly_modPrinter q _ s
  · exact (arbiterOnly_modPrinter q _ s).trans (arbiterOnly_setFlag ..)

theorem printer_reported (q : QueueNo) (online : Bool) (form : Fin 16) (credit : Nat) (s : State) :
    (s.reported q online form credit).printer q = (s.printer q).report online form credit := by
  unfold State.reported
  split
  · exact State.printer_modPrinter_self ..
  · exact (setFlag_printer ..).trans (State.printer_modPrinter_self ..)

theorem acct_reported (q : QueueNo) (online : Bool) (form : Fin 16) (credit : Nat) (s : State) :
    (s.reported q online form credit).acct = s.acct := by
  unfold State.reported
  split
  · rfl
  · exact setFlag_acct ..

theorem flagOf_reported (offline : online = false) :
    (flagOf (s.reported q online form credit) .printerOffline (q.val + 1)).isSome = true := by
  rw [State.reported, offline, if_neg Bool.false_ne_true]
  exact isSome_flagOf_setFlag ..

/-- A form that is loaded leaves a grant (R150, R164). -/
theorem state_loadForm_of_granted {p : Printer} {t : Ticket} (granted : p.state = .granted t) (f : Fin 16) :
    (p.loadForm f).state = .granted t := by
  simp only [Printer.loadForm, granted]

/-- A STATUS taken, with the selection after it. -/
theorem exec_printStatus (run : s.isRunning = true) (head : headPrint s = some (e, .status online form credit)) {y : State}
    (handled : handleStatus online form credit e.route (popPrint s) = y) (share : ArbiterOnly (popPrint s) y) :
    exec .printStatus s = .next (dropRef e.buf (selectAll y)) := by
  have ran : exec .printStatus s = execPrintStatus s := rfl
  rw [ran, execPrintStatus, event_of_running run]
  simp only [head]
  rw [settle_takePrint] <;> rw [handled]
  exact share.trans (arbiterOnly_selectAll _)

/-- The selection that follows a message, and its release. -/
theorem selectionOnly_released (b : BufId) (s : State) : SelectionOnly s (dropRef b (selectAll s)) :=
  (selectionOnly_selectAll s).trans (onlySends_dropRef b _).selection

/-- What is recorded of a report when the event ends: readiness, form and credit, and the flag of an offline printer; a
grant stands (R150). -/
theorem report_recorded {u : State} (later : SelectionOnly (s.reported q online form credit) u) :
    (u.printer q).online = online ∧ (u.printer q).loadedForm = form
      ∧ (u.printer q).credit = min 15 ((s.printer q).credit + credit)
      ∧ (online = false → (flagOf u .printerOffline (q.val + 1)).isSome = true)
      ∧ ∀ t, (s.printer q).state = .granted t → (u.printer q).state = .granted t := by
  have record := printer_reported q online form credit s
  have fields := later.printer q
  rw [record] at fields
  refine ⟨by rw [fields]; rfl, by rw [fields]; rfl, by rw [fields]; rfl,
    fun offline => later.stay.isSome _ _ (flagOf_reported offline), fun t granted => ?_⟩
  have stands : ((s.reported q online form credit).printer q).state = .granted t := by
    rw [record]
    exact state_loadForm_of_granted granted form
  rw [later.stands q (by rw [stands]; rfl), stands]

/-- What selection leaves of what a printer has reported. -/
theorem SelectionOnly.reports {u : State} (h : SelectionOnly s u) (v : QueueNo) :
    (u.printer v).online = (s.printer v).online ∧ (u.printer v).loadedForm = (s.printer v).loadedForm
      ∧ (u.printer v).credit = (s.printer v).credit := by
  rw [h.printer v]
  exact ⟨rfl, rfl, rfl⟩

end

/-- Settles O30, by whether the sender is the printer of a queue. -/
theorem statusIsRecorded : Obligations.StatusIsRecorded := by
  intro e online form credit s run head
  cases sender : printerOf s e.route with
  | none =>
    have answer := onlySends_sendAnswer (routeDest e.route) (.refused .notYours) 0 0 (popPrint s)
    have later := answer.selection.trans (selectionOnly_released e.buf _)
    refine ⟨_, exec_printStatus run head (handleStatus_of_other (s := popPrint s) sender) answer.arbiter,
      fun v found => absurd found (Option.some_ne_none v).symm, fun _ => later.reports, later.acct, later.share⟩
  | some q =>
    have share := arbiterOnly_reported q online form credit (popPrint s)
    have later := selectionOnly_released e.buf ((popPrint s).reported q online form credit)
    refine ⟨_, exec_printStatus run head (handleStatus_of_printer (s := popPrint s) sender) share, fun v found => ?_,
      fun none => absurd none (Option.some_ne_none q), later.acct.trans (acct_reported ..), share.trans later.share⟩
    cases found
    exact report_recorded (s := popPrint s) later

end Sys2Proof.Machine
end

