-- ==== Sys2Proof/Proofs/PrintFrames.lean ====
section
/-!
The frames of two print messages: the FEED that a DATA becomes, in the message's own buffer (R149), and the answer to a
malformed message, in a fresh one (R145). Each joins its queue; the selection that follows places its frames behind it, in
other buffers, and the release of the message leaves what the queue holds.
-/

namespace Sys2Proof.Machine

/-! ## Answers -/

theorem sendAnswer_of_free {d : Dest} {a : PrintAnswer} {q n : Byte} {b : BufId} {s : State} (free : freeBuf s = some b) :
    sendAnswer d a q n s = sentFrame kindPrint (answerPayload a q n) d b s := by
  rw [sendAnswer, sendBuilt_of_free free]

/-- With no buffer free an answer is lost (R145). -/
theorem sendAnswer_of_full {d : Dest} {a : PrintAnswer} {q n : Byte} {s : State} (full : freeBuf s = none) :
    sendAnswer d a q n s = { s with print := { s.print with answerLost := bump s.print.answerLost } } := by
  simp only [sendAnswer, sendBuilt, takeBuf, full]

/-! ## A reference that has joined a queue -/

section
variable {b : BufId} {s y z : State} {l : List BufId}

/-- With room a buffer joins the trunk transmit queue with its addressing (R25, R46). -/
theorem deliver_trunk_of_room {c : DeskCode} (up : trunkDown s = false) (room : s.trunk.queue.length < 16) :
    (deliver b (.trunk c) s).trunk.queue = s.trunk.queue ++ [b]
      ∧ (deliver b (.trunk c) s).buf b =
        { s.buf b with refs := (s.buf b).refs + 1, trunkAddr := some { dst := c, src := bridgeCode } } := by
  have joined := offerTrunk_of_room (b := b) (s := setTrunkAddr b c bridgeCode s) up room
  have written : (setTrunkAddr b c bridgeCode s).buf b = { s.buf b with trunkAddr := some { dst := c, src := bridgeCode } } :=
    State.buf_modBuf_self ..
  have counted : (deliver b (.trunk c) s).buf b = { (setTrunkAddr b c bridgeCode s).buf b with
      refs := ((setTrunkAddr b c bridgeCode s).buf b).refs + 1 } := by
    rw [deliver, joined]
    exact buf_addRef_self b _
  exact ⟨congrArg (fun x => x.trunk.queue) joined, by rw [counted, written]⟩

/-- With room a buffer joins the queue of a connected star port with its addressing (R38, R46). -/
theorem deliver_star_of_room {p : StarNo} {x : StationId} (on : starConnected s p = true)
    (room : (s.starPort p).queue.length < 16) :
    ((deliver b (.star p x) s).starPort p).queue = (s.starPort p).queue ++ [b]
      ∧ (deliver b (.star p x) s).buf b =
        { s.buf b with refs := (s.buf b).refs + 1, starAddr := some { dst := x, src := s.chassis.unitNumber } } := by
  have joined := offerStar_of_room (b := b) (s := setStarAddr b x s.chassis.unitNumber s) on room
  have written : (setStarAddr b x s.chassis.unitNumber s).buf b
      = { s.buf b with starAddr := some { dst := x, src := s.chassis.unitNumber } } := State.buf_modBuf_self ..
  have counted : (deliver b (.star p x) s).buf b = { (setStarAddr b x s.chassis.unitNumber s).buf b with
      refs := ((setStarAddr b x s.chassis.unitNumber s).buf b).refs + 1 } := by
    rw [deliver, joined]
    exact buf_addRef_self b _
  refine ⟨?_, by rw [counted, written]⟩
  rw [deliver, joined, addRef, State.modBuf_starPort, State.starPort_modStar_self]
  rfl

/-- A reference that has joined the trunk transmit queue stands there, with others behind it, when the event ends. -/
theorem trunk_released_of_behind {c : BufId} (behind : SendsBehind y z) (queue : y.trunk.queue = l ++ [b]) :
    ∃ more, (dropRef c z).trunk.queue = l ++ b :: more := by
  obtain ⟨more, grown⟩ := behind.trunk
  exact ⟨more, by rw [dropRef, State.modBuf_trunk, ← grown, queue, List.append_assoc]; rfl⟩

/-- A reference that has joined the queue of a star port stands there, with others behind it, when the event ends. -/
theorem starPort_released_of_behind {c : BufId} {p : StarNo} (behind : SendsBehind y z)
    (queue : (y.starPort p).queue = l ++ [b]) : ∃ more, ((dropRef c z).starPort p).queue = l ++ b :: more := by
  obtain ⟨more, grown⟩ := behind.star p
  exact ⟨more, by rw [dropRef, State.modBuf_starPort, ← grown, queue, List.append_assoc]; rfl⟩

/-- A buffer that holds a queue's reference besides that of its event is left with its frame when the event ends. -/
theorem buf_released_of_used (behind : SendsBehind y z) (used : 1 < (y.buf b).refs) :
    (dropRef b z).buf b = { y.buf b with
      refs := (y.buf b).refs - 1, trunkAddr := if onTrunkQueue z b then (y.buf b).trunkAddr else none,
      starAddr := if onStarQueue z b then (y.buf b).starAddr else none } := by
  have same := behind.buf b (by omega)
  rw [buf_dropRef_of_more (by rwa [same]), same]

theorem onTrunkQueue_of_behind (behind : SendsBehind y z) (queue : y.trunk.queue = l ++ [b]) : onTrunkQueue z b = true :=
  onTrunkQueue_iff.2 (behind.trunk.subset (by simp [queue]))

theorem onStarQueue_of_behind {p : StarNo} (behind : SendsBehind y z) (queue : (y.starPort p).queue = l ++ [b]) :
    onStarQueue z b = true := onStarQueue_iff.2 ⟨p, (behind.star p).subset (by simp [queue])⟩

end

/-! ## The FEED -/

section
variable {e : InputEntry} {q : QueueNo} {n : Byte} {bytes : List Byte} {b : BufId} {t : Ticket} {d : Dest} {s : State}

/-- The message's buffer with the FEED written into it, delivered (R149). -/
def feedDelivered (q : QueueNo) (n : Byte) (bytes : List Byte) (b : BufId) (d : Dest) (s : State) : State :=
  deliver b d (s.modBuf b fun x => { x with payload := feedPayload (queueByte q) n bytes })

theorem onlySends_feedDelivered (q : QueueNo) (n : Byte) (bytes : List Byte) (b : BufId) (d : Dest) (s : State) :
    OnlySends s (feedDelivered q n bytes b d s) := (onlySends_modBuf b _ s).trans (onlySends_deliver b d _)

theorem starPort_placeFeed (p : StarNo) :
    (placeFeed q n bytes b t d s).starPort p = (feedDelivered q n bytes b d s).starPort p := rfl

theorem buf_placeFeed (i : BufId) : (placeFeed q n bytes b t d s).buf i = (feedDelivered q n bytes b d s).buf i := rfl

theorem arbiterOnly_placeFeed (q : QueueNo) (n : Byte) (bytes : List Byte) (b : BufId) (t : Ticket) (d : Dest) (s : State) :
    ArbiterOnly s (placeFeed q n bytes b t d s) :=
  (((onlySends_feedDelivered q n bytes b d s).arbiter.trans (arbiterOnly_modPrinter q _ _)).trans
    (arbiterOnly_modLive t.costCentre _ _)).trans (arbiterOnly_print _ _)

/-- A FEED is counted (R149). -/
theorem feeds_placeFeed : (placeFeed q n bytes b t d s).print.feeds = bump s.print.feeds := by
  have feeds : (feedDelivered q n bytes b d s).print.feeds = s.print.feeds := by
    rw [(onlySends_feedDelivered q n bytes b d s).print]
  exact congrArg bump feeds

theorem printer_placeFeed (v : QueueNo) :
    (placeFeed q n bytes b t d s).printer v = if v = q then (s.printer v).fed t bytes.length else s.printer v := by
  have delivered := (onlySends_feedDelivered q n bytes b d s).printer v
  have changed := State.printer_modPrinter (feedDelivered q n bytes b d s) q v (Printer.fed t bytes.length)
  rw [delivered] at changed
  exact changed

/-- A FEED's bytes are charged to the ticket's cost centre, and to no other (R171). -/
theorem live_placeFeed (cc : Fin 16) : (placeFeed q n bytes b t d s).acct.live[cc.val] =
    if cc = t.costCentre then (s.acct.live[cc.val]).addBytes bytes.length else s.acct.live[cc.val] := by
  have charged := State.live_modLive (feedDelivered q n bytes b d s) t.costCentre cc fun c => c.addBytes bytes.length
  simp only [(onlySends_feedDelivered q n bytes b d s).acct] at charged
  exact charged

/-- The FEED on the trunk when its event ends. -/
theorem feed_on_trunk {z : State} {c : DeskCode} (behind : SendsBehind (placeFeed q n bytes b t (.trunk c) s) z)
    (used : 1 ≤ (s.buf b).refs) (up : trunkDown s = false) (room : s.trunk.queue.length < 16) :
    (∃ more, (dropRef b z).trunk.queue = s.trunk.queue ++ b :: more)
      ∧ ((dropRef b z).buf b).payload = feedPayload (queueByte q) n bytes
      ∧ ((dropRef b z).buf b).trunkAddr = some { dst := c, src := bridgeCode } := by
  obtain ⟨queue, buf⟩ := deliver_trunk_of_room (b := b) (c := c)
    (s := s.modBuf b fun x => { x with payload := feedPayload (queueByte q) n bytes }) up room
  have queue : (placeFeed q n bytes b t (.trunk c) s).trunk.queue = s.trunk.queue ++ [b] := queue
  rw [State.buf_modBuf_self] at buf
  have released := buf_released_of_used behind (by rw [buf_placeFeed, feedDelivered, buf]; exact Nat.succ_lt_succ used)
  rw [buf_placeFeed, feedDelivered, buf, onTrunkQueue_of_behind behind queue] at released
  rw [released]
  exact ⟨trunk_released_of_behind behind queue, rfl, rfl⟩

/-- The FEED on a star port when its event ends. -/
theorem feed_on_star {z : State} {p : StarNo} {x : StationId}
    (behind : SendsBehind (placeFeed q n bytes b t (.star p x) s) z) (used : 1 ≤ (s.buf b).refs)
    (on : starConnected s p = true) (room : (s.starPort p).queue.length < 16) :
    (∃ more, ((dropRef b z).starPort p).queue = (s.starPort p).queue ++ b :: more)
      ∧ ((dropRef b z).buf b).payload = feedPayload (queueByte q) n bytes
      ∧ ((dropRef b z).buf b).starAddr = some { dst := x, src := s.chassis.unitNumber } := by
  obtain ⟨queue, buf⟩ := deliver_star_of_room (b := b) (x := x)
    (s := s.modBuf b fun x => { x with payload := feedPayload (queueByte q) n bytes }) on room
  have queue : ((placeFeed q n bytes b t (.star p x) s).starPort p).queue = (s.starPort p).queue ++ [b] := by
    rw [starPort_placeFeed, feedDelivered, queue, State.modBuf_starPort]
  rw [State.buf_modBuf_self] at buf
  have released := buf_released_of_used behind (by rw [buf_placeFeed, feedDelivered, buf]; exact Nat.succ_lt_succ used)
  rw [buf_placeFeed, feedDelivered, buf, onStarQueue_of_behind behind queue] at released
  rw [released]
  exact ⟨starPort_released_of_behind behind queue, rfl, rfl⟩

theorem exec_printData_of_feed (run : s.isRunning = true) (head : headPrint s = some (e, .data q n bytes))
    (feed : judgeData q n e.route s = .feed t d) :
    exec .printData s = .next (dropRef e.buf (selectAll (placeFeed q n bytes e.buf t d (popPrint s)))) := by
  have feed : judgeData q n e.route (popPrint s) = .feed t d := feed
  have handled : handleData q n bytes e.buf e.route (popPrint s) = placeFeed q n bytes e.buf t d (popPrint s) := by
    simp only [handleData, feed]
  rw [exec_printData run head, settle_takePrint] <;> rw [handled]
  exact (arbiterOnly_placeFeed ..).trans (arbiterOnly_selectAll _)

/-- What of a FEED is recorded when its event ends: its count, its printer and its account (R149, R171). -/
theorem feed_recorded {u : State} (later : SelectionOnly (placeFeed q n bytes b t d s) u) :
    u.print.feeds = bump s.print.feeds
      ∧ u.printer q = (s.printer q).fed t bytes.length
      ∧ (∀ v, v ≠ q → (s.printer v).state = .disabled → u.printer v = s.printer v)
      ∧ u.acct.live[t.costCentre.val] = (s.acct.live[t.costCentre.val]).addBytes bytes.length
      ∧ ∀ cc : Fin 16, cc ≠ t.costCentre → u.acct.live[cc.val] = s.acct.live[cc.val] := by
  have own : (placeFeed q n bytes b t d s).printer q = (s.printer q).fed t bytes.length := by
    rw [printer_placeFeed, if_pos rfl]
  refine ⟨?_, ?_, fun v other off => ?_, ?_, fun cc other => ?_⟩
  · rw [later.print]
    exact feeds_placeFeed
  · rw [later.stands q (by rw [own]; rfl), own]
  · have same : (placeFeed q n bytes b t d s).printer v = s.printer v := by rw [printer_placeFeed, if_neg other]
    rw [later.stands v (by rw [same, off]; rfl), same]
  · simp only [later.acct]
    rw [live_placeFeed, if_pos rfl]
  · simp only [later.acct]
    rw [live_placeFeed, if_neg other]

/-- The printer's record at a FEED whose ticket's bytes fed do not overflow (R149). -/
theorem Printer.fed_eq (p : Printer) {m : Nat} (fits : t.bytesFed.toNat + m ≤ 4294967295) :
    p.fed t m = { p with
      credit := p.credit - 1, idleRemaining := p.idleLimit,
      state := .granted { t with bytesFed := t.bytesFed + BitVec.ofNat 32 m } } := by
  rw [Printer.fed, Ticket.fed, if_pos fits]

end

/-- Settles O27: what the FEED records, and its frame by the form of the printer's entry. -/
theorem dataBecomesAFeed : Obligations.DataBecomesAFeed := by
  intro e q n bytes t x w s run head granted number sender requester entry credit online room fits
  have feed := judgeData_of_feed (Printer.grant_of_granted granted) number ⟨x, sender, requester⟩ entry credit online room
  have share := arbiterOnly_placeFeed q n bytes e.buf t (entryDest w) (popPrint s)
  have behind := sendsBehind_selectAll (placeFeed q n bytes e.buf t (entryDest w) (popPrint s))
  have later := selectionOnly_released e.buf (placeFeed q n bytes e.buf t (entryDest w) (popPrint s))
  obtain ⟨feeds, record, others, charged, accounts⟩ := feed_recorded later
  refine ⟨_, exec_printData_of_feed run head feed, feeds, record.trans (Printer.fed_eq _ fits), others, charged, accounts,
    fun used => ⟨fun h place up => ?_, fun y p place on => ?_⟩, share.trans later.share⟩
  · have dest : entryDest w = .trunk w.code := by rw [entryDest, place]
    rw [dest] at room behind ⊢
    exact feed_on_trunk (s := popPrint s) behind used up (of_decide_eq_true room)
  · have dest : entryDest w = .star p y := by rw [entryDest, place]
    rw [dest] at room behind ⊢
    exact feed_on_star (s := popPrint s) behind used on (of_decide_eq_true room)

/-! ## The answer to a malformed message -/

section
variable {e : InputEntry} {q n : Byte} {s : State}

/-- A malformed message is answered REFUSED MALFORMED (R145). -/
def malformedAnswered (e : InputEntry) (q n : Byte) (s : State) : State :=
  sendAnswer (routeDest e.route) (.refused .malformed) q n s

theorem exec_printMalformed (run : s.isRunning = true) (head : headPrint s = some (e, .malformed q n)) :
    exec .printMalformed s = .next (dropRef e.buf (selectAll (malformedAnswered e q n (popPrint s)))) := by
  have ran : exec .printMalformed s = execPrintMalformed s := rfl
  rw [ran, execPrintMalformed, event_of_running run]
  simp only [head]
  rw [settle_takePrint]
  · rfl
  · exact (onlySends_sendAnswer ..).arbiter.trans (arbiterOnly_selectAll _)

/-- Where no printer is eligible, selection does nothing (R153). -/
theorem selectAll_of_none_eligible (unable : ∀ p, eligible s p = false) : selectAll s = s := by
  have still : ∀ l : List QueueNo, l.foldl (fun s p => select none p s) s = s := fun l => by
    induction l with
    | nil => rfl
    | cons p l ih => rw [List.foldl_cons, select_of_not_eligible (unable p), ih]
  exact still _

/-- A frame in a buffer that was free stands when the event that built it ends. -/
theorem buf_released_of_fresh {b c : BufId} {y z : State} (behind : SendsBehind y z) (used : (y.buf b).refs ≠ 0)
    (other : b ≠ c) : (dropRef c z).buf b = y.buf b := by
  rw [buf_dropRef, if_neg other, behind.buf b used]

end

/-- Settles O31: the answer's frame by the form of the return route, and what else changes by whether a printer is
eligible. -/
theorem malformedIsRefused : Obligations.MalformedIsRefused := by
  intro e q n s run head told
  have sends : OnlySends (popPrint s) (malformedAnswered e q n (popPrint s)) := onlySends_sendAnswer ..
  have behind := sendsBehind_selectAll (malformedAnswered e q n (popPrint s))
  have later := selectionOnly_released e.buf (malformedAnswered e q n (popPrint s))
  refine ⟨_, exec_printMalformed run head, fun b free used => ?_, fun unable => ?_, sends.arbiter.trans later.share⟩
  · have free : freeBuf (popPrint s) = some b := free
    have apart : b ≠ e.buf := by
      rintro rfl
      exact absurd (refs_of_freeBuf free) (Nat.ne_of_gt used)
    have sent : malformedAnswered e q n (popPrint s) = sentFrame kindPrint told (routeDest e.route) b (popPrint s) :=
      sendAnswer_of_free free
    rw [sent] at behind ⊢
    refine ⟨fun t c route up room => ?_, fun p x route on room => ?_⟩
    · have dest : routeDest e.route = .trunk c := by rw [route]; rfl
      rw [dest] at behind ⊢
      obtain ⟨queue, buf⟩ := sentFrame_trunk_of_room (kind := kindPrint) (payload := told) (b := b) (c := c)
        (s := popPrint s) up room
      rw [buf_released_of_fresh behind (by rw [buf]; exact one_ne_zero) apart, buf]
      exact ⟨trunk_released_of_behind behind queue, rfl, rfl, rfl⟩
    · have dest : routeDest e.route = .star p x := by rw [route]; rfl
      rw [dest] at behind ⊢
      have buf := buf_sentFrame_star_of_room (kind := kindPrint) (payload := told) (b := b) (x := x) (s := popPrint s) on room
      have port := starPort_sentFrame_of_connected (kind := kindPrint) (payload := told) (b := b) (x := x)
        (s := popPrint s) on
      have queue := congrArg StarPort.queue (port.trans (StarPort.offered_of_room room))
      rw [buf_released_of_fresh behind (by rw [buf]; exact one_ne_zero) apart, buf]
      exact ⟨starPort_released_of_behind behind queue, rfl, rfl, rfl⟩
  · have still : selectAll (malformedAnswered e q n (popPrint s)) = malformedAnswered e q n (popPrint s) := by
      refine selectAll_of_none_eligible fun p => ?_
      exact (eligible_of_share sends.arbiter (sends.printer p)).trans (unable p)
    rw [still]
    refine ⟨sends.trans (onlySends_dropRef ..), fun full => ?_⟩
    rw [malformedAnswered, sendAnswer_of_full (s := popPrint s) full]
    rfl

end Sys2Proof.Machine
end

