-- ==== Sys2Proof/Proofs/Opens.lean ====
section
/-!
OPEN (R145 to R147, R154): the tests of Table 7-5 as one condition, the number of a new ticket, the ticket's place in the pool,
and the selection and answer that follow.
-/

namespace Sys2Proof.Machine

/-! ## The number of a ticket (R147) -/

/-- The number `k` places after `n`, with 255 followed by 1. -/
def numberAt (n k : Nat) : Nat := (n - 1 + k) % 255 + 1

section
variable {n : Nat}

theorem numberAt_zero (low : 1 ≤ n) (high : n ≤ 255) : numberAt n 0 = n := by
  unfold numberAt
  omega

theorem numberAfter_range (low : 1 ≤ n) (high : n ≤ 255) : 1 ≤ numberAfter n ∧ numberAfter n ≤ 255 := by
  unfold numberAfter
  split <;> omega

theorem numberAt_numberAfter (low : 1 ≤ n) (high : n ≤ 255) (k : Nat) : numberAt (numberAfter n) k = numberAt n (k + 1) := by
  unfold numberAt numberAfter
  split <;> omega

/-- Counting finds the first free number, unless every number it looks at is used. -/
theorem freeNumber_finds (used : List Nat) (fuel : Nat) (low : 1 ≤ n) (high : n ≤ 255) :
    (∃ k, k < fuel ∧ freeNumber used n fuel = numberAt n k ∧ numberAt n k ∉ used ∧ ∀ j, j < k → numberAt n j ∈ used)
      ∨ ∀ j, j < fuel → numberAt n j ∈ used := by
  induction fuel generalizing n with
  | zero => exact .inr fun j hj => absurd hj (Nat.not_lt_zero j)
  | succ fuel ih =>
    have here := numberAt_zero low high
    have next : freeNumber used n (fuel + 1)
        = if used.contains n then freeNumber used (numberAfter n) fuel else n := rfl
    by_cases taken : n ∈ used
    · have first : ∀ m, (∀ j, j < m → numberAt (numberAfter n) j ∈ used) → ∀ j, j < m + 1 → numberAt n j ∈ used := by
        intro m rest j hj
        cases j with
        | zero => rwa [here]
        | succ j =>
          rw [← numberAt_numberAfter low high]
          exact rest j (Nat.lt_of_succ_lt_succ hj)
      obtain ⟨low', high'⟩ := numberAfter_range low high
      rw [next, if_pos (List.contains_iff_mem.2 taken)]
      rcases ih low' high' with ⟨k, bound, found, free, before⟩ | all
      · rw [numberAt_numberAfter low high] at found free
        exact .inl ⟨k + 1, Nat.succ_lt_succ bound, found, free, first k before⟩
      · exact .inr (first fuel all)
    · rw [next, if_neg (mt List.contains_iff_mem.1 taken)]
      exact .inl ⟨0, Nat.succ_pos fuel, here.symm, by rwa [here], fun j hj => absurd hj (Nat.not_lt_zero j)⟩

/-- The numbers of a turn are distinct. -/
theorem nodup_numberAt (n : Nat) : ((List.range 33).map (numberAt n)).Nodup := by
  refine (List.nodup_map_iff_inj_on List.nodup_range).2 fun j hj k hk same => ?_
  rw [List.mem_range] at hj hk
  unfold numberAt at same
  omega

/-- A queue with at most 32 tickets has a free number within 33 places of its next one (R147). -/
theorem nextNumber_first_free {p : Printer} (low : 1 ≤ p.nextTicket) (high : p.nextTicket ≤ 255)
    (room : p.tickets.length < 33) :
    ∃ k, k < 33 ∧ nextNumber p = numberAt p.nextTicket k ∧ (∀ y ∈ p.tickets, y.number ≠ nextNumber p)
      ∧ ∀ j, j < k → ∃ y ∈ p.tickets, y.number = numberAt p.nextTicket j := by
  rcases freeNumber_finds (p.tickets.map Ticket.number) 33 low high with ⟨k, bound, found, free, before⟩ | all
  · have found : nextNumber p = numberAt p.nextTicket k := found
    refine ⟨k, bound, found, fun y mem same => ?_, fun j hj => List.mem_map.1 (before j hj)⟩
    exact free (found ▸ same ▸ List.mem_map_of_mem mem)
  · have fits := (nodup_numberAt p.nextTicket).subperm (l₂ := p.tickets.map Ticket.number) fun m mem => by
      obtain ⟨j, hj, rfl⟩ := List.mem_map.1 mem
      exact all j (List.mem_range.1 hj)
    have many := fits.length_le
    simp only [List.length_map, List.length_range] at many
    omega

end

/-! ## The tests (Table 7-5) -/

section
variable {q : QueueNo} {sender : Option Entry} {s : State}

/-- A test that refuses lets pass what fails it and passes the rest. -/
theorem ite_some_eq_none {α : Type} {p : Prop} [Decidable p] {a : α} {o : Option α} :
    (if p then some a else o) = none ↔ ¬ p ∧ o = none := by
  by_cases h : p <;> simp [h]

/-- An OPEN passes its tests exactly where its queue serves, its sender has an entry in use with fewer than 2 tickets, and
the pool has room. -/
theorem openRefusal_eq_none_iff : openRefusal q sender s = none ↔
    (s.printer q).code.isSome = true ∧ (s.printer q).enable = true ∧ ∃ x, sender = some x ∧ x.isSuspended = false
      ∧ ticketsHeld s x.code < 2 ∧ ticketCount s < 32 := by
  unfold openRefusal
  rw [ite_some_eq_none]
  cases sender with
  | none => simp
  | some e =>
    simp only [ite_some_eq_none, Bool.not_eq_true', Bool.not_eq_false, Bool.and_eq_true, Printer.configured,
      Bool.not_eq_true, Nat.not_le, and_true, and_assoc, Option.some.injEq, exists_eq_left']
    rfl

end

/-! ## The ticket joins the pool -/

theorem insertAfterLast_perm {α : Type} (p : α → Bool) (r : α) (l : List α) : (insertAfterLast p r l).Perm (r :: l) := by
  induction l with
  | nil => exact .refl _
  | cons x xs ih =>
    unfold insertAfterLast
    split
    · exact (ih.cons x).trans (.swap r x xs)
    · exact .refl _

/-- A ticket that joins its queue stands beside those that were there (R143). -/
theorem tickets_enqueue (t : Ticket) (p : Printer) : (p.enqueue t).tickets.Perm (t :: p.tickets) :=
  ((insertAfterLast_perm _ t p.waiting).append_left _).trans List.perm_middle

/-- The state with the ticket of an OPEN on its queue, before selection (R146). -/
def State.opened (q : QueueNo) (t : Ticket) (s : State) : State :=
  { s with print := { s.print with
      printers := (s.modPrinter q (Printer.enqueue t)).print.printers, ticketsOpened := bump s.print.ticketsOpened } }

section
variable {q : QueueNo} {t : Ticket} {s : State}

theorem printer_opened (q : QueueNo) (t : Ticket) (s : State) (v : QueueNo) :
    (s.opened q t).printer v = if v = q then (s.printer v).enqueue t else s.printer v :=
  State.printer_modPrinter s q v (Printer.enqueue t)

theorem printer_opened_self (q : QueueNo) (t : Ticket) (s : State) :
    (s.opened q t).printer q = (s.printer q).enqueue t := by rw [printer_opened, if_pos rfl]

theorem ticketCount_opened (q : QueueNo) (t : Ticket) (s : State) : ticketCount (s.opened q t) = ticketCount s + 1 := by
  have moved := ticketCount_of_others (s := s) (u := s.opened q t) (q := q) fun v other => by
    rw [printer_opened, if_neg other]
  have more := (tickets_enqueue t (s.printer q)).length_eq
  rw [printer_opened_self] at moved
  rw [List.length_cons] at more
  omega

/-- What an OPEN that passed leaves of its ticket when its event ends: it waits or has been granted (R146). -/
theorem open_recorded {u : State} (later : SelectionOnly (s.opened q t) u) :
    t ∈ (u.printer q).tickets ∧ ticketCount u = ticketCount s + 1
      ∧ u.print.ticketsOpened = bump s.print.ticketsOpened ∧ u.print.openRefused = s.print.openRefused
      ∧ (u.printer q).nextTicket = numberAfter t.number ∧ u.acct = s.acct := by
  have record := printer_opened_self q t s
  refine ⟨?_, later.ticketCount.trans (ticketCount_opened q t s), ?_, ?_, ?_, later.acct⟩
  · rw [(later.tickets q).mem_iff, record, (tickets_enqueue t _).mem_iff]
    exact List.mem_cons_self
  · rw [later.print]
    rfl
  · rw [later.print]
    rfl
  · rw [later.printer q, record]
    rfl

end

/-! ## The command -/

section
variable {e : InputEntry} {q : QueueNo} {form : Fin 16} {label : List Byte} {s : State}

/-- An OPEN that is refused is counted and answered, and selection runs (R146). -/
def openRefusedAnswered (e : InputEntry) (why : RefuseReason) (s : State) : State :=
  selectAll (sendAnswer (routeDest e.route) (.refused why) 0 0
    { s with print := { s.print with openRefused := bump s.print.openRefused } })

theorem handleOpen_of_refused {why : RefuseReason} (refused : openRefusal q (senderOf s e.route) s = some why) :
    handleOpen q form label e.route s = openRefusedAnswered e why s := by
  unfold handleOpen
  split
  · next passed _ => rw [passed] at refused; cases refused
  · next passed _ => rw [passed] at refused; cases refused
  · next refused' => rw [refused] at refused'; cases refused'; rfl

/-- The answer to an OPEN that passed, after its selection (R146, R154). -/
def openAnswered (e : InputEntry) (q : QueueNo) (t : Ticket) (s : State) : State :=
  sendAnswer (routeDest e.route) (openAnswer q t (selectFor (some (q, t.number)) (s.opened q t))) (queueByte q) t.byte
    (selectFor (some (q, t.number)) (s.opened q t))

theorem handleOpen_of_passed {x : Entry} (sender : senderOf s e.route = some x) (passed : openRefusal q (some x) s = none) :
    handleOpen q form label e.route s = openAnswered e q (newTicket (nextNumber (s.printer q)) x form label) s := by
  simp only [handleOpen, sender, passed]
  rfl

theorem selectionOnly_openAnswered (e : InputEntry) (q : QueueNo) (t : Ticket) (s : State) :
    SelectionOnly (s.opened q t) (openAnswered e q t s) :=
  (selectionOnly_selectFor _ _).trans (selectionOnly_sendAnswer ..)

theorem arbiterOnly_openRefusedAnswered (e : InputEntry) (why : RefuseReason) (s : State) :
    ArbiterOnly s (openRefusedAnswered e why s) :=
  ((arbiterOnly_print _ s).trans (onlySends_sendAnswer ..).arbiter).trans (arbiterOnly_selectAll _)

theorem arbiterOnly_openAnswered (e : InputEntry) (q : QueueNo) (t : Ticket) (s : State) :
    ArbiterOnly s (openAnswered e q t s) := (arbiterOnly_print _ s).trans (selectionOnly_openAnswered e q t s).share

theorem exec_printOpen (run : s.isRunning = true) (head : headPrint s = some (e, .openJob q form label)) {y : State}
    (handled : handleOpen q form label e.route (popPrint s) = y) (share : ArbiterOnly (popPrint s) y) :
    exec .printOpen s = .next (dropRef e.buf y) := by
  have ran : exec .printOpen s = execPrintOpen s := rfl
  rw [ran, execPrintOpen, event_of_running run]
  simp only [head]
  rw [settle_takePrint] <;> rw [handled]
  exact share

/-- What a refused OPEN leaves: no ticket is made, and the refusal is counted (R146). -/
theorem openRefused_recorded {u : State}
    (later : SelectionOnly { s with print := { s.print with openRefused := bump s.print.openRefused } } u) :
    u.print.openRefused = bump s.print.openRefused ∧ u.print.ticketsOpened = s.print.ticketsOpened
      ∧ ticketCount u = ticketCount s ∧ u.acct = s.acct := by
  refine ⟨?_, ?_, later.ticketCount, later.acct⟩
  · rw [later.print]
  · rw [later.print]

end

/-- Settles O26, by whether an OPEN passes its tests. -/
theorem openIsTested : Obligations.OpenIsTested := by
  intro e q form label s run head
  refine ⟨fun fails => ?_, ?_⟩
  · obtain ⟨why, refused⟩ : ∃ why, openRefusal q (senderOf s e.route) s = some why := by
      refine Option.ne_none_iff_exists'.1 fun passed => ?_
      obtain ⟨code, enable, x, sender, free, few, room⟩ := openRefusal_eq_none_iff.1 passed
      rcases fails with none | off | none | ⟨y, found, bad⟩ | full
      · rw [none] at code; cases code
      · rw [off] at enable; cases enable
      · rw [none] at sender; cases sender
      · rw [found] at sender
        cases sender
        rcases bad with suspended | many
        · rw [suspended] at free; cases free
        · exact absurd few (Nat.not_lt.2 many)
      · exact absurd room (Nat.not_lt.2 full)
    have share := arbiterOnly_openRefusedAnswered e why (popPrint s)
    have later : SelectionOnly { popPrint s with print := { s.print with openRefused := bump s.print.openRefused } }
        (dropRef e.buf (openRefusedAnswered e why (popPrint s))) :=
      (selectionOnly_sendAnswer ..).trans (selectionOnly_released e.buf _)
    obtain ⟨counted, opened, tickets, acct⟩ := openRefused_recorded (s := popPrint s) later
    exact ⟨_, exec_printOpen run head (handleOpen_of_refused (s := popPrint s) refused) share, counted, opened, tickets, acct,
      share.trans (onlySends_dropRef ..).arbiter⟩
  · intro x code enable sender free few room t
    have passed : openRefusal q (some x) (popPrint s) = none :=
      openRefusal_eq_none_iff.2 ⟨code, enable, x, rfl, free, few, room⟩
    have share := arbiterOnly_openAnswered e q t (popPrint s)
    have later : SelectionOnly ((popPrint s).opened q t) (dropRef e.buf (openAnswered e q t (popPrint s))) :=
      (selectionOnly_openAnswered e q t _).trans (onlySends_dropRef ..).selection
    obtain ⟨joined, tickets, opened, counted, next, acct⟩ := open_recorded later
    have handled : handleOpen q form label e.route (popPrint s) = openAnswered e q t (popPrint s) :=
      handleOpen_of_passed (s := popPrint s) sender passed
    refine ⟨_, exec_printOpen run head handled share, joined, tickets, opened, counted, next, acct,
      fun low high => nextNumber_first_free low high ?_, rfl, share.trans (onlySends_dropRef ..).arbiter⟩
    have pool : (s.printer q).tickets.length ≤ ticketCount s := by
      rw [ticketCount_eq_sum]
      exact Finset.single_le_sum (f := fun v => (s.printer v).tickets.length) (fun _ _ => Nat.zero_le _) (Finset.mem_univ q)
    omega

end Sys2Proof.Machine
end

