-- ==== Sys2Proof/Proofs/QueueRequests.lean ====
section
/-!
The requests of the Print Arbiter (R162 to R166): the removal of all of a queue's tickets as one change of its record, the
tests and the record of PRINTER_SET, and the requests on a configured queue.
-/

namespace Sys2Proof.Machine

/-! ## All tickets of a queue are removed (R163) -/

section
variable {q : QueueNo} {s : State}

/-- Waiting tickets that are cancelled leave the waiting list, and the record is otherwise as it was. -/
theorem printer_foldl_cancelWaiting (m : TellMode) (l : List Ticket) (v : QueueNo) (s : State) :
    (l.foldl (fun s t => cancelWaiting m q t s) s).printer v =
      if v = q then { s.printer v with waiting := (s.printer v).waiting.diff l } else s.printer v := by
  induction l generalizing s with
  | nil => split <;> rfl
  | cons t l ih =>
    rw [List.foldl_cons, ih, printer_cancelWaiting]
    split
    · rw [List.diff_cons]
    · rfl

theorem printer_abandonAndTell (t : Ticket) (v : QueueNo) :
    (abandonAndTell q t s).printer v =
      if v = q then { s.printer v with state := (s.printer v).afterGrant } else s.printer v :=
  ((onlySends_answerRequester _ q t _).printer v).trans (printer_endGrant (.abandonment true) q t s v)

theorem printer_restState (v : QueueNo) (free : (s.printer q).grant = none) :
    (restState q s).printer v =
      if v = q then { s.printer v with state := (s.printer v).afterGrant } else s.printer v := by
  simp only [restState, free]
  exact State.printer_modPrinter ..

theorem Printer.grant_afterGrant (p : Printer) : ({ p with state := p.afterGrant } : Printer).grant = none := by
  simp only [Printer.grant, Printer.afterGrant]
  cases p.enable <;> rfl

/-- The record of a queue whose tickets are all removed: its printer rests. -/
def Printer.cleared (p : Printer) : Printer := { p with waiting := [], state := p.afterGrant }

theorem Printer.tickets_cleared (p : Printer) : p.cleared.tickets = [] :=
  Printer.tickets_of_grant_none (Printer.grant_afterGrant { p with waiting := [] })

/-- A queue whose tickets are removed is cleared; other queues stand. -/
theorem printer_removeQueueTickets (v : QueueNo) :
    (removeQueueTickets q s).printer v = if v = q then (s.printer v).cleared else s.printer v := by
  have all : (s.printer q).waiting.filter (fun _ => true) = (s.printer q).waiting := List.filter_eq_self.2 fun _ _ => rfl
  have none_left : (s.printer q).waiting.diff (s.printer q).waiting = [] := by
    refine List.eq_nil_iff_forall_not_mem.2 fun t mem => Bool.false_ne_true ?_
    exact (not_mem_diff_filter (p := fun _ => true) (by rwa [all])).symm
  have cancelled := printer_foldl_cancelWaiting (q := q) .tell (s.printer q).waiting (s := s)
  simp only [removeQueueTickets, removeTicketsAt, all, if_true]
  generalize (s.printer q).waiting.foldl (fun s t => cancelWaiting .tell q t s) s = y at cancelled
  have own : y.printer q = { s.printer q with waiting := [] } := by rw [cancelled, if_pos rfl, none_left]
  split
  · next t grant =>
    have told : ∀ v, (abandonGrant .tell q t y).printer v = _ := fun v => printer_abandonAndTell t v
    rw [printer_restState v (by rw [told, if_pos rfl]; exact Printer.grant_afterGrant _), told]
    split
    · next same => rw [same, own]; rfl
    · next other => rw [cancelled, if_neg other]
  · next free =>
    rw [printer_restState v free]
    split
    · next same => rw [same, own]; rfl
    · next other => rw [cancelled, if_neg other]

end

/-! ## PRINTER_SET: the tests (R162) -/

section
variable {q : QueueNo} {p : PrinterReq} {s : State}

/-- The request's code is a FIXED entry's. -/
def CodeFixed (p : PrinterReq) (s : State) : Prop := ∃ x, findEntry s p.code = some x ∧ x.origin = .fixed

/-- The entry under the request's code names the queue. -/
def CodeCarries (q : QueueNo) (p : PrinterReq) (s : State) : Prop :=
  ∃ x, findEntry s p.code = some x ∧ x.printerQueue = some q

theorem codeFixed_iff :
    ((findEntry s p.code).filter (fun e => decide (e.origin = .fixed))).isNone = true ↔ ¬ CodeFixed p s := by
  unfold CodeFixed
  cases findEntry s p.code <;> simp

theorem codeCarries_iff : (findEntry s p.code).bind Entry.printerQueue ≠ some q ↔ ¬ CodeCarries q p s := by
  unfold CodeCarries
  rw [ne_eq, Option.bind_eq_some_iff]

theorem printerRefusal_of_high (high : 240 ≤ p.code.toNat) : printerRefusal q p s = some .outOfRange := by
  refine if_pos ⟨fun zero => ?_, ?_⟩
  · rw [zero] at high
    exact absurd high (by decide)
  · rw [Bool.eq_false_iff, ne_eq, isDesk_iff]
    omega

theorem code_ne_zero_of_desk (low : 1 ≤ p.code.toNat) : p.code ≠ 0#8 := fun zero => by
  rw [zero] at low
  exact absurd low (by decide)

section
variable (low : 1 ≤ p.code.toNat) (high : p.code.toNat ≤ 239)
include low high

/-- A desk code passes test 2. -/
theorem code_not_outside : ¬ (p.code ≠ 0#8 ∧ isDesk p.code = false) := fun outside => by
  have desk := (isDesk_iff p.code).2 ⟨low, high⟩
  rw [outside.2] at desk
  cases desk

theorem printerRefusal_of_unfixed (unfixed : ¬ CodeFixed p s) : printerRefusal q p s = some .noSuch := by
  rw [printerRefusal, if_neg (code_not_outside low high),
    if_pos ⟨code_ne_zero_of_desk low, codeFixed_iff.2 unfixed⟩]

theorem printerRefusal_of_uncarried (fixed : CodeFixed p s) (other : ¬ CodeCarries q p s) :
    printerRefusal q p s = some .conflict := by
  rw [printerRefusal, if_neg (code_not_outside low high), if_neg fun test => codeFixed_iff.1 test.2 fixed,
    if_pos ⟨code_ne_zero_of_desk low, codeCarries_iff.2 other⟩]

end

/-- A request for no printer, or for a FIXED entry that names the queue, comes to the last test. -/
theorem printerRefusal_of_code (fits : p.code = 0#8 ∨ (p.code.toNat ≤ 239 ∧ CodeFixed p s ∧ CodeCarries q p s)) :
    printerRefusal q p s =
      if p.newCode ≠ (s.printer q).code ∧ (s.printer q).tickets ≠ [] then some .conflict else none := by
  rcases fits with zero | ⟨high, fixed, carries⟩
  · rw [printerRefusal, if_neg fun test => test.1 zero, if_neg fun test => test.1 zero, if_neg fun test => test.1 zero]
  · have inside : ¬ (p.code ≠ 0#8 ∧ isDesk p.code = false) := fun test => by
      have low : p.code.toNat ≠ 0 := fun zero => test.1 (BitVec.eq_of_toNat_eq zero)
      exact code_not_outside (Nat.pos_of_ne_zero low) high test
    rw [printerRefusal, if_neg inside, if_neg fun test => codeFixed_iff.1 test.2 fixed,
      if_neg fun test => codeCarries_iff.1 test.2 carries]

end

/-! ## PRINTER_SET: the effect (R162, R163) -/

section
variable {q : QueueNo} {p : PrinterReq} {r : Printer} {s : State}

theorem Printer.configure_eq (p : PrinterReq) (r : Printer) : r.configure p =
    { r with
      code := p.newCode, idleLimit := p.idleLimit, formHold := p.formHold,
      online := if p.newCode = r.code then r.online else false,
      credit := if p.newCode = r.code then r.credit else 0,
      loadedForm := if p.newCode = r.code then r.loadedForm else 0,
      idleRemaining := if r.grant.isSome then min r.idleRemaining p.idleLimit else r.idleRemaining } := by
  unfold Printer.configure
  by_cases same : p.newCode = r.code
  · simp only [if_pos same]
    rw [same]
  · simp only [if_neg same]

/-- The record of a queue whose enable is set (R162). -/
def Printer.enabled (old new : Bool) (r : Printer) : Printer :=
  match old, new with
  | true, false => { r with enable := false, waiting := [], state := .disabled }
  | false, true => { r with enable := true, state := .idle }
  | true, true => { r with enable := true }
  | false, false => { r with enable := false }

/-- Setting the enable changes, besides it, the state and the waiting list alone. -/
theorem Printer.enabled_eq (old new : Bool) (r : Printer) : r.enabled old new =
    { r with enable := new, waiting := (r.enabled old new).waiting, state := (r.enabled old new).state } := by
  cases old <;> cases new <;> rfl

theorem printer_enableQueue (q : QueueNo) (old new : Bool) (s : State) (v : QueueNo) :
    (enableQueue q old new s).printer v = if v = q then (s.printer v).enabled old new else s.printer v := by
  have set := State.printer_modPrinter s q v fun r => { r with enable := new }
  simp only [enableQueue]
  split
  · rw [printer_removeQueueTickets, set]
    split <;> rfl
  · rw [State.printer_modPrinter, set]
    split <;> rfl
  · exact set
  · exact set

theorem arbiterOnly_enableQueue (q : QueueNo) (old new : Bool) (s : State) : ArbiterOnly s (enableQueue q old new s) := by
  have set := arbiterOnly_modPrinter q (fun r => { r with enable := new }) s
  simp only [enableQueue]
  split
  · exact set.trans (arbiterOnly_removeQueueTickets q _)
  · exact set.trans (arbiterOnly_modPrinter q _ _)
  · exact set
  · exact set

/-- The state after PRINTER_SET has recorded its request, before selection (R162). -/
def State.printerSet (q : QueueNo) (p : PrinterReq) (s : State) : State :=
  enableQueue q (s.printer q).enable (p.enable && p.newCode.isSome) (s.modPrinter q (Printer.configure p))

theorem arbiterOnly_printerSet (q : QueueNo) (p : PrinterReq) (s : State) : ArbiterOnly s (s.printerSet q p) :=
  (arbiterOnly_modPrinter q _ s).trans (arbiterOnly_enableQueue ..)

theorem printer_printerSet (q : QueueNo) (p : PrinterReq) (s : State) (v : QueueNo) :
    (s.printerSet q p).printer v =
      if v = q then ((s.printer v).configure p).enabled (s.printer q).enable (p.enable && p.newCode.isSome)
      else s.printer v := by
  rw [State.printerSet, printer_enableQueue, State.printer_modPrinter]
  split <;> rfl

theorem setPrinter_of_outside (outside : p.queue = 0#8 ∨ 7 ≤ p.queue.toNat) : setPrinter p s = refuse .outOfRange s := by
  rw [setPrinter, withQueue, queueOf_of_outside outside]

theorem setPrinter_of_refused {st : Status} (queue : p.queue = queueByte q) (refused : printerRefusal q p s = some st) :
    setPrinter p s = refuse st s := by
  rw [setPrinter, withQueue, queue, queueOf_queueByte]
  simp only [refused]

theorem setPrinter_of_passed (queue : p.queue = queueByte q) (passed : printerRefusal q p s = none) :
    setPrinter p s = done (selectAll (s.printerSet q p)) := by
  rw [setPrinter, withQueue, queue, queueOf_queueByte]
  simp only [passed, State.printerSet]

/-- What PRINTER_SET has recorded when its event ends (R162, R163). -/
theorem printerSet_recorded {u : State} (later : SelectionOnly (s.printerSet q p) u) :
    (u.printer q).code = p.newCode ∧ (u.printer q).enable = (p.enable && p.newCode.isSome)
      ∧ (u.printer q).idleLimit = p.idleLimit ∧ (u.printer q).formHold = p.formHold
      ∧ (p.newCode ≠ (s.printer q).code →
        (u.printer q).online = false ∧ (u.printer q).credit = 0 ∧ (u.printer q).loadedForm = 0)
      ∧ ∀ v, v ≠ q → (u.printer v).code = (s.printer v).code ∧ (u.printer v).enable = (s.printer v).enable := by
  have record := printer_printerSet q p s q
  rw [if_pos rfl, Printer.enabled_eq, Printer.configure_eq] at record
  have fields := later.printer q
  rw [record] at fields
  rw [fields]
  refine ⟨rfl, rfl, rfl, rfl, fun changed => ⟨if_neg changed, if_neg changed, if_neg changed⟩, fun v other => ?_⟩
  rw [later.printer v, printer_printerSet, if_neg other]
  exact ⟨rfl, rfl⟩

/-- A grant outlasts a PRINTER_SET that leaves its queue on, with its idle remaining cut to the new limit (R162). -/
theorem printerSet_granted {u : State} {t : Ticket} (later : SelectionOnly (s.printerSet q p) u)
    (granted : (s.printer q).state = .granted t) (was : (s.printer q).enable = true)
    (on : (p.enable && p.newCode.isSome) = true) :
    (u.printer q).state = .granted t ∧ (u.printer q).idleRemaining = min (s.printer q).idleRemaining p.idleLimit := by
  have record := printer_printerSet q p s q
  rw [if_pos rfl, Printer.configure_eq, was, on, Printer.grant_of_granted granted] at record
  have stands : (s.printerSet q p).printer q = _ := record
  rw [later.stands q (by rw [stands]; exact congrArg PrinterState.selectable granted), stands]
  exact ⟨granted, rfl⟩

/-- A queue that a PRINTER_SET turns off is DISABLED and holds no ticket (R163). -/
theorem printerSet_off {u : State} (later : SelectionOnly (s.printerSet q p) u) (was : (s.printer q).enable = true)
    (off : (p.enable && p.newCode.isSome) = false) : (u.printer q).tickets = [] ∧ (u.printer q).state = .disabled := by
  have record := printer_printerSet q p s q
  rw [if_pos rfl, was, off] at record
  rw [later.stands q (by rw [record]; rfl), record]
  exact ⟨rfl, rfl⟩

end

/-! ## How a request of the arbiter is answered -/

section
variable {e : InputEntry} {op : Byte} {tag : BitVec 16} {params : List Byte} {s : State}

/-- A request whose effect is within the arbiter's share is answered from the state it leaves. -/
theorem exec_of_share (asks : Asks s e op tag params) (allow : permitted e.route s = true) {command : Instr} {α : Type}
    {mine : Request → Bool} {parse : List Byte → Option α} {held : α → State → Bool} {effect : α → State → Reply} {a : α}
    (runs : exec command s = requestEvent (request mine (fun q r => stages false held (parse q.params) effect r)) s)
    (own : mine { op := op, tag := tag, params := params } = true) (parsed : parse params = some a)
    (goes : held a (takeControl e s) = false ∨ s.ctl.save = none) {st : Status} {results : List Chunk} {y : State}
    (comes : effect a (takeControl e s) = { status := st, results := results, state := y })
    (share : ArbiterOnly (takeControl e s) y) : exec command s = .next (answered e op tag st results y) := by
  have settled : settle s y = y :=
    settle_eq_self (congrArg Directory.entries share.dir) (congrArg Supervision.ports share.sup) share.link
  rw [exec_of_effect asks allow runs own parsed goes comes, settled]

theorem exec_printerSet {p : PrinterReq} {st : Status} {y : State} (asks : Asks s e 17#8 tag params) (free : Free s e)
    (parsed : parsePrinterSet params = some p)
    (comes : setPrinter p (takeControl e s) = { status := st, results := [], state := y })
    (share : ArbiterOnly (takeControl e s) y) :
    exec .printerSet s = .next (answered e 17#8 tag st [] y) :=
  exec_of_share asks free.1 (mine := isOp 17) (parse := parsePrinterSet) (held := alwaysHeld) (effect := setPrinter) rfl rfl
    parsed (.inr free.2) comes share

theorem selectionOnly_answered (e : InputEntry) (op : Byte) (tag : BitVec 16) (st : Status) (results : List Chunk)
    (s : State) : SelectionOnly s (answered e op tag st results s) := (onlySends_answered e op tag st results s).selection

end

/-- Settles O40: the refusals in the order of the tests, and the record. -/
theorem printerIsSet : Obligations.PrinterIsSet := by
  intro e tag params p q s asks free parsed refused newCode held carries busy
  have refuses : ∀ st, setPrinter p (takeControl e s) = refuse st (takeControl e s) → refused st := fun st comes =>
    exec_printerSet asks free parsed comes (.refl _)
  refine ⟨fun outside => refuses _ (setPrinter_of_outside outside), fun queue high => ?_, fun queue low high unfixed => ?_,
    fun queue low high fixed other => ?_, fun queue fits full => ?_, fun queue fits clear => ?_⟩
  · exact refuses _ (setPrinter_of_refused queue (printerRefusal_of_high high))
  · exact refuses _ (setPrinter_of_refused queue (printerRefusal_of_unfixed low high unfixed))
  · exact refuses _ (setPrinter_of_refused queue (printerRefusal_of_uncarried low high fixed other))
  · exact refuses _ (setPrinter_of_refused queue ((printerRefusal_of_code fits).trans (if_pos full)))
  · have comes := setPrinter_of_passed (s := takeControl e s) queue ((printerRefusal_of_code fits).trans (if_neg clear))
    have share : ArbiterOnly (takeControl e s) (selectAll ((takeControl e s).printerSet q p)) :=
      (arbiterOnly_printerSet q p _).trans (arbiterOnly_selectAll _)
    have later : SelectionOnly ((takeControl e s).printerSet q p)
        (answered e 17#8 tag .done [] (selectAll ((takeControl e s).printerSet q p))) :=
      (selectionOnly_selectAll _).trans (selectionOnly_answered ..)
    obtain ⟨code, enable, idle, hold, reports, others⟩ := printerSet_recorded later
    simp only [takeControl_printer] at reports others
    refine ⟨_, exec_printerSet asks free parsed comes share, code, enable, idle, hold, reports, fun t granted was on => ?_,
      fun was off => ?_, others, share.trans (onlySends_answered ..).arbiter⟩
    · exact printerSet_granted (s := takeControl e s) later granted was (enable.symm.trans on)
    · exact printerSet_off (s := takeControl e s) later was (enable.symm.trans off)

/-! ## FORM_LOADED, QUEUE_PURGE, TICKET_CANCEL (R164 to R166) -/

section
variable {e : InputEntry} {tag : BitVec 16} {q : QueueNo} {n : Byte} {t : Ticket} {s : State}

theorem withConfigured_of_code (code : (s.printer q).code.isSome = true) (f : QueueNo → Reply) :
    withConfigured (queueByte q) s f = f q := by
  rw [withConfigured, withQueue, queueOf_queueByte]
  exact if_pos code

theorem fin16_eq (k : Nat) : fin16 k = if h : k < 16 then ⟨k, h⟩ else 15 := by
  unfold fin16
  split
  · exact Fin.ext (Nat.min_eq_left (by omega))
  · exact Fin.ext (Nat.min_eq_right (by omega))

theorem cancelTicket_of_none (none : findTicket s q n = none) : cancelTicket (queueByte q, n) s = refuse .noSuch s := by
  simp only [cancelTicket, withQueue, queueOf_queueByte, none]

theorem cancelTicket_of_granted (found : findTicket s q n = some t) (granted : (s.printer q).grant = some t) :
    cancelTicket (queueByte q, n) s = done (selectAll (abandonAndTell q t s)) := by
  simp only [cancelTicket, withQueue, queueOf_queueByte, found, isGrant_iff.2 granted, if_true]

theorem cancelTicket_of_waiting (found : findTicket s q n = some t) (waits : (s.printer q).grant ≠ some t) :
    cancelTicket (queueByte q, n) s = done (selectAll (cancelWaiting .tell q t s)) := by
  simp only [cancelTicket, withQueue, queueOf_queueByte, found, isGrant_of_waiting waits, Bool.false_eq_true, if_false]

theorem exec_formLoaded {b : Byte} {st : Status} {y : State} (asks : Asks s e 18#8 tag [queueByte q, b])
    (allow : permitted e.route s = true)
    (comes : formLoaded (queueByte q, b) (takeControl e s) = { status := st, results := [], state := y })
    (share : ArbiterOnly (takeControl e s) y) :
    exec .formLoaded s = .next (answered e 18#8 tag st [] y) :=
  exec_of_share asks allow (mine := isOp 18) (parse := twoParams) (held := neverHeld) (effect := formLoaded) rfl rfl rfl
    (.inl rfl) comes share

theorem exec_queuePurge {st : Status} {results : List Chunk} {y : State} (asks : Asks s e 19#8 tag [queueByte q])
    (allow : permitted e.route s = true)
    (comes : purgeQueue (queueByte q) (takeControl e s) = { status := st, results := results, state := y })
    (share : ArbiterOnly (takeControl e s) y) :
    exec .queuePurge s = .next (answered e 19#8 tag st results y) :=
  exec_of_share asks allow (mine := isOp 19) (parse := oneParam) (held := neverHeld) (effect := purgeQueue) rfl rfl rfl
    (.inl rfl) comes share

theorem exec_ticketCancel {st : Status} {y : State} (asks : Asks s e 20#8 tag [queueByte q, n])
    (allow : permitted e.route s = true)
    (comes : cancelTicket (queueByte q, n) (takeControl e s) = { status := st, results := [], state := y })
    (share : ArbiterOnly (takeControl e s) y) :
    exec .ticketCancel s = .next (answered e 20#8 tag st [] y) :=
  exec_of_share asks allow (mine := isOp 20) (parse := twoParams) (held := neverHeld) (effect := cancelTicket) rfl rfl rfl
    (.inl rfl) comes share

/-- What FORM_LOADED has recorded when its event ends (R164). -/
theorem formLoaded_recorded {f : Fin 16} {u : State} (later : SelectionOnly (s.modPrinter q (Printer.loadForm f)) u) :
    (u.printer q).loadedForm = f ∧ (u.printer q).online = (s.printer q).online
      ∧ (u.printer q).credit = (s.printer q).credit ∧ u.acct = s.acct := by
  rw [later.printer q, State.printer_modPrinter_self]
  exact ⟨rfl, rfl, rfl, later.acct⟩

/-- What a purge has left when its event ends (R165). -/
theorem purge_recorded {u : State} (later : SelectionOnly (removeQueueTickets q s) u) :
    (u.printer q).tickets = [] ∧ (u.printer q).enable = (s.printer q).enable
      ∧ (u.printer q).nextTicket = (s.printer q).nextTicket := by
  have record := printer_removeQueueTickets (q := q) (s := s) q
  rw [if_pos rfl] at record
  refine ⟨?_, ?_, ?_⟩
  · have left := later.tickets q
    rw [record, Printer.tickets_cleared] at left
    exact left.eq_nil
  · rw [later.printer q, record]; rfl
  · rw [later.printer q, record]; rfl

end

/-- Settles O41, request by request. -/
theorem queueIsServed : Obligations.QueueIsServed := by
  intro e tag q s allow code
  have code1 : ((takeControl e s).printer q).code.isSome = true := code
  refine ⟨?_, fun asks => ?_, fun n asks none => ?_, fun n t asks found distinct => ?_⟩
  · intro b asks f
    have comes : formLoaded (queueByte q, b) (takeControl e s)
        = done (selectAll ((takeControl e s).modPrinter q (Printer.loadForm f))) := by
      rw [formLoaded, withConfigured_of_code code1, fin16_eq]
    have share : ArbiterOnly (takeControl e s) (selectAll ((takeControl e s).modPrinter q (Printer.loadForm f))) :=
      (arbiterOnly_modPrinter q _ _).trans (arbiterOnly_selectAll _)
    have later : SelectionOnly ((takeControl e s).modPrinter q (Printer.loadForm f))
        (answered e 18#8 tag .done [] (selectAll ((takeControl e s).modPrinter q (Printer.loadForm f)))) :=
      (selectionOnly_selectAll _).trans (selectionOnly_answered ..)
    obtain ⟨form, online, credit, acct⟩ := formLoaded_recorded later
    exact ⟨_, exec_formLoaded asks allow comes share, form, online, credit, acct,
      share.trans (onlySends_answered ..).arbiter, rfl⟩
  · let count : Chunk := .fixed (u8 (s.printer q).tickets.length)
    have comes : purgeQueue (queueByte q) (takeControl e s)
        = doneWith [count] (selectAll (removeQueueTickets q (takeControl e s))) := withConfigured_of_code code1 _
    have share : ArbiterOnly (takeControl e s) (selectAll (removeQueueTickets q (takeControl e s))) :=
      (arbiterOnly_removeQueueTickets q _).trans (arbiterOnly_selectAll _)
    have later : SelectionOnly (removeQueueTickets q (takeControl e s))
        (answered e 19#8 tag .done [count] (selectAll (removeQueueTickets q (takeControl e s)))) :=
      (selectionOnly_selectAll _).trans (selectionOnly_answered ..)
    obtain ⟨tickets, enable, next⟩ := purge_recorded later
    exact ⟨_, exec_queuePurge asks allow comes share, tickets, enable, next, share.trans (onlySends_answered ..).arbiter⟩
  · exact exec_ticketCancel asks allow (cancelTicket_of_none (s := takeControl e s) none) (.refl _)
  · have number := number_of_findTicket found
    by_cases grant : (s.printer q).grant = some t
    · have later : SelectionOnly (endGrant (.abandonment true) q t (takeControl e s))
          (answered e 20#8 tag .done [] (selectAll (abandonAndTell q t (takeControl e s)))) :=
        ((selectionOnly_sendAnswer ..).trans (selectionOnly_selectAll _)).trans (selectionOnly_answered ..)
      have job := jobEnded_of_endGrant (s := takeControl e s) grant later
      have comes := cancelTicket_of_granted (s := takeControl e s) found grant
      exact ⟨_, exec_ticketCancel asks allow comes (jobEnded_of_abandonAndTell (s := takeControl e s) grant).share,
        number ▸ job.leaves.number_ne distinct, job.leaves.ticketCount, fun _ => ⟨job.live_own, job.flagged rfl⟩,
        fun waits => absurd grant waits, job.share⟩
    · have later : SelectionOnly (dropWaiting q t (takeControl e s))
          (answered e 20#8 tag .done [] (selectAll (cancelWaiting .tell q t (takeControl e s)))) :=
        ((selectionOnly_sendAnswer ..).trans (selectionOnly_selectAll _)).trans (selectionOnly_answered ..)
      have dropped := ticketDropped_of_dropWaiting (s := takeControl e s) (mem_of_findTicket found) grant later
      have comes := cancelTicket_of_waiting (s := takeControl e s) found grant
      exact ⟨_, exec_ticketCancel asks allow comes ((arbiterOnly_cancelWaiting ..).trans (arbiterOnly_selectAll _)),
        number ▸ dropped.leaves.number_ne distinct, dropped.leaves.ticketCount, fun granted => absurd granted grant,
        fun _ => dropped.acct, dropped.share⟩

end Sys2Proof.Machine
end

