-- ==== Sys2Proof/Proofs/BytesCount.lean ====
section
/-!
The bytes count of a cost-centre set (R170, R171): what a FEED makes of it, by whether the sum of the bytes passes the top of
the two halves.
-/

namespace Sys2Proof.Machine

/-- The set with its bytes count at the top and marked (R171). -/
def CostSet.full (c : CostSet) : CostSet := { c with low := 65535, high := 65535, saturated := true }

section
variable {c : CostSet} {n : Nat}

theorem CostSet.bytes_full (c : CostSet) : c.full.bytes = 4294967295 := by
  simp only [CostSet.bytes, CostSet.full]

theorem CostSet.full_wf (c : CostSet) : c.full.wf := ⟨Nat.le_refl _, Nat.le_refl _, fun _ => ⟨rfl, rfl⟩⟩

/-- A well-formed set with the mark is at the top of its count. -/
theorem CostSet.eq_full (wf : c.wf) (marked : c.saturated = true) : c = c.full := by
  obtain ⟨-, -, top⟩ := wf
  obtain ⟨low, high⟩ := top marked
  cases c
  subst low high marked
  rfl

theorem CostSet.addBytes_of_saturated (marked : c.saturated = true) (n : Nat) : c.addBytes n = c := if_pos marked

/-- A sum that the two halves hold is held by them, the carry taken (R171). -/
theorem CostSet.addBytes_of_within (wf : c.wf) (small : n ≤ 490) (unmarked : c.saturated = false)
    (within : c.bytes + n ≤ 4294967295) :
    c.addBytes n = { c with low := (c.bytes + n) % 65536, high := (c.bytes + n) / 65536 } := by
  obtain ⟨low, -, -⟩ := wf
  rw [CostSet.addBytes, if_neg (by simp [unmarked])]
  simp only [CostSet.bytes] at within ⊢
  by_cases fits : c.low + n ≤ 65535
  · rw [if_pos fits, show (c.high * 65536 + c.low + n) % 65536 = c.low + n by omega,
      show (c.high * 65536 + c.low + n) / 65536 = c.high by omega]
  · rw [if_neg fits, if_pos (show c.high < 65535 by omega),
      show (c.high * 65536 + c.low + n) % 65536 = c.low + n - 65536 by omega,
      show (c.high * 65536 + c.low + n) / 65536 = c.high + 1 by omega]

/-- A sum beyond the top saturates the set, and leaves it so (R171). -/
theorem CostSet.addBytes_of_beyond (wf : c.wf) (small : n ≤ 490) (beyond : 4294967295 < c.bytes + n) :
    c.addBytes n = c.full := by
  by_cases marked : c.saturated = true
  · rw [CostSet.addBytes_of_saturated marked, ← CostSet.eq_full wf marked]
  · obtain ⟨low, high, -⟩ := wf
    rw [CostSet.bytes] at beyond
    rw [CostSet.addBytes, if_neg marked, if_neg (show ¬ c.low + n ≤ 65535 by omega),
      if_neg (show ¬ c.high < 65535 by omega)]
    rfl

/-- The three things a FEED can make of a well-formed set (R171). -/
theorem CostSet.addBytes_cases (wf : c.wf) (small : n ≤ 490) :
    (c.saturated = true ∧ c.addBytes n = c)
    ∨ (c.saturated = false ∧ c.bytes + n ≤ 4294967295
        ∧ c.addBytes n = { c with low := (c.bytes + n) % 65536, high := (c.bytes + n) / 65536 })
    ∨ (4294967295 < c.bytes + n ∧ c.addBytes n = c.full) := by
  rcases Nat.lt_or_ge 4294967295 (c.bytes + n) with beyond | within
  · exact .inr (.inr ⟨beyond, CostSet.addBytes_of_beyond wf small beyond⟩)
  · rcases Bool.eq_false_or_eq_true c.saturated with marked | unmarked
    · exact .inl ⟨marked, CostSet.addBytes_of_saturated marked n⟩
    · exact .inr (.inl ⟨unmarked, within, CostSet.addBytes_of_within wf small unmarked within⟩)

theorem CostSet.addBytes_wf (wf : c.wf) (small : n ≤ 490) : (c.addBytes n).wf := by
  rcases CostSet.addBytes_cases wf small with ⟨-, same⟩ | ⟨unmarked, within, sum⟩ | ⟨-, top⟩
  · rwa [same]
  · rw [sum]
    refine ⟨show (c.bytes + n) % 65536 ≤ 65535 by omega, show (c.bytes + n) / 65536 ≤ 65535 by omega, fun marked => ?_⟩
    exact absurd (unmarked.symm.trans marked) Bool.false_ne_true
  · rw [top]
    exact c.full_wf

/-- Bytes leave the two job counts. -/
theorem CostSet.addBytes_jobs (wf : c.wf) (small : n ≤ 490) :
    (c.addBytes n).completed = c.completed ∧ (c.addBytes n).abandoned = c.abandoned := by
  rcases CostSet.addBytes_cases wf small with ⟨-, same⟩ | ⟨-, -, sum⟩ | ⟨-, top⟩
  · rw [same]; exact ⟨rfl, rfl⟩
  · rw [sum]; exact ⟨rfl, rfl⟩
  · rw [top]; exact ⟨rfl, rfl⟩

end

/-- Settles O42. -/
theorem bytesCountSaturates : Obligations.BytesCountSaturates := by
  intro c n wf small
  refine ⟨CostSet.addBytes_wf wf small, fun within unmarked => ?_, fun beyond => ?_,
    fun marked => CostSet.addBytes_of_saturated marked n, CostSet.addBytes_jobs wf small⟩
  · rw [CostSet.addBytes_of_within wf small unmarked within]
    exact ⟨Nat.div_add_mod' (c.bytes + n) 65536, unmarked⟩
  · rw [CostSet.addBytes_of_beyond wf small beyond]
    exact ⟨c.bytes_full, rfl⟩

end Sys2Proof.Machine
end

