-- ==== Sys2Proof/Proofs/PlainRequests.lean ====
section
/-!
ACCOUNT_SNAPSHOT, CLEAR_CAUSES and requests of no known operation (R174, R180, R201): each leaves the Print Arbiter no share,
so that the state it leaves is its effect with at most the answer.
-/

namespace Sys2Proof.Machine

theorem parseSnapshot_choice (clear : Bool) : parseSnapshot [if clear then 0#8 else 1#8] = some clear := by
  cases clear <;> rfl

theorem headControl_of_head {s : State} {e : InputEntry} (head : s.inputs.control.head? = some e) :
    headControl s = some (e, (s.buf e.buf).payload) := by
  rw [headControl]
  cases queue : s.inputs.control with
  | nil => simp [queue] at head
  | cons first rest =>
    rw [queue, List.head?_cons, Option.some.injEq] at head
    rw [head]

/-- A message shorter than its operation and tag is no request (R180). -/
theorem parseRequest_of_short {payload : List Byte} (short : payload.length < 3) : parseRequest payload = none := by
  match payload, short with
  | [], _ => rfl
  | [_], _ => rfl
  | [_, _], _ => rfl

section
variable {s : State} {e : InputEntry} {op : Byte} {tag : BitVec 16} {params : List Byte}

/-- A request whose operation is outside 1 to 28 is taken and answered BAD_REQUEST (R180). -/
theorem unknownOperation_of_outside (asks : Asks s e op tag params) (outside : ¬ (1 ≤ op.toNat ∧ op.toNat ≤ 28)) :
    unknownOperation s = answered e op tag .badRequest [] (takeControl e s) := by
  rw [unknownOperation]
  simp only [headControl_of_asks asks, parseRequest_cons, if_neg outside]
  exact answerRequest_of_local rfl rfl fun _ => rfl

/-- A message too short is taken and counted (R180). -/
theorem unknownOperation_of_short (head : s.inputs.control.head? = some e) (short : (s.buf e.buf).payload.length < 3) :
    unknownOperation s = { takeControl e s with ctl := { (takeControl e s).ctl with short := bump s.ctl.short } } := by
  rw [unknownOperation]
  simp only [headControl_of_head head, parseRequest_of_short short]
  rfl

end

/-- Settles O47, request by request. -/
theorem snapshotCausesUnknown : Obligations.SnapshotCausesUnknown := by
  intro e tag op params clear s
  refine ⟨fun asks allow => ?snapshot, fun asks allow => ?causes, fun asks unknown => ?unknown, fun run head short => ?short⟩
  case snapshot =>
    have answer := exec_of_effect asks allow (command := .accountSnapshot) (mine := isOp 21) (held := neverHeld)
      (effect := snapshotAccounts) rfl rfl (parseSnapshot_choice clear) (.inl rfl) rfl
    have still : settle s (snapshotAccounts clear (takeControl e s)).state = _ := settle_eq_self rfl rfl fun _ => rfl
    exact answer.trans (congrArg (fun x => Host.Outcome.next (answered e 21#8 tag .done _ x)) still)
  case causes =>
    have answer := exec_of_effect asks allow (command := .clearCauses) (mine := isOp 28) (parse := noParams)
      (held := neverHeld) (effect := fun _ s => done (clearCauses s)) rfl rfl rfl (.inl rfl) rfl
    have still : settle s (clearCauses (takeControl e s)) = _ := settle_eq_self rfl rfl fun _ => rfl
    exact answer.trans (congrArg (fun x => Host.Outcome.next (answered e 28#8 tag .done [] x)) still)
  case unknown =>
    have outside : ¬ (1 ≤ op.toNat ∧ op.toNat ≤ 28) := by
      rcases unknown with zero | above
      · rw [zero]; decide
      · omega
    exact (requestEvent_of_running asks.1).trans (congrArg _ (unknownOperation_of_outside asks outside))
  case short => exact (requestEvent_of_running run).trans (congrArg _ (unknownOperation_of_short head short))

end Sys2Proof.Machine
end

