-- ==== Sys2Proof/Proofs/Restarts.lean ====
section
/-!
RESTART (R207): a request that passes its stages is a reset by command, and what the start-up load then leaves (R201, R202).
-/

namespace Sys2Proof.Machine

/-! ## What the start-up load leaves empty -/

/-- A star port comes out of the load with nothing to send (R42). -/
theorem queue_loadStar (listens : Bool) (x : StarPort) : (loadStar listens x).queue = [] := by
  cases listens
  · rfl
  · rw [loadStar, if_pos rfl, StarPort.beginListening]
    split <;> rfl

/-- The queues are empty after the start-up load, whichever configuration it loads (R29, R42, R191). -/
theorem startUp_queues (s : State) :
    (∀ p, ((startUp s).starPort p).queue = []) ∧ (startUp s).trunk.queue = [] ∧ (startUp s).inputs.control = [] := by
  obtain ⟨c, fault, load⟩ := startUp_eq_loadConfig s
  rw [load]
  refine ⟨fun p => ?_, rfl, rfl⟩
  rw [State.starPort, loadConfig, Vector.getElem_ofFn]
  exact queue_loadStar _ _

/-- The default configuration has no printers (R169, R202). -/
theorem code_loadConfig_default (fault : Bool) (s : State) (q : QueueNo) :
    ((loadConfig StoredConfig.default fault s).printer q).code = none := by
  rw [State.printer, loadConfig, Vector.getElem_ofFn, loadPrinter, StoredConfig.default, Vector.getElem_replicate]
  rfl

/-! ## The request -/

/-- A RESTART of a kind of its row, from a permitted sender with no SAVE in flight, is carried out (R207). -/
theorem takeRestart_of_asks {s : State} {e : InputEntry} {tag : BitVec 16} {kind : Byte} {factory : Bool}
    {mine : Request → Bool} (free : Free s e) (asks : Asks s e 27#8 tag [kind]) (choice : boolOf kind = some factory)
    (own : mine { op := 27#8, tag := tag, params := [kind] } = true) :
    takeRestart factory mine s =
      if factory then factoryReset (takeControl e s) else commandReset (takeControl e s) := by
  obtain ⟨allow, save⟩ := free
  have parsed : restartKind [kind] = some factory := choice
  have passed : stages false alwaysHeld (some factory) (fun _ s => done s) e.route (takeControl e s)
      = done (takeControl e s) := stages_of_free _ _ _ _ _ _ allow save
  rw [takeRestart]
  simp only [headControl_of_asks asks, parseRequest_cons, own, if_true, parsed, passed]
  rfl

section
variable {s : State} {e : InputEntry} {tag : BitVec 16}

theorem exec_restartKeep (free : Free s e) (asks : Asks s e 27#8 tag [0#8]) :
    exec .restartKeep s = .next (commandReset (takeControl e s)) :=
  (requestEvent_of_running asks.1).trans (congrArg _ (takeRestart_of_asks free asks rfl rfl))

theorem exec_restartFactory (free : Free s e) (asks : Asks s e 27#8 tag [1#8]) :
    exec .restartFactory s = .next (factoryReset (takeControl e s)) :=
  (requestEvent_of_running asks.1).trans (congrArg _ (takeRestart_of_asks free asks rfl rfl))

end

/-- A factory restart loads the defaults, the erased store being blank (R202, R207). -/
theorem factoryReset_eq (s : State) : factoryReset s =
    loadConfig StoredConfig.default false (addCause (fun c => { c with factory := true }) (eraseStore s)) :=
  startUp_of_blank StoreImage.judge_blank

/-- Settles O46, kind by kind. -/
theorem restartsTakeTheirReset : Obligations.RestartsTakeTheirReset := by
  intro e tag s free
  refine ⟨fun asks => ⟨_, exec_restartKeep free asks, ?keep⟩, fun asks => ⟨_, exec_restartFactory free asks, ?factory⟩⟩
  case keep =>
    obtain ⟨stars, trunk, control⟩ := startUp_queues (addCause (fun c => { c with command := true }) (takeControl e s))
    refine ⟨?_, ?_, startUp_acct _, stars, trunk, control, fun c valid => ?_, rfl⟩
    · rw [commandReset, startUp_chassis]; rfl
    · rw [commandReset, startUp_chassis]; rfl
    · have image : (addCause (fun c => { c with command := true }) (takeControl e s)).chassis.store.judge = .valid c := valid
      rw [commandReset, startUp_of_valid image]
      exact ⟨rfl, rfl, rfl⟩
  case factory =>
    have load := factoryReset_eq (takeControl e s)
    rw [load]
    exact ⟨rfl, rfl, rfl, rfl, rfl, code_loadConfig_default _ _, rfl, rfl, load.symm⟩

end Sys2Proof.Machine
end

