-- ==== Sys2Proof/Proofs/Saves.lean ====
section
/-!
SAVE and its completion (R186, R187, R204): the request begins a write and keeps its answer back; the report of the store
clears the mark, seals the image or flags the fault, and answers by the kept route.
-/

namespace Sys2Proof.Machine

/-! ## The request -/

section
variable {s : State} {e : InputEntry} {tag : BitVec 16}

/-- A SAVE from a permitted sender with none in flight begins the write and is not answered (R186). -/
theorem takeSave_of_asks (free : Free s e) (asks : Asks s e 26#8 tag []) :
    takeSave s = startSave tag e.route (takeControl e s) := by
  obtain ⟨allow, save⟩ := free
  have own : isOp 26 { op := 26#8, tag := tag, params := [] } = true := rfl
  have passed : stages false alwaysHeld (noParams []) (fun _ s => done (startSave tag e.route s)) e.route (takeControl e s)
      = done (startSave tag e.route (takeControl e s)) := stages_of_free _ _ () _ _ _ allow save
  rw [takeSave]
  simp only [headControl_of_asks asks, parseRequest_cons, own, if_true, passed]
  rfl

theorem exec_save (free : Free s e) (asks : Asks s e 26#8 tag []) :
    exec .save s = .next (startSave tag e.route (takeControl e s)) :=
  (requestEvent_of_running asks.1).trans (congrArg _ (takeSave_of_asks free asks))

end

/-! ## The report of the store -/

/-- The state in which a SAVE has ended but for its answer: no mark, with an image in the store and what the Alert Unit
then holds. -/
def State.saveEnded (i : StoreImage) (a : Alerts) (s : State) : State :=
  { s with ctl := { s.ctl with save := none }, chassis := { s.chassis with store := i }, alerts := a }

section
variable {s : State} {v : SaveInFlight}

/-- A verified write is sealed over the copy of its SAVE and answered DONE (R187, R204). -/
theorem completeSave_of_verified (saving : s.ctl.save = some v) :
    completeSave true s = answerSave v .done (s.saveEnded (StoreImage.written v.copy) s.alerts) := by
  simp only [completeSave, saving, if_true]
  rfl

/-- A failed write leaves the image as it is, sets STORE_FAULT and is answered so (R187, R204). -/
theorem completeSave_of_failed (saving : s.ctl.save = some v) :
    completeSave false s =
      answerSave v .storeFault (setFlag .storeFault 0 none (s.saveEnded s.chassis.store s.alerts)) := by
  simp only [completeSave, saving, Bool.false_eq_true, if_false]
  rfl

theorem setFlag_saveEnded (k : AlertKind) (n : Nat) (d : Option Byte) (i : StoreImage) (a : Alerts) (s : State) :
    ∃ a', setFlag k n d (s.saveEnded i a) = s.saveEnded i a' := by
  obtain ⟨a', flagged, -⟩ := setFlag_eq k n d (s.saveEnded i a)
  exact ⟨a', flagged⟩

/-- However the write ended, the image in the store is decided by the report, and only the answer is still to be sent. -/
theorem completeSave_eq_answerSave (verified : Bool) (saving : s.ctl.save = some v) :
    ∃ st a, completeSave verified s
      = answerSave v st (s.saveEnded (if verified then StoreImage.written v.copy else s.chassis.store) a) := by
  cases verified with
  | true => exact ⟨_, _, completeSave_of_verified saving⟩
  | false =>
    obtain ⟨a, flagged⟩ := setFlag_saveEnded .storeFault 0 none s.chassis.store s.alerts s
    exact ⟨_, a, (completeSave_of_failed saving).trans (congrArg _ flagged)⟩

theorem onlySends_answerSave (v : SaveInFlight) (st : Status) (s : State) : OnlySends s (answerSave v st s) :=
  onlySends_sendControl ..

/-- What the completion leaves: the mark is cleared, the image is the one that the report decides, and the rest is what
sending an answer can change. -/
theorem completeSave_leaves (verified : Bool) (saving : s.ctl.save = some v) :
    let u := completeSave verified s
    u.ctl.save = none ∧ u.chassis.store = (if verified then StoreImage.written v.copy else s.chassis.store)
      ∧ OnlySends (s.saveEnded u.chassis.store u.alerts) u := by
  obtain ⟨st, a, ended⟩ := completeSave_eq_answerSave verified saving
  simp only [ended]
  generalize (if verified then StoreImage.written v.copy else s.chassis.store) = i
  have sends := onlySends_answerSave v st (s.saveEnded i a)
  have store : (answerSave v st (s.saveEnded i a)).chassis.store = i := congrArg Chassis.store sends.chassis
  have alerts : (answerSave v st (s.saveEnded i a)).alerts = a := sends.alerts
  refine ⟨congrArg Control.save sends.ctl, store, ?_⟩
  rw [store, alerts]
  exact sends

/-- The completion has no share for the Print Arbiter (R144). -/
theorem exec_saveCompletion (verified : Bool) (run : s.isRunning = true) (saving : s.ctl.save = some v) :
    exec (.saveCompletion verified) s = .next (completeSave verified s) := by
  obtain ⟨-, -, sends⟩ := completeSave_leaves verified saving
  exact event_of_local run (congrArg Directory.entries sends.dir) (congrArg Supervision.ports sends.sup) sends.link

/-- STORE_FAULT stands after a failed write (R187). -/
theorem flagOf_completeSave_of_failed (saving : s.ctl.save = some v) :
    (flagOf (completeSave false s) .storeFault 0).isSome = true := by
  rw [completeSave_of_failed saving, flagOf_of_onlySends 0 (onlySends_answerSave ..)]
  exact isSome_flagOf_setFlag ..

end

/-- Settles O45: the request, and the report by whether the write was verified. -/
theorem saveWritesTheStore : Obligations.SaveWritesTheStore := by
  intro e tag verified v s
  refine ⟨fun asks free => ⟨_, exec_save free asks, rfl, rfl, StoreImage.judge_filled .., rfl⟩, fun run saving => ?_⟩
  obtain ⟨cleared, store, sends⟩ := completeSave_leaves verified saving
  refine ⟨_, exec_saveCompletion verified run saving, cleared, ?verified, ?failed, sends⟩
  case verified =>
    rintro rfl
    rw [store, if_pos rfl]
    exact ⟨StoreImage.judge_written v.copy, rfl⟩
  case failed =>
    rintro rfl
    exact ⟨store, flagOf_completeSave_of_failed saving⟩

end Sys2Proof.Machine
end

