-- ==== Sys2Proof/Proofs/AlertFlags.lean ====
section
/-!
Setting a flag (R192, R194, R195): what it leaves of the alert queue and its counters, by whether the flag was clear, whether
its kind raises a record, and what room the queue has; and the lamps (R199).
-/

namespace Sys2Proof.Machine

/-! ## The place of a record in the queue -/

/-- The alert queue with a record behind the last one of its level or above (R195). -/
def AlertRecord.placedIn (r : AlertRecord) (l : List AlertRecord) : List AlertRecord :=
  insertAfterLast (fun x => decide (r.level ≤ x.level)) r l

theorem AlertRecord.mem_placedIn {r x : AlertRecord} {l : List AlertRecord} : x ∈ r.placedIn l ↔ x = r ∨ x ∈ l :=
  (insertAfterLast_perm _ r l).mem_iff.trans List.mem_cons

theorem AlertRecord.length_placedIn (r : AlertRecord) (l : List AlertRecord) : (r.placedIn l).length = l.length + 1 :=
  length_insertAfterLast _ r l

/-! ## A record offered to the queue -/

section
variable {r l : AlertRecord} {s : State}

theorem alerts_offerRecord_of_room (room : s.alerts.queue.length < 8) : (offerRecord r s).alerts =
    { s.alerts with queue := r.placedIn s.alerts.queue, queued := bump s.alerts.queued } := by
  have free : s.alerts.queue.length < Config.alertQueueSize := room
  simp only [offerRecord, if_pos free]
  rfl

theorem alerts_offerRecord_of_displacing (full : 8 ≤ s.alerts.queue.length) (last : s.alerts.queue.getLast? = some l)
    (lower : l.level < r.level) : (offerRecord r s).alerts =
      { s.alerts with queue := r.placedIn s.alerts.queue.dropLast, displaced := bump s.alerts.displaced,
                      queued := bump s.alerts.queued } := by
  have noPlace : ¬ s.alerts.queue.length < Config.alertQueueSize := Nat.not_lt.2 full
  simp only [offerRecord, if_neg noPlace, last, if_pos lower]
  rfl

theorem alerts_offerRecord_of_dropped (full : 8 ≤ s.alerts.queue.length) (last : s.alerts.queue.getLast? = some l)
    (notLower : r.level ≤ l.level) :
    (offerRecord r s).alerts = { s.alerts with dropped := bump s.alerts.dropped } := by
  have noPlace : ¬ s.alerts.queue.length < Config.alertQueueSize := Nat.not_lt.2 full
  simp only [offerRecord, if_neg noPlace, last, if_neg (not_lt.2 notLower)]

end

/-! ## A flag set from clear -/

/-- A flag of this kind raises a record when it is set from clear: its kind is enabled, the bridge is commissioned and there
is a destination (R194). -/
def State.Raises (s : State) (k : AlertKind) : Prop :=
  s.alerts.config.enabled k = true ∧ s.ctl.commissioned = true ∧ s.alerts.config.dest ≠ .none

/-- The state with one more flag in its list, before its record is raised. -/
def State.withFlag (f : AlertFlag) (s : State) : State :=
  { s with alerts := { s.alerts with flags := insertFlag f s.alerts.flags } }

theorem raiseRecord_of_raises {f : AlertFlag} {s : State} (raises : s.Raises f.kind) :
    raiseRecord f s = offerRecord (recordOf s.alerts.config f) s := by
  obtain ⟨enabled, commissioned, dest⟩ := raises
  simp [raiseRecord, enabled, commissioned, dest]

theorem raiseRecord_of_silent {f : AlertFlag} {s : State} (silent : ¬ s.Raises f.kind) : raiseRecord f s = s := by
  refine if_neg fun raises => silent ?_
  simpa [State.Raises, and_assoc] using raises

section
variable {k : AlertKind} {i : Nat} {d : Option Byte} {s : State}

theorem setFlag_of_clear (clear : flagOf s k i = none) :
    setFlag k i d s = raiseRecord { kind := k, inst := i, detail := d }
      (s.withFlag { kind := k, inst := i, detail := d }) := by
  simp only [setFlag, clear]
  rfl

/-- From clear a flag whose kind raises offers its record, at the level of its kind (R194). -/
theorem setFlag_of_raises (clear : flagOf s k i = none) (raises : s.Raises k) :
    setFlag k i d s = offerRecord { kind := k, inst := i, level := s.alerts.config.level k, detail := d }
      (s.withFlag { kind := k, inst := i, detail := d }) := by
  have kept : (s.withFlag { kind := k, inst := i, detail := d }).Raises k := raises
  rw [setFlag_of_clear clear, raiseRecord_of_raises kept]
  rfl

/-- A flag already set raises nothing (R192). -/
theorem queue_setFlag_of_set {f : AlertFlag} (set : flagOf s k i = some f) :
    (setFlag k i d s).alerts.queue = s.alerts.queue := by
  simp only [setFlag, set]
  split <;> rfl

/-- A flag whose kind does not raise leaves the queue, clear or set (R194). -/
theorem queue_setFlag_of_silent (silent : ¬ s.Raises k) : (setFlag k i d s).alerts.queue = s.alerts.queue := by
  cases was : flagOf s k i with
  | none =>
    have still : ¬ (s.withFlag { kind := k, inst := i, detail := d }).Raises k := silent
    rw [setFlag_of_clear was, raiseRecord_of_silent still]
    rfl
  | some f => exact queue_setFlag_of_set was

end

theorem AlertKind.replacesDetail_iff (k : AlertKind) :
    k.replacesDetail = true ↔ k = .codeConflict ∨ k = .duplicate ∨ k = .quarantine := by
  cases k <;> decide

/-! ## The lamps -/

theorem lampLit_iff (s : State) (n : Fin 4) : lampLit s n = true ↔ s.isRunning = true
    ∧ ∃ f ∈ s.alerts.flags, s.alerts.config.enabled f.kind = true ∧ s.alerts.config.level f.kind = n := by
  simp only [lampLit, flagsAtLevel, Bool.and_eq_true, Bool.not_eq_true', List.isEmpty_eq_false_iff_exists_mem,
    List.mem_filter, beq_iff_eq]

/-- A flag just set lights the lamp of its level, when its kind is enabled (R199). -/
theorem lampLit_setFlag {k : AlertKind} {s : State} (run : s.isRunning = true) (enabled : s.alerts.config.enabled k = true)
    (i : Nat) (d : Option Byte) : lampLit (setFlag k i d s) (s.alerts.config.level k) = true := by
  obtain ⟨f, set, -⟩ := flagOf_setFlag_self k i d s
  obtain ⟨rfl, -⟩ := AlertFlag.is_eq_true.1 (List.find?_some (p := fun f : AlertFlag => f.is k i) set)
  obtain ⟨a, eq, config⟩ := setFlag_eq f.kind i d s
  refine (lampLit_iff _ _).2 ⟨by rw [eq]; exact run, f, List.mem_of_find?_eq_some set, ?_⟩
  rw [eq, config]
  exact ⟨enabled, rfl⟩

/-- Settles O25, by whether the flag was clear and what room the queue has. -/
theorem flagRaisesOneRecord : Obligations.FlagRaisesOneRecord := by
  intro k i d s u raised
  have offers : flagOf s k i = none → s.Raises k →
      u.alerts = (offerRecord raised (s.withFlag { kind := k, inst := i, detail := d })).alerts :=
    fun clear raises => congrArg State.alerts (setFlag_of_raises clear raises)
  refine ⟨fun clear => flagOf_setFlag_of_clear clear d, fun clear on commissioned dest room => ?room,
    fun l clear on commissioned dest full last => ⟨fun lower => ?displacing, fun notLower => ?dropped⟩,
    fun silent => queue_setFlag_of_silent ?silent, fun f set => ⟨queue_setFlag_of_set set, ?detail⟩, lampLit_iff s,
    fun run on => lampLit_setFlag run on i d⟩
  case room =>
    rw [offers clear ⟨on, commissioned, dest⟩, alerts_offerRecord_of_room (s := s.withFlag _) room]
    exact ⟨AlertRecord.mem_placedIn.2 (.inl rfl), AlertRecord.length_placedIn _ _, rfl⟩
  case displacing =>
    have length : (raised.placedIn s.alerts.queue.dropLast).length = s.alerts.queue.length := by
      rw [AlertRecord.length_placedIn, List.length_dropLast]
      omega
    rw [offers clear ⟨on, commissioned, dest⟩, alerts_offerRecord_of_displacing (s := s.withFlag _) full last lower]
    exact ⟨AlertRecord.mem_placedIn.2 (.inl rfl), fun x mem => AlertRecord.mem_placedIn.2 (.inr mem), length, rfl, rfl, rfl⟩
  case dropped =>
    rw [offers clear ⟨on, commissioned, dest⟩, alerts_offerRecord_of_dropped (s := s.withFlag _) full last notLower]
    exact ⟨rfl, rfl, rfl, rfl⟩
  case silent =>
    rintro ⟨on, commissioned, dest⟩
    rcases silent with off | uncommissioned | nowhere
    · exact absurd on (by simp [off])
    · exact absurd commissioned (by simp [uncommissioned])
    · exact dest nowhere
  case detail =>
    rw [flagOf_setFlag_of_set set]
    by_cases replaces : k.replacesDetail = true
    · rw [if_pos replaces, if_pos (k.replacesDetail_iff.1 replaces)]
    · rw [if_neg replaces, if_neg (mt k.replacesDetail_iff.2 replaces)]

end Sys2Proof.Machine
end

