-- ==== Sys2Proof/Proofs/AlertRequests.lean ====
section
/-!
ALERT_SET and ALERT_CLEAR (R193, R197): the configuration that is taken and the records that it lets stay; the flags that
the items name.
-/

namespace Sys2Proof.Machine

/-! ## The configuration -/

/-- A destination is given after it was taken exactly if it was given before. -/
theorem AlertDest.taken_eq_none {base : StationId} {d : AlertDest} : d.taken base = .none ↔ d = .none := by
  cases d with
  | none | code c => simp [AlertDest.taken]
  | id x | trunkId x =>
    simp only [AlertDest.taken]
    split <;> simp

theorem AlertDest.taken_id (base x : StationId) :
    (AlertDest.id x).taken base = if (x - base).toNat < 256 then .trunkId x else .id x :=
  if_congr (inTrunkRange_iff base x) rfl rfl

/-- Which records stay does not depend on how a destination is taken (R193). -/
theorem keepsRecord_taken (old c : AlertConfig) (base : StationId) :
    keepsRecord old { c with dest := c.dest.taken base } = keepsRecord old c := by
  funext r
  simp only [keepsRecord, ne_eq, AlertDest.taken_eq_none]
  rfl

theorem setAlerts_of_good {c : AlertConfig} {s : State} (good : destBad s c.dest = false) :
    setAlerts c s = done (applyAlertConfig { c with dest := c.dest.taken s.office.base } s) :=
  if_neg (by simp [good])

theorem applyAlertConfig_taken (c : AlertConfig) (base : StationId) (s : State) :
    applyAlertConfig { c with dest := c.dest.taken base } s =
      let kept := s.alerts.queue.filter (keepsRecord s.alerts.config c)
      { s with alerts := { s.alerts with config := { c with dest := c.dest.taken base }, queue := kept,
                                         displaced := bumpBy (s.alerts.queue.length - kept.length) s.alerts.displaced } } := by
  simp only [applyAlertConfig, keepsRecord_taken]

/-! ## The flags that items name -/

theorem clearNames_iff {item : AlertKind × Byte} {f : AlertFlag} :
    clearNames item f = true ↔ f.kind = item.1 ∧ (item.2 = 255#8 ∨ f.inst = item.2.toNat) := by
  simp [clearNames]

/-- The flags that stand after a clearing are those that no item names (R197). -/
theorem mem_flags_clearFlags {items : List (AlertKind × Byte)} {s : State} {f : AlertFlag} :
    f ∈ (clearFlags items s).alerts.flags ↔ f ∈ s.alerts.flags
      ∧ ∀ i ∈ items, ¬ (f.kind = i.1 ∧ (i.2 = 255#8 ∨ f.inst = i.2.toNat)) := by
  simp only [clearFlags, List.mem_filter, Bool.not_eq_true', List.any_eq_false, clearNames_iff]

theorem clearAlerts_of_good {items : List (AlertKind × Byte)} {s : State}
    (good : ∀ i ∈ items, i.2 = 255#8 ∨ i.1.hasInstance i.2.toNat = true) :
    clearAlerts items s = doneWith [.fixed (u8 (namedFlags items s).length)] (clearFlags items s) := by
  refine if_neg fun someBad => ?_
  obtain ⟨item, mem, bad⟩ := List.any_eq_true.1 someBad
  simp only [clearItemBad, Bool.and_eq_true, bne_iff_ne, Bool.not_eq_true'] at bad
  obtain ⟨single, outside⟩ := bad
  rcases good item mem with all | inside
  · exact single all
  · exact absurd inside (by simp [outside])

/-! ## The requests -/

section
variable {s : State} {e : InputEntry} {tag : BitVec 16} {params : List Byte} (allow : permitted e.route s = true)
include allow

/-- ALERT_SET in its form, with a destination that it takes, is answered DONE from the configuration applied. -/
theorem exec_alertSet {c : AlertConfig} (asks : Asks s e 22#8 tag params) (save : s.ctl.save = none)
    (parsed : parseAlertSet params = some c) (good : destBad s c.dest = false) :
    exec .alertSet s = .next (answered e 22#8 tag .done []
      (applyAlertConfig { c with dest := c.dest.taken s.office.base } (takeControl e s))) := by
  have answer := exec_of_effect asks allow (command := .alertSet) (mine := isOp 22) (held := alwaysHeld) rfl rfl parsed
    (.inr save) (setAlerts_of_good (s := takeControl e s) good)
  have still : settle s (applyAlertConfig { c with dest := c.dest.taken s.office.base } (takeControl e s)) = _ :=
    settle_eq_self rfl rfl fun _ => rfl
  exact answer.trans (congrArg (fun x => Host.Outcome.next (answered e 22#8 tag .done [] x)) still)

/-- ALERT_CLEAR with every item in range clears the flags named and is answered DONE with their number. -/
theorem exec_alertClear {items : List (AlertKind × Byte)} (asks : Asks s e 23#8 tag params)
    (parsed : parseAlertClear params = some items) (good : ∀ i ∈ items, i.2 = 255#8 ∨ i.1.hasInstance i.2.toNat = true) :
    exec .alertClear s = .next (answered e 23#8 tag .done [.fixed (u8 (namedFlags items s).length)]
      (clearFlags items (takeControl e s))) :=
  exec_of_share asks allow (command := .alertClear) (mine := isOp 23) (held := neverHeld) rfl rfl parsed (.inl rfl)
    (clearAlerts_of_good (s := takeControl e s) good) ⟨rfl, fun _ => rfl⟩

end

/-- Settles O43, request by request. -/
theorem alertsAreSetAndCleared : Obligations.AlertsAreSetAndCleared := by
  intro e tag params s allow
  refine ⟨fun c asks save parsed good => ?set, fun items asks parsed good => ?clear⟩
  case set =>
    refine ⟨?_, AlertDest.taken_eq_none.2, fun d code => ?_, fun x station => ?_⟩
    · rw [exec_alertSet allow asks save parsed good, applyAlertConfig_taken]
      rfl
    · rw [code]; rfl
    · rw [station, AlertDest.taken_id]
  case clear =>
    have sends := onlySends_answered e 23#8 tag .done [.fixed (u8 (namedFlags items s).length)]
      (clearFlags items (takeControl e s))
    refine ⟨_, exec_alertClear allow asks parsed good, fun f => ?_, ?_⟩
    · rw [sends.alerts]
      exact mem_flags_clearFlags
    · rw [sends.alerts]
      exact sends

end Sys2Proof.Machine
end

