-- ==== Sys2Proof/Proofs/HeldPart.lean ====
section
/-!
A part that is held in reset or without supply (R200, log entry 16): a command leaves at most its mark on a cable or a line,
and a state without marks does not show it.
-/

namespace Sys2Proof.Machine

/-! ## Marks do not show in the unmarked state -/

/-- A change of one element that `g` does not see is not seen in the table mapped by `g`. -/
theorem map_modAt_of_unseen {α β : Type} {n : Nat} {f : α → α} {g : α → β} (unseen : ∀ x, g (f x) = g x)
    (v : Vector α n) (i : Fin n) : (modAt v i f).map g = v.map g := by
  rw [modAt, Vector.map_set, unseen, ← Vector.getElem_map g, Vector.set_getElem_self]

/-- A segment channel without the mark of its cable. -/
def Segment.unmarked (g : Segment) : Segment := { g with carrier := false }

/-- A star port without the marks of its line. -/
def StarPort.unmarked (x : StarPort) : StarPort := { x with lineUp := false, lineBusy := false }

theorem State.unmarked_eq (s : State) : s.unmarked = { s with
    trunk := { s.trunk with segs := s.trunk.segs.map Segment.unmarked }, star := s.star.map StarPort.unmarked } := rfl

theorem unmarked_modSeg {f : Segment → Segment} (unseen : ∀ g, (f g).unmarked = g.unmarked) (t : SegNo) (s : State) :
    (s.modSeg t f).unmarked = s.unmarked := by
  simp only [State.unmarked_eq, State.modSeg, map_modAt_of_unseen unseen]

theorem unmarked_modStar {f : StarPort → StarPort} (unseen : ∀ x, (f x).unmarked = x.unmarked) (p : StarNo) (s : State) :
    (s.modStar p f).unmarked = s.unmarked := by
  simp only [State.unmarked_eq, State.modStar, map_modAt_of_unseen unseen]

theorem unmarked_setCarrier (t : SegNo) (v : Bool) (s : State) : (setCarrier t v s).unmarked = s.unmarked :=
  unmarked_modSeg (f := fun g => { g with carrier := v }) (fun _ => rfl) t s

theorem unmarked_carrierFalls (t : SegNo) (phase : LinePhase) (s : State) :
    (carrierFalls t phase s).unmarked = s.unmarked := by
  unfold carrierFalls
  split
  · exact unmarked_setCarrier t false s
  · rfl

theorem unmarked_setLineUp (p : StarNo) (v : Bool) (s : State) : (setLineUp p v s).unmarked = s.unmarked :=
  unmarked_modStar (f := fun x => { x with lineUp := v, lineBusy := v && x.lineBusy }) (fun _ => rfl) p s

theorem unmarked_setLineBusy (p : StarNo) (v : Bool) (s : State) : (setLineBusy p v s).unmarked = s.unmarked :=
  unmarked_modStar (f := fun x => { x with lineBusy := v }) (fun _ => rfl) p s

/-! ## What a command marks -/

/-- The mark that a command leaves on the cable of a segment or the line of a star port even while the part does not run
(log entries 16 and 18). -/
def outsideMark (c : Instr) (s : State) : State :=
  match c with
  | .burstRise t _ => setCarrier t true s
  | .burstFall t _ _ _ => carrierFalls t .burst s
  | .continuationFall t _ => carrierFalls t .continuation s
  | .closingCarrierFall t _ => carrierFalls t .closing s
  | .linkUp p => setLineUp p true s
  | .linkDown p => setLineUp p false s
  | .frameStart p => setLineBusy p true s
  | .frameEnd p _ => setLineBusy p false s
  | _ => s

theorem unmarked_outsideMark (c : Instr) (s : State) : (outsideMark c s).unmarked = s.unmarked := by
  cases c with
  | burstRise t => exact unmarked_setCarrier t true s
  | burstFall t => exact unmarked_carrierFalls t .burst s
  | continuationFall t => exact unmarked_carrierFalls t .continuation s
  | closingCarrierFall t => exact unmarked_carrierFalls t .closing s
  | linkUp p => exact unmarked_setLineUp p true s
  | linkDown p => exact unmarked_setLineUp p false s
  | frameStart p => exact unmarked_setLineBusy p true s
  | frameEnd p => exact unmarked_setLineBusy p false s
  | _ => rfl

/-- A part that does not run takes no command but those of the supply and the panel line: the command's mark is all that
comes of it. -/
theorem exec_of_stopped {c : Instr} {s : State} (stopped : s.isRunning = false) (notPowerOn : c ≠ .powerOn)
    (notAsserted : c ≠ .panelResetAsserted) (notRestart : c ≠ .panelRestart) (notLoss : ∀ b, c ≠ .supplyLoss b) :
    exec c s = .next (outsideMark c s) := by
  unfold exec outsideMark
  cases c with
  | powerOn => exact absurd rfl notPowerOn
  | panelResetAsserted => exact absurd rfl notAsserted
  | panelRestart => exact absurd rfl notRestart
  | supplyLoss b => exact absurd rfl (notLoss b)
  | burstRise => simp [execBurstRise, stopped]
  | burstFall | frameEnd => exact bridgingEvent_of_stopped stopped
  | continuationFall | closingCarrierFall | linkUp | linkDown | frameStart => exact lineEvent_of_stopped stopped
  | headerEvent | jabberCut | longQuiet | terminatorEdge | transmitClaim | transmitCompletion | sendStart | sendCompletion
  | fold | presenceQuery | aging | becomesAbsent | quarantineEnd | idleExpiry | formHoldReached | alertSend
  | printOpen | printData | printClose | printCancel | printStatus | printMalformed
  | saveCompletion | oneSecondTick | oneMillisecondTick => exact event_of_stopped stopped
  | statusRead | segmentRead | portRead | countersRead | directoryRead | directoryFind | queueRead | accountRead
  | entryFix | entryRelease | entrySuspend | entryResume | clearLearned
  | segmentSet | segmentForceIsolate | segmentForceReadmit | segmentForceExemptOn | segmentForceExemptOff
  | segmentForceClear | portEnable | printerSet | formLoaded | queuePurge | ticketCancel | accountSnapshot
  | alertSet | alertClear | officePlan | trunkPlan | save | restartKeep | restartFactory | clearCauses
  | unknownOperation => exact requestEvent_of_stopped stopped

/-- Settles O2: all that a command does to a part that does not run is its mark outside. -/
theorem heldPartTakesNothing : Obligations.HeldPartTakesNothing :=
  fun c s stopped notPowerOn notAsserted notRestart notLoss =>
    ⟨outsideMark c s, exec_of_stopped stopped notPowerOn notAsserted notRestart notLoss, unmarked_outsideMark c s⟩

end Sys2Proof.Machine
end

