-- ==== Sys2Proof/Proofs/FrontCommand.lean ====
section
/-!
What a step does with the model's queue of commands (log entry 11): the front command is taken off and executed.
-/

namespace Sys2Proof.Machine

@[simp] theorem State.withPending_pending (s : State) (q : List Instr) : (s.withPending q).pending = q := rfl

/-- Only the last queue put in place is seen. -/
@[simp] theorem State.withPending_withPending (s : State) (q r : List Instr) :
    (s.withPending q).withPending r = s.withPending r := rfl

theorem step_of_pending_cons {s : State} {c : Instr} {q : List Instr} (front : s.pending = c :: q) :
    step s = exec c (s.withPending q) := by
  simp only [step, front]

/-- Settles O1: the queue put in place has the command at its front, and its rest replaces it. -/
theorem stepRunsTheFrontCommand : Obligations.StepRunsTheFrontCommand := by
  intro c q s
  calc step (s.withPending (c :: q))
      = exec c ((s.withPending (c :: q)).withPending q) := step_of_pending_cons (s.withPending_pending (c :: q))
    _ = exec c (s.withPending q) := by rw [State.withPending_withPending]

end Sys2Proof.Machine
end
